-- ==== Sys2Proof/Word.lean ====
section
/-! DEFINITION. The words of the Ostrel 2604: data words, word addresses, byte masks, stream and row numbers. -/

namespace Sys2Proof

/-- A word of the upstream and downstream ports: 32 bits, four byte lanes (00_scope, Conventions). -/
abbrev Word := BitVec 32

/-- A word address: 25 bits, 0 to 33,554,431 (00_scope, Conventions). -/
abbrev Addr := BitVec 25

/-- A byte mask: lane n on bit n (00_scope, Conventions). -/
abbrev Mask := BitVec 4

/-- A stream number, 0 to 3 (R1). -/
abbrev StreamId := Fin 4

/-- A group row number, 0 to 7 (R4). -/
abbrev RowId := Fin 8

/-- A hold-up level, 0 to 31 (R119). -/
abbrev Level := BitVec 5

/-- An access number of the downstream port, 0 to 255 (R103). -/
abbrev AccessNumber := BitVec 8

end Sys2Proof
end

