-- ==== Sys2Proof/Syntax.lean ====
section
/-! DEFINITION. The commands of the block: one constructor per row of spec/opcode_table.json, with its operands. -/

namespace Sys2Proof

/-- The level of the strap pins when a command samples them: MSZ[2:0], BAS[1:0], PROV (R140). -/
structure Straps where
  msz  : BitVec 3
  bas  : BitVec 2
  prov : Bool
  deriving DecidableEq, Repr

/-- The two-bit group marking of an upstream request (R84, R174). -/
inductive Attr where
  | none | group | close | abort
  deriving DecidableEq, Repr

/-- The commands. `together` of an upstream request says that the next command of the queue is taken at the same
moment, so that what both begin waiting shares a place in the arbiter's order (R111, assumption 8). `pins` is what
the strap pins read if the command samples them (assumption 9). `number` is the access number of a memory answer
and `data` the word it carries (R103). -/
inductive Instr where
  -- upstream requests (R84)
  | groupWrite (stream : StreamId) (addr : Addr) (mask : Mask) (data : Word) (together : Bool)
  | closeWrite (stream : StreamId) (addr : Addr) (mask : Mask) (data : Word) (together : Bool)
  | abortWrite (stream : StreamId) (addr : Addr) (mask : Mask) (data : Word) (together : Bool)
  | plainWrite (stream : StreamId) (addr : Addr) (mask : Mask) (data : Word) (together : Bool)
  | plainRead (stream : StreamId) (attr : Attr) (addr : Addr) (mask : Mask) (data : Word) (together : Bool)
  -- moments of the timers
  | idleTimerExpiry (stream : StreamId)
  | stallTimerExpiry (stream : StreamId)
  | memoryTimeout
  | quietPeriodEnd
  | idleSampleInterval
  | sampleComplete (level : Level) (pins : Straps)
  | statusRetryWait
  -- reset conditions
  | powerOn (rising : Bool)
  | powerOnDelayEnd (pins : Straps)
  | resetLineAssert
  | resetLineRelease (pins : Straps)
  | ack
  -- answers of the downstream memory
  | journalWriteComplete (number : AccessNumber)
  | sealComplete (number : AccessNumber)
  | applyWriteComplete (number : AccessNumber)
  | retireWriteComplete (number : AccessNumber)
  | statusWordComplete (number : AccessNumber)
  | loaderReadComplete (number : AccessNumber) (data : Word)
  | scanReadComplete (number : AccessNumber) (data : Word)
  | replayReadComplete (number : AccessNumber) (data : Word)
  | replayWriteComplete (number : AccessNumber)
  | recoveryRetireComplete (number : AccessNumber)
  | forwardedAccessComplete (number : AccessNumber) (data : Word)
  | memoryErrorAnswer (number : AccessNumber)
  | staleAnswer (number : AccessNumber) (error : Bool) (data : Word)
  deriving DecidableEq, Repr

end Sys2Proof
end

