-- ==== Sys2Proof/Decode.lean ====
section
/-! DEFINITION. Reading a command from a word by the opcode table's bits. -/

namespace Sys2Proof

/-- No row of spec/opcode_table.json gives bits ("fields" is empty in all thirty), so no word spells a command
(assumption 27). -/
def decodeTableWord (_nbits _w : Nat) : Option Instr := none

end Sys2Proof
end

