-- ==== Sys2Proof/Config.lean ====
section
/-! DEFINITION. The free values of the model: what the spec leaves undefined while the part goes on. -/

namespace Sys2Proof.Config

/-- The undefined bytes of a staged entry in the lanes outside its mask (R24: "bytes in lanes outside the mask
are undefined"), for the n-th entry made. They reach the data word and the seal of a journal record (R170).
No body: no proof can know a value of it (assumption 5). -/
opaque undefinedLanes : Nat → Word

end Sys2Proof.Config
end

