-- ==== Sys2Proof/Machine/Types.lean ====
section
/-! DEFINITION. The kinds of state each block of the 2604 holds, under the spec's names. -/

namespace Sys2Proof.Machine

/-! ## Upstream port and group controller -/

/-- Group state of a stream (R1, R2). -/
inductive GroupState where
  | idle | opened | closing | notify
  deriving DecidableEq, Repr

/-- Notify cause of a stream in NOTIFY (R1). -/
inductive Cause where
  | conflict | overflow | busy | region | hold | idle | halted
  deriving DecidableEq, Repr

/-- The thirteen response codes (R85). -/
inductive Code where
  | done | durable | region | conflict | overflow | aborted | hold | holdup | busy | media | protocol | halted | fault
  deriving DecidableEq, Repr

/-- Kind of an addressed word (R91). -/
inductive WordKind where
  | guarded | pass | bridge | absent | outOfRange
  deriving DecidableEq, Repr

/-- A captured layer of a guarded read: an entry's mask and data (R37). -/
structure Layer where
  mask : Mask
  data : Word
  deriving DecidableEq, Repr

/-- A request that the port has taken and not yet answered (R84, R87). `captured` holds a guarded read's layers,
newest first (R37); it is empty for every other request. -/
structure Request where
  write    : Bool
  attr     : Attr
  addr     : Addr
  mask     : Mask
  data     : Word
  captured : List Layer
  deriving DecidableEq, Repr

/-- A stream record (R1) with the stream's stall timer (R99). The timers are held in time-base microseconds: the
idle timer counts down from its timeout, the stall timer up to the stall limit. -/
structure StreamRec where
  group       : GroupState
  openRow     : Option RowId
  notify      : Option Cause
  idleTimer   : Option Nat
  outstanding : Option Request
  stallTimer  : Option Nat
  deriving DecidableEq, Repr

/-- A response of the upstream port (R85). -/
structure Response where
  stream : StreamId
  code   : Code
  data   : Word
  deriving DecidableEq, Repr

/-! ## Group rows and staging store -/

/-- State of a group row (R4, R5). -/
inductive RowState where
  | free | opened | closed | journaling | sealed | applying | retiring
  deriving DecidableEq, Repr

/-- A staged entry (R24); its owning row is the row whose list holds it. -/
structure Entry where
  addr : Addr
  mask : Mask
  data : Word
  deriving DecidableEq, Repr

/-- A group row (R4). Its entry count and cost are computed from the entry list. -/
structure Row where
  owner   : Option StreamId
  state   : RowState
  entries : List Entry
  seq     : Option Word
  slot    : Option Nat
  deriving DecidableEq, Repr

/-! ## Commit engine -/

/-- Engine state (R48). -/
inductive EngineState where
  | running | halted
  deriving DecidableEq, Repr

/-- The current row of the journal writer or the applier, with its progress (R49, R53, R58). -/
structure Work where
  row      : RowId
  progress : Nat
  deriving DecidableEq, Repr

/-- Commit queue, journal writer and applier (R46, R48, R49, R58). `nextSeq` is 0 when exhausted (R51). -/
structure Engine where
  state    : EngineState
  queue    : List RowId
  jw       : Option Work
  ringHead : Nat
  badSlots : List Nat
  nextSeq  : Word
  ap       : Option Work
  deriving DecidableEq, Repr

/-! ## Recovery pass -/

/-- An item of the sealed-unretired list (R72). `bad` says that an entry failed the check of R77. -/
structure Item where
  slot  : Nat
  seq   : Word
  count : Nat
  bad   : Bool
  deriving DecidableEq, Repr

/-- The three actions of the recovery pass (R76). -/
inductive ActionKind where
  | replay | discard | retireOnly
  deriving DecidableEq, Repr

/-- An action of the action list (R76). -/
structure Action where
  kind : ActionKind
  item : Item
  deriving DecidableEq, Repr

/-- State of the recovery pass (R72), with the slot of the highest sequence seen, which R81 asks for, and the
progress of the current replay action (R78): the entry's index and its address-and-mask word once read again. -/
structure Recovery where
  scanSlot       : Nat
  scanWords      : List Word
  highestSeen    : Option Word
  highestSlot    : Nat
  highestRetired : Option Word
  unretired      : List Item
  actions        : List Action
  replayEntry    : Nat
  replayAddr     : Option Word
  replayed       : Nat
  discarded      : Nat
  deriving DecidableEq, Repr

/-! ## Memory port and arbiter -/

/-- What a downstream access is for: its requester (R107) and the event its completion is. -/
inductive Purpose where
  | forwarded (stream : StreamId)
  | journal | sealWrite | apply | retire | status
  | loader | scan | replayRead | replayWrite | recoveryRetire
  deriving DecidableEq, Repr

/-- A downstream access (R103), less its number. -/
structure Access where
  write : Bool
  addr  : Addr
  mask  : Mask
  data  : Word
  deriving DecidableEq, Repr

/-- The access in flight (R104), with the time left on the memory timeout. -/
structure InFlight where
  purpose : Purpose
  access  : Access
  attempt : Nat
  number  : AccessNumber
  timeout : Nat
  deriving DecidableEq, Repr

/-- A request of F, JW or AP waiting at the arbiter, with its place in the order of waiting (R111). -/
structure Waiting where
  purpose : Purpose
  access  : Access
  attempt : Nat
  place   : Nat
  deriving DecidableEq, Repr

/-- The access of the loader or the recovery pass that is to be presented next (R117). -/
structure Solo where
  purpose : Purpose
  access  : Access
  attempt : Nat
  deriving DecidableEq, Repr

/-- The classes of the alternation (R113). -/
inductive GrantClass where
  | f | jw | ap
  deriving DecidableEq, Repr

/-- Memory port and arbiter (R104, R106, R111 to R117). `port` is none in IDLE; `quiet` is the time left of the
quiet period; `moment` numbers the places in the order of waiting (assumption 8). -/
structure Bus where
  port       : Option InFlight
  nextNumber : AccessNumber
  quiet      : Option Nat
  waiting    : List Waiting
  solo       : Option Solo
  lastClass  : GrantClass
  lastStream : StreamId
  moment     : Nat
  deriving DecidableEq, Repr

/-! ## Hold-up monitor -/

/-- Monitor state (R120). -/
inductive MonState where
  | below | normal | warn | cut
  deriving DecidableEq, Repr

/-- The converter: a sample in progress with the time left of it, or the wait for the next PERIODIC sample
(R119, R121). `timedOn` is a sample in progress that the divider has changed under: it completes on the base it began
on, of the given divider, whose phase it carries (R119, R149, assumption 36). -/
inductive Sampler where
  | converting (remaining : Nat)
  | resting (remaining : Nat)
  | timedOn (remaining divider phase : Nat)
  deriving DecidableEq, Repr

/-- What the monitor last published (R131). -/
structure Publication where
  state  : MonState
  band   : Option (Fin 8)
  budget : Nat
  deriving DecidableEq, Repr

/-- Hold-up monitor (R120); its parameters and budget table stand with the configured items. -/
structure Monitor where
  state      : MonState
  level      : Option Level
  releaseRun : Nat
  cutRun     : Nat
  sampler    : Sampler
  published  : Publication
  deriving DecidableEq, Repr

/-! ## Configured items -/

/-- Region kinds (R90). -/
inductive RegionKind where
  | guarded | pass | absent
  deriving DecidableEq, Repr

/-- A region entry (R90). -/
structure Region where
  used  : Bool
  base  : Addr
  limit : Addr
  kind  : RegionKind
  deriving DecidableEq, Repr

/-- The monitor parameters (R129); the interval is in milliseconds. -/
structure MonParams where
  warnLevel    : Nat
  cutLevel     : Nat
  releaseLevel : Nat
  cutCount     : Nat
  margin       : Nat
  interval     : Nat
  deriving DecidableEq, Repr

/-- The configured items (R135, R144): stall limit in microseconds, idle timeouts in milliseconds. -/
structure Settings where
  divider      : Nat
  stallLimit   : Nat
  idleTimeouts : Vector Nat 4
  regions      : Vector Region 8
  defaultKind  : RegionKind
  params       : MonParams
  budgets      : Vector Nat 8
  classes      : Vector (Fin 4) 18
  deriving DecidableEq, Repr

/-! ## Start-up controller -/

/-- Operating state (R135). -/
inductive OpState where
  | reset | wait | load | recover | run | safe | provision | fault
  deriving DecidableEq, Repr

/-- Reset kinds and causes (R137, R139). -/
inductive ResetCause where
  | powerOn | line | cut
  deriving DecidableEq, Repr

/-- Configuration validity (R166). -/
inductive Validity where
  | notRead | valid | invalid
  deriving DecidableEq, Repr

/-- CONFIG_BAD reasons (R141, R145, R146). -/
inductive Reason where
  | strap | media | mark | sum | range | order | overlap | bridge | monitor
  deriving DecidableEq, Repr

/-- Start-up controller (R135 to R151). `pendingCause` is the cause formed from the resets taken since the previous
exit from RESET, `resetCause` the cause fixed at the exit (R139). `powerOn` and `line` are the reset conditions that
hold (R137). -/
structure StartUp where
  opState      : OpState
  resetCause   : Option ResetCause
  pendingCause : Option ResetCause
  straps       : Option Straps
  strapError   : Bool
  image        : List Word
  validity     : Validity
  powerOn      : Bool
  supplyUp     : Bool
  powerOnDelay : Option Nat
  line         : Bool
  deriving DecidableEq, Repr

/-- Time base (R149, R153): CLK periods into the current unit, microseconds into the current millisecond,
milliseconds since the exit from RESET. -/
structure TimeBase where
  phase  : Nat
  micros : Nat
  millis : Word
  deriving DecidableEq, Repr

/-! ## Event unit and status writer -/

/-- The eighteen event kinds (section 9.1). -/
inductive EventKind where
  | start | configBad | recovered | replayDiscard | slotBad | applyFail | retireFail | seqExhausted
  | warnEnter | warnLeave | holdupRefused | conflict | overflow | idleAbort | stall | region | protocol | media
  deriving DecidableEq, Repr

/-- The fields a kind's record carries besides those always present (R153). -/
structure EventFields where
  stream : Option StreamId := none
  addr   : Option Addr := none
  seq    : Option Word := none
  slot   : Option Nat := none
  detail : Option Word := none
  deriving DecidableEq, Repr

/-- An event record (R153). -/
structure Record where
  kind    : EventKind
  cls     : Fin 4
  fields  : EventFields
  repeats : Nat
  stamp   : Word
  deriving DecidableEq, Repr

/-- Presentation state (R159). -/
inductive PresState where
  | none | updating | shown | clearing
  deriving DecidableEq, Repr

/-- Jobs of the status writer (R165). -/
inductive JobKind where
  | update | clear | summary
  deriving DecidableEq, Repr

/-- The job in progress (R165): its words, and the index of the word being written. A summary job has no words
until its snapshot, taken when its first word is granted. -/
structure Job where
  kind  : JobKind
  words : List Word
  index : Nat
  deriving DecidableEq, Repr

/-- Event unit and status writer (R153 to R167). `waiting` is the waiting records in the order of R155; `given` is an
update or clear job given by the presentation state and not begun; `sReq` is the attempt number of the status writer's
request waiting at the arbiter, and `sCount` its grant count (R115). -/
structure EventUnit where
  counters       : Vector Nat 18
  waiting        : List Record
  presented      : Option Record
  lost           : Word
  stray          : Word
  pres           : PresState
  presNumber     : Word
  job            : Option Job
  given          : Option JobKind
  summaryPending : Bool
  statusFailure  : Bool
  retryWait      : Option Nat
  sReq           : Option Nat
  sCount         : Nat
  deriving DecidableEq, Repr

end Sys2Proof.Machine
end

