-- ==== Sys2Proof/Machine/Defaults.lean ====
section
/-! DEFINITION. Fixed numbers of the device and the values each configured item holds before a configuration is
taken. -/

namespace Sys2Proof.Machine

/-! ## Fixed numbers -/

/-- A millisecond in time-base microseconds. -/
def microsPerMilli : Nat := 1000

/-- A sample completes 16 time-base microseconds after its start (R119). -/
def sampleTime : Nat := 16

/-- The memory timeout, 250 time-base microseconds (R105). -/
def memoryTimeoutTime : Nat := 250

/-- The quiet period, 250 time-base microseconds (R106). -/
def quietTime : Nat := 250

/-- The wait after a status word's fourth failed attempt, 10 ms (R167). -/
def statusRetryTime : Nat := 10 * microsPerMilli

/-- The power-on delay, 2 ms (R137). -/
def powerOnTime : Nat := 2 * microsPerMilli

/-- Entries of the staging store (R24). -/
def storeSize : Nat := 256

/-- Entries of a row at most (R4). -/
def maxRowEntries : Nat := 62

/-- Slots of the bad-slot list at most (R56). -/
def maxBadSlots : Nat := 8

/-- Attempts of a retrying requester's access (R107). -/
def maxAttempts : Nat := 4

/-- Records of the event queue at most (R155). -/
def maxRecords : Nat := 16

/-- Grants to others after which the status writer is granted (R115). -/
def maxStatusCount : Nat := 8

/-- Words of the configuration block (R144). -/
def configWords : Nat := 256

/-- Words of a journal slot (R67). -/
def slotWords : Nat := 128

/-- The word of a slot that holds its retire mark (R68). -/
def retireWord : Nat := 127

/-! ## Event kinds -/

/-- The place of a kind in the tables of section 9.1 and 10.1: its code less 1. -/
def EventKind.index : EventKind → Fin 18
  | .start => 0
  | .configBad => 1
  | .recovered => 2
  | .replayDiscard => 3
  | .slotBad => 4
  | .applyFail => 5
  | .retireFail => 6
  | .seqExhausted => 7
  | .warnEnter => 8
  | .warnLeave => 9
  | .holdupRefused => 10
  | .conflict => 11
  | .overflow => 12
  | .idleAbort => 13
  | .stall => 14
  | .region => 15
  | .protocol => 16
  | .media => 17

/-- The default classes of section 9.1, in the order of the kinds. -/
def defaultClasses : Vector (Fin 4) 18 :=
  #v[1, 3, 1, 2, 2, 3, 3, 3, 2, 1, 2, 1, 2, 1, 2, 1, 2, 2]

/-! ## Configured items -/

/-- A region entry that is not used (R90). Its other fields, which no rule gives, hold 0, 0 and PASS (assumption 35). -/
def Region.unused : Region := { used := false, base := 0, limit := 0, kind := .pass }

/-- The monitor parameters before a configuration is taken (R129). -/
def MonParams.default : MonParams :=
  { warnLevel := 12, cutLevel := 6, releaseLevel := 16, cutCount := 4, margin := 2, interval := 8 }

/-- The configured items before a configuration is taken (R135, R144). -/
def Settings.default : Settings :=
  { divider := 40
    stallLimit := 2000
    idleTimeouts := #v[0, 0, 0, 0]
    regions := Vector.replicate 8 Region.unused
    defaultKind := .pass
    params := MonParams.default
    budgets := Vector.replicate 8 0
    classes := defaultClasses }

/-! ## Blocks after a reset -/

/-- A stream record after every reset kind (R1, R99). -/
def StreamRec.reset : StreamRec :=
  { group := .idle, openRow := none, notify := none, idleTimer := none, outstanding := none, stallTimer := none }

/-- A FREE row: no owner, no entries, none of the optional fields (R4). -/
def Row.free : Row := { owner := none, state := .free, entries := [], seq := none, slot := none }

/-- The commit engine after every reset kind (R46, R48, R49). -/
def Engine.reset : Engine :=
  { state := .running, queue := [], jw := none, ringHead := 0, badSlots := [], nextSeq := 1, ap := none }

/-- The memory port and arbiter after every reset kind (R106). -/
def Bus.reset : Bus :=
  { port := none, nextNumber := 0, quiet := none, waiting := [], solo := none, lastClass := .ap, lastStream := 3
    moment := 0 }

/-- The monitor after power-on or the RESET line (R120), with a sample just started (assumption 10). -/
def Monitor.reset : Monitor :=
  { state := .below, level := none, releaseRun := 0, cutRun := 0, sampler := .converting sampleTime
    published := { state := .below, band := none, budget := 0 } }

/-- The start-up controller right after a power-on reset taken as the supply rose (R137, R138, assumption 10). -/
def StartUp.reset : StartUp :=
  { opState := .reset, resetCause := none, pendingCause := some .powerOn, straps := none, strapError := false
    image := [], validity := .notRead, powerOn := true, supplyUp := true, powerOnDelay := some powerOnTime
    line := false }

/-- The event unit after every reset kind (R155). -/
def EventUnit.reset : EventUnit :=
  { counters := Vector.replicate 18 0, waiting := [], presented := none, lost := 0, stray := 0, pres := .none
    presNumber := 0, job := none, given := none, summaryPending := false, statusFailure := false, retryWait := none
    sReq := none, sCount := 0 }

end Sys2Proof.Machine
end

