-- ==== Sys2Proof/Machine/State.lean ====
section
/-! DEFINITION. The state of the Ostrel 2604, plain data, and the state right after reset. -/

namespace Sys2Proof.Machine

/-- The faults of the model. There is no constructor: no rule of the spec stops the part (INVENTORY, Faults).
Failures are answered, retried, reported by events, or lead to HALTED or FAULT, which are states. -/
inductive Fault where
  deriving DecidableEq, Repr

/-- The refusals of the model. -/
inductive Refusal where
  /-- Raised by a refused arm of exec for a command that has no meaning yet. Safe: the model stops where the part goes
  on. No arm raises it. -/
  | notModelled (mnemonic : String)
  deriving DecidableEq, Repr

/-- The state of the block. `pending` is the queue of commands; `responses` the responses given so far, oldest first
(assumption 7); `freeIndex` counts the free values used (assumption 5). -/
structure State where
  pending   : List Instr
  responses : List Response
  streams   : Vector StreamRec 4
  rows      : Vector Row 8
  rowWait   : List StreamId
  entryWait : List StreamId
  eng       : Engine
  recovery  : Option Recovery
  bus       : Bus
  mon       : Monitor
  cfg       : Settings
  su        : StartUp
  clk       : TimeBase
  ev        : EventUnit
  freeIndex : Nat
  deriving DecidableEq, Repr

/-- The state right after reset: a power-on reset has just been taken as the supply rose (R137, R138; the pins and the
converter: assumption 10). -/
def State.reset : State :=
  { pending := []
    responses := []
    streams := Vector.replicate 4 StreamRec.reset
    rows := Vector.replicate 8 Row.free
    rowWait := []
    entryWait := []
    eng := Engine.reset
    recovery := none
    bus := Bus.reset
    mon := Monitor.reset
    cfg := Settings.default
    su := StartUp.reset
    clk := { phase := 0, micros := 0, millis := 0 }
    ev := EventUnit.reset
    freeIndex := 0 }

end Sys2Proof.Machine
end

