-- ==== Sys2Proof/Machine/Operands.lean ====
section
/-! DEFINITION. What a command's operands name: byte lanes, the strapped geometry, the kind of a word, rows and
entries. -/

namespace Sys2Proof.Machine

/-! ## Byte lanes (10_layouts: lane n holds bits 8n+7 to 8n) -/

/-- The byte of lane n. -/
def laneByte (w : Word) (n : Nat) : BitVec 8 := w.extractLsb' (8 * n) 8

/-- A word from its four lanes, lane 3 first. -/
def ofLanes (b3 b2 b1 b0 : BitVec 8) : Word := b3 ++ b2 ++ b1 ++ b0

/-- Lane n of `new` where the mask holds the lane, otherwise of `old`. -/
def pickLane (m : Mask) (new old : Word) (n : Nat) : BitVec 8 :=
  if m.getLsbD n then laneByte new n else laneByte old n

/-- `old` with the lanes of the mask replaced by those of `new` (R27). -/
def mergeMask (m : Mask) (new old : Word) : Word :=
  ofLanes (pickLane m new old 3) (pickLane m new old 2) (pickLane m new old 1) (pickLane m new old 0)

/-- Lane n of a guarded read's answer: the first layer that holds the lane, otherwise memory (R39). -/
def layerLane (layers : List Layer) (memory : Word) (n : Nat) : BitVec 8 :=
  match layers.find? (fun l => l.mask.getLsbD n) with
  | some l => laneByte l.data n
  | none => laneByte memory n

/-- The answer of a guarded read, built lane by lane (R39, R40). -/
def mergeLayers (layers : List Layer) (memory : Word) : Word :=
  ofLanes (layerLane layers memory 3) (layerLane layers memory 2) (layerLane layers memory 1)
    (layerLane layers memory 0)

/-- All four lanes are supplied by the layers (R39). -/
def allSatisfied (layers : List Layer) : Bool :=
  [0, 1, 2, 3].all fun n => layers.any fun l => l.mask.getLsbD n

/-! ## Geometry from the straps (R67, R140) -/

/-- Memory size in words (R140). -/
def memWordsOf (p : Straps) : Nat := 262144 * 2 ^ p.msz.toNat

/-- Bridge area size in words (R140). -/
def bridgeWordsOf (p : Straps) : Nat := 4096 * 2 ^ p.bas.toNat

/-- Bridge base: memory size less bridge area size (R67). -/
def bridgeBaseOf (p : Straps) : Nat := memWordsOf p - bridgeWordsOf p

/-- Number of slots N: 28, 60, 124 or 252 (R67). -/
def slotCountOf (p : Straps) : Nat := (bridgeWordsOf p - 512) / slotWords

/-- The first sample's values stand for the whole run (R140, R141); while no straps are held there is no memory. -/
def State.memWords (s : State) : Nat := (s.su.straps.map memWordsOf).getD 0

/-- The bridge base of the run (R140). -/
def State.bridgeBase (s : State) : Nat := (s.su.straps.map bridgeBaseOf).getD 0

/-- The slot count of the run (R140). -/
def State.slotCount (s : State) : Nat := (s.su.straps.map slotCountOf).getD 0

/-- The address of word w of slot k (R67). -/
def State.slotAddr (s : State) (k w : Nat) : Addr := BitVec.ofNat 25 (s.bridgeBase + 512 + slotWords * k + w)

/-- The address of word w of the configuration block (R144). -/
def State.configAddr (s : State) (w : Nat) : Addr := BitVec.ofNat 25 (s.bridgeBase + w)

/-- The address of word w of the status block (R67). -/
def State.statusAddr (s : State) (w : Nat) : Addr := BitVec.ofNat 25 (s.bridgeBase + 256 + w)

/-- The slot after slot k, wrapping from N−1 to 0 (R50, R81). -/
def State.slotAfter (s : State) (k : Nat) : Nat := if k + 1 < s.slotCount then k + 1 else 0

/-! ## Kind of a word (R91, R92) -/

/-- The kind a region kind gives its words (R90). -/
def RegionKind.wordKind : RegionKind → WordKind
  | .guarded => .guarded
  | .pass => .pass
  | .absent => .absent

/-- Tests 3 and 4 of R91. -/
def Settings.regionKind (c : Settings) (a : Addr) : WordKind :=
  match c.regions.toList.find? fun r => r.used && r.base ≤ a && a ≤ r.limit with
  | some r => r.kind.wordKind
  | none => c.defaultKind.wordKind

/-- The kind of word address a: R91 in RUN, R92 in SAFE, PROVISION and FAULT. FAULT on a strap error has no bridge
area. The states in which the port is not ready look no kind up. -/
def State.wordKind (s : State) (a : Addr) : WordKind :=
  if s.memWords ≤ a.toNat then .outOfRange
  else if s.bridgeBase ≤ a.toNat && !s.su.strapError then .bridge
  else if s.su.opState = .run then s.cfg.regionKind a
  else .pass

/-! ## Rows, entries and slots -/

/-- Every row, lowest first. -/
def allRows : List RowId := [0, 1, 2, 3, 4, 5, 6, 7]

/-- Every stream, lowest first. -/
def allStreams : List StreamId := [0, 1, 2, 3]

/-- Cost of a row: twice the entry count plus 3 (R4). -/
def Row.cost (r : Row) : Nat := 2 * r.entries.length + 3

/-- The row's entry for word a (R4: at most one). -/
def Row.find (r : Row) (a : Addr) : Option Entry := r.entries.find? fun e => e.addr == a

/-- Entries in use (R24). -/
def State.usedEntries (s : State) : Nat := (s.rows.toList.map fun r => r.entries.length).sum

/-- Count of free entries (R24). -/
def State.freeEntries (s : State) : Nat := storeSize - s.usedEntries

/-- An OPEN row of a stream other than st holds an entry for word a (R34). -/
def State.conflicts (s : State) (st : StreamId) (a : Addr) : Bool :=
  s.rows.toList.any fun r => r.state == .opened && r.owner != some st && r.entries.any fun e => e.addr == a

/-- The lowest-numbered FREE row (R4). -/
def State.lowestFree (s : State) : Option RowId := allRows.find? fun r => s.rows[r].state == .free

/-- Journal writes still owed by a row of the commit queue (R20). -/
def State.owed (s : State) (r : RowId) : Nat :=
  match s.rows[r].state with
  | .closed => s.rows[r].cost
  | .journaling => s.rows[r].cost - (match s.eng.jw with | some w => w.progress | none => 0)
  | _ => 0

/-- The reservation (R20, R47). -/
def State.reservation (s : State) : Nat := (s.eng.queue.map s.owed).sum

/-- Slots in use: those of the rows that hold one (R50). -/
def State.slotsInUse (s : State) : List Nat := s.rows.toList.filterMap fun r => r.slot

/-- The layer set of a guarded read of word a by stream st, newest first (R37): the entry of the stream's OPEN row,
then those of the rows of the commit queue, newest close first. -/
def State.layersFor (s : State) (st : StreamId) (a : Addr) : List Layer :=
  let own : List Row :=
    match s.streams[st].group, s.streams[st].openRow with
    | .opened, some r => [s.rows[r]]
    | _, _ => []
  let queued : List Row := s.eng.queue.reverse.map fun r => s.rows[r]
  (own ++ queued).filterMap fun r => (r.find a).map fun e => { mask := e.mask, data := e.data }

/-! ## Levels and bands (R119) -/

/-- The band of a level: the level divided by 4 and rounded down. -/
def bandOf (l : Level) : Fin 8 := ⟨l.toNat / 4, by have := l.isLt; omega⟩

/-- The published budget: that of the current band, 0 while the last level is none (R130). -/
def budgetOf (c : Settings) (band : Option (Fin 8)) : Nat :=
  match band with
  | some b => c.budgets[b]
  | none => 0

end Sys2Proof.Machine
end

