-- ==== Sys2Proof/Machine/Flags.lean ====
section
/-! DEFINITION. The lines and indications computed from the state: ready, ATTN, FLT, the sampling mode. -/

namespace Sys2Proof.Machine

/-- RUN, SAFE, PROVISION and FAULT serve the host (R86, R135). -/
def OpState.serving : OpState → Bool
  | .run | .safe | .provision | .fault => true
  | .reset | .wait | .load | .recover => false

/-- The ready indication of the upstream port (R86). -/
def State.ready (s : State) : Bool := s.su.opState.serving

/-- Presentation runs in RUN, in SAFE and in FAULT entered from RECOVER (R159). -/
def State.mayPresent (s : State) : Bool :=
  match s.su.opState with
  | .run | .safe => true
  | .fault => !s.su.strapError
  | _ => false

/-- ATTN is asserted exactly while the presentation state is SHOWN (R168). -/
def State.attn (s : State) : Bool := s.ev.pres == .shown

/-- FLT: operating state SAFE or FAULT, engine HALTED, or a status failure outstanding (R169). -/
def State.flt (s : State) : Bool :=
  s.su.opState == .safe || s.su.opState == .fault || s.eng.state == .halted || s.ev.statusFailure

/-- At least one group row is not FREE (R121). -/
def State.rowInUse (s : State) : Bool := s.rows.toList.any fun r => r.state != .free

/-- The sampling mode is CONTINUOUS (R121); otherwise it is PERIODIC. -/
def State.continuous (s : State) : Bool := s.mon.state != .normal || s.rowInUse

end Sys2Proof.Machine
end

