-- ==== Sys2Proof/Machine/Layout.lean ====
section
/-! DEFINITION. Word layouts and codes of the bridge area and the upstream port (10_layouts). -/

namespace Sys2Proof.Machine

/-! ## Codes (10.1) -/

def Attr.code : Attr → Nat
  | .none => 0
  | .group => 1
  | .close => 2
  | .abort => 3

def Code.code : Code → Nat
  | .done => 0
  | .durable => 1
  | .region => 2
  | .conflict => 3
  | .overflow => 4
  | .aborted => 5
  | .hold => 6
  | .holdup => 7
  | .busy => 8
  | .media => 9
  | .protocol => 10
  | .halted => 11
  | .fault => 12

def RegionKind.code : RegionKind → Nat
  | .guarded => 1
  | .pass => 2
  | .absent => 3

/-- The region kind of a code; codes other than 1 to 3 fail check 3 of R146 where they count. -/
def RegionKind.ofCode : Nat → RegionKind
  | 1 => .guarded
  | 2 => .pass
  | _ => .absent

def OpState.code : OpState → Nat
  | .reset => 0
  | .wait => 1
  | .load => 2
  | .recover => 3
  | .run => 4
  | .safe => 5
  | .provision => 6
  | .fault => 7

def MonState.code : MonState → Nat
  | .below => 0
  | .normal => 1
  | .warn => 2
  | .cut => 3

def GroupState.code : GroupState → Nat
  | .idle => 0
  | .opened => 1
  | .closing => 2
  | .notify => 3

def Cause.code : Cause → Nat
  | .conflict => 1
  | .overflow => 2
  | .busy => 3
  | .region => 4
  | .hold => 5
  | .idle => 6
  | .halted => 7

def ResetCause.code : ResetCause → Nat
  | .powerOn => 1
  | .line => 2
  | .cut => 3

def Validity.code : Validity → Nat
  | .notRead => 0
  | .valid => 1
  | .invalid => 2

def EngineState.code : EngineState → Nat
  | .running => 0
  | .halted => 1

def Reason.code : Reason → Nat
  | .strap => 1
  | .media => 2
  | .mark => 3
  | .sum => 4
  | .range => 5
  | .order => 6
  | .overlap => 7
  | .bridge => 8
  | .monitor => 9

/-- The code of an event kind; 0 is the empty kind. -/
def EventKind.code (k : EventKind) : Nat := k.index.val + 1

/-- A value placed in a word with its lowest bit at bit `lo`. -/
def field (lo value : Nat) : Word := BitVec.ofNat 32 (value * 2 ^ lo)

/-- The value of bits lo+width−1 to lo of a word. -/
def bits (w : Word) (lo width : Nat) : Nat := (w.extractLsb' lo width).toNat

/-- The sum of words modulo 2 to the power 32. -/
def sumWords (ws : List Word) : Word := ws.foldl (· + ·) 0

/-! ## Slot records (R170) -/

/-- Journal mark 7C3Ah. -/
def journalMark : Nat := 0x7C3A

/-- Header word 0: mark, owning stream, entry count. -/
def headerWord (owner : StreamId) (n : Nat) : Word := field 16 journalMark ||| field 8 owner.val ||| field 0 n

/-- An entry's address-and-mask word. -/
def addrMaskWord (e : Entry) : Word := field 28 e.mask.toNat ||| field 0 e.addr.toNat

/-- The words of a record before its seal, 2n + 2 of them (R53, R68). -/
def recordBody (owner : StreamId) (seq : Word) (entries : List Entry) : List Word :=
  headerWord owner entries.length :: seq :: entries.flatMap fun e => [addrMaskWord e, e.data]

/-- The seal: the complement of the sum of the words before it (R53). -/
def sealOf (body : List Word) : Word := ~~~ sumWords body

/-- The whole record, 2n + 3 words (R53). -/
def recordWords (owner : StreamId) (seq : Word) (entries : List Entry) : List Word :=
  recordBody owner seq entries ++ [sealOf (recordBody owner seq entries)]

/-- The retire mark of a sequence number: every bit inverted (R60, R70). -/
def retireMark (q : Word) : Word := ~~~ q

/-- Header word 0 carries the journal mark (R170). -/
def hasMark (w : Word) : Bool := bits w 16 16 == journalMark

/-- The entry count of header word 0 (R170). -/
def entryCountOf (w : Word) : Nat := bits w 0 6

/-- Tests 1 and 2 of R69. -/
def headerPasses (w : Word) : Bool := hasMark w && 1 ≤ entryCountOf w && entryCountOf w ≤ maxRowEntries

/-- The address of an address-and-mask word (R170). -/
def addrOf (w : Word) : Addr := w.extractLsb' 0 25

/-- The mask of an address-and-mask word (R170). -/
def maskOf (w : Word) : Mask := w.extractLsb' 28 4

/-- The three tests of R69 on a slot's words 0 to 2n+2. -/
def isSealed (words : List Word) : Bool :=
  match words with
  | [] => false
  | w0 :: _ =>
    headerPasses w0 && words.length == 2 * entryCountOf w0 + 3
      && words.getD (2 * entryCountOf w0 + 2) 0 == sealOf (words.take (2 * entryCountOf w0 + 2))

/-- The address-and-mask words of n entries, from a slot's words (R68). -/
def entryAddrWords (words : List Word) (n : Nat) : List Word :=
  (List.range n).map fun k => words.getD (2 * k + 2) 0

/-! ## Configuration block (R171) -/

/-- Configuration mark 3B6Eh. -/
def configMark : Nat := 0x3B6E

/-- Word i of the configuration image. -/
def imageWord (image : List Word) (i : Nat) : Word := image.getD i 0

/-- The used flag of region entry r. -/
def imageUsed (image : List Word) (r : Nat) : Bool := (imageWord image (10 + 3 * r)).getLsbD 31

/-- The base word of region entry r. -/
def imageBase (image : List Word) (r : Nat) : Addr := (imageWord image (8 + 3 * r)).extractLsb' 0 25

/-- The limit word of region entry r. -/
def imageLimit (image : List Word) (r : Nat) : Addr := (imageWord image (9 + 3 * r)).extractLsb' 0 25

/-- The kind code of region entry r. -/
def imageKind (image : List Word) (r : Nat) : Nat := bits (imageWord image (10 + 3 * r)) 0 2

/-- The divider field. -/
def imageDivider (image : List Word) : Nat := bits (imageWord image 1) 0 8

/-- The stall limit field. -/
def imageStall (image : List Word) : Nat := bits (imageWord image 2) 0 16

/-- The idle timeout field of stream st. -/
def imageTimeout (image : List Word) (st : Nat) : Nat := bits (imageWord image (3 + st)) 0 16

/-- The default kind code. -/
def imageDefaultKind (image : List Word) : Nat := bits (imageWord image 32) 0 2

/-- The monitor parameters. -/
def imageParams (image : List Word) : MonParams :=
  { warnLevel := bits (imageWord image 33) 0 5
    cutLevel := bits (imageWord image 33) 8 5
    releaseLevel := bits (imageWord image 33) 16 5
    cutCount := bits (imageWord image 33) 24 4
    margin := bits (imageWord image 33) 28 3
    interval := bits (imageWord image 34) 0 8 }

/-- The budget of band b. -/
def imageBudget (image : List Word) (b : Nat) : Nat := bits (imageWord image (36 + b / 2)) (16 * (b % 2)) 16

/-- The class field of the kind with the given code, four bits wide. -/
def imageClass (image : List Word) (code : Nat) : Nat :=
  bits (imageWord image (40 + (code - 1) / 8)) (4 * ((code - 1) % 8)) 4

/-- Region entry r as it is installed: the fields of an unused entry are not (R144). -/
def imageRegion (image : List Word) (r : Nat) : Region :=
  if imageUsed image r then
    { used := true, base := imageBase image r, limit := imageLimit image r
      kind := RegionKind.ofCode (imageKind image r) }
  else Region.unused

/-- The class of the kind with the given code. -/
def imageClassOf (image : List Word) (code : Nat) : Fin 4 := Fin.ofNat 4 (imageClass image code)

/-- The configured items that a valid image holds (R144, R148). -/
def settingsOf (image : List Word) : Settings :=
  { divider := imageDivider image
    stallLimit := imageStall image
    idleTimeouts := #v[imageTimeout image 0, imageTimeout image 1, imageTimeout image 2, imageTimeout image 3]
    regions := #v[imageRegion image 0, imageRegion image 1, imageRegion image 2, imageRegion image 3,
      imageRegion image 4, imageRegion image 5, imageRegion image 6, imageRegion image 7]
    defaultKind := RegionKind.ofCode (imageDefaultKind image)
    params := imageParams image
    budgets := #v[imageBudget image 0, imageBudget image 1, imageBudget image 2, imageBudget image 3,
      imageBudget image 4, imageBudget image 5, imageBudget image 6, imageBudget image 7]
    classes := #v[imageClassOf image 1, imageClassOf image 2, imageClassOf image 3, imageClassOf image 4,
      imageClassOf image 5, imageClassOf image 6, imageClassOf image 7, imageClassOf image 8, imageClassOf image 9,
      imageClassOf image 10, imageClassOf image 11, imageClassOf image 12, imageClassOf image 13,
      imageClassOf image 14, imageClassOf image 15, imageClassOf image 16, imageClassOf image 17,
      imageClassOf image 18] }

/-- A value lies in a range. -/
def inRange (lo hi v : Nat) : Bool := lo ≤ v && v ≤ hi

/-- The numbers of the used region entries. -/
def usedRegions (image : List Word) : List Nat := (List.range 8).filter fun r => imageUsed image r

/-- Check 1 of R146 passes. -/
def markPasses (image : List Word) : Bool :=
  bits (imageWord image 0) 16 16 == configMark && bits (imageWord image 0) 0 8 == 1

/-- Check 2 of R146 passes. -/
def sumPasses (image : List Word) : Bool := sumWords image == 0

/-- Check 3 of R146 passes: every field in its range (R129, R144). -/
def rangePasses (image : List Word) : Bool :=
  let p := imageParams image
  inRange 10 80 (imageDivider image) && 1 ≤ imageStall image
    && inRange 1 30 p.warnLevel && inRange 0 29 p.cutLevel && inRange 1 31 p.releaseLevel
    && inRange 1 8 p.cutCount && inRange 1 7 p.margin && inRange 1 255 p.interval
    && ((List.range 18).all fun k => imageClass image (k + 1) ≤ 3)
    && inRange 2 3 (imageDefaultKind image)
    && (usedRegions image).all fun r => inRange 1 3 (imageKind image r)

/-- Check 4 of R146 passes. -/
def orderPasses (image : List Word) : Bool :=
  (usedRegions image).all fun r => imageBase image r ≤ imageLimit image r

/-- Check 5 of R146 passes: no two used regions share a word. -/
def overlapPasses (image : List Word) : Bool :=
  (usedRegions image).all fun r => (usedRegions image).all fun q =>
    r == q || !(imageBase image r ≤ imageLimit image q && imageBase image q ≤ imageLimit image r)

/-- Check 6 of R146 passes. -/
def bridgePasses (image : List Word) (bridgeBase : Nat) : Bool :=
  (usedRegions image).all fun r => (imageLimit image r).toNat < bridgeBase

/-- Check 7 of R146 passes. -/
def monitorPasses (image : List Word) : Bool :=
  (imageParams image).cutLevel < (imageParams image).warnLevel
    && (imageParams image).cutLevel < (imageParams image).releaseLevel

/-- The first check of R146 that fails gives the reason; none for a valid image. -/
def judge (image : List Word) (bridgeBase : Nat) : Option Reason :=
  if !markPasses image then some .mark
  else if !sumPasses image then some .sum
  else if !rangePasses image then some .range
  else if !orderPasses image then some .order
  else if !overlapPasses image then some .overlap
  else if !bridgePasses image bridgeBase then some .bridge
  else if !monitorPasses image then some .monitor
  else none

/-! ## Status block (R172, R173) -/

/-- A flag as a bit. -/
def flagBit (b : Bool) : Nat := if b then 1 else 0

/-- Presentation words 0 to 7 of a record and its presentation number (R172). -/
def presentationWords (r : Record) (number : Word) : List Word :=
  [ field 0 r.kind.code ||| field 8 r.cls.val
      ||| field 10 ((r.fields.stream.map Fin.val).getD 0)
      ||| field 16 (flagBit r.fields.stream.isSome) ||| field 17 (flagBit r.fields.addr.isSome)
      ||| field 18 (flagBit r.fields.seq.isSome) ||| field 19 (flagBit r.fields.slot.isSome)
      ||| field 20 (flagBit r.fields.detail.isSome) ||| field 24 r.repeats,
    field 0 ((r.fields.addr.map BitVec.toNat).getD 0),
    r.fields.seq.getD 0,
    field 0 (r.fields.slot.getD 0),
    r.fields.detail.getD 0,
    r.stamp,
    0,
    number ]

/-- The words of a clear job (R164, R172). -/
def clearWords (number : Word) : List Word := [0, 0, 0, 0, 0, 0, 0, number]

/-- Summary word 0 (R173). -/
def State.summaryWord0 (s : State) : Word :=
  field 0 s.su.opState.code ||| field 4 ((s.su.resetCause.map ResetCause.code).getD 0)
    ||| field 8 s.su.validity.code ||| field 12 s.mon.state.code ||| field 16 s.eng.state.code
    ||| field 24 ((s.mon.level.map BitVec.toNat).getD 255)

/-- One stream's byte of summary word 2 (R173). -/
def StreamRec.summaryByte (r : StreamRec) : Nat :=
  r.group.code + 16 * ((r.notify.map Cause.code).getD 0)

/-- Summary word 2: group states and notify causes (R173). -/
def State.summaryWord2 (s : State) : Word :=
  field 0 s.streams[0].summaryByte ||| field 8 s.streams[1].summaryByte
    ||| field 16 s.streams[2].summaryByte ||| field 24 s.streams[3].summaryByte

/-- The summary word that holds the counters of kinds with codes 2i+1 and 2i+2 (R173). -/
def counterWord (counters : Vector Nat 18) (i : Nat) : Word :=
  field 0 (counters.toList.getD (2 * i) 0) ||| field 16 (counters.toList.getD (2 * i + 1) 0)

/-- Summary words 0 to 23 as they stand (R166, R173). -/
def State.summaryWords (s : State) : List Word :=
  [s.summaryWord0, s.eng.nextSeq, s.summaryWord2, s.ev.lost, s.ev.stray]
    ++ (List.range 9).map (counterWord s.ev.counters) ++ List.replicate 10 0

/-! ## Detail words (R172) -/

def startDetail (c : Option ResetCause) : Word := field 0 ((c.map ResetCause.code).getD 0)

def configBadDetail (r : Reason) : Word := field 0 r.code

def recoveredDetail (replayed discarded : Nat) : Word := field 0 replayed ||| field 8 discarded

def levelDetail (l : Level) : Word := field 0 l.toNat

def holdupDetail (cost budget : Nat) : Word := field 0 budget ||| field 16 cost

end Sys2Proof.Machine
end

