-- ==== Sys2Proof/Machine/Events.lean ====
section
/-! DEFINITION. The event unit and the status writer: taking an event, the queue, presentation, jobs. -/

namespace Sys2Proof.Machine

/-! ## The status writer's jobs (R165) -/

/-- Begin a job: its first word is asked of the arbiter, with the grant count at 0 (R115, R165). -/
def EventUnit.startJob (e : EventUnit) (k : JobKind) (words : List Word) : EventUnit :=
  { e with job := some { kind := k, words := words, index := 0 }, sReq := some 1, sCount := 0 }

/-- When no job is in progress the next one begins: an update or clear job given by the presentation state first,
otherwise a pending summary (R165). -/
def EventUnit.beginJob (e : EventUnit) : EventUnit :=
  match e.job with
  | some _ => e
  | none =>
    match e.given with
    | some .update =>
      match e.presented with
      | some r => { e with given := none }.startJob .update (presentationWords r e.presNumber)
      | none => { e with given := none }
    | some _ => { e with given := none }.startJob .clear (clearWords e.presNumber)
    | none =>
      if e.summaryPending then { e with summaryPending := false }.startJob .summary [] else e

/-- A summary job in progress whose snapshot has not been taken serves an event without a further job (R166). -/
def EventUnit.summaryServes (e : EventUnit) : Bool :=
  match e.job with
  | some j => j.kind == .summary && j.words.isEmpty
  | none => false

/-- A summary job becomes pending (R166). -/
def EventUnit.askSummary (e : EventUnit) : EventUnit :=
  if e.summaryServes then e else { e with summaryPending := true }.beginJob

/-! ## Presentation (R160, R164) -/

/-- The next presentation number: 1 to 4,294,967,295, then 1 again (R160). -/
def nextPresNumber (n : Word) : Word := if n + 1 = 0 then 1 else n + 1

/-- Entry to UPDATING for the head of the queue (R160); nothing when no record waits. -/
def EventUnit.enterUpdating (e : EventUnit) : EventUnit :=
  match e.waiting with
  | [] => e
  | r :: rest =>
    { e with
      waiting := rest, presented := some r, presNumber := nextPresNumber e.presNumber, pres := .updating
      given := some .update }.beginJob

/-- Entry to CLEARING (R164). -/
def EventUnit.enterClearing (e : EventUnit) : EventUnit :=
  { e with pres := .clearing, given := some .clear }.beginJob

/-- The presentation state leaves NONE when presentation may run and a record waits (R159). -/
def EventUnit.startPresentation (e : EventUnit) (may : Bool) : EventUnit :=
  if may && e.pres == .none then e.enterUpdating else e

/-! ## The event queue (R154 to R157) -/

/-- Records of the queue, the presented one among them (R155). -/
def EventUnit.queued (e : EventUnit) : Nat := e.waiting.length + (if e.presented.isSome then 1 else 0)

/-- The counter of a kind rises by 1 and stays at 65,535 (R154). -/
def EventUnit.count (e : EventUnit) (k : EventKind) : EventUnit :=
  { e with counters := e.counters.set k.index (min 65535 (e.counters[k.index] + 1)) }

/-- Two records merge when they have the same kind and the same stream, or both no stream (R156). -/
def Record.mergesWith (r w : Record) : Bool := r.kind == w.kind && r.fields.stream == w.fields.stream

/-- The waiting records with the first one that r merges into raised by 1, up to 255; none when r merges with
none (R156). -/
def mergeInto (r : Record) : List Record → Option (List Record)
  | [] => none
  | w :: rest =>
    if r.mergesWith w then some ({ w with repeats := min 255 (w.repeats + 1) } :: rest)
    else (mergeInto r rest).map (w :: ·)

/-- The place of a record among the waiting ones: before the first of a lower class (R155). -/
def insertRecord (r : Record) : List Record → List Record
  | [] => [r]
  | w :: rest => if w.cls < r.cls then r :: w :: rest else w :: insertRecord r rest

/-- A record meets a full queue (R157). The waiting records stand highest class first and oldest first within a class
(R155), so the youngest of the lowest class is the last. -/
def EventUnit.displaceOrDrop (e : EventUnit) (r : Record) : EventUnit :=
  match e.waiting.getLast? with
  | some l =>
    if l.cls < r.cls then { e with waiting := insertRecord r e.waiting.dropLast, lost := e.lost + 1 }
    else { e with lost := e.lost + 1 }
  | none => { e with lost := e.lost + 1 }

/-- A formed record is counted; of class 1 to 3 it is merged, enters, displaces another or is dropped (R153 to R157).
A record that enters starts presentation from NONE where presentation may run (R159). -/
def EventUnit.take (e : EventUnit) (may : Bool) (r : Record) : EventUnit :=
  let e := e.count r.kind
  if r.cls = 0 then e
  else
    match mergeInto r e.waiting with
    | some ws => { e with waiting := ws }
    | none =>
      if e.queued < maxRecords then { e with waiting := insertRecord r e.waiting }.startPresentation may
      else e.displaceOrDrop r

/-! ## Acknowledgement and job ends (R160, R162 to R164) -/

/-- An ACK taken in SHOWN ends the presentation (R162). -/
def EventUnit.endPresentation (e : EventUnit) : EventUnit :=
  let e := { e with presented := none }
  if e.waiting.isEmpty then e.enterClearing else e.enterUpdating

/-- An ACK taken against the presentation state (R162, R163). -/
def EventUnit.acknowledge (e : EventUnit) : EventUnit :=
  match e.pres with
  | .shown => e.endPresentation
  | .none | .updating | .clearing => { e with stray := e.stray + 1 }

/-- The last word of an update job has completed: SHOWN, and a summary becomes pending (R160). -/
def EventUnit.updateDone (e : EventUnit) : EventUnit :=
  { e with pres := .shown, summaryPending := true }.beginJob

/-- The last word of a clear job has completed: UPDATING for the head, or NONE (R164). -/
def EventUnit.clearDone (e : EventUnit) : EventUnit :=
  let e := { e with pres := .none, summaryPending := true }
  if e.waiting.isEmpty then e.beginJob else e.enterUpdating

/-- A job has ended. -/
def EventUnit.endJob (e : EventUnit) (k : JobKind) : EventUnit :=
  let e := { e with job := none }
  match k with
  | .update => e.updateDone
  | .clear => e.clearDone
  | .summary => e.beginJob

/-- A status word has completed: the failure, if any, is cleared; the next word is asked for or the job ends
(R165, R167). -/
def EventUnit.wordDone (e : EventUnit) : EventUnit :=
  match e.job with
  | none => e
  | some j =>
    let e := { e with statusFailure := false }
    if j.index + 1 < j.words.length then
      { e with job := some { j with index := j.index + 1 }, sReq := some 1, sCount := 0 }
    else e.endJob j.kind

/-- A status word fails on attempts 1 to 3: the request waits again with the count at 0 (R108, R115). -/
def EventUnit.wordRetry (e : EventUnit) (attempt : Nat) : EventUnit :=
  { e with sReq := some (attempt + 1), sCount := 0 }

/-- A status word fails on its fourth attempt: the status failure is set and the 10 ms wait begins (R167). -/
def EventUnit.wordFailed (e : EventUnit) : EventUnit :=
  { e with statusFailure := true, retryWait := some statusRetryTime }

/-- The 10 ms wait has ended: the same word is asked for again, at attempt 1 (R167). -/
def EventUnit.retryWord (e : EventUnit) : EventUnit :=
  { e with retryWait := none, sReq := some 1, sCount := 0 }

/-- On a strap error the waiting job is withdrawn and a pending summary is discarded (R165). -/
def EventUnit.withdrawWriter (e : EventUnit) : EventUnit :=
  { e with job := none, given := none, summaryPending := false, sReq := none, sCount := 0, retryWait := none }

/-! ## The event unit in the part -/

/-- The record of an event: the class in force for its kind and the time stamp at the moment it is taken (R153). -/
def State.formRecord (s : State) (k : EventKind) (f : EventFields) : Record :=
  { kind := k, cls := s.cfg.classes[k.index], fields := f, repeats := 1, stamp := s.clk.millis }

/-- A block raises an event: the event unit forms the record and takes it (R153). -/
def State.raise (s : State) (k : EventKind) (f : EventFields) : State :=
  { s with ev := s.ev.take s.mayPresent (s.formRecord k f) }

/-- A change that R166 lists asks for a summary; after a strap error no job begins (R142, R165). -/
def State.askSummary (s : State) : State :=
  if s.su.strapError then s else { s with ev := s.ev.askSummary }

end Sys2Proof.Machine
end

