-- ==== Sys2Proof/Machine/Arbiter.lean ====
section
/-! DEFINITION. The arbiter and the memory port: waiting, granting, presenting, and the close of a step. -/

namespace Sys2Proof.Machine

/-- The class of a purpose in the alternation of R113; none for the status writer, the loader and recovery. -/
def Purpose.cls : Purpose → Option GrantClass
  | .forwarded _ => some .f
  | .journal | .sealWrite => some .jw
  | .apply | .retire => some .ap
  | .status | .loader | .scan | .replayRead | .replayWrite | .recoveryRetire => none

/-! ## Begin waiting (R111, R117) -/

/-- A request of F, JW or AP begins waiting at the present moment (R108, R111). -/
def State.ask (s : State) (p : Purpose) (a : Access) (attempt : Nat) : State :=
  { s with bus := { s.bus with
    waiting := s.bus.waiting ++ [{ purpose := p, access := a, attempt := attempt, place := s.bus.moment }] } }

/-- The loader or the recovery pass asks for its next access (R117). -/
def State.askSolo (s : State) (p : Purpose) (a : Access) (attempt : Nat) : State :=
  { s with bus := { s.bus with solo := some { purpose := p, access := a, attempt := attempt } } }

/-- The halt withdraws the waiting requests of the journal writer and the applier (R65, R110). -/
def Bus.withdrawEngine (b : Bus) : Bus :=
  { b with waiting := b.waiting.filter fun w => w.purpose.cls == some .f }

/-! ## Presenting (R104) -/

/-- The memory port presents an access: the next access number, the timeout started, BUSY (R104). -/
def State.present (s : State) (p : Purpose) (a : Access) (attempt : Nat) : State :=
  { s with bus := { s.bus with
    port := some { purpose := p, access := a, attempt := attempt, number := s.bus.nextNumber
                   timeout := memoryTimeoutTime }
    nextNumber := s.bus.nextNumber + 1 } }

/-! ## Choice among F, JW and AP (R112 to R114) -/

/-- The classes in cyclic order F, JW, AP, from the one that follows the last granted (R113). -/
def classOrder : GrantClass → List GrantClass
  | .f => [.jw, .ap, .f]
  | .jw => [.ap, .f, .jw]
  | .ap => [.f, .jw, .ap]

/-- The streams in cyclic order from the one that follows the last forwarder stream (R113). -/
def streamOrder (last : StreamId) : List StreamId := [last + 1, last + 2, last + 3, last]

/-- A waiting request of the class. -/
def hasClass (ws : List Waiting) (c : GrantClass) : Bool := ws.any fun w => w.purpose.cls == some c

/-- A waiting forwarder request of the stream. -/
def hasStream (ws : List Waiting) (st : StreamId) : Bool := ws.any fun w => w.purpose == .forwarded st

/-- The alternation among requests that share a place (R113). -/
def Bus.chooseTied (b : Bus) (tied : List Waiting) : Option Waiting :=
  match (classOrder b.lastClass).find? (hasClass tied) with
  | some .f =>
    match (streamOrder b.lastStream).find? (hasStream tied) with
    | some st => tied.find? fun w => w.purpose == .forwarded st
    | none => none
  | some c => tied.find? fun w => w.purpose.cls == some c
  | none => none

/-- The oldest place in the order of waiting (R112). -/
def oldestPlace (ws : List Waiting) : Option Nat := (ws.map fun w => w.place).min?

/-- The request that has waited longest, a shared place being settled by alternation (R112, R113). -/
def Bus.chooseOldest (b : Bus) : Option Waiting :=
  match oldestPlace b.waiting with
  | some p => b.chooseTied (b.waiting.filter fun w => w.place == p)
  | none => none

/-- The waiting request of the journal writer. -/
def Bus.waitingJw (b : Bus) : Option Waiting := b.waiting.find? fun w => w.purpose.cls == some .jw

/-- The choice among F, JW and AP: in WARN a waiting JW request first (R114), otherwise the oldest (R112). -/
def Bus.choose (b : Bus) (warn : Bool) : Option Waiting :=
  match (if warn then b.waitingJw else none) with
  | some w => some w
  | none => b.chooseOldest

/-! ## Granting -/

/-- The status writer is granted when no other request waits or its count has reached 8 (R115). -/
def State.grantsStatus (s : State) : Bool :=
  s.ev.sReq.isSome && (s.bus.waiting.isEmpty || maxStatusCount ≤ s.ev.sCount)

/-- The first status block word of a job's area (R172, R173). -/
def JobKind.offset : JobKind → Nat
  | .update | .clear => 0
  | .summary => 8

/-- The job as its next word is granted: a summary takes its snapshot with its first word (R165). -/
def State.grantedJob (s : State) (j : Job) : Job :=
  if j.kind == .summary && j.words.isEmpty then { j with words := s.summaryWords } else j

/-- The access of the job's present word (R165). -/
def State.statusAccess (s : State) (j : Job) : Access :=
  { write := true, addr := s.statusAddr (j.kind.offset + j.index), mask := 15, data := j.words.getD j.index 0 }

/-- A grant to the status writer (R115, R165). -/
def State.grantStatus (s : State) : State :=
  match s.ev.job, s.ev.sReq with
  | some j, some attempt =>
    { s with ev := { s.ev with job := some (s.grantedJob j), sReq := none, sCount := 0 } }.present .status
      (s.statusAccess (s.grantedJob j)) attempt
  | _, _ => s

/-- The last forwarder stream after a grant of the purpose (R113). -/
def Purpose.nextStream (p : Purpose) (last : StreamId) : StreamId :=
  match p with
  | .forwarded st => st
  | _ => last

/-- A grant to F, JW or AP: the alternation is kept up, and the status writer's count rises while its request
waits (R113, R115). -/
def State.grantWaiting (s : State) (w : Waiting) : State :=
  { s with
    bus := { s.bus with
      waiting := s.bus.waiting.erase w
      lastClass := w.purpose.cls.getD s.bus.lastClass
      lastStream := w.purpose.nextStream s.bus.lastStream }
    ev := { s.ev with
      sCount := if s.ev.sReq.isSome then min maxStatusCount (s.ev.sCount + 1) else s.ev.sCount } }.present
    w.purpose w.access w.attempt

/-- A grant while the part serves the host (R111 to R115). -/
def State.grantServing (s : State) : State :=
  if s.grantsStatus then s.grantStatus
  else
    match s.bus.choose (s.mon.published.state == .warn) with
    | some w => s.grantWaiting w
    | none => s

/-- The loader's or the recovery pass's access is presented (R117). -/
def State.presentSolo (s : State) : State :=
  match s.bus.solo with
  | some q => { s with bus := { s.bus with solo := none } }.present q.purpose q.access q.attempt
  | none => s

/-- One grant, if the port is IDLE, the quiet period has ended and the operating state allows it
(R106, R111, R116, R117). -/
def State.arbitrate (s : State) : State :=
  if s.bus.port.isSome || s.bus.quiet.isSome then s
  else
    match s.su.opState with
    | .reset | .wait => s
    | .load | .recover => s.presentSolo
    | .run | .safe | .provision | .fault => s.grantServing

/-- The close of a step: the moment is over, and the arbiter grants (R111). A request taken together with the next
command leaves both to that command (assumption 8). -/
def State.settle (s : State) (together : Bool := false) : State :=
  if together then s else { s with bus := { s.bus with moment := s.bus.moment + 1 } }.arbitrate

end Sys2Proof.Machine
end

