-- ==== Sys2Proof/Machine/Ops.lean ====
section
/-! DEFINITION. The named operations over stream records, rows, responses and the monitor's publication. -/

namespace Sys2Proof.Machine

/-! ## Updates of one record -/

/-- Replace a stream record. -/
def State.setStream (s : State) (st : StreamId) (r : StreamRec) : State :=
  { s with streams := s.streams.set st r }

/-- Replace a group row. -/
def State.setRow (s : State) (r : RowId) (row : Row) : State := { s with rows := s.rows.set r row }

/-! ## Responses (R85, R87) -/

/-- Record a response the port gives (R85). -/
def State.emit (s : State) (st : StreamId) (c : Code) (data : Word) : State :=
  { s with responses := s.responses ++ [{ stream := st, code := c, data := data }] }

/-- Answer the stream's outstanding request: it is cleared, and its stall timer stops (R87, R99). -/
def State.respond (s : State) (st : StreamId) (c : Code) (data : Word := 0) : State :=
  (s.setStream st { s.streams[st] with outstanding := none, stallTimer := none }).emit st c data

/-! ## Stream record transitions -/

/-- The stream becomes IDLE: no open row, no notify cause, idle timer stopped (R2). -/
def State.toIdle (s : State) (st : StreamId) : State :=
  s.setStream st { s.streams[st] with group := .idle, openRow := none, notify := none, idleTimer := none }

/-- The stream goes to NOTIFY with a cause (R11). -/
def State.toNotify (s : State) (st : StreamId) (c : Cause) : State :=
  s.setStream st { s.streams[st] with group := .notify, openRow := none, notify := some c, idleTimer := none }

/-- The idle timer of a stream started from its full timeout; it never starts from a timeout of 0 (R15). -/
def State.fullIdle (s : State) (st : StreamId) : Option Nat :=
  if s.cfg.idleTimeouts[st] = 0 then none else some (s.cfg.idleTimeouts[st] * microsPerMilli)

/-- Restart the idle timer (R15). -/
def State.restartIdle (s : State) (st : StreamId) : State :=
  s.setStream st { s.streams[st] with idleTimer := s.fullIdle st }

/-- Hold the idle timer while a write is at the group controller (R15). -/
def State.holdIdle (s : State) (st : StreamId) : State :=
  s.setStream st { s.streams[st] with idleTimer := none }

/-- Start the stall timer at 0 if it does not run already (R99). -/
def State.startStall (s : State) (st : StreamId) : State :=
  s.setStream st { s.streams[st] with stallTimer := some (s.streams[st].stallTimer.getD 0) }

/-- Stop the stall timer (R99). -/
def State.stopStall (s : State) (st : StreamId) : State :=
  s.setStream st { s.streams[st] with stallTimer := none }

/-! ## Rows (R6) -/

/-- Free a row: its entries return to the store and its fields are cleared (R6, R44). The service of the wait lists
that follows is a step of its own. -/
def State.freeRow (s : State) (r : RowId) : State := s.setRow r Row.free

/-- Free the stream's row if it owns one in OPEN (R11, R13). -/
def State.dropOpenRow (s : State) (st : StreamId) : State :=
  match s.streams[st].openRow with
  | some r => if s.rows[r].state == .opened then s.freeRow r else s
  | none => s

/-! ## The monitor (R122, R131) -/

/-- The monitor publishes its state, its band and the budget of the band (R131). -/
def State.publish (s : State) : State :=
  { s with mon := { s.mon with
    published :=
      { state := s.mon.state, band := s.mon.level.map bandOf, budget := budgetOf s.cfg (s.mon.level.map bandOf) } } }

/-- A change to CONTINUOUS starts a sample at once if none is in progress (R122). -/
def Sampler.wake : Sampler → Sampler
  | .resting _ => .converting sampleTime
  | x => x

/-- A sample is in progress (R119). -/
def Sampler.inProgress : Sampler → Bool
  | .resting _ => false
  | .converting _ | .timedOn _ _ _ => true

/-- The converter when the divider changes from `old` to `new`: a sample in progress completes on its own base, and the
wait for the next goes on in units of the new length (R119, R149, assumption 36). -/
def Sampler.rebase (old new phase : Nat) : Sampler → Sampler
  | .converting n => if old = new then .converting n else .timedOn n old phase
  | x => x

/-- The converter as the divider becomes the given one (R149). -/
def State.samplerOn (s : State) (divider : Nat) : Sampler := s.mon.sampler.rebase s.cfg.divider divider s.clk.phase

/-- The monitor takes that a row has come into use: the mode is CONTINUOUS (R121, R122). -/
def State.noteRowInUse (s : State) : State := { s with mon := { s.mon with sampler := s.mon.sampler.wake } }

/-! ## Codes of refusals -/

/-- The response code of a refusal that breaks a group (R11). No write is refused IDLE: that cause comes from the
idle timer alone (R16), and a later write of the stream is answered ABORTED. -/
def Cause.response : Cause → Code
  | .conflict => .conflict
  | .overflow => .overflow
  | .busy => .busy
  | .region => .region
  | .hold => .hold
  | .idle => .aborted
  | .halted => .halted

/-- A GROUP write that is refused breaks the stream's group (R11); a CLOSE that is refused fails (R13). The row, if the
stream owns one in OPEN, is freed; the stream goes to NOTIFY or to IDLE; the write is answered with the code. -/
def State.refuse (s : State) (st : StreamId) (attr : Attr) (c : Cause) : State :=
  let s := s.dropOpenRow st
  let s := if attr == .close then s.toIdle st else s.toNotify st c
  s.respond st c.response

end Sys2Proof.Machine
end

