-- ==== Sys2Proof/Machine/Engine.lean ====
section
/-! DEFINITION. The commit engine: the halt, the journal writer and the applier. -/

namespace Sys2Proof.Machine

/-! ## The halt (R23, R45, R63 to R65) -/

/-- The outstanding request of a stream is a grouped write. -/
def StreamRec.groupedPending (r : StreamRec) : Option Attr :=
  match r.outstanding with
  | some q => if q.write && (q.attr == .group || q.attr == .close) then some q.attr else none
  | none => none

/-- The halt taken against one stream record, line by line of R23. An OPEN stream's plain request is not affected
(R41, R110); the row of a CLOSING stream that is CLOSED or JOURNALING is aborted with the rows. -/
def State.haltStream (s : State) (st : StreamId) : State :=
  match s.streams[st].group, s.streams[st].groupedPending with
  | .idle, some attr => (if attr == .close then s.toIdle st else s.toNotify st .halted).respond st .halted
  | .idle, none => s
  | .opened, some _ => ((s.dropOpenRow st).toNotify st .halted).respond st .halted
  | .opened, none => (s.dropOpenRow st).toNotify st .halted
  | .closing, _ => ((s.dropOpenRow st).toIdle st).respond st .halted
  | .notify, _ => s

/-- A row the halt aborts: CLOSED or JOURNALING (R64). -/
def RowState.aborted (r : RowState) : Bool := r == .closed || r == .journaling

/-- The halt taken against one row of the commit queue (R64). -/
def State.haltRow (s : State) (r : RowId) : State := if s.rows[r].state.aborted then s.freeRow r else s

/-- The rows that stay in the commit queue after the halt (R64). -/
def State.keptQueue (s : State) : List RowId := s.eng.queue.filter fun r => !s.rows[r].state.aborted

/-- The engine halts: HALTED, a summary asked for, and the halt taken by the journal writer, the applier, the group
controller and the staging store (R63). The block that met the cause has raised its event. The streams are answered in
stream order, 0 first, where R85 leaves the order open (assumption 32). -/
def State.halt (s : State) : State :=
  let s := { s with eng := { s.eng with state := .halted, jw := none } }.askSummary
  let s := { s with bus := s.bus.withdrawEngine, rowWait := [], entryWait := [] }
  let s := allStreams.foldl State.haltStream s
  let queue := s.keptQueue
  let s := s.eng.queue.foldl State.haltRow s
  { s with eng := { s.eng with queue := queue } }

/-! ## Slots (R50) -/

/-- A slot that is neither in use nor on the bad-slot list (R50). -/
def State.slotAvailable (s : State) (k : Nat) : Bool := !s.slotsInUse.contains k && !s.eng.badSlots.contains k

/-- The first available slot from the ring head on, wrapping after slot N−1 (R50). The search always ends with a slot
(R50); for a state in which it would not, the ring head is named (assumption 29). -/
def State.findSlot (s : State) : Nat :=
  (((List.range s.slotCount).map fun i => (s.eng.ringHead + i) % s.slotCount).find? s.slotAvailable).getD s.eng.ringHead

/-! ## The journal writer (R51 to R57) -/

/-- The words of the record of a row (R53). -/
def Row.record (r : Row) : List Word := recordWords (r.owner.getD 0) (r.seq.getD 0) r.entries

/-- A journal write is the seal when it is the record's last word (R53). -/
def Row.journalPurpose (r : Row) (progress : Nat) : Purpose :=
  if progress + 1 = r.cost then .sealWrite else .journal

/-- The journal writer asks for the write of the next word of its current row's record (R53). -/
def State.askJournal (s : State) : State :=
  match s.eng.jw with
  | some w =>
    s.ask (s.rows[w.row].journalPurpose w.progress)
      { write := true, addr := s.slotAddr (s.rows[w.row].slot.getD 0) w.progress, mask := 15
        data := s.rows[w.row].record.getD w.progress 0 } 1
  | none => s

/-- The journal writer's current row is given a slot: the row's slot number, the ring head after it, progress 0, and
the first write asked for (R50, R52, R56). -/
def State.allocate (s : State) (r : RowId) : State :=
  let k := s.findSlot
  let s := s.setRow r { s.rows[r] with slot := some k, state := .journaling }
  { s with eng := { s.eng with ringHead := s.slotAfter k, jw := some { row := r, progress := 0 } } }.askJournal

/-- Start a row: the sequence number, the slot, JOURNALING, the first write; or the halt when the numbers are exhausted
(R51, R52). -/
def State.journalRow (s : State) (r : RowId) : State :=
  if s.eng.nextSeq = 0 then (s.raise .seqExhausted {}).halt
  else
    let s := s.setRow r { s.rows[r] with seq := some s.eng.nextSeq }
    { s with eng := { s.eng with nextSeq := s.eng.nextSeq + 1 } }.allocate r

/-- The oldest row in CLOSED (R52). -/
def State.oldestClosed (s : State) : Option RowId := s.eng.queue.find? fun r => s.rows[r].state == .closed

/-- The journal writer starts a row when it has none, the engine is RUNNING and a row is CLOSED (R52). -/
def State.startJournal (s : State) : State :=
  match s.eng.jw, s.eng.state, s.oldestClosed with
  | none, .running, some r => s.journalRow r
  | _, _, _ => s

/-! ## The applier (R58 to R60) -/

/-- The applier asks for the write of the next entry of its current row, or for the retire write when every entry has
been written (R59, R60). -/
def State.askApply (s : State) : State :=
  match s.eng.ap with
  | some w =>
    match s.rows[w.row].entries[w.progress]? with
    | some e => s.ask .apply { write := true, addr := e.addr, mask := e.mask, data := e.data } 1
    | none =>
      s.ask .retire
        { write := true, addr := s.slotAddr (s.rows[w.row].slot.getD 0) retireWord, mask := 15
          data := retireMark (s.rows[w.row].seq.getD 0) } 1
  | none => s

/-- The applier starts the head of the commit queue when it has no row, the engine is RUNNING and the head is SEALED
(R58). -/
def State.startApply (s : State) : State :=
  match s.eng.ap, s.eng.state, s.eng.queue.head? with
  | none, .running, some r =>
    if s.rows[r].state == .sealed then
      { s.setRow r { s.rows[r] with state := .applying } with
        eng := { s.eng with ap := some { row := r, progress := 0 } } }.askApply
    else s
  | _, _, _ => s

/-! ## Completions and failures -/

/-- A journal write other than the seal has completed: the progress rises and the next word is asked for (R53). -/
def State.journalDone (s : State) : State :=
  match s.eng.jw with
  | some w => { s with eng := { s.eng with jw := some { w with progress := w.progress + 1 } } }.askJournal
  | none => s

/-- The close of the row's stream is durable: DURABLE, and the stream to IDLE (R22, R54). -/
def State.answerDurable (s : State) (r : RowId) : State :=
  match s.rows[r].owner with
  | some st => (s.toIdle st).respond st .durable
  | none => s

/-- The seal write of the current row has completed (R54); then the applier may start (R58, assumption 13). -/
def State.sealDone (s : State) : State :=
  match s.eng.jw with
  | some w =>
    let s := s.setRow w.row { s.rows[w.row] with state := .sealed }
    let s := { s with eng := { s.eng with jw := none } }.answerDurable w.row
    s.startJournal.startApply
  | none => s

/-- An apply write has completed: the progress rises; after the last entry the row is RETIRING (R59). -/
def State.applyDone (s : State) : State :=
  match s.eng.ap with
  | some w =>
    let s := { s with eng := { s.eng with ap := some { w with progress := w.progress + 1 } } }
    let s :=
      if w.progress + 1 < s.rows[w.row].entries.length then s
      else s.setRow w.row { s.rows[w.row] with state := .retiring }
    s.askApply
  | none => s

/-- A journal write has failed after its last attempt: the slot goes on the bad-slot list and the record is written
again in a new slot (R56), or, with the list full, the engine halts (R57). -/
def State.journalFailed (s : State) : State :=
  match s.eng.jw with
  | some w =>
    let k := s.rows[w.row].slot.getD 0
    let s' := s.raise .slotBad { slot := some k }
    if s.eng.badSlots.length < maxBadSlots then
      { s' with eng := { s'.eng with badSlots := s'.eng.badSlots ++ [k] } }.allocate w.row
    else s'.halt
  | none => s

/-- The sequence number of the applier's current row. -/
def State.applySeq (s : State) : Option Word :=
  match s.eng.ap with
  | some w => s.rows[w.row].seq
  | none => none

/-- An apply write has failed after its last attempt (R61). -/
def State.applyFailed (s : State) (a : Addr) : State :=
  (s.raise .applyFail { seq := s.applySeq, addr := some a }).halt

/-- The retire write has failed after its last attempt (R61). -/
def State.retireFailed (s : State) : State := (s.raise .retireFail { seq := s.applySeq }).halt

end Sys2Proof.Machine
end

