-- ==== Sys2Proof/Machine/Group.lean ====
section
/-! DEFINITION. The group controller and the staging store: staging, opening, closing, admission, and the service of
the wait lists. -/

namespace Sys2Proof.Machine

/-! ## Staging (R26 to R31) -/

/-- The entry as coalescing leaves it (R27). -/
def Entry.coalesce (e : Entry) (m : Mask) (d : Word) : Entry :=
  { e with mask := e.mask ||| m, data := mergeMask m d e.data }

/-- Coalesce into the row's entry for the word, in place (R25, R27). -/
def coalesceIn (entries : List Entry) (a : Addr) (m : Mask) (d : Word) : List Entry :=
  entries.map fun e => if e.addr == a then e.coalesce m d else e

/-- A new entry at the tail of the row's list (R28). The bytes outside its mask are undefined (R24): free values. -/
def State.newEntry (s : State) (r : RowId) (a : Addr) (m : Mask) (d : Word) : State :=
  { s.setRow r
      { s.rows[r] with
        entries := s.rows[r].entries
          ++ [{ addr := a, mask := m, data := mergeMask m d (Config.undefinedLanes s.freeIndex) }] } with
    freeIndex := s.freeIndex + 1 }

/-- The outcome of a staging request (R26). -/
inductive Staging where
  | staged
  | refused (c : Cause)
  | waits
  deriving DecidableEq, Repr

/-- The first line of R26 that applies. -/
def State.stagingLine (s : State) (st : StreamId) (r : RowId) (a : Addr) : Staging :=
  if s.conflicts st a then .refused .conflict
  else if (s.rows[r].find a).isSome then .staged
  else if maxRowEntries ≤ s.rows[r].entries.length then .refused .overflow
  else if s.freeEntries = 0 then (if s.eng.queue.isEmpty then .refused .overflow else .waits)
  else .staged

/-- The event of a staging refusal (R29, R30, R34). -/
def State.refusalEvent (s : State) (st : StreamId) (c : Cause) (a : Addr) : State :=
  match c with
  | .conflict => s.raise .conflict { stream := some st, addr := some a }
  | .overflow => s.raise .overflow { stream := some st }
  | _ => s

/-- A staged request: coalesced into the row's entry (R27), or a new entry (R28). -/
def State.stageEntry (s : State) (r : RowId) (a : Addr) (m : Mask) (d : Word) : State :=
  if (s.rows[r].find a).isSome then s.setRow r { s.rows[r] with entries := coalesceIn s.rows[r].entries a m d }
  else s.newEntry r a m d

/-! ## Closing (R18 to R22) -/

/-- A row that is admitted: CLOSED, at the tail of the commit queue; its stall timer stops; the journal writer starts
it if it can (R22, R52). -/
def State.enqueueClosed (s : State) (st : StreamId) (r : RowId) : State :=
  let s := s.setRow r { s.rows[r] with state := .closed }
  ({ s with eng := { s.eng with queue := s.eng.queue ++ [r] } }.stopStall st).startJournal

/-- Admission succeeds: always but in WARN, and in WARN when cost plus reservation is at most the published
budget (R20). -/
def State.admits (s : State) (r : RowId) : Bool :=
  s.mon.published.state != .warn || s.rows[r].cost + s.reservation ≤ s.mon.published.budget

/-- A close that WARN admission refuses (R21). -/
def State.refuseHoldup (s : State) (st : StreamId) (r : RowId) : State :=
  let detail := holdupDetail s.rows[r].cost s.mon.published.budget
  (((s.freeRow r).toIdle st).respond st .holdup).raise .holdupRefused { stream := some st, detail := some detail }

/-- A close whose row holds no entries (R19). -/
def State.closeEmpty (s : State) (st : StreamId) (r : RowId) : State :=
  ((s.freeRow r).toIdle st).respond st .durable

/-- The close's data has been staged (R18): an empty close (R19), or admission (R20). -/
def State.finishClose (s : State) (st : StreamId) (r : RowId) : State :=
  if s.rows[r].entries.isEmpty then s.closeEmpty st r
  else if s.admits r then s.enqueueClosed st r
  else s.refuseHoldup st r

/-- The write has been staged, or has mask 0: a GROUP write is answered DONE and the idle timer restarts (R10, R15);
a CLOSE goes on (R18). -/
def State.finishWrite (s : State) (st : StreamId) (r : RowId) (attr : Attr) : State :=
  if attr == .close then s.finishClose st r else (s.respond st .done).restartIdle st

/-- A grouped write of a stream whose row is OPEN, its word GUARDED: mask 0 stages nothing; otherwise the staging
store takes the request (R10, R18, R26). -/
def State.stageWrite (s : State) (st : StreamId) (r : RowId) (q : Request) : State :=
  if q.mask = 0 then s.finishWrite st r q.attr
  else
    match s.stagingLine st r q.addr with
    | .staged => (s.stageEntry r q.addr q.mask q.data).finishWrite st r q.attr
    | .refused c => (s.refusalEvent st c q.addr).refuse st q.attr c
    | .waits => ({ s with entryWait := s.entryWait ++ [st] }.holdIdle st).startStall st

/-! ## Opening (R7 to R9) -/

/-- Tests 2 to 4 of R7: the refusal, if any. -/
def State.openingRefusal (s : State) (st : StreamId) (q : Request) : Option Cause :=
  if s.eng.state = .halted then some .halted
  else if s.mon.published.state = .warn then some .hold
  else if q.mask ≠ 0 ∧ s.conflicts st q.addr = true then some .conflict
  else none

/-- A row is assigned to an opening write (R9): OPEN, owned by the stream, empty; the monitor learns of it (R121); the
stream goes to OPEN with its idle timer started, or to CLOSING. -/
def State.assignRow (s : State) (st : StreamId) (r : RowId) (attr : Attr) : State :=
  let s := (s.setRow r { Row.free with owner := some st, state := .opened }).noteRowInUse
  if attr == .close then
    s.setStream st { s.streams[st] with group := .closing, openRow := some r, idleTimer := none }
  else s.setStream st { s.streams[st] with group := .opened, openRow := some r, idleTimer := s.fullIdle st }

/-- An opening write whose word is GUARDED: tests 2 to 5 of R7; with no FREE row it waits (R8). -/
def State.openWrite (s : State) (st : StreamId) (q : Request) : State :=
  match s.openingRefusal st q with
  | some c => (s.refusalEvent st c q.addr).refuse st q.attr c
  | none =>
    match s.lowestFree with
    | some r => (s.assignRow st r q.attr).stageWrite st r q
    | none => { s with rowWait := s.rowWait ++ [st] }.startStall st

/-! ## Service of the wait lists (R8, R32) -/

/-- The head of the entry wait list is examined again: line 1 of R26, or the entry (R32). A CLOSE that is staged goes
through to its admission before the next request is examined (assumption 33). -/
def State.restage (s : State) (st : StreamId) : State :=
  match s.streams[st].outstanding, s.streams[st].openRow with
  | some q, some r =>
    if s.conflicts st q.addr then (s.refusalEvent st .conflict q.addr).refuse st q.attr .conflict
    else (s.newEntry r q.addr q.mask q.data).finishWrite st r q.attr
  | _, _ => s

/-- Serve the entry wait list from its head until it is empty or no free entry remains (R32). Each turn takes one
request off the list, so as many turns as it holds are enough. With no free entry nobody is examined, also where the row
just freed held none (R44, assumption 34). -/
def State.serveEntries : Nat → State → State
  | 0, s => s
  | n + 1, s =>
    match s.entryWait with
    | [] => s
    | st :: rest =>
      if s.freeEntries = 0 then s else State.serveEntries n ({ s with entryWait := rest }.restage st)

/-- The oldest waiting opening write is offered the row (R8). -/
def State.offerRow (s : State) (st : StreamId) : State :=
  match s.streams[st].outstanding with
  | some q => s.openWrite st q
  | none => s

/-- Offer FREE rows to the waiting opening writes, oldest first (R8). -/
def State.offerRows : Nat → State → State
  | 0, s => s
  | n + 1, s =>
    match s.rowWait, s.lowestFree with
    | st :: rest, some _ => State.offerRows n ({ s with rowWait := rest }.offerRow st)
    | _, _ => s

/-- The store serves its wait list (R32). -/
def State.serve (s : State) : State := State.serveEntries s.entryWait.length s

/-- The FREE rows are offered (R8). -/
def State.offer (s : State) : State := State.offerRows s.rowWait.length s

/-- What follows the freeing of a row by the group controller: the store serves its wait list from the freed entries,
then the FREE rows are offered (R6, R44, assumption 12). -/
def State.afterFree (s : State) : State := s.serve.offer

/-! ## Grouped writes (R7 to R14, R18) -/

/-- A grouped write refused REGION by its kind: the event, and the refusal (R7, R10, R18, R94). -/
def State.refuseRegion (s : State) (st : StreamId) (q : Request) : State :=
  (s.raise .region { stream := some st, addr := some q.addr }).refuse st q.attr .region

/-- A GROUP write taken by the group controller with its word's kind (R7, R10, R12). A stream in CLOSING always has its
CLOSE outstanding and never comes here (R2, assumption 24). -/
def State.groupWrite (s : State) (st : StreamId) (kind : WordKind) (q : Request) : State :=
  match s.streams[st].group, s.streams[st].openRow with
  | .notify, _ => s.respond st .aborted
  | .idle, _ => if kind = .guarded then s.openWrite st q else s.refuseRegion st q
  | .opened, some r => if kind = .guarded then (s.holdIdle st).stageWrite st r q else s.refuseRegion st q
  | .opened, none => s
  | .closing, _ => s

/-- The stream of a CLOSE taken in OPEN goes to CLOSING and its idle timer stops (R18). -/
def State.enterClosing (s : State) (st : StreamId) : State :=
  s.setStream st { s.streams[st] with group := .closing, idleTimer := none }

/-- A CLOSE taken by the group controller (R7, R12, R18). -/
def State.closeWrite (s : State) (st : StreamId) (kind : WordKind) (q : Request) : State :=
  match s.streams[st].group, s.streams[st].openRow with
  | .notify, _ => (s.toIdle st).respond st .aborted
  | .idle, _ => if kind = .guarded then s.openWrite st q else s.refuseRegion st q
  | .opened, some r =>
    if kind = .guarded then (s.enterClosing st).stageWrite st r q else (s.enterClosing st).refuseRegion st q
  | .opened, none => s
  | .closing, _ => s

/-- An ABORT taken by the group controller (R14). -/
def State.abortWrite (s : State) (st : StreamId) : State :=
  match s.streams[st].group with
  | .idle => s.respond st .done
  | .opened => ((s.dropOpenRow st).toIdle st).respond st .done
  | .notify => (s.toIdle st).respond st .aborted
  | .closing => s

/-! ## Expiries (R8, R16, R33, R100) -/

/-- The idle expiry is taken in OPEN (R16). -/
def State.idleExpired (s : State) (st : StreamId) : State :=
  ((s.dropOpenRow st).toNotify st .idle).raise .idleAbort { stream := some st }

/-- The stall limit of a waiting write is reached: it leaves its wait list and is refused BUSY, and STALL is raised
(R8, R33, R100). -/
def State.stallExpired (s : State) (st : StreamId) (q : Request) : State :=
  let s := { s with rowWait := s.rowWait.erase st, entryWait := s.entryWait.erase st }
  (s.refuse st q.attr .busy).raise .stall { stream := some st, addr := some q.addr }

/-! ## Retirement (R43, R60) -/

/-- The row leaves the commit queue and becomes FREE; its slot is no longer in use (R60). -/
def State.leaveQueue (s : State) (r : RowId) : State :=
  { s.freeRow r with eng := { s.eng with queue := s.eng.queue.filter (· != r), ap := none } }

/-- The entries of a row are freed, its list emptied (R43). -/
def State.freeEntriesOf (s : State) (r : RowId) : State := s.setRow r { s.rows[r] with entries := [] }

/-- The retire write of the current row has completed, in the order of R60: entries freed and the wait list served,
the slot released, the row FREE and offered, the new head started. -/
def State.retireDone (s : State) : State :=
  match s.eng.ap with
  | some w => (((s.freeEntriesOf w.row).serve).leaveQueue w.row).offer.startApply
  | none => s

end Sys2Proof.Machine
end

