-- ==== Sys2Proof/Machine/Upstream.lean ====
section
/-! DEFINITION. The upstream requests: checks at taking, routing, forwarded accesses, guarded reads; and the meanings
of the five request commands. -/

namespace Sys2Proof.Machine

/-! ## Checks at taking (R86 to R89) -/

/-- Lines 1 to 3 of R89: the code that the port answers at once, if any. -/
def State.portAnswer (s : State) (st : StreamId) (q : Request) : Option Code :=
  if s.streams[st].outstanding.isSome then some .protocol
  else if !q.write && q.attr != .none then some .protocol
  else if q.write && s.su.opState == .fault then some .fault
  else none

/-- The answer at line 1, 2 or 3: the request does not become outstanding; PROTOCOL raises its event (R88, R89). -/
def State.answerAtPort (s : State) (st : StreamId) (c : Code) : State :=
  let s := s.emit st c 0
  if c == .protocol then s.raise .protocol { stream := some st } else s

/-- The request becomes the stream's outstanding request (R87). -/
def State.accept (s : State) (st : StreamId) (q : Request) : State :=
  s.setStream st { s.streams[st] with outstanding := some q }

/-- A request that the port can take is answered at lines 1 to 3 of R89 or accepted. None when it goes no further: the
port is not ready (R86), or it has answered. -/
def State.takeRequest (s : State) (st : StreamId) (q : Request) : State × Bool :=
  if !s.ready then (s, false)
  else
    match s.portAnswer st q with
    | some c => (s.answerAtPort st c, false)
    | none => (s.accept st q, true)

/-! ## Plain accesses (R93 to R98) -/

/-- A plain access answered REGION by the port, with the event (R93, R94). -/
def State.refusePlain (s : State) (st : StreamId) (q : Request) : State :=
  (s.respond st .region).raise .region { stream := some st, addr := some q.addr }

/-- A downstream read of a word: all four lanes (R103). -/
def readAccess (a : Addr) : Access := { write := false, addr := a, mask := 15, data := 0 }

/-- A forwarded read (R95). -/
def State.forwardRead (s : State) (st : StreamId) (q : Request) : State :=
  s.ask (.forwarded st) (readAccess q.addr) 1

/-- A forwarded write: DONE at once for mask 0 (R96). -/
def State.forwardWrite (s : State) (st : StreamId) (q : Request) : State :=
  if q.mask = 0 then s.respond st .done
  else s.ask (.forwarded st) { write := true, addr := q.addr, mask := q.mask, data := q.data } 1

/-- A guarded read: the layers are captured; with every lane supplied it is answered at once, otherwise memory is read
(R37, R39, R40). -/
def State.guardedRead (s : State) (st : StreamId) (q : Request) : State :=
  let layers := s.layersFor st q.addr
  if allSatisfied layers then s.respond st .done (mergeLayers layers 0)
  else (s.accept st { q with captured := layers }).forwardRead st q

/-- The WRITE, attribute NONE, column of R93. -/
def State.plainWrite (s : State) (st : StreamId) (q : Request) : State :=
  match s.wordKind q.addr with
  | .pass => s.forwardWrite st q
  | .bridge => if s.su.opState = .provision then s.forwardWrite st q else s.refusePlain st q
  | .guarded | .absent | .outOfRange => s.refusePlain st q

/-- The READ column of R93. -/
def State.plainRead (s : State) (st : StreamId) (q : Request) : State :=
  match s.wordKind q.addr with
  | .guarded => s.guardedRead st q
  | .pass | .bridge => s.forwardRead st q
  | .absent | .outOfRange => s.refusePlain st q

/-! ## Meanings -/

/-- The request of an upstream write (R84). -/
def writeRequest (attr : Attr) (a : Addr) (m : Mask) (d : Word) : Request :=
  { write := true, attr := attr, addr := a, mask := m, data := d, captured := [] }

/-- The request of an upstream READ; its mask and data are carried and play no part (R84). -/
def readRequest (attr : Attr) (a : Addr) (m : Mask) (d : Word) : Request :=
  { write := false, attr := attr, addr := a, mask := m, data := d, captured := [] }

/-- What a request command does to the state before the step closes: it is taken (R86 to R89) and, if accepted, handed
to its path. -/
def State.request (s : State) (st : StreamId) (q : Request) (path : State → State) : State :=
  match s.takeRequest st q with
  | (s, true) => path s
  | (s, false) => s

/-- GROUP_WRITE (R7, R10, R12). -/
def execGroupWrite (st : StreamId) (a : Addr) (m : Mask) (d : Word) (together : Bool) (s : State) :
    Host.Outcome State Fault Refusal :=
  let q := writeRequest .group a m d
  .next ((s.request st q fun s => (s.groupWrite st (s.wordKind a) q).afterFree).settle together)

/-- CLOSE_WRITE (R7, R12, R18). -/
def execCloseWrite (st : StreamId) (a : Addr) (m : Mask) (d : Word) (together : Bool) (s : State) :
    Host.Outcome State Fault Refusal :=
  let q := writeRequest .close a m d
  .next ((s.request st q fun s => (s.closeWrite st (s.wordKind a) q).afterFree).settle together)

/-- ABORT_WRITE (R14): address, mask and data play no part. -/
def execAbortWrite (st : StreamId) (a : Addr) (m : Mask) (d : Word) (together : Bool) (s : State) :
    Host.Outcome State Fault Refusal :=
  let q := writeRequest .abort a m d
  .next ((s.request st q fun s => (s.abortWrite st).afterFree).settle together)

/-- PLAIN_WRITE (R93). -/
def execPlainWrite (st : StreamId) (a : Addr) (m : Mask) (d : Word) (together : Bool) (s : State) :
    Host.Outcome State Fault Refusal :=
  let q := writeRequest .none a m d
  .next ((s.request st q fun s => s.plainWrite st q).settle together)

/-- PLAIN_READ (R93): a READ whose attribute is not NONE is answered PROTOCOL (R89). -/
def execPlainRead (st : StreamId) (attr : Attr) (a : Addr) (m : Mask) (d : Word) (together : Bool) (s : State) :
    Host.Outcome State Fault Refusal :=
  let q := readRequest attr a m d
  .next ((s.request st q fun s => s.plainRead st q).settle together)

end Sys2Proof.Machine
end

