-- ==== Sys2Proof/Machine/StartUp.lean ====
section
/-! DEFINITION. The start-up controller: resets, the exit from RESET, the end of WAIT, LOAD, and the serving states. -/

namespace Sys2Proof.Machine

/-! ## Resets (R137 to R139) -/

/-- The stronger of two reset causes: POWER_ON, then LINE, then CUT (R139). -/
def ResetCause.join : ResetCause → ResetCause → ResetCause
  | .powerOn, _ | _, .powerOn => .powerOn
  | .line, _ | _, .line => .line
  | .cut, .cut => .cut

/-- The cause formed so far joined with the reset being taken (R139). -/
def joinCause (sofar : Option ResetCause) (c : ResetCause) : ResetCause :=
  match sofar with
  | some p => p.join c
  | none => c

/-- The last level after a reset: kept after CUT, none otherwise (R120). -/
def Monitor.levelAfter (m : Monitor) : ResetCause → Option Level
  | .cut => m.level
  | .powerOn | .line => none

/-- The monitor after a reset (R120, R128), the converter standing as given; the publication follows (assumption
21). -/
def Monitor.afterReset (m : Monitor) (c : ResetCause) (x : Sampler) : Monitor :=
  { Monitor.reset with
    level := m.levelAfter c
    sampler := x
    published := { state := .below, band := (m.levelAfter c).map bandOf, budget := 0 } }

/-- The start-up controller after a reset: the conditions, the supply and the cause so far stand (R137 to R139). -/
def StartUp.afterReset (u : StartUp) (c : ResetCause) : StartUp :=
  { StartUp.reset with
    pendingCause := some (joinCause u.pendingCause c)
    powerOn := u.powerOn, supplyUp := u.supplyUp, powerOnDelay := u.powerOnDelay, line := u.line }

/-- A reset of a kind is taken: every block sets its own state to its reset value (R138). The converter keeps sampling:
a sample in progress completes, on the base it began on, and a PERIODIC wait ends at once (R120, R122, R149). The command queue, the record
of responses, the free-value counter, the moment and the time base's counts are not the part's volatile items
(assumptions 5, 7, 8, 20). -/
def State.takeReset (s : State) (c : ResetCause) : State :=
  { State.reset with
    pending := s.pending
    responses := s.responses
    bus := { Bus.reset with moment := s.bus.moment }
    mon := s.mon.afterReset c (s.samplerOn Settings.default.divider).wake
    su := s.su.afterReset c
    clk := s.clk
    freeIndex := s.freeIndex }

/-- The exit from RESET, when no reset condition holds (R137, R140): the straps are sampled, the time stamp starts
at 0, the cause is fixed, the quiet period begins, and the state is WAIT. -/
def State.exitReset (s : State) (pins : Straps) : State :=
  if s.su.opState = .reset ∧ s.su.powerOn = false ∧ s.su.line = false then
    { s with
      su := { s.su with
        straps := some pins, opState := .wait, resetCause := s.su.pendingCause, pendingCause := none }
      clk := { s.clk with micros := 0, millis := 0 }
      bus := { s.bus with quiet := some quietTime } }.askSummary
  else s

/-! ## Serving states (R150 to R152, R159) -/

/-- The operating state changes, and a summary is asked for (R135, R166). -/
def State.setOpState (s : State) (o : OpState) : State := { s with su := { s.su with opState := o } }.askSummary

/-- Entry to RUN, SAFE or FAULT: START is raised (R152), the state changes, and presentation begins if records wait
(R159, assumption 14). -/
def State.enterServing (s : State) (o : OpState) : State :=
  let s := (s.raise .start { detail := some (startDetail s.su.resetCause) }).setOpState o
  { s with ev := s.ev.startPresentation s.mayPresent }

/-- Runs cleared and the budget published anew, with the configured items replaced (R129, R148, R150); a sample in
progress completes on the base it began on (R119). -/
def State.install (s : State) (c : Settings) : State :=
  { s with cfg := c, mon := { s.mon with releaseRun := 0, cutRun := 0, sampler := s.samplerOn c.divider } }.publish

/-- FAULT from RECOVER: an installed configuration is withdrawn (R150). -/
def State.enterFault (s : State) : State :=
  let s := { s with recovery := none, bus := { s.bus with solo := none } }
  let s := if s.su.validity = .valid then s.install Settings.default else s
  s.enterServing .fault

/-- A strap error: CONFIG_BAD with reason STRAP, the record of it, the status writer's work withdrawn, FAULT
(R141, R142, R152, R165). -/
def State.strapFault (s : State) : State :=
  let s := s.raise .configBad { detail := some (configBadDetail .strap) }
  { s with su := { s.su with strapError := true }, ev := s.ev.withdrawWriter }.enterServing .fault

/-! ## The end of WAIT and LOAD (R141, R143 to R148) -/

/-- The strap check: the second sample differs from the first, or the bridge area is larger than half the
memory (R141). -/
def strapsBad (first second : Straps) : Bool :=
  first != second || memWordsOf first < 2 * bridgeWordsOf first

/-- The loader asks for the next word of the configuration block (R145). -/
def State.askLoader (s : State) : State :=
  s.askSolo .loader (readAccess (s.configAddr s.su.image.length)) 1

/-- The end of WAIT (R143): with PROV set, the strap check, then PROVISION or FAULT; with PROV clear, LOAD, whose first
step is the check (R141, R151). -/
def State.endWait (s : State) (pins : Straps) : State :=
  match s.su.straps with
  | some first =>
    if first.prov then
      if strapsBad first pins then s.strapFault else s.setOpState .provision
    else
      let s := s.setOpState .load
      if strapsBad first pins then s.strapFault else s.askLoader
  | none => s

/-! ## Recovery: the scan (R72, R73) -/

/-- The recovery pass at the entry to RECOVER (R72). -/
def Recovery.start : Recovery :=
  { scanSlot := 0, scanWords := [], highestSeen := none, highestSlot := 0, highestRetired := none, unretired := []
    actions := [], replayEntry := 0, replayAddr := none, replayed := 0, discarded := 0 }

/-- The recovery pass asks for a read of word w of slot k. -/
def State.askSlotRead (s : State) (p : Purpose) (k w : Nat) : State := s.askSolo p (readAccess (s.slotAddr k w)) 1

/-- Entry to RECOVER: the pass starts with its first scan read (R72, R73). -/
def State.enterRecover (s : State) : State :=
  ({ s with recovery := some Recovery.start }.setOpState .recover).askSlotRead .scan 0 0

/-- The configuration is found invalid (R147). -/
def State.configInvalid (s : State) (r : Reason) : State :=
  let s := s.raise .configBad { detail := some (configBadDetail r) }
  { s with su := { s.su with validity := .invalid } }.enterRecover

/-- The configuration is found valid and is installed (R148). -/
def State.configValid (s : State) : State :=
  let s := s.install (settingsOf s.su.image)
  { s with su := { s.su with validity := .valid } }.enterRecover

/-- The image of 256 words is judged (R146). -/
def State.judgeImage (s : State) : State :=
  match judge s.su.image s.bridgeBase with
  | some r => s.configInvalid r
  | none => s.configValid

/-- A word of the configuration block has been read (R145). -/
def State.loaderDone (s : State) (d : Word) : State :=
  let s := { s with su := { s.su with image := s.su.image ++ [d] } }
  if s.su.image.length < configWords then s.askLoader else s.judgeImage

end Sys2Proof.Machine
end

