-- ==== Sys2Proof/Machine/RecoveryPass.lean ====
section
/-! DEFINITION. The recovery pass: judging a slot, deciding what to replay, the actions, and the end of the pass. -/

namespace Sys2Proof.Machine

/-! ## Judging a slot (R69, R70, R73, R77) -/

/-- The next word of the slot to read after the words read so far; none when the slot's reading has ended (R73). -/
def nextScanWord (words : List Word) : Option Nat :=
  match words with
  | [] => some 0
  | w0 :: _ =>
    if !headerPasses w0 then none
    else if words.length < 2 * entryCountOf w0 + 3 then some words.length
    else if words.length = 2 * entryCountOf w0 + 3 then some retireWord
    else none

/-- An entry's address-and-mask word has one of the faults of R77. -/
def entryFault (memWords bridgeBase : Nat) (w : Word) : Bool :=
  memWords ≤ (addrOf w).toNat || bridgeBase ≤ (addrOf w).toNat || maskOf w == 0

/-- The larger of a sequence number seen so far and a new one (R73). -/
def raiseSeq (seen : Option Word) (q : Word) : Option Word :=
  match seen with
  | some h => some (if h < q then q else h)
  | none => some q

/-- The slot that holds the highest sequence seen, the highest-numbered if several do (R81). Slots are read in rising
order, so a later slot with an equal number takes the place. -/
def highestSlotAfter (r : Recovery) (q : Word) : Nat :=
  match r.highestSeen with
  | some h => if h ≤ q then r.scanSlot else r.highestSlot
  | none => r.scanSlot

/-- A sealed slot has been read: the words before the retire word, and the retire word (R73). -/
def Recovery.sealedSlot (r : Recovery) (memWords bridgeBase : Nat) (words : List Word) (retire : Word) : Recovery :=
  let q := words.getD 1 0
  let n := entryCountOf (words.getD 0 0)
  let seen := { r with highestSeen := raiseSeq r.highestSeen q, highestSlot := highestSlotAfter r q }
  if retire = retireMark q then { seen with highestRetired := raiseSeq r.highestRetired q }
  else
    { seen with
      unretired := r.unretired
        ++ [{ slot := r.scanSlot, seq := q, count := n
              bad := (entryAddrWords words n).any (entryFault memWords bridgeBase) }] }

/-- The slot has been read as far as R73 goes: it is judged by R69 and R70. -/
def Recovery.judgeSlot (r : Recovery) (memWords bridgeBase : Nat) : Recovery :=
  let words := r.scanWords.dropLast
  if isSealed words then r.sealedSlot memWords bridgeBase words (r.scanWords.getLast?.getD 0) else r

/-! ## Deciding what to replay (R75, R76) -/

/-- Insert an item by sequence number, after the items of the same number. -/
def insertItem (i : Item) : List Item → List Item
  | [] => [i]
  | j :: rest => if i.seq < j.seq then i :: j :: rest else j :: insertItem i rest

/-- Items in rising order of sequence number, and in list order within one number. -/
def sortItems (items : List Item) : List Item := items.foldl (fun acc i => insertItem i acc) []

/-- A principal: no item of lower slot number carries the same sequence number (R75). -/
def isPrincipal (items : List Item) (i : Item) : Bool := items.all fun j => !(j.slot < i.slot && j.seq == i.seq)

/-- The action of an item above F (R76, R77). -/
def actionOf (items : List Item) (i : Item) : Action :=
  { kind := if isPrincipal items i then (if i.bad then .discard else .replay) else .retireOnly, item := i }

/-- The action list (R76): the stale items in slot order, retire-only; then, in rising order of sequence number, each
principal followed by its extra copies. The sealed-unretired list stands in slot order (R73). -/
def buildActions (items : List Item) (f : Word) : List Action :=
  (items.filter fun i => i.seq ≤ f).map (fun i => { kind := .retireOnly, item := i })
    ++ (sortItems (items.filter fun i => f < i.seq)).map (actionOf items)

/-! ## The end of the pass (R81, R150) -/

/-- The seeds of the journal writer (R81). The highest sequence plus 1 is 0, exhausted, after 4,294,967,295 (R51). -/
def Engine.seed (e : Engine) (r : Recovery) (slotAfter : Nat) : Engine :=
  match r.highestSeen with
  | some q => { e with nextSeq := q + 1, ringHead := slotAfter }
  | none => { e with nextSeq := 1, ringHead := 0 }

/-- The pass ends with the journal writer seeded: RECOVERED, then RUN or SAFE (R81, R150). -/
def State.endRecovery (s : State) (r : Recovery) : State :=
  let s := { s with eng := s.eng.seed r (s.slotAfter r.highestSlot), recovery := none }
  let s := s.raise .recovered { detail := some (recoveredDetail r.replayed r.discarded) }
  s.enterServing (if s.su.validity = .valid then .run else .safe)

/-! ## Actions (R76, R78, R79) -/

/-- The recovery pass asks for the retire write of an item (R79). -/
def State.askRecoveryRetire (s : State) (i : Item) : State :=
  s.askSolo .recoveryRetire
    { write := true, addr := s.slotAddr i.slot retireWord, mask := 15, data := retireMark i.seq } 1

/-- Begin the first action of the list, or end the pass when the list is empty (R76, R81). -/
def State.beginAction (s : State) (r : Recovery) : State :=
  match r.actions with
  | [] => s.endRecovery r
  | a :: _ =>
    let s := { s with recovery := some { r with replayEntry := 0, replayAddr := none } }
    match a.kind with
    | .replay => s.askSlotRead .replayRead a.item.slot 2
    | .discard | .retireOnly => s.askRecoveryRetire a.item

/-- After slot N−1 the action list is built and its first action begins (R75, R76). -/
def State.endScan (s : State) (r : Recovery) : State :=
  s.beginAction { r with actions := buildActions r.unretired (r.highestRetired.getD 0) }

/-- The slot has been judged: the scan goes on with the next slot, or ends (R73, R75). -/
def State.nextSlot (s : State) (r : Recovery) : State :=
  if r.scanSlot + 1 < s.slotCount then
    { s with recovery := some { r with scanSlot := r.scanSlot + 1, scanWords := [] } }.askSlotRead .scan
      (r.scanSlot + 1) 0
  else s.endScan r

/-- A scan read has completed (R73). -/
def State.scanDone (s : State) (d : Word) : State :=
  match s.recovery with
  | some r =>
    let r := { r with scanWords := r.scanWords ++ [d] }
    match nextScanWord r.scanWords with
    | some w => { s with recovery := some r }.askSlotRead .scan r.scanSlot w
    | none => s.nextSlot (r.judgeSlot s.memWords s.bridgeBase)
  | none => s

/-- A replay that cannot go on, its entry read again having a fault of R77, becomes a discard: its retire write is asked
for (R77, assumption 17). -/
def State.turnToDiscard (s : State) (r : Recovery) (a : Action) (rest : List Action) : State :=
  { s with recovery := some { r with actions := { a with kind := .discard } :: rest } }.askRecoveryRetire a.item

/-- A replay action's read has completed: the address-and-mask word first, then the data word and the home write
(R78). The write carries what was read again, checked again, since no access lies outside memory or has mask 0 (R103,
assumption 17). -/
def State.replayReadDone (s : State) (d : Word) : State :=
  match s.recovery with
  | some r =>
    match r.actions, r.replayAddr with
    | a :: _, none =>
      { s with recovery := some { r with replayAddr := some d } }.askSlotRead .replayRead a.item.slot
        (2 * r.replayEntry + 3)
    | a :: rest, some w =>
      if entryFault s.memWords s.bridgeBase w then s.turnToDiscard r a rest
      else s.askSolo .replayWrite { write := true, addr := addrOf w, mask := maskOf w, data := d } 1
    | [], _ => s
  | none => s

/-- A replay action's home write has completed: the next entry, or the retire write (R78). -/
def State.replayWriteDone (s : State) : State :=
  match s.recovery with
  | some r =>
    match r.actions with
    | a :: _ =>
      if r.replayEntry + 1 < a.item.count then
        { s with recovery := some { r with replayEntry := r.replayEntry + 1, replayAddr := none } }.askSlotRead
          .replayRead a.item.slot (2 * (r.replayEntry + 1) + 2)
      else s.askRecoveryRetire a.item
    | [] => s
  | none => s

/-- A retire write of the pass has completed: the action has ended (R77 to R79), and the next begins. -/
def State.recoveryRetireDone (s : State) : State :=
  match s.recovery with
  | some r =>
    match r.actions with
    | a :: rest =>
      match a.kind with
      | .replay => s.beginAction { r with actions := rest, replayed := r.replayed + 1 }
      | .discard | .retireOnly =>
        (s.raise .replayDiscard { slot := some a.item.slot, seq := some a.item.seq }).beginAction
          { r with actions := rest, discarded := r.discarded + 1 }
    | [] => s
  | none => s

/-! ## Failures (R74, R80) -/

/-- The slot the pass is at: the scan's, or the current action's. -/
def Recovery.currentSlot (r : Recovery) : Nat :=
  match r.actions with
  | a :: _ => a.item.slot
  | [] => r.scanSlot

/-- The sequence number of the current action. -/
def Recovery.currentSeq (r : Recovery) : Option Word :=
  match r.actions with
  | a :: _ => some a.item.seq
  | [] => none

/-- A read of the pass has failed after its fourth attempt: SLOT_BAD, FAULT (R74, R80). -/
def State.recoveryReadFailed (s : State) : State :=
  (s.raise .slotBad { slot := s.recovery.map Recovery.currentSlot }).enterFault

/-- A home write of the pass has failed after its fourth attempt: APPLY_FAIL, FAULT (R80). -/
def State.replayWriteFailed (s : State) (a : Addr) : State :=
  (s.raise .applyFail { seq := s.recovery.bind Recovery.currentSeq, addr := some a }).enterFault

/-- A retire write of the pass has failed after its fourth attempt: RETIRE_FAIL, FAULT (R80). -/
def State.recoveryRetireFailed (s : State) : State :=
  (s.raise .retireFail { seq := s.recovery.bind Recovery.currentSeq }).enterFault

end Sys2Proof.Machine
end

