-- ==== Sys2Proof/Machine/MonitorOps.lean ====
section
/-! DEFINITION. The hold-up monitor: a sample's completion and what the other blocks take from it. -/

namespace Sys2Proof.Machine

/-! ## The runs (R124, R127) -/

/-- The release run after a sample in BELOW; it stays at 0 while the operating state is RESET (R124). -/
def nextReleaseRun (p : MonParams) (inReset : Bool) (run level : Nat) : Nat :=
  if inReset then 0 else if p.releaseLevel ≤ level then run + 1 else 0

/-- The cut run after a sample in NORMAL or WARN (R127). -/
def nextCutRun (p : MonParams) (run level : Nat) : Nat := if level ≤ p.cutLevel then run + 1 else 0

/-! ## Transitions (R123 to R127) -/

/-- A sample taken in BELOW (R124). -/
def Monitor.sampleBelow (m : Monitor) (p : MonParams) (inReset : Bool) (level : Nat) : Monitor :=
  let run := nextReleaseRun p inReset m.releaseRun level
  if !inReset && p.cutCount ≤ run then
    { m with state := if level ≤ p.warnLevel then .warn else .normal, releaseRun := 0, cutRun := 0 }
  else { m with releaseRun := run }

/-- A sample taken in NORMAL or WARN that does not complete the cut run (R125, R126). -/
def MonState.afterSample (m : MonState) (p : MonParams) (level : Nat) : MonState :=
  match m with
  | .normal => if level ≤ p.warnLevel then .warn else .normal
  | .warn => if p.warnLevel + p.margin ≤ level then .normal else .warn
  | .below => .below
  | .cut => .cut

/-- A sample taken in NORMAL or WARN (R125 to R127). -/
def Monitor.sampleUp (m : Monitor) (p : MonParams) (level : Nat) : Monitor :=
  let run := nextCutRun p m.cutRun level
  if p.cutCount ≤ run then { m with state := .cut, cutRun := run }
  else { m with state := m.state.afterSample p level, cutRun := run }

/-- The monitor's own part of a sample: level, runs, state (R123, steps 1 to 3). -/
def Monitor.sample (m : Monitor) (p : MonParams) (inReset : Bool) (l : Level) : Monitor :=
  let m := { m with level := some l }
  match m.state with
  | .below => m.sampleBelow p inReset l.toNat
  | .normal | .warn => m.sampleUp p l.toNat
  | .cut => m

/-! ## Events and the next sample (R121, R132) -/

/-- The event a change of monitor state calls for (R132). -/
def sampleEvent (before after : MonState) : Option EventKind :=
  match before, after with
  | .normal, .warn | .below, .warn => some .warnEnter
  | .warn, .normal => some .warnLeave
  | _, _ => none

/-- The event of a change of state is raised with the sample's level (R132). -/
def State.raiseSample (s : State) (before : MonState) (l : Level) : State :=
  match sampleEvent before s.mon.state with
  | some k => s.raise k { detail := some (levelDetail l) }
  | none => s

/-- A change of the monitor state asks for a summary (R133, R166). -/
def State.askIfChanged (s : State) (before : MonState) : State :=
  if s.mon.state = before then s else s.askSummary

/-- The next sample: at once in CONTINUOUS, one idle sample interval later in PERIODIC (R121, R122). -/
def State.nextSampler (s : State) : Sampler :=
  if s.continuous then .converting sampleTime else .resting (s.cfg.params.interval * microsPerMilli)

/-- The next sample is started or waited for, on the time base in force (R119). -/
def State.scheduleSample (s : State) : State := { s with mon := { s.mon with sampler := s.nextSampler } }

/-! ## What follows (R128, R143) -/

/-- The CUT reset: taken by every block, the monitor back in BELOW, and the exit from RESET, in one step
(R128, R137, assumption 11). -/
def State.cutReset (s : State) (pins : Straps) : State := (s.takeReset .cut).exitReset pins

/-- What the start-up controller takes from the monitor's new state: CUT resets the part (R128); in WAIT the exit from
BELOW ends WAIT (R143). -/
def State.followMonitor (s : State) (pins : Straps) : State :=
  match s.mon.state with
  | .cut => s.cutReset pins
  | .normal | .warn => if s.su.opState = .wait then s.endWait pins else s
  | .below => s

/-- A sample completes in BELOW, NORMAL or WARN (R123): level, runs and state; publication; event; summary; then what
the start-up controller takes from it. -/
def State.takeLevel (s : State) (l : Level) (pins : Straps) : State :=
  let before := s.mon.state
  let s := { s with mon := s.mon.sample s.cfg.params (s.su.opState == OpState.reset) l }
  ((s.publish.raiseSample before l).askIfChanged before).followMonitor pins

/-- A sample completes in CUT: it is recorded as the last level and changes nothing else (R128). -/
def State.keepLevel (s : State) (l : Level) : State := { s with mon := { s.mon with level := some l } }

/-- A sample completes (R123, R128), and the next one starts or is waited for (R121). That it is scheduled after the rest
of the step puts the sample that starts as a CUT reset is taken on the new base (assumption 36). -/
def State.sampleDone (s : State) (l : Level) (pins : Straps) : State :=
  (if s.mon.state = .cut then s.keepLevel l else s.takeLevel l pins).scheduleSample

end Sys2Proof.Machine
end

