-- ==== Sys2Proof/Machine/Answers.lean ====
section
/-! DEFINITION. The answers of the downstream memory: matching, completions, failures and retries; and the meanings of
the answer commands. -/

namespace Sys2Proof.Machine

/-! ## Matching (R104) -/

/-- The access in flight that an answer's number matches (R104). -/
def State.matched (s : State) (n : AccessNumber) : Option InFlight :=
  match s.bus.port with
  | some f => if f.number = n then some f else none
  | none => none

/-- The access has ended: the timeout stops and the port is IDLE (R104, R105). -/
def State.freePort (s : State) : State := { s with bus := { s.bus with port := none } }

/-- A done answer for an access of the given purpose: the access ends and its requester takes the outcome. An answer
that does not match is discarded (R104), and a done answer of another access is not this event (assumption 3). -/
def State.answered (s : State) (n : AccessNumber) (isMine : Purpose → Bool) (taken : InFlight → State → State) : State :=
  match s.matched n with
  | some f => if isMine f.purpose then taken f s.freePort else s
  | none => s

/-- An outcome of the journal writer or the applier after a halt is discarded (R65, R110). -/
def State.ifRunning (s : State) (act : State → State) : State :=
  match s.eng.state with
  | .running => act s
  | .halted => s

/-! ## Forwarded accesses (R95 to R97, R40, R109) -/

/-- The read data of a done answer: the captured lanes merged over the word read; 0 for a write (R40, R85, R95). -/
def Request.readData (q : Request) (d : Word) : Word := if q.write then 0 else mergeLayers q.captured d

/-- A forwarded access, or the memory part of a guarded read, is answered done (R109). -/
def State.forwardedDone (s : State) (st : StreamId) (d : Word) : State :=
  match s.streams[st].outstanding with
  | some q => s.respond st .done (q.readData d)
  | none => s

/-- A forwarded access has failed: MEDIA, with the event (R97, R40). -/
def State.forwardedFailed (s : State) (st : StreamId) (a : Addr) : State :=
  (s.respond st .media).raise .media { stream := some st, addr := some a }

/-! ## Failures and retries (R108) -/

/-- Attempts 1 to 3: the same access waits again with its attempt number raised (R108). -/
def State.retry (s : State) (f : InFlight) : State :=
  match f.purpose with
  | .forwarded _ => s
  | .journal | .sealWrite | .apply | .retire => s.ask f.purpose f.access (f.attempt + 1)
  | .status => { s with ev := s.ev.wordRetry f.attempt }
  | .loader | .scan | .replayRead | .replayWrite | .recoveryRetire => s.askSolo f.purpose f.access (f.attempt + 1)

/-- Attempt 4: the failure is handed to the requester (R108). -/
def State.handFailure (s : State) (f : InFlight) : State :=
  match f.purpose with
  | .forwarded st => s.forwardedFailed st f.access.addr
  | .journal | .sealWrite => s.journalFailed
  | .apply => s.applyFailed f.access.addr
  | .retire => s.retireFailed
  | .status => { s with ev := s.ev.wordFailed }
  | .loader => s.configInvalid .media
  | .scan | .replayRead => s.recoveryReadFailed
  | .replayWrite => s.replayWriteFailed f.access.addr
  | .recoveryRetire => s.recoveryRetireFailed

/-- The requester's interest was withdrawn by a halt (R65, R110). -/
def State.withdrawn (s : State) (p : Purpose) : Bool :=
  s.eng.state == .halted && (p.cls == some .jw || p.cls == some .ap)

/-- The attempts a requester is entitled to (R107). -/
def Purpose.attempts : Purpose → Nat
  | .forwarded _ => 1
  | .journal | .sealWrite | .apply | .retire | .status => maxAttempts
  | .loader | .scan | .replayRead | .replayWrite | .recoveryRetire => maxAttempts

/-- The access in flight has failed; the port is IDLE (R108 to R110). -/
def State.accessFailed (s : State) (f : InFlight) : State :=
  if s.withdrawn f.purpose then s
  else if f.attempt < f.purpose.attempts then s.retry f
  else s.handFailure f

/-! ## Meanings -/

/-- JOURNAL_WRITE_COMPLETE (R53). -/
def execJournalWriteComplete (n : AccessNumber) (s : State) : Host.Outcome State Fault Refusal :=
  .next (s.answered n (· == .journal) fun _ s => s.ifRunning State.journalDone).settle

/-- SEAL_COMPLETE (R54). -/
def execSealComplete (n : AccessNumber) (s : State) : Host.Outcome State Fault Refusal :=
  .next (s.answered n (· == .sealWrite) fun _ s => s.ifRunning State.sealDone).settle

/-- APPLY_WRITE_COMPLETE (R59). -/
def execApplyWriteComplete (n : AccessNumber) (s : State) : Host.Outcome State Fault Refusal :=
  .next (s.answered n (· == .apply) fun _ s => s.ifRunning State.applyDone).settle

/-- RETIRE_WRITE_COMPLETE (R60). -/
def execRetireWriteComplete (n : AccessNumber) (s : State) : Host.Outcome State Fault Refusal :=
  .next (s.answered n (· == .retire) fun _ s => s.ifRunning State.retireDone).settle

/-- STATUS_WORD_COMPLETE (R165). -/
def execStatusWordComplete (n : AccessNumber) (s : State) : Host.Outcome State Fault Refusal :=
  .next (s.answered n (· == .status) fun _ s => { s with ev := s.ev.wordDone }).settle

/-- LOADER_READ_COMPLETE (R145). -/
def execLoaderReadComplete (n : AccessNumber) (d : Word) (s : State) : Host.Outcome State Fault Refusal :=
  .next (s.answered n (· == .loader) fun _ s => s.loaderDone d).settle

/-- SCAN_READ_COMPLETE (R73). -/
def execScanReadComplete (n : AccessNumber) (d : Word) (s : State) : Host.Outcome State Fault Refusal :=
  .next (s.answered n (· == .scan) fun _ s => s.scanDone d).settle

/-- REPLAY_READ_COMPLETE (R78). -/
def execReplayReadComplete (n : AccessNumber) (d : Word) (s : State) : Host.Outcome State Fault Refusal :=
  .next (s.answered n (· == .replayRead) fun _ s => s.replayReadDone d).settle

/-- REPLAY_WRITE_COMPLETE (R78). -/
def execReplayWriteComplete (n : AccessNumber) (s : State) : Host.Outcome State Fault Refusal :=
  .next (s.answered n (· == .replayWrite) fun _ s => s.replayWriteDone).settle

/-- RECOVERY_RETIRE_COMPLETE (R79). -/
def execRecoveryRetireComplete (n : AccessNumber) (s : State) : Host.Outcome State Fault Refusal :=
  .next (s.answered n (· == .recoveryRetire) fun _ s => s.recoveryRetireDone).settle

/-- The purpose of a forwarder's access. -/
def Purpose.isForwarded : Purpose → Bool
  | .forwarded _ => true
  | _ => false

/-- The done answer of a forwarder's access, handed to its stream. -/
def State.takeForwarded (d : Word) (f : InFlight) (s : State) : State :=
  match f.purpose with
  | .forwarded st => s.forwardedDone st d
  | _ => s

/-- FORWARDED_ACCESS_COMPLETE (R109): `d` is the word read, for a READ. -/
def execForwardedAccessComplete (n : AccessNumber) (d : Word) (s : State) : Host.Outcome State Fault Refusal :=
  .next (s.answered n Purpose.isForwarded (State.takeForwarded d)).settle

/-- MEMORY_ERROR_ANSWER (R108). -/
def execMemoryErrorAnswer (n : AccessNumber) (s : State) : Host.Outcome State Fault Refusal :=
  .next (s.answered n (fun _ => true) fun f s => s.accessFailed f).settle

/-- STALE_ANSWER (R104): the answer is discarded. A matching number makes it no stale answer (assumption 3). -/
def execStaleAnswer (_n : AccessNumber) (_error : Bool) (_d : Word) (s : State) : Host.Outcome State Fault Refusal :=
  .next s.settle

end Sys2Proof.Machine
end

