-- ==== Sys2Proof/Machine/Moments.lean ====
section
/-! DEFINITION. The meanings of the timers' moments, the sample, ACK and the reset lines. An event that cannot arise
in the state changes nothing (assumptions 2 and 3). -/

namespace Sys2Proof.Machine

/-- The idle timer of the stream runs and has counted since its last start. A timer at its full timeout has just been
started or restarted: a GROUP write was taken first, and the expiry does not happen at that moment (R17). -/
def State.idleCounted (s : State) (st : StreamId) : Bool :=
  s.streams[st].idleTimer.isSome && s.streams[st].idleTimer != s.fullIdle st

/-- IDLE_TIMER_EXPIRY (R16, R17): taken while the stream's idle timer runs, which it does in OPEN only (R15). -/
def execIdleTimerExpiry (st : StreamId) (s : State) : Host.Outcome State Fault Refusal :=
  .next (if s.idleCounted st then (s.idleExpired st).afterFree else s).settle

/-- The expiry of a stream's stall timer (R100): taken while the timer runs, its request being in a wait. -/
def State.takeStall (s : State) (st : StreamId) : State :=
  match s.streams[st].stallTimer, s.streams[st].outstanding with
  | some _, some q => (s.stallExpired st q).afterFree
  | _, _ => s

/-- STALL_TIMER_EXPIRY (R100). -/
def execStallTimerExpiry (st : StreamId) (s : State) : Host.Outcome State Fault Refusal :=
  .next (s.takeStall st).settle

/-- The expiry of the memory timeout: the access is abandoned and treated as answered with an error (R105). An access
at its full timeout has just been presented: an earlier access ended first, and the expiry does not happen (R105). -/
def State.timeOut (s : State) : State :=
  match s.bus.port with
  | some f => if f.timeout = memoryTimeoutTime then s else s.freePort.accessFailed f
  | none => s

/-- MEMORY_TIMEOUT (R105). -/
def execMemoryTimeout (s : State) : Host.Outcome State Fault Refusal := .next s.timeOut.settle

/-- QUIET_PERIOD_END (R106): the first access of the start may be presented. -/
def execQuietPeriodEnd (s : State) : Host.Outcome State Fault Refusal :=
  .next { s with bus := { s.bus with quiet := none } }.settle

/-- IDLE_SAMPLE_INTERVAL (R121): a new sample starts. -/
def execIdleSampleInterval (s : State) : Host.Outcome State Fault Refusal :=
  .next { s with mon := { s.mon with sampler := s.mon.sampler.wake } }.settle

/-- The completion of the sample in progress, if there is one (R119, R123). -/
def State.takeSample (s : State) (l : Level) (pins : Straps) : State :=
  if s.mon.sampler.inProgress then s.sampleDone l pins else s

/-- SAMPLE_COMPLETE (R123). -/
def execSampleComplete (l : Level) (pins : Straps) (s : State) : Host.Outcome State Fault Refusal :=
  .next (s.takeSample l pins).settle

/-- STATUS_RETRY_WAIT (R167). -/
def execStatusRetryWait (s : State) : Host.Outcome State Fault Refusal :=
  .next (if s.ev.retryWait.isSome then { s with ev := s.ev.retryWord } else s).settle

/-- POWER_ON (R137): a power-on reset is taken; its condition holds until the supply has stood above the threshold for
the power-on delay, which starts with a rise. -/
def execPowerOn (rising : Bool) (s : State) : Host.Outcome State Fault Refusal :=
  let s := s.takeReset .powerOn
  .next { s with su := { s.su with
    powerOn := true, supplyUp := rising, powerOnDelay := if rising then some powerOnTime else none } }.settle

/-- The end of the power-on delay: the power-on condition ends, and RESET with the last condition (R137). -/
def State.endPowerOn (s : State) (pins : Straps) : State :=
  if s.su.powerOnDelay.isSome then
    { s with su := { s.su with powerOn := false, powerOnDelay := none } }.exitReset pins
  else s

/-- POWER_ON_DELAY_END (R137). -/
def execPowerOnDelayEnd (pins : Straps) (s : State) : Host.Outcome State Fault Refusal :=
  .next (s.endPowerOn pins).settle

/-- RESET_LINE_ASSERT (R137). -/
def execResetLineAssert (s : State) : Host.Outcome State Fault Refusal :=
  let s := s.takeReset .line
  .next { s with su := { s.su with line := true } }.settle

/-- RESET_LINE_RELEASE (R137). -/
def execResetLineRelease (pins : Straps) (s : State) : Host.Outcome State Fault Refusal :=
  .next ({ s with su := { s.su with line := false } }.exitReset pins).settle

/-- ACK (R162): not taken while the operating state is RESET. -/
def execAck (s : State) : Host.Outcome State Fault Refusal :=
  .next (if s.su.opState = .reset then s else { s with ev := s.ev.acknowledge }).settle

end Sys2Proof.Machine
end

