-- ==== Sys2Proof/Machine/Time.lean ====
section
/-! DEFINITION. The block's own clock: what a CLK period does when no command waits (assumption 1). -/

namespace Sys2Proof.Machine

/-- A count-down timer that runs stands at its end. -/
def timerDue (t : Option Nat) : Bool := t == some 0

/-- A count-down timer that runs loses one unit. -/
def countDown (t : Option Nat) : Option Nat := t.map (· - 1)

/-- The time left of the sample in progress or of the wait for the next one. -/
def Sampler.remaining : Sampler → Nat
  | .converting n | .resting n | .timedOn n _ _ => n

/-- The converter one unit of the time base later; a sample on an older base does not count in it (R119). -/
def Sampler.advance : Sampler → Sampler
  | .converting n => .converting (n - 1)
  | .resting n => .resting (n - 1)
  | .timedOn n d p => .timedOn n d p

/-- The converter one CLK period later: only a sample on an older base moves, in units of the divider it began on
(R119, assumption 36). -/
def Sampler.period : Sampler → Sampler
  | .timedOn n d p => if p + 1 < d then .timedOn n d (p + 1) else .timedOn (n - 1) d 0
  | x => x

/-- A stream's stall timer stands at the stall limit or above (R100). -/
def stallDue (limit : Nat) (t : Option Nat) : Bool :=
  match t with
  | some c => limit ≤ c
  | none => false

/-- The idle or stall timer of a stream stands at its end. -/
def StreamRec.due (limit : Nat) (r : StreamRec) : Bool := timerDue r.idleTimer || stallDue limit r.stallTimer

/-- A timer stands at its end: its command is to be taken before time goes on (assumption 1). -/
def State.due (s : State) : Bool :=
  s.streams.toList.any (StreamRec.due s.cfg.stallLimit)
    || timerDue (s.bus.port.map fun f => f.timeout) || timerDue s.bus.quiet || s.mon.sampler.remaining == 0
    || timerDue s.ev.retryWait || timerDue s.su.powerOnDelay

/-- The timers of a stream one microsecond later (R15, R99). -/
def StreamRec.tick (r : StreamRec) : StreamRec :=
  { r with idleTimer := countDown r.idleTimer, stallTimer := r.stallTimer.map (· + 1) }

/-- The time stamp count one microsecond later: milliseconds since the exit from RESET, modulo 2 to the power 32
(R153). -/
def TimeBase.tickMicro (t : TimeBase) : TimeBase :=
  if t.micros + 1 < microsPerMilli then { t with phase := 0, micros := t.micros + 1 }
  else { phase := 0, micros := 0, millis := t.millis + 1 }

/-- One time-base microsecond: every running timer moves (R15, R99, R105, R106, R119, R121, R137, R153, R167). -/
def State.tickMicro (s : State) : State :=
  { s with
    streams := #v[s.streams[0].tick, s.streams[1].tick, s.streams[2].tick, s.streams[3].tick]
    bus := { s.bus with
      port := s.bus.port.map fun f => { f with timeout := f.timeout - 1 }
      quiet := countDown s.bus.quiet }
    mon := { s.mon with sampler := s.mon.sampler.advance }
    ev := { s.ev with retryWait := countDown s.ev.retryWait }
    su := { s.su with powerOnDelay := countDown s.su.powerOnDelay }
    clk := s.clk.tickMicro }

/-- One CLK period: the time base's period is the divider times that of CLK (R149). A change of divider keeps the phase,
and the unit in progress ends once the phase reaches the new divider (assumption 37). -/
def State.tickClk (s : State) : State :=
  let s := { s with mon := { s.mon with sampler := s.mon.sampler.period } }
  if s.clk.phase + 1 < s.cfg.divider then { s with clk := { s.clk with phase := s.clk.phase + 1 } } else s.tickMicro

/-- The block with no command to take: the moment is over, the arbiter grants if it can, and one CLK period passes
unless a timer stands at its end (assumption 1). -/
def State.idle (s : State) : State := (if s.due then s else s.tickClk).settle

end Sys2Proof.Machine
end

