-- ==== Sys2Proof/Machine/Dispatch.lean ====
section
/-! DEFINITION. The meaning of each command. -/

namespace Sys2Proof.Machine

/-- The effect of a command on everything but the queue. -/
def exec (i : Instr) (s : State) : Host.Outcome State Fault Refusal :=
  match i with
  | .groupWrite st a m d t => Sys2Proof.Machine.execGroupWrite st a m d t s
  | .closeWrite st a m d t => Sys2Proof.Machine.execCloseWrite st a m d t s
  | .abortWrite st a m d t => Sys2Proof.Machine.execAbortWrite st a m d t s
  | .plainWrite st a m d t => Sys2Proof.Machine.execPlainWrite st a m d t s
  | .plainRead st k a m d t => Sys2Proof.Machine.execPlainRead st k a m d t s
  | .idleTimerExpiry st => Sys2Proof.Machine.execIdleTimerExpiry st s
  | .stallTimerExpiry st => Sys2Proof.Machine.execStallTimerExpiry st s
  | .memoryTimeout => Sys2Proof.Machine.execMemoryTimeout s
  | .quietPeriodEnd => Sys2Proof.Machine.execQuietPeriodEnd s
  | .idleSampleInterval => Sys2Proof.Machine.execIdleSampleInterval s
  | .sampleComplete l p => Sys2Proof.Machine.execSampleComplete l p s
  | .statusRetryWait => Sys2Proof.Machine.execStatusRetryWait s
  | .powerOn rising => Sys2Proof.Machine.execPowerOn rising s
  | .powerOnDelayEnd p => Sys2Proof.Machine.execPowerOnDelayEnd p s
  | .resetLineAssert => Sys2Proof.Machine.execResetLineAssert s
  | .resetLineRelease p => Sys2Proof.Machine.execResetLineRelease p s
  | .ack => Sys2Proof.Machine.execAck s
  | .journalWriteComplete n => Sys2Proof.Machine.execJournalWriteComplete n s
  | .sealComplete n => Sys2Proof.Machine.execSealComplete n s
  | .applyWriteComplete n => Sys2Proof.Machine.execApplyWriteComplete n s
  | .retireWriteComplete n => Sys2Proof.Machine.execRetireWriteComplete n s
  | .statusWordComplete n => Sys2Proof.Machine.execStatusWordComplete n s
  | .loaderReadComplete n d => Sys2Proof.Machine.execLoaderReadComplete n d s
  | .scanReadComplete n d => Sys2Proof.Machine.execScanReadComplete n d s
  | .replayReadComplete n d => Sys2Proof.Machine.execReplayReadComplete n d s
  | .replayWriteComplete n => Sys2Proof.Machine.execReplayWriteComplete n s
  | .recoveryRetireComplete n => Sys2Proof.Machine.execRecoveryRetireComplete n s
  | .forwardedAccessComplete n d => Sys2Proof.Machine.execForwardedAccessComplete n d s
  | .memoryErrorAnswer n => Sys2Proof.Machine.execMemoryErrorAnswer n s
  | .staleAnswer n e d => Sys2Proof.Machine.execStaleAnswer n e d s

end Sys2Proof.Machine
end

