-- ==== Sys2Proof/Machine/Step.lean ====
section
/-! DEFINITION. One step: the command at the front of the queue, or a CLK period when none waits. -/

namespace Sys2Proof.Machine

/-- Take the command at the front of the queue and run it on the state with the queue's rest; with an empty queue, the
block is left to its clock (assumption 1). -/
def step (s : State) : Host.Outcome State Fault Refusal :=
  match s.pending with
  | c :: rest => exec c { s with pending := rest }
  | [] => .next s.idle

/-- The state with the command that a word spells at the front of its queue; unchanged when the word spells none. -/
def State.withFetchWord (s : State) (nbits w : Nat) : State :=
  match decodeTableWord nbits w with
  | some c => { s with pending := c :: s.pending }
  | none => s

end Sys2Proof.Machine
end

