-- ==== Sys2Proof/Safety.lean ====
section
/-! DEFINITION. The vocabulary of the statements: when a request is taken, who waits, and the laws that every step
keeps. -/

namespace Sys2Proof.Machine

/-! ## When a request is taken, and who waits -/

/-- The port takes a request of the stream and answers it at none of lines 1 to 3 of R89 for its stream's sake: the
port is ready and the stream has nothing outstanding. -/
abbrev State.takes (s : State) (st : StreamId) : Prop := s.ready = true ∧ s.streams[st].outstanding = none

/-- The same for a WRITE, which FAULT refuses (R89, line 3). -/
abbrev State.takesWrite (s : State) (st : StreamId) : Prop := s.takes st ∧ s.su.opState ≠ .fault

/-- No write waits for a row (R8) or for an entry (R31). -/
abbrev State.noWaiters (s : State) : Prop := s.rowWait = [] ∧ s.entryWait = []

/-- No waiting write can be served as things stand: the store is full if a write waits for an entry (R31), and no row is
FREE if one waits for a row (R8). -/
abbrev State.waitsStand (s : State) : Prop :=
  (s.entryWait = [] ∨ s.freeEntries = 0) ∧ (s.rowWait = [] ∨ s.lowestFree = none)

/-- `f` is the access in flight, and n is its number (R104). -/
abbrev State.carries (s : State) (n : AccessNumber) (f : InFlight) : Prop := s.bus.port = some f ∧ f.number = n

/-- The record of a stream in NOTIFY with nothing outstanding (R1, R2). -/
def StreamRec.notified (c : Cause) : StreamRec := { StreamRec.reset with group := .notify, notify := some c }

/-! ## The law of the reset conditions (R137, R139, R140) -/

/-- The operating state is RESET exactly while a reset condition holds between steps (the CUT condition begins and
ends inside one step, assumption 11). The cause is being formed in RESET and fixed outside it, the straps are held
outside it, and a strap error is recorded in FAULT only (R141). -/
structure State.resetLaw (s : State) : Prop where
  conditions : s.su.opState = .reset ↔ s.su.powerOn = true ∨ s.su.line = true
  forming : s.su.opState = .reset ↔ s.su.pendingCause.isSome = true
  fixed : s.su.opState ≠ .reset ↔ s.su.resetCause.isSome = true
  straps : s.su.opState ≠ .reset ↔ s.su.straps.isSome = true
  delay : s.su.powerOnDelay.isSome = true → s.su.powerOn = true
  strapError : s.su.strapError = true → s.su.opState = .fault

/-! ## The law of the memory port (R116, R117, R135) -/

/-- The accesses each operating state lets the memory port carry: none in RESET and WAIT, the loader's in LOAD, the
recovery pass's in RECOVER, and those of F, JW, AP and S in a serving state. -/
def Purpose.allowedIn (p : Purpose) : OpState → Bool
  | .reset | .wait => false
  | .load => p == .loader
  | .recover => p == .scan || p == .replayRead || p == .replayWrite || p == .recoveryRetire
  | .run | .safe | .provision | .fault => p.cls.isSome || p == .status

/-- The port carries, and the loader or the recovery pass asks for, only what the operating state allows; neither asks
while an access is in flight. A recovery pass runs exactly in RECOVER. -/
structure State.portLaw (s : State) : Prop where
  port : ∀ f, s.bus.port = some f → f.purpose.allowedIn s.su.opState = true
  solo : ∀ q, s.bus.solo = some q → q.purpose.allowedIn s.su.opState = true ∧ s.su.opState.serving = false
  apart : s.bus.port.isSome = true → s.bus.solo = none
  waiting : ∀ w ∈ s.bus.waiting, w.purpose.cls.isSome = true
  recovery : s.recovery.isSome = true ↔ s.su.opState = .recover

/-! ## The law of the start (R135: outside a serving state nothing is under way) -/

/-- Outside the serving states every stream, row, wait list and the engine are as a reset leaves them, no record is
presented, and the status writer has at most a summary whose snapshot is still to be taken. -/
structure State.startLaw (s : State) : Prop where
  streams : s.su.opState.serving = false → s.streams = Vector.replicate 4 StreamRec.reset
  rows : s.su.opState.serving = false → s.rows = Vector.replicate 8 Row.free
  waits : s.su.opState.serving = false → s.noWaiters
  engine : s.su.opState.serving = false → s.eng = Engine.reset
  requests : s.su.opState.serving = false → s.bus.waiting = []
  presentation : s.su.opState.serving = false → s.ev.pres = .none ∧ s.ev.given = none
  writer : s.su.opState.serving = false →
    s.ev.statusFailure = false ∧ s.ev.retryWait = none ∧ ∀ j, s.ev.job = some j → j.kind = .summary ∧ j.words = []

/-! ## The law of the monitor (R120, R128, R131, R134) -/

/-- Between steps the monitor is never in CUT; it is in BELOW exactly in RESET and WAIT; what it last published is its
state, the band of its last level and the budget of that band; and neither run has reached the cut count. -/
structure State.monitorLaw (s : State) : Prop where
  below : s.mon.state = .below ↔ s.su.opState = .reset ∨ s.su.opState = .wait
  notCut : s.mon.state ≠ .cut
  published : s.mon.published =
    { state := s.mon.state, band := s.mon.level.map bandOf, budget := budgetOf s.cfg (s.mon.level.map bandOf) }
  release : s.mon.releaseRun < s.cfg.params.cutCount
  cut : s.mon.cutRun < s.cfg.params.cutCount

/-- The four laws of the part's phases together: none is kept by every step without the others. -/
structure State.phaseLaw (s : State) : Prop where
  reset : s.resetLaw
  port : s.portLaw
  start : s.startLaw
  monitor : s.monitorLaw

/-! ## Presentation begins (R159, R160) -/

/-- `f` is `e` once presentation may run: from NONE with a record waiting, UPDATING for the head under the next
number, its update job given, and begun if no job is in progress; otherwise `e` itself. -/
def EventUnit.presentsHead (e f : EventUnit) : Prop :=
  (e.pres ≠ .none ∨ e.waiting = [] → f = e)
  ∧ ∀ (r : Record) (rest : List Record), e.pres = .none → e.waiting = r :: rest →
    let number := if e.presNumber + 1 = 0 then 1 else e.presNumber + 1
    let taken : EventUnit := { e with waiting := rest, presented := some r, presNumber := number, pres := .updating }
    (e.job.isSome = true → f = { taken with given := some .update })
    ∧ (e.job = none → f =
        { taken with
          given := none, job := some { kind := .update, words := presentationWords r number, index := 0 }
          sReq := some 1, sCount := 0 })

/-! ## The law of the event queue (R154, R155, R159, R165) -/

/-- What the presentation state has the status writer write: an update in UPDATING, a clear in CLEARING. -/
def PresState.owes : PresState → List JobKind
  | .none | .shown => []
  | .updating => [.update]
  | .clearing => [.clear]

/-- The update and clear jobs that the status writer has in progress or has been given. -/
def EventUnit.presentationJobs (e : EventUnit) : List JobKind :=
  ((e.job.map Job.kind).toList ++ e.given.toList).filter (· != .summary)

/-- The queue holds at most 16 records; one is presented exactly in UPDATING and SHOWN; the waiting records stand
highest class first, none of class 0, each with a repeat count of 1 to 255; the counters stay at or below 65,535; and
the status writer has the one job that the presentation state owes. -/
structure EventUnit.lawful (e : EventUnit) : Prop where
  size : e.queued ≤ maxRecords
  presented : e.presented.isSome = true ↔ e.pres = .updating ∨ e.pres = .shown
  order : e.waiting.Pairwise fun a b => b.cls ≤ a.cls
  records : ∀ r ∈ e.waiting, r.cls ≠ 0 ∧ 1 ≤ r.repeats ∧ r.repeats ≤ 255
  counters : ∀ k : Fin 18, e.counters[k] ≤ 65535
  jobs : e.presentationJobs = e.pres.owes
  given : e.given ≠ some .summary

end Sys2Proof.Machine
end

