-- ==== Sys2Proof/Certificates/Slice0/Obligations.lean ====
section
/-! DEFINITION. The statements for the provers. `emit`, `respond`, `raise`, `setRow`, `setStream`, `ask`, `askSolo`
and `settle` are the model's named operations: a response, an answer to a stream's outstanding request, an event, a row
or a stream record put in place, a request that begins waiting, and the close of a step, in which the arbiter may
grant. Of what the statements say these are the model's own choices: the response record (assumption 7), the moment
count and the flag of a command taken together with the next (8), the free-value counter (5), and the grant at the close
of a step (31). -/

open Sys2Proof Sys2Proof.Machine

/-! ## The block, its queue and its clock -/

/-- A step with a command at the front of the queue is that command on the state with the queue's rest. -/
def Obligations.StepRunsTheFrontCommand : Prop :=
  ∀ (s : State) (c : Instr) (rest : List Instr), s.pending = c :: rest →
    step s = exec c { s with pending := rest }

/-- A step on an empty queue is one CLK period, the model's choice (assumption 1): time stands still while a timer is
at its end; otherwise the phase moves on, and a full unit moves every running timer and the time stamp (R149). A sample
that the divider has changed under counts on the base it began on (R119, assumption 36). That the phase is kept where
the divider changes, so that a unit in progress may end above it, is assumption 37. -/
def Obligations.EmptyQueueIsOneClkPeriod : Prop :=
  ∀ s : State, s.pending = [] →
    let older : Sampler :=
      match s.mon.sampler with
      | .timedOn n d p => if p + 1 < d then .timedOn n d (p + 1) else .timedOn (n - 1) d 0
      | x => x
    (s.due = true → step s = .next s.settle)
    ∧ (s.due = false → s.clk.phase + 1 < s.cfg.divider →
        step s = .next
          ({ s with
              clk := { s.clk with phase := s.clk.phase + 1 }, mon := { s.mon with sampler := older } } : State).settle)
    ∧ (s.due = false → s.cfg.divider ≤ s.clk.phase + 1 → ∃ t : State, step s = .next t.settle
        ∧ (∀ st : StreamId, t.streams[st] = { s.streams[st] with
            idleTimer := s.streams[st].idleTimer.map (· - 1)
            stallTimer := s.streams[st].stallTimer.map (· + 1) })
        ∧ t.bus = { s.bus with
            port := s.bus.port.map fun f => { f with timeout := f.timeout - 1 }
            quiet := s.bus.quiet.map (· - 1) }
        ∧ t.mon = { s.mon with sampler :=
            match s.mon.sampler with
            | .converting n => .converting (n - 1)
            | .resting n => .resting (n - 1)
            | .timedOn _ _ _ => older }
        ∧ t.ev = { s.ev with retryWait := s.ev.retryWait.map (· - 1) }
        ∧ t.su = { s.su with powerOnDelay := s.su.powerOnDelay.map (· - 1) }
        ∧ t.clk.phase = 0
        ∧ (s.clk.micros + 1 < 1000 → t.clk.micros = s.clk.micros + 1 ∧ t.clk.millis = s.clk.millis)
        ∧ (1000 ≤ s.clk.micros + 1 → t.clk.micros = 0 ∧ t.clk.millis = s.clk.millis + 1)
        ∧ t.rows = s.rows ∧ t.eng = s.eng ∧ t.responses = s.responses ∧ t.cfg = s.cfg ∧ t.recovery = s.recovery
        ∧ t.rowWait = s.rowWait ∧ t.entryWait = s.entryWait ∧ t.pending = s.pending)

/-- Every command answers a next state, in every state and for every operand; it leaves the queue alone, and the
responses given so far stay, in their order (R85). -/
def Obligations.EveryCommandAnswersNext : Prop :=
  ∀ (c : Instr) (s : State), ∃ t, exec c s = .next t ∧ t.pending = s.pending ∧ s.responses <+: t.responses

/-! ## Resets and the exit from RESET -/

/-- The state right after reset (its pins and its converter: assumption 10) keeps the laws that the invariants below
carry on. -/
def Obligations.ResetStateIsLawful : Prop := State.reset.phaseLaw ∧ State.reset.ev.lawful

/-- A RESET line reset and a power-on reset leave every block at its reset value and set their condition. What stays is
named: the queue, the responses given, the moment's count, the time base's counts and the free-value counter
(assumptions 5, 7, 8, 20). The access number is 0, and that the first access presented then carries 0 itself is
assumption 4. The converter keeps sampling: a sample in progress completes, on the base it began on (R120, R149,
assumption 36), and a PERIODIC wait ends at once (R122). The fields of an unused region entry are assumption 35. -/
def Obligations.ResetsSetEveryBlock : Prop :=
  ∀ (s : State) (c : Instr), c = .resetLineAssert ∨ c = .powerOn true ∨ c = .powerOn false →
    ∃ t, exec c s = .next t
    ∧ t.streams = Vector.replicate 4 { group := .idle, openRow := none, notify := none, idleTimer := none
                                       outstanding := none, stallTimer := none }
    ∧ t.rows = Vector.replicate 8 { owner := none, state := .free, entries := [], seq := none, slot := none }
    ∧ t.rowWait = [] ∧ t.entryWait = [] ∧ t.freeEntries = 256
    ∧ t.eng = { state := .running, queue := [], jw := none, ringHead := 0, badSlots := [], nextSeq := 1, ap := none }
    ∧ t.recovery = none
    ∧ t.bus = { port := none, nextNumber := 0, quiet := none, waiting := [], solo := none, lastClass := .ap
                lastStream := 3, moment := s.bus.moment + 1 }
    ∧ t.mon.state = .below ∧ t.mon.level = none ∧ t.mon.releaseRun = 0 ∧ t.mon.cutRun = 0
    ∧ (∀ k, s.mon.sampler = .resting k → t.mon.sampler = .converting 16)
    ∧ (∀ k, s.mon.sampler = .converting k →
        t.mon.sampler = if s.cfg.divider = 40 then .converting k else .timedOn k s.cfg.divider s.clk.phase)
    ∧ (∀ k d p, s.mon.sampler = .timedOn k d p → t.mon.sampler = .timedOn k d p) ∧ t.continuous = true
    ∧ t.cfg = { divider := 40, stallLimit := 2000, idleTimeouts := #v[0, 0, 0, 0]
                regions := Vector.replicate 8 { used := false, base := 0, limit := 0, kind := .pass }
                defaultKind := .pass
                params := { warnLevel := 12, cutLevel := 6, releaseLevel := 16, cutCount := 4, margin := 2
                            interval := 8 }
                budgets := Vector.replicate 8 0
                classes := #v[1, 3, 1, 2, 2, 3, 3, 3, 2, 1, 2, 1, 2, 1, 2, 1, 2, 2] }
    ∧ t.su.opState = .reset ∧ t.su.image = [] ∧ t.su.validity = .notRead ∧ t.su.strapError = false
    ∧ t.su.straps = none
    ∧ (c = .resetLineAssert → t.su.line = true ∧ t.su.powerOn = s.su.powerOn)
    ∧ (c ≠ .resetLineAssert → t.su.powerOn = true ∧ t.su.line = s.su.line)
    ∧ t.ev = { counters := Vector.replicate 18 0, waiting := [], presented := none, lost := 0, stray := 0
               pres := .none, presNumber := 0, job := none, given := none, summaryPending := false
               statusFailure := false, retryWait := none, sReq := none, sCount := 0 }
    ∧ t.pending = s.pending ∧ t.responses = s.responses ∧ t.clk = s.clk ∧ t.freeIndex = s.freeIndex
    ∧ t.ready = false ∧ t.attn = false ∧ t.flt = false

/-- The reset commands complete, and the cause is formed from every reset taken since the last exit: POWER_ON before
LINE before CUT (R139). That POWER_ON stands for the supply at its threshold in either direction, and that a rise starts
the delay of 2 ms and a fall stops it, is assumption 18. -/
def Obligations.ResetCauseIsTheStrongest : Prop :=
  ∀ s : State,
    (∀ b, ∃ t, exec (.powerOn b) s = .next t ∧ t.su.pendingCause = some .powerOn ∧ t.su.resetCause = none
      ∧ t.su.powerOn = true ∧ t.su.line = s.su.line ∧ t.su.supplyUp = b
      ∧ t.su.powerOnDelay = if b then some 2000 else none)
    ∧ (∃ t, exec .resetLineAssert s = .next t ∧ t.su.line = true ∧ t.su.powerOn = s.su.powerOn
      ∧ t.su.powerOnDelay = s.su.powerOnDelay ∧ t.su.resetCause = none
      ∧ t.su.pendingCause = if s.su.pendingCause = some .powerOn then some .powerOn else some .line)
    ∧ (∀ pins, (s.takeReset .cut).su.pendingCause = (if s.su.pendingCause = none then some .cut else s.su.pendingCause)
      ∧ ((s.su.opState = .reset ∧ s.su.powerOn = false ∧ s.su.line = false) →
          (s.exitReset pins).su.resetCause = s.su.pendingCause))

/-- The end of the last reset condition is the exit from RESET: straps sampled, cause fixed, time stamp at 0, quiet
period of 250 us, WAIT, a summary asked for (assumption 15); while another condition holds, the end of one leaves the
part in RESET (R137, R140, R106). That the end of the power-on delay is taken whatever count the delay stands at is
assumption 2, and what starts and stops the delay is assumption 18; that the divider's phase is kept across the exit,
and the count below a millisecond set to 0 with the time stamp, is assumption 20. -/
def Obligations.LastConditionEndsReset : Prop :=
  (∀ (s : State) (pins : Straps), s.su.opState = .reset → s.su.strapError = false →
     let out (u : StartUp) : State :=
       { s with
         su := { u with straps := some pins, opState := .wait, resetCause := s.su.pendingCause, pendingCause := none }
         clk := { s.clk with micros := 0, millis := 0 }
         bus := { s.bus with quiet := some 250, moment := s.bus.moment + 1 }
         ev := s.ev.askSummary }
     (s.su.powerOnDelay.isSome = true → s.su.line = false →
       exec (.powerOnDelayEnd pins) s = .next (out { s.su with powerOn := false, powerOnDelay := none }))
     ∧ (s.su.powerOn = false → exec (.resetLineRelease pins) s = .next (out { s.su with line := false })))
  ∧ (∀ (s : State) (pins : Straps), s.su.opState = .reset →
       (s.su.powerOnDelay.isSome = true → s.su.line = true →
         exec (.powerOnDelayEnd pins) s = .next
           ({ s with su := { s.su with powerOn := false, powerOnDelay := none } } : State).settle)
       ∧ (s.su.powerOn = true →
         exec (.resetLineRelease pins) s = .next ({ s with su := { s.su with line := false } } : State).settle))

/-- The strapped geometry (R67, R140): the bridge area ends with memory and holds the two blocks and the slots, 28, 60,
124 or 252 of them, and it is never larger than half the memory. -/
def Obligations.StrapGeometry : Prop :=
  ∀ p : Straps,
    memWordsOf p = 262144 * 2 ^ p.msz.toNat ∧ bridgeBaseOf p + 4096 * 2 ^ p.bas.toNat = memWordsOf p
    ∧ bridgeBaseOf p + 512 + 128 * slotCountOf p = memWordsOf p
    ∧ slotCountOf p = [28, 60, 124, 252].getD p.bas.toNat 0
    ∧ 2 * bridgeWordsOf p ≤ memWordsOf p ∧ memWordsOf p ≤ 2 ^ 25

/-! ## Requests at the port -/

/-- The checks at taking. A request presented while the port is not ready has no effect (R86). A request of a stream
that has one outstanding is answered PROTOCOL with its event, and nothing else changes (R88). A READ whose attribute
is not NONE is answered PROTOCOL with its event; in FAULT every WRITE is answered FAULT without an event (R89, lines 2
and 3). -/
def Obligations.ChecksAtTheRequestPort : Prop :=
  (∀ (s : State) (st : StreamId) (k : Attr) (a : Addr) (m : Mask) (d : Word) (tog : Bool),
     s.su.opState = .reset ∨ s.su.opState = .wait ∨ s.su.opState = .load ∨ s.su.opState = .recover →
     exec (.groupWrite st a m d tog) s = .next (s.settle tog)
     ∧ exec (.closeWrite st a m d tog) s = .next (s.settle tog)
     ∧ exec (.abortWrite st a m d tog) s = .next (s.settle tog)
     ∧ exec (.plainWrite st a m d tog) s = .next (s.settle tog)
     ∧ exec (.plainRead st k a m d tog) s = .next (s.settle tog))
  ∧ (∀ (s : State) (st : StreamId) (k : Attr) (a : Addr) (m : Mask) (d : Word) (tog : Bool),
       s.ready = true → s.streams[st].outstanding.isSome = true →
       let t : State := ((s.emit st .protocol 0).raise .protocol { stream := some st }).settle tog
       exec (.groupWrite st a m d tog) s = .next t ∧ exec (.closeWrite st a m d tog) s = .next t
       ∧ exec (.abortWrite st a m d tog) s = .next t ∧ exec (.plainWrite st a m d tog) s = .next t
       ∧ exec (.plainRead st k a m d tog) s = .next t)
  ∧ (∀ (s : State) (st : StreamId) (k : Attr) (a : Addr) (m : Mask) (d : Word) (tog : Bool), s.takes st →
       (k ≠ .none → exec (.plainRead st k a m d tog) s = .next
         (((s.emit st .protocol 0).raise .protocol { stream := some st }).settle tog))
       ∧ (s.su.opState = .fault →
         let t : State := (s.emit st .fault 0).settle tog
         exec (.groupWrite st a m d tog) s = .next t ∧ exec (.closeWrite st a m d tog) s = .next t
         ∧ exec (.abortWrite st a m d tog) s = .next t ∧ exec (.plainWrite st a m d tog) s = .next t))

/-- A plain write is routed by its word's kind: PASS, or BRIDGE in PROVISION, to the forwarder, with mask 0 answered
DONE at once; any other kind is answered REGION with its event; the stream keeps its group state. A READ of attribute
NONE: a PASS or BRIDGE word is forwarded; an ABSENT or out-of-range word is answered REGION (R93 to R96, R98). -/
def Obligations.PlainRequestRouting : Prop :=
  (∀ (s : State) (st : StreamId) (a : Addr) (m : Mask) (d : Word) (tog : Bool), s.takesWrite st →
     let forwarded := s.wordKind a = .pass ∨ (s.wordKind a = .bridge ∧ s.su.opState = .provision)
     (forwarded → m = 0 → exec (.plainWrite st a m d tog) s = .next ((s.respond st .done).settle tog))
     ∧ (forwarded → m ≠ 0 → exec (.plainWrite st a m d tog) s = .next
         (((s.setStream st { s.streams[st] with
             outstanding :=
               some { write := true, attr := .none, addr := a, mask := m, data := d, captured := [] } }).ask
           (.forwarded st) { write := true, addr := a, mask := m, data := d } 1).settle tog))
     ∧ (¬ forwarded → exec (.plainWrite st a m d tog) s = .next
         (((s.respond st .region).raise .region { stream := some st, addr := some a }).settle tog)))
  ∧ (∀ (s : State) (st : StreamId) (a : Addr) (m : Mask) (d : Word) (tog : Bool), s.takes st →
       (s.wordKind a = .pass ∨ s.wordKind a = .bridge → exec (.plainRead st .none a m d tog) s = .next
           (((s.setStream st { s.streams[st] with
               outstanding :=
                 some { write := false, attr := .none, addr := a, mask := m, data := d, captured := [] } }).ask
             (.forwarded st) { write := false, addr := a, mask := 15, data := 0 } 1).settle tog))
       ∧ (s.wordKind a = .absent ∨ s.wordKind a = .outOfRange → exec (.plainRead st .none a m d tog) s = .next
           (((s.respond st .region).raise .region { stream := some st, addr := some a }).settle tog)))

/-- A guarded read captures its layers at taking. If they supply every lane it is answered DONE at once with each lane's
byte from the newest layer that holds it; otherwise the word is read from memory (R37, R39, R40). The layers, newest
first, are the entries for the word of the reader's own OPEN row and then of the rows of the commit queue from its tail
(R37). -/
def Obligations.GuardedReadFromLayers : Prop :=
  ∀ (s : State) (st : StreamId) (a : Addr) (m : Mask) (d : Word) (tog : Bool), s.takes st → s.wordKind a = .guarded →
    let layers := s.layersFor st a
    let own : List RowId :=
      match s.streams[st].group, s.streams[st].openRow with
      | .opened, some r => [r]
      | _, _ => []
    layers = ((own ++ s.eng.queue.reverse).filterMap fun r =>
      (s.rows[r].entries.find? fun e => e.addr == a).map fun e => { mask := e.mask, data := e.data })
    ∧ ((∀ n < 4, ∃ l ∈ layers, l.mask.getLsbD n = true) →
      ∃ w : Word, exec (.plainRead st .none a m d tog) s = .next ((s.respond st .done w).settle tog)
        ∧ ∀ n < 4, ∃ l, layers.find? (fun l => l.mask.getLsbD n) = some l ∧ laneByte w n = laneByte l.data n)
    ∧ ((∃ n < 4, ∀ l ∈ layers, l.mask.getLsbD n = false) → exec (.plainRead st .none a m d tog) s = .next
        (((s.setStream st { s.streams[st] with
            outstanding :=
              some { write := false, attr := .none, addr := a, mask := m, data := d, captured := layers } }).ask
          (.forwarded st) { write := false, addr := a, mask := 15, data := 0 } 1).settle tog))

/-- The kind of a word in each serving state (R91, R92). -/
def Obligations.WordKindTests : Prop :=
  ∀ (s : State) (a : Addr),
    (s.memWords ≤ a.toNat → s.wordKind a = .outOfRange)
    ∧ (a.toNat < s.memWords → s.bridgeBase ≤ a.toNat → s.su.strapError = false → s.wordKind a = .bridge)
    ∧ (a.toNat < s.memWords → s.su.strapError = true → s.su.opState ≠ .run → s.wordKind a = .pass)
    ∧ (a.toNat < s.memWords → a.toNat < s.bridgeBase → s.su.opState ≠ .run → s.wordKind a = .pass)
    ∧ (∀ r, a.toNat < s.memWords → a.toNat < s.bridgeBase → s.su.opState = .run →
        r ∈ s.cfg.regions.toList → r.used = true → r.base ≤ a → a ≤ r.limit →
        (∀ q ∈ s.cfg.regions.toList, q.used = true → q.base ≤ a → a ≤ q.limit → q = r) →
        s.wordKind a = r.kind.wordKind)
    ∧ (a.toNat < s.memWords → a.toNat < s.bridgeBase → s.su.opState = .run →
        (∀ r ∈ s.cfg.regions.toList, r.used = true → ¬ (r.base ≤ a ∧ a ≤ r.limit)) →
        s.wordKind a = s.cfg.defaultKind.wordKind)

/-! ## Grouped writes -/

/-- An ABORT in IDLE is answered DONE and changes nothing; in NOTIFY it is answered ABORTED and the stream is IDLE; in
OPEN the row is freed, the stream is IDLE, and it is answered DONE. It raises no event and looks at neither the kind,
nor the engine, nor the monitor (R14). -/
def Obligations.AbortEndsTheBracket : Prop :=
  ∀ (s : State) (st : StreamId) (a : Addr) (m : Mask) (d : Word) (tog : Bool), s.takesWrite st →
    (s.streams[st].group = .idle → s.waitsStand →
      exec (.abortWrite st a m d tog) s = .next ((s.respond st .done).settle tog))
    ∧ (s.streams[st].group = .notify → s.waitsStand →
      exec (.abortWrite st a m d tog) s = .next
        (({ s with
            streams := s.streams.set st StreamRec.reset
            responses := s.responses ++ [{ stream := st, code := .aborted, data := 0 }] } : State).settle tog))
    ∧ (∀ r, s.streams[st].group = .opened → s.streams[st].openRow = some r → s.rows[r].state = .opened →
      s.noWaiters →
      exec (.abortWrite st a m d tog) s = .next
        (({ s with
            streams := s.streams.set st StreamRec.reset
            rows := s.rows.set r Row.free
            responses := s.responses ++ [{ stream := st, code := .done, data := 0 }] } : State).settle tog))

/-- In NOTIFY a GROUP write is answered ABORTED and leaves the stream as it is; a CLOSE is answered ABORTED and leaves
it IDLE; neither looks at address, mask, data or kind, or touches a row (R12). -/
def Obligations.NotifyAnswersAborted : Prop :=
  ∀ (s : State) (st : StreamId) (a : Addr) (m : Mask) (d : Word) (tog : Bool), s.takesWrite st →
    s.streams[st].group = .notify → s.waitsStand →
    exec (.groupWrite st a m d tog) s = .next ((s.respond st .aborted).settle tog)
    ∧ exec (.closeWrite st a m d tog) s = .next
        (({ s with
            streams := s.streams.set st StreamRec.reset
            responses := s.responses ++ [{ stream := st, code := .aborted, data := 0 }] } : State).settle tog)

/-- The first of tests 1 to 4 of R7 that refuses an opening write decides its answer: a GROUP write leaves the stream in
NOTIFY with the cause, a CLOSE in IDLE, and no row is created. REGION and CONFLICT raise their events, HALTED and HOLD
none. A conflict is an entry for the word in an OPEN row of another stream (R34). -/
def Obligations.OpeningRefusals : Prop :=
  ∀ (s : State) (st : StreamId) (a : Addr) (m : Mask) (d : Word) (tog : Bool), s.takesWrite st →
    s.streams[st].group = .idle → s.streams[st].openRow = none → s.waitsStand →
    let refused (u : State) (c : Cause) : Prop :=
      exec (.groupWrite st a m d tog) s = .next
        (({ u with
            streams := s.streams.set st (StreamRec.notified c)
            responses := s.responses ++ [{ stream := st, code := c.response, data := 0 }] } : State).settle tog)
      ∧ exec (.closeWrite st a m d tog) s = .next
        (({ u with
            streams := s.streams.set st StreamRec.reset
            responses := s.responses ++ [{ stream := st, code := c.response, data := 0 }] } : State).settle tog)
    let halted := s.eng.state = .halted
    let warn := s.mon.published.state = .warn
    (s.conflicts st a = true ↔ ∃ q : RowId, s.rows[q].state = .opened ∧ s.rows[q].owner ≠ some st
        ∧ ∃ e ∈ s.rows[q].entries, e.addr = a)
    ∧ (s.wordKind a ≠ .guarded → refused (s.raise .region { stream := some st, addr := some a }) .region)
    ∧ (s.wordKind a = .guarded → halted → refused s .halted)
    ∧ (s.wordKind a = .guarded → ¬ halted → warn → refused s .hold)
    ∧ (s.wordKind a = .guarded → ¬ halted → ¬ warn → m ≠ 0 → s.conflicts st a = true →
        refused (s.raise .conflict { stream := some st, addr := some a }) .conflict)

/-- An opening GROUP write that passes the tests takes the lowest-numbered FREE row, which becomes OPEN for the stream;
the stream goes to OPEN with its idle timer started; with a non-zero mask the row holds one entry, with mask 0 none;
the answer is DONE; the monitor samples without pause from then on (R4, R7, R9, R28, R121, R122). -/
def Obligations.OpeningGroupWrite : Prop :=
  ∀ (s : State) (st : StreamId) (r : RowId) (a : Addr) (m : Mask) (d : Word) (tog : Bool), s.takesWrite st →
    s.streams[st].group = .idle → s.waitsStand → s.wordKind a = .guarded → s.eng.state = .running →
    s.mon.published.state ≠ .warn → s.rows[r] = Row.free → (∀ q : RowId, q < r → s.rows[q].state ≠ .free) →
    let opened (es : List Entry) : State :=
      { s with
        streams := s.streams.set st
          { s.streams[st] with
            group := .opened, openRow := some r, outstanding := none, stallTimer := none
            idleTimer := if s.cfg.idleTimeouts[st] = 0 then none else some (s.cfg.idleTimeouts[st] * 1000) }
        rows := s.rows.set r { owner := some st, state := .opened, entries := es, seq := none, slot := none }
        mon := { s.mon with sampler := s.mon.sampler.wake }
        responses := s.responses ++ [{ stream := st, code := .done, data := 0 }] }
    (m = 0 → exec (.groupWrite st a m d tog) s = .next ((opened []).settle tog))
    ∧ (m ≠ 0 → s.conflicts st a = false → s.freeEntries ≠ 0 →
        ∃ e : Entry, e.addr = a ∧ e.mask = m
          ∧ (∀ n < 4, m.getLsbD n = true → laneByte e.data n = laneByte d n)
          ∧ exec (.groupWrite st a m d tog) s = .next
              (({ opened [e] with freeIndex := s.freeIndex + 1 } : State).settle tog))

/-- A close whose row holds no entries is answered DURABLE at once, whatever the monitor: the row is freed and the
stream is IDLE; no sequence number, no slot, no access. So is a CLOSE with mask 0 taken in IDLE that passes the tests
of R7 (R9, R19, R62). Where writes wait, the freeing serves the entry wait list and then offers the row (R6, R8, R32,
R44; that order is assumption 12). -/
def Obligations.EmptyClosesAreDurableAtOnce : Prop :=
  (∀ (s : State) (st : StreamId) (a : Addr) (d : Word) (tog : Bool), s.takesWrite st →
     s.streams[st].group = .idle → s.wordKind a = .guarded → s.eng.state = .running →
     s.mon.published.state ≠ .warn → (∃ r : RowId, s.rows[r] = Row.free) →
     (∀ q : RowId, s.rows[q].state = .free → s.rows[q] = Row.free) →
     let t : State :=
       { s with
         streams := s.streams.set st StreamRec.reset
         mon := { s.mon with sampler := s.mon.sampler.wake }
         responses := s.responses ++ [{ stream := st, code := .durable, data := 0 }] }
     (s.noWaiters → exec (.closeWrite st a 0 d tog) s = .next (t.settle tog))
     ∧ exec (.closeWrite st a 0 d tog) s = .next (t.serve.offer.settle tog))
  ∧ (∀ (s : State) (st : StreamId) (r : RowId) (a : Addr) (d : Word) (tog : Bool), s.takesWrite st →
       s.streams[st].group = .opened → s.streams[st].openRow = some r → s.rows[r].state = .opened →
       s.rows[r].entries = [] → s.wordKind a = .guarded →
       let t : State :=
         { s with
           streams := s.streams.set st StreamRec.reset
           rows := s.rows.set r Row.free
           responses := s.responses ++ [{ stream := st, code := .durable, data := 0 }] }
       (s.noWaiters → exec (.closeWrite st a 0 d tog) s = .next (t.settle tog))
       ∧ exec (.closeWrite st a 0 d tog) s = .next (t.serve.offer.settle tog))

/-- An opening write that finds no FREE row waits: the stream stays IDLE with the write outstanding, at the tail of the
row wait, its stall timer at 0 (R8, R99). With the store full and a row in the commit queue, a GROUP or CLOSE write in
OPEN that needs an entry waits: at the tail of the entry wait list, outstanding, idle timer stopped, stall timer at 0
(R15, R31, R99). So does an opening write that finds a FREE row, which it then holds in OPEN (R9, R31). -/
def Obligations.GroupedWritesThatWait : Prop :=
  (∀ (s : State) (st : StreamId) (a : Addr) (m : Mask) (d : Word) (tog : Bool), s.takesWrite st →
     s.streams[st].group = .idle → s.streams[st].stallTimer = none → s.waitsStand → s.wordKind a = .guarded →
     s.eng.state = .running → s.mon.published.state ≠ .warn → (m = 0 ∨ s.conflicts st a = false) →
     (∀ r : RowId, s.rows[r].state ≠ .free) →
     let held (k : Attr) : State :=
       { s with
         streams := s.streams.set st
           { s.streams[st] with
             outstanding := some { write := true, attr := k, addr := a, mask := m, data := d, captured := [] }
             stallTimer := some 0 }
         rowWait := s.rowWait ++ [st] }
     exec (.groupWrite st a m d tog) s = .next ((held .group).settle tog)
     ∧ exec (.closeWrite st a m d tog) s = .next ((held .close).settle tog))
  ∧ (∀ (s : State) (st : StreamId) (r : RowId) (a : Addr) (m : Mask) (d : Word) (tog : Bool), s.takesWrite st →
       s.streams[st].group = .opened → s.streams[st].openRow = some r → s.streams[st].stallTimer = none →
       s.waitsStand → s.wordKind a = .guarded → m ≠ 0 → s.conflicts st a = false →
       (∀ e ∈ s.rows[r].entries, e.addr ≠ a) → s.rows[r].entries.length < 62 → s.freeEntries = 0 →
       s.eng.queue ≠ [] →
       let held (g : GroupState) (k : Attr) : State :=
         { s with
           streams := s.streams.set st
             { s.streams[st] with
               group := g, idleTimer := none, stallTimer := some 0
               outstanding := some { write := true, attr := k, addr := a, mask := m, data := d, captured := [] } }
           entryWait := s.entryWait ++ [st] }
       exec (.groupWrite st a m d tog) s = .next ((held .opened .group).settle tog)
       ∧ exec (.closeWrite st a m d tog) s = .next ((held .closing .close).settle tog))
  ∧ (∀ (s : State) (st : StreamId) (r : RowId) (a : Addr) (m : Mask) (d : Word) (tog : Bool), s.takesWrite st →
       s.streams[st].group = .idle → s.streams[st].stallTimer = none → s.waitsStand → s.wordKind a = .guarded →
       s.eng.state = .running → s.mon.published.state ≠ .warn → m ≠ 0 → s.conflicts st a = false →
       s.rows[r] = Row.free → (∀ q : RowId, q < r → s.rows[q].state ≠ .free) → s.freeEntries = 0 → s.eng.queue ≠ [] →
       let held (g : GroupState) (k : Attr) : State :=
         { s with
           streams := s.streams.set st
             { s.streams[st] with
               group := g, openRow := some r, idleTimer := none, stallTimer := some 0
               outstanding := some { write := true, attr := k, addr := a, mask := m, data := d, captured := [] } }
           rows := s.rows.set r { owner := some st, state := .opened, entries := [], seq := none, slot := none }
           mon := { s.mon with sampler := s.mon.sampler.wake }
           entryWait := s.entryWait ++ [st] }
       exec (.groupWrite st a m d tog) s = .next ((held .opened .group).settle tog)
       ∧ exec (.closeWrite st a m d tog) s = .next ((held .closing .close).settle tog))

/-- A GROUP write in OPEN whose word the row does not hold makes a new entry at the tail of the row's list: the word,
the mask, the bytes of its lanes; it is answered DONE and the idle timer restarts (R10, R15, R28). The bytes outside
the mask are free values (assumption 5), of which the statement says nothing. With mask 0 it stages nothing, is answered
DONE at once and restarts the idle timer too, whatever the row's and the store's room (R10, R15). -/
def Obligations.GroupWriteMakesAnEntry : Prop :=
  ∀ (s : State) (st : StreamId) (r : RowId) (a : Addr) (m : Mask) (d : Word) (tog : Bool), s.takesWrite st →
    s.streams[st].group = .opened → s.streams[st].openRow = some r → s.waitsStand → s.wordKind a = .guarded →
    let answered : State :=
      { s with
        streams := s.streams.set st
          { s.streams[st] with
            outstanding := none, stallTimer := none
            idleTimer := if s.cfg.idleTimeouts[st] = 0 then none else some (s.cfg.idleTimeouts[st] * 1000) }
        responses := s.responses ++ [{ stream := st, code := .done, data := 0 }] }
    (m = 0 → exec (.groupWrite st a m d tog) s = .next (answered.settle tog))
    ∧ (m ≠ 0 → s.conflicts st a = false → (∀ e ∈ s.rows[r].entries, e.addr ≠ a) → s.rows[r].entries.length < 62 →
      s.freeEntries ≠ 0 →
      ∃ e : Entry, e.addr = a ∧ e.mask = m ∧ (∀ n < 4, m.getLsbD n = true → laneByte e.data n = laneByte d n)
        ∧ exec (.groupWrite st a m d tog) s = .next
            (({ answered with
                rows := s.rows.set r { s.rows[r] with entries := s.rows[r].entries ++ [e] }
                freeIndex := s.freeIndex + 1 } : State).settle tog))

/-- A GROUP write in OPEN for a word that the row holds coalesces with that entry, in place: its lanes take the write's
bytes, the others stay, the mask is the union; no entry is needed, whatever the row's or the store's room (R27). -/
def Obligations.GroupWriteCoalesces : Prop :=
  ∀ (s : State) (st : StreamId) (r : RowId) (a : Addr) (m : Mask) (d : Word) (tog : Bool) (i : Nat) (e : Entry),
    s.takesWrite st → s.streams[st].group = .opened → s.streams[st].openRow = some r → s.waitsStand →
    s.wordKind a = .guarded → m ≠ 0 → s.conflicts st a = false → s.rows[r].entries[i]? = some e → e.addr = a →
    (∀ j f, s.rows[r].entries[j]? = some f → f.addr = a → j = i) →
    ∃ e' : Entry, e'.addr = a ∧ e'.mask = e.mask ||| m
      ∧ (∀ n < 4, laneByte e'.data n = if m.getLsbD n then laneByte d n else laneByte e.data n)
      ∧ exec (.groupWrite st a m d tog) s = .next
          (({ s with
              streams := s.streams.set st
                { s.streams[st] with
                  outstanding := none, stallTimer := none
                  idleTimer := if s.cfg.idleTimeouts[st] = 0 then none else some (s.cfg.idleTimeouts[st] * 1000) }
              rows := s.rows.set r { s.rows[r] with entries := s.rows[r].entries.set i e' }
              responses := s.responses ++ [{ stream := st, code := .done, data := 0 }] } : State).settle tog)

/-- What ends a group in OPEN: a write refused REGION by its kind, CONFLICT by another stream's OPEN row, or OVERFLOW
because the row already holds 62 entries and not this word, or because the store is full and the commit queue empty.
The row is freed with all its entries, the write is answered with the code, and the refusing block's event is raised;
a GROUP write leaves the stream in NOTIFY with the cause, a CLOSE in IDLE, no NOTIFY following (R10, R11, R13, R18,
R29 to R31, R34). An opening write that finds a FREE row and the store so full is refused OVERFLOW in the same way,
its row freed again (R9, R31). A conflict is an entry for the word in an OPEN row of another stream (R34). Where writes
wait, the freeing serves the entry wait list and then offers the row (R6, R8, R32, R44; that order is assumption 12). -/
def Obligations.RefusedWritesEndTheGroup : Prop :=
  (∀ (s : State) (st : StreamId) (r : RowId) (a : Addr) (m : Mask) (d : Word) (tog : Bool), s.takesWrite st →
     s.streams[st].group = .opened → s.streams[st].openRow = some r → s.rows[r].state = .opened →
     let broken (u : State) (c : Cause) : Prop :=
       let t : State :=
         { u with
           streams := s.streams.set st (StreamRec.notified c)
           rows := s.rows.set r Row.free
           responses := s.responses ++ [{ stream := st, code := c.response, data := 0 }] }
       (s.noWaiters → exec (.groupWrite st a m d tog) s = .next (t.settle tog))
       ∧ exec (.groupWrite st a m d tog) s = .next (t.serve.offer.settle tog)
     (s.conflicts st a = true ↔ ∃ q : RowId, s.rows[q].state = .opened ∧ s.rows[q].owner ≠ some st
        ∧ ∃ e ∈ s.rows[q].entries, e.addr = a)
     ∧ (s.wordKind a ≠ .guarded → broken (s.raise .region { stream := some st, addr := some a }) .region)
     ∧ (s.wordKind a = .guarded → m ≠ 0 → s.conflicts st a = true →
         broken (s.raise .conflict { stream := some st, addr := some a }) .conflict)
     ∧ (s.wordKind a = .guarded → m ≠ 0 → s.conflicts st a = false → (∀ e ∈ s.rows[r].entries, e.addr ≠ a) →
         (s.rows[r].entries.length = 62
           ∨ s.rows[r].entries.length < 62 ∧ s.freeEntries = 0 ∧ s.eng.queue = []) →
         broken (s.raise .overflow { stream := some st }) .overflow))
  ∧ (∀ (s : State) (st : StreamId) (r : RowId) (a : Addr) (m : Mask) (d : Word) (tog : Bool), s.takesWrite st →
       s.streams[st].group = .opened → s.streams[st].openRow = some r → s.rows[r].state = .opened →
       let failed (u : State) (c : Cause) : Prop :=
         let t : State :=
           { u with
             streams := s.streams.set st StreamRec.reset
             rows := s.rows.set r Row.free
             responses := s.responses ++ [{ stream := st, code := c.response, data := 0 }] }
         (s.noWaiters → exec (.closeWrite st a m d tog) s = .next (t.settle tog))
         ∧ exec (.closeWrite st a m d tog) s = .next (t.serve.offer.settle tog)
       (s.wordKind a ≠ .guarded → failed (s.raise .region { stream := some st, addr := some a }) .region)
       ∧ (s.wordKind a = .guarded → m ≠ 0 → s.conflicts st a = true →
           failed (s.raise .conflict { stream := some st, addr := some a }) .conflict)
       ∧ (s.wordKind a = .guarded → m ≠ 0 → s.conflicts st a = false → (∀ e ∈ s.rows[r].entries, e.addr ≠ a) →
           (s.rows[r].entries.length = 62
             ∨ s.rows[r].entries.length < 62 ∧ s.freeEntries = 0 ∧ s.eng.queue = []) →
           failed (s.raise .overflow { stream := some st }) .overflow))
  ∧ (∀ (s : State) (st : StreamId) (r : RowId) (a : Addr) (m : Mask) (d : Word) (tog : Bool), s.takesWrite st →
       s.streams[st].group = .idle → s.wordKind a = .guarded → s.eng.state = .running →
       s.mon.published.state ≠ .warn → m ≠ 0 → s.conflicts st a = false → s.rows[r] = Row.free →
       (∀ q : RowId, q < r → s.rows[q].state ≠ .free) → s.freeEntries = 0 → s.eng.queue = [] →
       let refused (u : StreamRec) : State :=
         { s.raise .overflow { stream := some st } with
           streams := s.streams.set st u
           mon := { s.mon with sampler := s.mon.sampler.wake }
           responses := s.responses ++ [{ stream := st, code := .overflow, data := 0 }] }
       (s.noWaiters → exec (.groupWrite st a m d tog) s = .next ((refused (StreamRec.notified .overflow)).settle tog)
         ∧ exec (.closeWrite st a m d tog) s = .next ((refused StreamRec.reset).settle tog))
       ∧ exec (.groupWrite st a m d tog) s = .next
           ((refused (StreamRec.notified .overflow)).serve.offer.settle tog)
       ∧ exec (.closeWrite st a m d tog) s = .next ((refused StreamRec.reset).serve.offer.settle tog))

/-- A close with entries that NORMAL admits, or WARN within the budget: after the data is staged the row is CLOSED at
the tail of the commit queue, the stream is CLOSING with its CLOSE outstanding and no stall timer, and the journal
writer starts a row if it can (R18, R20, R22, R52). The reservation is what the queue's CLOSED rows cost and its
JOURNALING rows still owe (R20, R47). So goes an opening CLOSE with a non-zero mask, taken in IDLE, through the lowest
FREE row, in which its one entry is staged (R9, R18); then the writes that wait are served as far as they can be (R6,
R8, R32, R44; that order is assumption 12). -/
def Obligations.CloseAdmitted : Prop :=
  (∀ (s : State) (st : StreamId) (r : RowId) (a : Addr) (m : Mask) (d : Word) (tog : Bool), s.takesWrite st →
       s.streams[st].group = .opened → s.streams[st].openRow = some r → s.waitsStand → s.wordKind a = .guarded →
       (m = 0 ∨ s.stagingLine st r a = .staged) →
       let u := if m = 0 then s else s.stageEntry r a m d
       u.reservation = (s.eng.queue.map fun q =>
           match u.rows[q].state with
           | .closed => 2 * u.rows[q].entries.length + 3
           | .journaling => 2 * u.rows[q].entries.length + 3 - ((s.eng.jw.map Work.progress).getD 0)
           | _ => 0).sum
       ∧ (u.rows[r].entries ≠ [] →
       (s.mon.published.state ≠ .warn
         ∨ 2 * u.rows[r].entries.length + 3 + u.reservation ≤ s.mon.published.budget) →
       exec (.closeWrite st a m d tog) s = .next
         ((({ u with
             streams := s.streams.set st
               { s.streams[st] with
                 group := .closing, idleTimer := none, stallTimer := none
                 outstanding := some { write := true, attr := .close, addr := a, mask := m, data := d, captured := [] } }
             rows := u.rows.set r { u.rows[r] with state := .closed }
             eng := { s.eng with queue := s.eng.queue ++ [r] } } : State).startJournal).settle tog)))
  ∧ (∀ (s : State) (st : StreamId) (r : RowId) (a : Addr) (m : Mask) (d : Word) (tog : Bool), s.takesWrite st →
       s.streams[st].group = .idle → s.wordKind a = .guarded → s.eng.state = .running →
       s.mon.published.state ≠ .warn → m ≠ 0 → s.conflicts st a = false → s.rows[r] = Row.free →
       (∀ q : RowId, q < r → s.rows[q].state ≠ .free) → s.freeEntries ≠ 0 →
       ∃ e : Entry, e.addr = a ∧ e.mask = m ∧ (∀ n < 4, m.getLsbD n = true → laneByte e.data n = laneByte d n)
         ∧ let t : State :=
             ({ s with
                 streams := s.streams.set st
                   { s.streams[st] with
                     group := .closing, openRow := some r, idleTimer := none, stallTimer := none
                     outstanding :=
                       some { write := true, attr := .close, addr := a, mask := m, data := d, captured := [] } }
                 rows := s.rows.set r { owner := some st, state := .closed, entries := [e], seq := none, slot := none }
                 mon := { s.mon with sampler := s.mon.sampler.wake }
                 eng := { s.eng with queue := s.eng.queue ++ [r] }
                 freeIndex := s.freeIndex + 1 } : State).startJournal
           (s.noWaiters → exec (.closeWrite st a m d tog) s = .next (t.settle tog))
           ∧ exec (.closeWrite st a m d tog) s = .next (t.serve.offer.settle tog))

/-- A close that WARN admission refuses: cost plus reservation above the published budget. It is answered HOLDUP, the
row is freed with every entry, the stream is IDLE, and HOLDUP_REFUSED carries the stream, the cost and the budget; the
commit queue and the rows in it are as before (R20, R21). The reservation is what the queue's CLOSED rows cost and its
JOURNALING rows still owe (R20, R47). Where writes wait, the freeing serves the entry wait list and then offers the row
(R6, R8, R32, R44; that order is assumption 12). -/
def Obligations.CloseRefusedHoldup : Prop :=
  ∀ (s : State) (st : StreamId) (r : RowId) (a : Addr) (m : Mask) (d : Word) (tog : Bool), s.takesWrite st →
    s.streams[st].group = .opened → s.streams[st].openRow = some r → s.rows[r].state = .opened →
    s.wordKind a = .guarded → (m = 0 ∨ s.stagingLine st r a = .staged) →
    let u := if m = 0 then s else s.stageEntry r a m d
    let cost := 2 * u.rows[r].entries.length + 3
    u.reservation = (s.eng.queue.map fun q =>
        match u.rows[q].state with
        | .closed => 2 * u.rows[q].entries.length + 3
        | .journaling => 2 * u.rows[q].entries.length + 3 - ((s.eng.jw.map Work.progress).getD 0)
        | _ => 0).sum
    ∧ (u.rows[r].entries ≠ [] → s.mon.published.state = .warn → s.mon.published.budget < cost + u.reservation →
      let t : State :=
        ({ s with
            streams := s.streams.set st StreamRec.reset
            rows := s.rows.set r Row.free
            freeIndex := u.freeIndex
            responses := s.responses ++ [{ stream := st, code := .holdup, data := 0 }] } : State).raise .holdupRefused
          { stream := some st
            detail := some (BitVec.ofNat 32 s.mon.published.budget ||| BitVec.ofNat 32 (cost * 65536)) }
      (s.noWaiters → exec (.closeWrite st a m d tog) s = .next (t.settle tog))
      ∧ exec (.closeWrite st a m d tog) s = .next (t.serve.offer.settle tog))

/-- The idle expiry in OPEN: the row is freed, the stream is in NOTIFY with cause IDLE, and IDLE_ABORT carries the
stream; no request is answered, and a plain request that is outstanding stays (R16). With the timer at its full timeout
a GROUP write has just restarted it: that write was taken first, and the expiry does not happen (R17). That the expiry
is taken at any other count is assumption 2. Where writes wait, the freeing serves the entry wait list and then offers
the row (R6, R8, R32, R44; that order is assumption 12). -/
def Obligations.IdleExpiryBreaksTheGroup : Prop :=
  (∀ (s : State) (st : StreamId) (r : RowId) (c : Nat), s.streams[st].group = .opened →
     s.streams[st].openRow = some r → s.rows[r].state = .opened → s.streams[st].idleTimer = some c →
     s.cfg.idleTimeouts[st] = 0 ∨ c ≠ s.cfg.idleTimeouts[st] * 1000 →
     let t : State :=
       ({ s with
           streams := s.streams.set st
             { s.streams[st] with group := .notify, openRow := none, notify := some .idle, idleTimer := none }
           rows := s.rows.set r Row.free } : State).raise .idleAbort { stream := some st }
     (s.noWaiters → exec (.idleTimerExpiry st) s = .next t.settle)
     ∧ exec (.idleTimerExpiry st) s = .next t.serve.offer.settle)
  ∧ (∀ (s : State) (st : StreamId), s.cfg.idleTimeouts[st] ≠ 0 →
       s.streams[st].idleTimer = some (s.cfg.idleTimeouts[st] * 1000) →
       exec (.idleTimerExpiry st) s = .next s.settle)

/-- The stall limit of a waiting write, wherever it stands in the row wait or the entry wait list: it leaves its list,
in which the others keep their order, and is refused BUSY, STALL carries its stream and word; a GROUP write leaves the
stream in NOTIFY with cause BUSY, a CLOSE in IDLE; a row it holds in OPEN is freed, and what it frees serves the entry
wait list and then the row wait (R6, R8, R32, R33, R44, R100; that order is assumption 12). With no other write waiting,
that is all. That the expiry is taken whatever count the timer stands at is assumption 2. -/
def Obligations.StallExpiryRefusesBusy : Prop :=
  ∀ (s : State) (st : StreamId) (q : Request) (c : Nat), s.streams[st].stallTimer = some c →
    s.streams[st].outstanding = some q → st ∈ s.rowWait ∨ st ∈ s.entryWait →
    let after (rows : Vector Row 8) : State :=
      ({ s with
        streams := s.streams.set st (if q.attr = .close then StreamRec.reset else StreamRec.notified .busy)
        rows := rows, rowWait := s.rowWait.erase st, entryWait := s.entryWait.erase st
        responses := s.responses ++ [{ stream := st, code := .busy, data := 0 }] } : State).raise .stall
        { stream := some st, addr := some q.addr }
    let sole := s.rowWait = [st] ∧ s.entryWait = [] ∨ s.rowWait = [] ∧ s.entryWait = [st]
    (s.streams[st].openRow = none →
      (sole → exec (.stallTimerExpiry st) s = .next (after s.rows).settle)
      ∧ exec (.stallTimerExpiry st) s = .next (after s.rows).serve.offer.settle)
    ∧ (∀ r, s.streams[st].openRow = some r → s.rows[r].state = .opened →
        (sole → exec (.stallTimerExpiry st) s = .next (after (s.rows.set r Row.free)).settle)
        ∧ exec (.stallTimerExpiry st) s = .next (after (s.rows.set r Row.free)).serve.offer.settle)

/-- The freeing of a row by an ABORT serves a GROUP write that waits for an entry: with the conflict test passed it
takes a freed entry, leaves the wait list, is answered DONE after the ABORT, and its timers restart and stop (R32,
R33). A row so freed is offered to the oldest opening write that waits: a GROUP write with mask 0 that passes tests
2 to 4 again takes it and is answered DONE (R6, R8, R9). That the ABORT's answer comes first, and that the entries
are served before the rows are offered (R6, R44), is assumption 12. However many wait: `serve` examines the head of
the entry wait list again, refuses it CONFLICT or stages it and goes on with the rest, until none waits or no entry
is free (R32; a staged CLOSE is carried through first, assumption 33; with no free entry nobody is examined,
assumption 34); `offer` examines the oldest waiting opening write again (tests 2 to 4 of R7), refuses it or gives it
the lowest FREE row, and goes on, until none waits or no row is FREE (R8). -/
def Obligations.AFreedRowServesTheWaiting : Prop :=
  (∀ (s : State) (st w : StreamId) (r k : RowId) (a : Addr) (m : Mask) (d : Word) (tog : Bool) (q : Request),
     s.takesWrite st → st ≠ w → r ≠ k → s.streams[st].group = .opened → s.streams[st].openRow = some r →
     s.rows[r].state = .opened → s.rows[r].entries ≠ [] → s.usedEntries = 256 →
     s.entryWait = [w] → s.rowWait = [] → s.streams[w].outstanding = some q → q.attr = .group →
     s.streams[w].openRow = some k → s.conflicts w q.addr = false →
     ∃ e : Entry, e.addr = q.addr ∧ e.mask = q.mask
       ∧ (∀ n < 4, q.mask.getLsbD n = true → laneByte e.data n = laneByte q.data n)
       ∧ exec (.abortWrite st a m d tog) s = .next
           (({ s with
               streams := (s.streams.set st StreamRec.reset).set w
                 { s.streams[w] with
                   outstanding := none, stallTimer := none
                   idleTimer := if s.cfg.idleTimeouts[w] = 0 then none else some (s.cfg.idleTimeouts[w] * 1000) }
               rows := (s.rows.set r Row.free).set k { s.rows[k] with entries := s.rows[k].entries ++ [e] }
               entryWait := []
               responses := s.responses ++ [{ stream := st, code := .done, data := 0 },
                 { stream := w, code := .done, data := 0 }]
               freeIndex := s.freeIndex + 1 } : State).settle tog))
  ∧ (∀ (s : State) (st w : StreamId) (r : RowId) (a : Addr) (m : Mask) (d : Word) (tog : Bool) (q : Request),
       s.takesWrite st → st ≠ w → s.streams[st].group = .opened → s.streams[st].openRow = some r →
       s.rows[r].state = .opened → (∀ p : RowId, s.rows[p].state ≠ .free) → s.entryWait = [] → s.rowWait = [w] →
       s.streams[w].outstanding = some q → q.attr = .group → q.mask = 0 → s.streams[w].group = .idle →
       s.eng.state = .running → s.mon.published.state ≠ .warn →
       exec (.abortWrite st a m d tog) s = .next
         (({ s with
             streams := (s.streams.set st StreamRec.reset).set w
               { s.streams[w] with
                 group := .opened, openRow := some r, outstanding := none, stallTimer := none
                 idleTimer := if s.cfg.idleTimeouts[w] = 0 then none else some (s.cfg.idleTimeouts[w] * 1000) }
             rows := s.rows.set r { owner := some w, state := .opened, entries := [], seq := none, slot := none }
             mon := { s.mon with sampler := s.mon.sampler.wake }
             rowWait := []
             responses := s.responses ++ [{ stream := st, code := .done, data := 0 },
               { stream := w, code := .done, data := 0 }] } : State).settle tog))
  ∧ (∀ (s : State) (st : StreamId) (r : RowId) (a : Addr) (m : Mask) (d : Word) (tog : Bool), s.takesWrite st →
       s.streams[st].group = .opened → s.streams[st].openRow = some r → s.rows[r].state = .opened →
       exec (.abortWrite st a m d tog) s = .next
         (({ s with
             streams := s.streams.set st StreamRec.reset
             rows := s.rows.set r Row.free
             responses := s.responses ++ [{ stream := st, code := .done, data := 0 }] } : State).serve.offer.settle tog))
  ∧ (∀ s : State, s.entryWait = [] ∨ s.freeEntries = 0 → s.serve = s)
  ∧ (∀ (s : State) (st : StreamId) (rest : List StreamId) (q : Request) (r : RowId), s.entryWait = st :: rest →
       s.freeEntries ≠ 0 → s.streams[st].outstanding = some q → s.streams[st].openRow = some r →
       (s.conflicts st q.addr = true → s.rows[r].state = .opened → s.serve =
         ({ s.raise .conflict { stream := some st, addr := some q.addr } with
             streams := s.streams.set st (if q.attr = .close then StreamRec.reset else StreamRec.notified .conflict)
             rows := s.rows.set r Row.free, entryWait := rest
             responses := s.responses ++ [{ stream := st, code := .conflict, data := 0 }] } : State).serve)
       ∧ (s.conflicts st q.addr = false →
           ∃ e : Entry, e.addr = q.addr ∧ e.mask = q.mask
             ∧ (∀ n < 4, q.mask.getLsbD n = true → laneByte e.data n = laneByte q.data n)
             ∧ let staged : State :=
                 { s with
                   rows := s.rows.set r { s.rows[r] with entries := s.rows[r].entries ++ [e] }, entryWait := rest
                   freeIndex := s.freeIndex + 1 }
               let cost := 2 * (s.rows[r].entries.length + 1) + 3
               (q.attr ≠ .close → s.serve =
                 ({ staged with
                     streams := s.streams.set st
                       { s.streams[st] with
                         outstanding := none, stallTimer := none
                         idleTimer := if s.cfg.idleTimeouts[st] = 0 then none else some (s.cfg.idleTimeouts[st] * 1000) }
                     responses := s.responses ++ [{ stream := st, code := .done, data := 0 }] } : State).serve)
               ∧ (q.attr = .close →
                   s.mon.published.state ≠ .warn ∨ cost + staged.reservation ≤ s.mon.published.budget →
                   s.serve =
                     ({ staged with
                         streams := s.streams.set st { s.streams[st] with stallTimer := none }
                         rows := s.rows.set r
                           { s.rows[r] with entries := s.rows[r].entries ++ [e], state := .closed }
                         eng := { s.eng with queue := s.eng.queue ++ [r] } } : State).startJournal.serve)
               ∧ (q.attr = .close → s.mon.published.state = .warn →
                   s.mon.published.budget < cost + staged.reservation → s.serve =
                     (({ staged with
                         streams := s.streams.set st StreamRec.reset
                         rows := s.rows.set r Row.free
                         responses := s.responses ++ [{ stream := st, code := .holdup, data := 0 }] } : State).raise
                       .holdupRefused
                       { stream := some st
                         detail := some
                           (BitVec.ofNat 32 s.mon.published.budget ||| BitVec.ofNat 32 (cost * 65536)) }).serve)))
  ∧ (∀ s : State, s.rowWait = [] ∨ s.lowestFree = none → s.offer = s)
  ∧ (∀ (s : State) (st : StreamId) (rest : List StreamId) (q : Request) (r : RowId), s.rowWait = st :: rest →
       s.lowestFree = some r → s.streams[st].outstanding = some q → s.streams[st].openRow = none →
       let halted := s.eng.state = .halted
       let warn := s.mon.published.state = .warn
       let conflict := q.mask ≠ 0 ∧ s.conflicts st q.addr = true
       let refused (u : State) (c : Cause) : State :=
         { u with
           streams := s.streams.set st (if q.attr = .close then StreamRec.reset else StreamRec.notified c)
           rowWait := rest
           responses := s.responses ++ [{ stream := st, code := c.response, data := 0 }] }
       (halted → s.offer = (refused s .halted).offer)
       ∧ (¬ halted → warn → s.offer = (refused s .hold).offer)
       ∧ (¬ halted → ¬ warn → conflict →
           s.offer = (refused (s.raise .conflict { stream := some st, addr := some q.addr }) .conflict).offer)
       ∧ (¬ halted → ¬ warn → ¬ conflict →
           s.offer = ((({ s with rowWait := rest } : State).assignRow st r q.attr).stageWrite st r q).offer))

/-! ## The commit engine -/

/-- The journal writer starts the oldest CLOSED row when it has none and the engine runs: the next sequence number, the
slot the search gives, JOURNALING with progress 0, the header word asked for (R50 to R53); when the numbers are
exhausted it raises SEQ_EXHAUSTED and the engine halts (R51). Otherwise it starts nothing. -/
def Obligations.JournalWriterStartsARow : Prop :=
  ∀ s : State,
    (s.eng.jw.isSome = true ∨ s.eng.state = .halted ∨ (∀ r ∈ s.eng.queue, s.rows[r].state ≠ .closed) →
      s.startJournal = s)
    ∧ ∀ (before after : List RowId) (r : RowId), s.eng.jw = none → s.eng.state = .running →
      s.eng.queue = before ++ r :: after → (∀ q ∈ before, s.rows[q].state ≠ .closed) → s.rows[r].state = .closed →
      (s.eng.nextSeq = 0 → s.startJournal = (s.raise .seqExhausted {}).halt)
      ∧ (s.eng.nextSeq ≠ 0 → s.startJournal =
          ({ s with
              rows := s.rows.set r
                { s.rows[r] with seq := some s.eng.nextSeq, slot := some s.findSlot, state := .journaling }
              eng :=
                { s.eng with
                  nextSeq := s.eng.nextSeq + 1
                  ringHead := if s.findSlot + 1 < s.slotCount then s.findSlot + 1 else 0
                  jw := some { row := r, progress := 0 } } } : State).ask .journal
            { write := true, addr := s.slotAddr s.findSlot 0, mask := 15
              data := headerWord (s.rows[r].owner.getD 0) s.rows[r].entries.length } 1)

/-- The slot search goes up from the ring head and wraps after the last slot; it ends with the first slot that is
neither in use nor bad, and with at least 28 slots and at most 8 bad ones it always ends with one (R50). -/
def Obligations.SlotSearchFindsTheFirstAvailable : Prop :=
  ∀ s : State, 28 ≤ s.slotCount → s.eng.badSlots.length ≤ 8 →
    let taken (k : Nat) : Prop := (∃ r : RowId, s.rows[r].slot = some k) ∨ k ∈ s.eng.badSlots
    ∃ i < s.slotCount, s.findSlot = (s.eng.ringHead + i) % s.slotCount ∧ ¬ taken s.findSlot
      ∧ ∀ j < i, taken ((s.eng.ringHead + j) % s.slotCount)

/-- A journal write other than the seal completes: the progress rises by 1 and the record's next word is asked for at
its place in the slot, all four lanes; the last word is the seal (R53). -/
def Obligations.JournalWriteCompletes : Prop :=
  ∀ (s : State) (n : AccessNumber) (f : InFlight) (w : Work), s.carries n f → f.purpose = .journal →
    s.eng.state = .running → s.eng.jw = some w →
    let row := s.rows[w.row]
    exec (.journalWriteComplete n) s = .next
      (({ s with
          eng := { s.eng with jw := some { row := w.row, progress := w.progress + 1 } }
          bus := { s.bus with port := none } } : State).ask
        (if w.progress + 2 = 2 * row.entries.length + 3 then .sealWrite else .journal)
        { write := true, addr := s.slotAddr (row.slot.getD 0) (w.progress + 1), mask := 15
          data := (recordWords (row.owner.getD 0) (row.seq.getD 0) row.entries).getD (w.progress + 1) 0 } 1).settle

/-- The seal write completes: the row is SEALED and no longer the journal writer's, the close of its stream is answered
DURABLE and the stream is IDLE, then the journal writer and the applier start what they can (R54, R58); that the
journal writer starts before the applier is assumption 13. -/
def Obligations.SealIsTheDurabilityPoint : Prop :=
  ∀ (s : State) (n : AccessNumber) (f : InFlight) (w : Work) (st : StreamId), s.carries n f →
    f.purpose = .sealWrite → s.eng.state = .running → s.eng.jw = some w → s.rows[w.row].owner = some st →
    exec (.sealComplete n) s = .next
      (({ s with
          rows := s.rows.set w.row { s.rows[w.row] with state := .sealed }
          eng := { s.eng with jw := none }
          streams := s.streams.set st StreamRec.reset
          bus := { s.bus with port := none }
          responses := s.responses ++ [{ stream := st, code := .durable, data := 0 }] }
        : State).startJournal.startApply).settle

/-- The applier starts the head of the commit queue when it has no row, the engine runs and the head is SEALED:
APPLYING, progress 0, the first entry's write asked for with its address, mask and data (R58, R59). Otherwise it
starts nothing. -/
def Obligations.ApplierStartsTheHead : Prop :=
  ∀ s : State,
    (s.eng.ap.isSome = true ∨ s.eng.state = .halted ∨ (∀ r, s.eng.queue.head? = some r → s.rows[r].state ≠ .sealed) →
      s.startApply = s)
    ∧ ∀ (r : RowId) (e : Entry) (es : List Entry), s.eng.ap = none → s.eng.state = .running →
      s.eng.queue.head? = some r → s.rows[r].state = .sealed → s.rows[r].entries = e :: es →
      s.startApply =
        ({ s with
            rows := s.rows.set r { s.rows[r] with state := .applying }
            eng := { s.eng with ap := some { row := r, progress := 0 } } } : State).ask .apply
          { write := true, addr := e.addr, mask := e.mask, data := e.data } 1

/-- An apply write completes: the progress rises; before the last entry the next entry's write is asked for; after the
last the row is RETIRING and the retire mark, the sequence number with every bit inverted, is asked to be written to
word 127 of its slot (R59, R60). -/
def Obligations.ApplyWriteCompletes : Prop :=
  ∀ (s : State) (n : AccessNumber) (f : InFlight) (w : Work), s.carries n f → f.purpose = .apply →
    s.eng.state = .running → s.eng.ap = some w →
    let row := s.rows[w.row]
    let u : State :=
      { s with
        eng := { s.eng with ap := some { row := w.row, progress := w.progress + 1 } }
        bus := { s.bus with port := none } }
    (∀ e, row.entries[w.progress + 1]? = some e → exec (.applyWriteComplete n) s = .next
      (u.ask .apply { write := true, addr := e.addr, mask := e.mask, data := e.data } 1).settle)
    ∧ (row.entries.length ≤ w.progress + 1 → exec (.applyWriteComplete n) s = .next
      (({ u with rows := s.rows.set w.row { row with state := .retiring } } : State).ask .retire
        { write := true, addr := s.slotAddr (row.slot.getD 0) 127, mask := 15
          data := row.seq.getD 0 ^^^ 0xFFFFFFFF#32 } 1).settle)

/-- The retire write completes: the row's entries, its slot and the row are freed, it leaves the commit queue, and the
applier starts the new head if it can (R43, R60). Where writes wait, the freed entries are served to the entry wait
list first, then the row leaves the queue and is FREE and the rows are offered, and the applier starts last (R60, steps
1 to 4). -/
def Obligations.RetireWriteCompletes : Prop :=
  ∀ (s : State) (n : AccessNumber) (f : InFlight) (w : Work), s.carries n f → f.purpose = .retire →
    s.eng.state = .running → s.eng.ap = some w →
    let emptied : State :=
      { s with
        rows := s.rows.set w.row { s.rows[w.row] with entries := [] }
        bus := { s.bus with port := none } }
    let served := emptied.serve
    (s.noWaiters → exec (.retireWriteComplete n) s = .next
      (({ s with
          rows := s.rows.set w.row Row.free
          eng := { s.eng with queue := s.eng.queue.filter (· ≠ w.row), ap := none }
          bus := { s.bus with port := none } } : State).startApply).settle)
    ∧ exec (.retireWriteComplete n) s = .next
      (({ served with
          rows := served.rows.set w.row Row.free
          eng := { served.eng with queue := served.eng.queue.filter (· ≠ w.row), ap := none } }
        : State).offer.startApply).settle

/-- A journal write that fails after its last attempt: SLOT_BAD with the slot; with fewer than 8 bad slots the slot
joins the list and the record is begun again in a new slot under the same sequence number; with 8 the engine halts and
the slot is not added (R56, R57). The memory timeout, once it has counted, is taken as an error answer (R105), whatever
count it stands at (assumption 2). -/
def Obligations.JournalWriteFails : Prop :=
  ∀ (s : State) (n : AccessNumber) (f : InFlight) (w : Work) (k : Nat), s.carries n f →
    f.purpose = .journal ∨ f.purpose = .sealWrite → f.attempt = 4 → s.eng.state = .running → s.eng.jw = some w →
    s.rows[w.row].slot = some k →
    let u : State := ({ s with bus := { s.bus with port := none } } : State).raise .slotBad { slot := some k }
    let bad := s.eng.badSlots ++ [k]
    let k' := ({ s with eng := { s.eng with badSlots := bad } } : State).findSlot
    (s.eng.badSlots.length < 8 → exec (.memoryErrorAnswer n) s = .next
      (({ u with
          rows := s.rows.set w.row { s.rows[w.row] with slot := some k', state := .journaling }
          eng :=
            { s.eng with
              badSlots := bad, ringHead := if k' + 1 < s.slotCount then k' + 1 else 0
              jw := some { row := w.row, progress := 0 } } } : State).ask .journal
        { write := true, addr := s.slotAddr k' 0, mask := 15
          data := headerWord (s.rows[w.row].owner.getD 0) s.rows[w.row].entries.length } 1).settle)
    ∧ (8 ≤ s.eng.badSlots.length → exec (.memoryErrorAnswer n) s = .next u.halt.settle)
    ∧ (f.timeout ≠ 250 → exec .memoryTimeout s = exec (.memoryErrorAnswer n) s)

/-- An apply write or a retire write that fails after its last attempt raises APPLY_FAIL with the sequence number and
the home address, or RETIRE_FAIL with the sequence number, and the engine halts (R61). The memory timeout, once it has
counted, is taken as an error answer (R105), whatever count it stands at (assumption 2). -/
def Obligations.ApplyFailureHalts : Prop :=
  ∀ (s : State) (n : AccessNumber) (f : InFlight) (w : Work), s.carries n f → f.attempt = 4 →
    s.eng.state = .running → s.eng.ap = some w →
    let u : State := { s with bus := { s.bus with port := none } }
    (f.purpose = .apply → exec (.memoryErrorAnswer n) s = .next
      ((u.raise .applyFail { seq := s.rows[w.row].seq, addr := some f.access.addr }).halt).settle)
    ∧ (f.purpose = .retire → exec (.memoryErrorAnswer n) s = .next
      ((u.raise .retireFail { seq := s.rows[w.row].seq }).halt).settle)
    ∧ (f.timeout ≠ 250 → exec .memoryTimeout s = exec (.memoryErrorAnswer n) s)

/-- The halt against each row, stream and list (R23, R45, R63, R64, R65): kept rows stay as they are, CLOSED and
JOURNALING rows of the queue and OPEN rows are freed, each stream is moved by its state, the wait lists are emptied,
and the requests of the journal writer and the applier that wait are withdrawn. A stream in CLOSING, and one in IDLE or
OPEN whose outstanding request is a GROUP or CLOSE write, is answered HALTED; a plain request that is outstanding stays
(R41, R110). The halt asks for a summary and raises no event of its own (R63, R166). That the answers of one halt stand
in stream order is assumption 32. -/
def Obligations.HaltActsOnRowsAndStreams : Prop :=
  ∀ s : State,
    let t := s.halt
    let asks (st : StreamId) : Bool :=
      match s.streams[st].outstanding with
      | some q => q.write && (q.attr == .group || q.attr == .close)
      | none => false
    let answered (st : StreamId) : Bool :=
      s.streams[st].group == .closing || (asks st && s.streams[st].group != .notify)
    t.responses = s.responses ++
      ((([0, 1, 2, 3] : List StreamId).filter answered).map fun st =>
        ({ stream := st, code := .halted, data := 0 } : Response))
    ∧ t.eng = { s.eng with state := .halted, jw := none, queue := t.eng.queue }
    ∧ t.eng.queue = s.eng.queue.filter (fun r => s.rows[r].state ≠ .closed ∧ s.rows[r].state ≠ .journaling)
    ∧ t.bus = { s.bus with waiting := s.bus.waiting.filter fun q => q.purpose.cls = some .f }
    ∧ t.rowWait = [] ∧ t.entryWait = []
    ∧ t.mon = s.mon ∧ t.cfg = s.cfg ∧ t.su = s.su ∧ t.clk = s.clk ∧ t.recovery = s.recovery
    ∧ t.freeIndex = s.freeIndex ∧ t.pending = s.pending ∧ t.ev = s.askSummary.ev
    ∧ (∀ r : RowId,
        s.rows[r].state = .free ∨ s.rows[r].state = .sealed ∨ s.rows[r].state = .applying
          ∨ s.rows[r].state = .retiring → t.rows[r] = s.rows[r])
    ∧ (∀ r ∈ s.eng.queue, s.rows[r].state = .closed ∨ s.rows[r].state = .journaling → t.rows[r] = Row.free)
    ∧ (∀ (st : StreamId) (r : RowId), s.streams[st].group = .opened ∨ s.streams[st].group = .closing →
        s.streams[st].openRow = some r → s.rows[r].state = .opened → t.rows[r] = Row.free)
    ∧ ∀ st : StreamId,
      let now := s.streams[st]
      let after := t.streams[st]
      (now.group = .notify → after = now)
      ∧ (now.group = .closing → after = StreamRec.reset)
      ∧ (asks st = false → now.group = .idle → after = now)
      ∧ (asks st = false → now.group = .opened →
          after = { now with group := .notify, openRow := none, notify := some .halted, idleTimer := none })
      ∧ (asks st = true → now.group = .opened → after = StreamRec.notified .halted)
      ∧ ∀ q, now.outstanding = some q → q.write = true → now.group = .idle →
        (q.attr = .group → after = StreamRec.notified .halted) ∧ (q.attr = .close → after = StreamRec.reset)

/-- While the engine is HALTED an outcome of the journal writer's or the applier's access is discarded: the port is
free, and nothing else changes (R65, R110). An answer is discarded, and only the close of the step follows, when the
port is IDLE or the numbers differ (R104). STALE_ANSWER is discarded in every state: that it changes nothing also
where its number is that of the access in flight, which cannot arise, since R104 ends the access with that answer and
the table gives it another row, is the model's own (assumption 3). The memory timeout does not happen where the port
is IDLE or the access has just been presented, its full 250 us being left (R105). -/
def Obligations.DiscardedAnswers : Prop :=
  (∀ (s : State) (n : AccessNumber) (f : InFlight), s.carries n f → s.eng.state = .halted →
     let t : State := ({ s with bus := { s.bus with port := none } } : State).settle
     (f.purpose = .journal → exec (.journalWriteComplete n) s = .next t ∧ exec (.memoryErrorAnswer n) s = .next t)
     ∧ (f.purpose = .sealWrite → exec (.sealComplete n) s = .next t ∧ exec (.memoryErrorAnswer n) s = .next t)
     ∧ (f.purpose = .apply → exec (.applyWriteComplete n) s = .next t ∧ exec (.memoryErrorAnswer n) s = .next t)
     ∧ (f.purpose = .retire → exec (.retireWriteComplete n) s = .next t ∧ exec (.memoryErrorAnswer n) s = .next t))
  ∧ (∀ (s : State) (n : AccessNumber) (e : Bool) (d : Word),
       exec (.staleAnswer n e d) s = .next s.settle
       ∧ ((∀ f, s.bus.port = some f → f.number ≠ n) →
           ∀ c ∈ [Instr.journalWriteComplete n, .sealComplete n, .applyWriteComplete n, .retireWriteComplete n,
             .statusWordComplete n, .loaderReadComplete n d, .scanReadComplete n d, .replayReadComplete n d,
             .replayWriteComplete n, .recoveryRetireComplete n, .forwardedAccessComplete n d, .memoryErrorAnswer n],
           exec c s = .next s.settle))
  ∧ (∀ s : State, (∀ f, s.bus.port = some f → f.timeout = 250) → exec .memoryTimeout s = .next s.settle)

/-! ## The memory port and the arbiter -/

/-- Attempts 1 to 3 of a retrying requester: the same access waits again with its attempt number raised, at the arbiter
or, in LOAD and RECOVER, to be presented next; the status writer's count is 0 again. The timeout, once it
has counted, is taken as an error, whatever count it stands at (R105, R107, R108, R115, assumption 2). -/
def Obligations.FailedAttemptsAreRetried : Prop :=
  ∀ (s : State) (n : AccessNumber) (f : InFlight), s.carries n f → f.attempt < 4 →
    let u : State := { s with bus := { s.bus with port := none } }
    (s.eng.state = .running → f.purpose = .journal ∨ f.purpose = .sealWrite ∨ f.purpose = .apply
        ∨ f.purpose = .retire →
      exec (.memoryErrorAnswer n) s = .next (u.ask f.purpose f.access (f.attempt + 1)).settle)
    ∧ (f.purpose = .loader ∨ f.purpose = .scan ∨ f.purpose = .replayRead ∨ f.purpose = .replayWrite
        ∨ f.purpose = .recoveryRetire →
      exec (.memoryErrorAnswer n) s = .next (u.askSolo f.purpose f.access (f.attempt + 1)).settle)
    ∧ (f.purpose = .status → exec (.memoryErrorAnswer n) s = .next
        ({ u with ev := { s.ev with sReq := some (f.attempt + 1), sCount := 0 } } : State).settle)
    ∧ (f.timeout ≠ 250 → exec .memoryTimeout s = exec (.memoryErrorAnswer n) s)

/-- The forwarder's access has one attempt: done answers DONE with the word read, a guarded read's captured lanes laid
over it, or 0 for a write; an error or the timeout answers MEDIA and raises MEDIA with the stream and the word (R40,
R95, R97, R109). That the timeout, once it has counted, is taken whatever count it stands at is assumption 2. -/
def Obligations.ForwardedOutcomes : Prop :=
  ∀ (s : State) (n : AccessNumber) (f : InFlight) (st : StreamId) (q : Request) (d : Word), s.carries n f →
    f.purpose = .forwarded st → f.attempt = 1 → s.streams[st].outstanding = some q →
    let u : State := { s with bus := { s.bus with port := none } }
    (∃ w : Word, exec (.forwardedAccessComplete n d) s = .next (u.respond st .done w).settle
      ∧ (q.write = true → w = 0)
      ∧ (q.write = false → q.captured = [] → w = d)
      ∧ (q.write = false → ∀ i < 4, laneByte w i =
          match q.captured.find? (fun l => l.mask.getLsbD i) with
          | some l => laneByte l.data i
          | none => laneByte d i))
    ∧ exec (.memoryErrorAnswer n) s = .next
        ((u.respond st .media).raise .media { stream := some st, addr := some f.access.addr }).settle
    ∧ (f.timeout ≠ 250 → exec .memoryTimeout s = exec (.memoryErrorAnswer n) s)

/-- The oldest request is granted: in a serving state with the port IDLE, no quiet period, no status request whose count
has reached 8 and no JW precedence, the one request whose place is before every other's is presented with the next
access number and a 250 us timeout, the last class and stream follow it, and the count of a status request that waits
rises (R104, R105, R111 to R115). The place is that of the moment the request began waiting (assumption 8), and that the
access carries the number before it rises is assumption 4. -/
def Obligations.ArbiterGrantsTheOldest : Prop :=
  ∀ (s : State) (w : Waiting), s.bus.port = none → s.bus.quiet = none → s.su.opState.serving = true →
    s.ev.sReq = none ∨ s.ev.sCount < 8 →
    s.mon.published.state ≠ .warn ∨ (∀ v ∈ s.bus.waiting, v.purpose.cls ≠ some .jw) →
    w ∈ s.bus.waiting → w.purpose.cls.isSome = true → (∀ v ∈ s.bus.waiting, v = w ∨ w.place < v.place) →
    s.settle = { s with
      bus := { s.bus with
        port := some { purpose := w.purpose, access := w.access, attempt := w.attempt, number := s.bus.nextNumber
                       timeout := 250 }
        nextNumber := s.bus.nextNumber + 1
        waiting := s.bus.waiting.erase w
        lastClass := w.purpose.cls.getD s.bus.lastClass
        lastStream := match w.purpose with | .forwarded st => st | _ => s.bus.lastStream
        moment := s.bus.moment + 1 }
      ev := { s.ev with sCount := if s.ev.sReq = none then s.ev.sCount else s.ev.sCount + 1 } }

/-- In WARN a waiting JW request goes first; otherwise the oldest place goes, in WARN too, and among requests that share
it the classes go in turn F, JW, AP from the one after the last granted, and the forwarder's streams in turn after the
last stream; all this also while a status request waits whose count is below 8, which rises with each such grant; the
status writer goes when nothing else waits or its count is 8 (R112 to R115). The chosen purpose is what the port then
carries; the status writer's access writes its job's word to its place in the status block, a summary's words being the
snapshot taken as its first word is granted (R165, R172, R173; that a retry keeps the snapshot is assumption 16). That
the access carries the number before it rises is assumption 4. -/
def Obligations.ArbiterPrecedences : Prop :=
  ∀ s : State, s.bus.port = none → s.bus.quiet = none → s.su.opState.serving = true →
    (∀ w ∈ s.bus.waiting, w.purpose.cls.isSome = true) →
    let jwWaits := ∃ w ∈ s.bus.waiting, w.purpose.cls = some .jw
    let warn := s.mon.published.state = .warn
    let place : Option GrantClass → Nat
      | some .f => 0
      | some .jw => 1
      | _ => 2
    let turn (w : Waiting) : Nat := (place w.purpose.cls + 2 - place (some s.bus.lastClass)) % 3
    let streamTurn (st : StreamId) : Nat := (st.val + 3 - s.bus.lastStream.val) % 4
    let others := s.ev.sReq = none ∨ s.ev.sCount < 8
    (others → warn → jwWaits →
      ∃ f, s.settle.bus.port = some f ∧ f.purpose.cls = some .jw ∧ s.settle.bus.lastClass = .jw)
    ∧ (∀ w ∈ s.bus.waiting, others → (warn → ¬ jwWaits) →
        (∀ v ∈ s.bus.waiting, w.place < v.place ∨ (w.place = v.place ∧ turn w ≤ turn v)) →
        ∃ v ∈ s.bus.waiting, v.place = w.place ∧ v.purpose.cls = w.purpose.cls
          ∧ s.settle.bus.port = some { purpose := v.purpose, access := v.access, attempt := v.attempt
                                       number := s.bus.nextNumber, timeout := 250 }
          ∧ some s.settle.bus.lastClass = w.purpose.cls ∧ s.settle.bus.waiting = s.bus.waiting.erase v)
    ∧ (∀ (a : StreamId), ∀ w ∈ s.bus.waiting, others → (warn → ¬ jwWaits) → w.purpose = .forwarded a →
        (∀ v ∈ s.bus.waiting, w.place < v.place ∨ (w.place = v.place ∧ turn w ≤ turn v
          ∧ ∀ b, v.purpose = .forwarded b → streamTurn a ≤ streamTurn b)) →
        ∃ f, s.settle.bus.port = some f ∧ f.purpose = .forwarded a ∧ s.settle.bus.lastStream = a)
    ∧ (∀ (j : Job) (k : Nat), s.ev.sReq = some k → s.ev.job = some j → s.bus.waiting = [] ∨ s.ev.sCount = 8 →
        let words := if j.kind = .summary ∧ j.words = [] then s.summaryWords else j.words
        let start := if j.kind = .summary then 8 else 0
        s.settle.bus.port = some
            { purpose := .status, attempt := k, number := s.bus.nextNumber, timeout := 250
              access :=
                { write := true, addr := BitVec.ofNat 25 (s.bridgeBase + 256 + (start + j.index)), mask := 15
                  data := words.getD j.index 0 } }
          ∧ s.settle.ev = { s.ev with job := some { j with words := words }, sReq := none, sCount := 0 }
          ∧ s.settle.bus.lastClass = s.bus.lastClass ∧ s.settle.bus.waiting = s.bus.waiting)
    ∧ (∀ k : Nat, s.ev.sReq = some k → s.bus.waiting ≠ [] → s.ev.sCount < 8 →
        ∃ f, s.settle.bus.port = some f ∧ f.purpose.cls.isSome = true ∧ s.settle.ev.sCount = s.ev.sCount + 1
          ∧ s.settle.ev.sReq = some k)

/-- The moments that a timer's end brings. The quiet period's end lets the loader's waiting read be presented (R106,
R117); in PROVISION the first request granted is presented, the oldest of those that wait (R106, R112, R117); in RESET
and WAIT nothing is granted (R116). The idle sample interval's end starts a sample, and a sample in
progress is left alone (R121). The status writer's 10 ms wait ends with the same word asked for again at attempt 1
(R167). That each is taken whatever count its timer stands at is assumption 2, and that the idle sample interval's end,
which cannot come while a sample is in progress, then changes nothing is assumption 3. A status word that fails on its
fourth attempt, by an error or the memory timeout once it has counted, sets the failure and starts that wait (R105,
R167). That the access presented carries the number before it rises is assumption 4. -/
def Obligations.TimerMoments : Prop :=
  ∀ s : State,
    (∀ q, s.su.opState = .load → s.bus.port = none → s.bus.solo = some q → exec .quietPeriodEnd s = .next
      { s with bus := { s.bus with
          quiet := none, solo := none, moment := s.bus.moment + 1, nextNumber := s.bus.nextNumber + 1
          port := some { purpose := q.purpose, access := q.access, attempt := q.attempt
                         number := s.bus.nextNumber, timeout := 250 } } })
    ∧ (∀ w ∈ s.bus.waiting, s.su.opState = .provision → s.bus.port = none → s.ev.sReq = none ∨ s.ev.sCount < 8 →
        (∀ v ∈ s.bus.waiting, ∃ st, v.purpose = .forwarded st) → (∀ v ∈ s.bus.waiting, v = w ∨ w.place < v.place) →
        exec .quietPeriodEnd s = .next
          { s with
            bus := { s.bus with
              quiet := none
              port := some { purpose := w.purpose, access := w.access, attempt := w.attempt
                             number := s.bus.nextNumber, timeout := 250 }
              nextNumber := s.bus.nextNumber + 1
              waiting := s.bus.waiting.erase w
              lastClass := .f
              lastStream := match w.purpose with | .forwarded st => st | _ => s.bus.lastStream
              moment := s.bus.moment + 1 }
            ev := { s.ev with sCount := if s.ev.sReq = none then s.ev.sCount else s.ev.sCount + 1 } })
    ∧ (s.su.opState.serving = true →
        exec .quietPeriodEnd s = .next ({ s with bus := { s.bus with quiet := none } } : State).settle)
    ∧ (s.su.opState = .reset ∨ s.su.opState = .wait → exec .quietPeriodEnd s = .next
        { s with bus := { s.bus with quiet := none, moment := s.bus.moment + 1 } })
    ∧ (∀ k, s.mon.sampler = .resting k → exec .idleSampleInterval s = .next
        ({ s with mon := { s.mon with sampler := .converting 16 } } : State).settle)
    ∧ ((∀ k, s.mon.sampler ≠ .resting k) → exec .idleSampleInterval s = .next s.settle)
    ∧ (s.ev.retryWait.isSome = true → exec .statusRetryWait s = .next
        ({ s with ev := { s.ev with retryWait := none, sReq := some 1, sCount := 0 } } : State).settle)
    ∧ (∀ (n : AccessNumber) (f : InFlight), s.carries n f → f.purpose = .status → f.attempt = 4 →
        exec (.memoryErrorAnswer n) s = .next
          ({ s with
              bus := { s.bus with port := none }
              ev := { s.ev with statusFailure := true, retryWait := some 10000 } } : State).settle
        ∧ (f.timeout ≠ 250 → exec .memoryTimeout s = exec (.memoryErrorAnswer n) s))

/-! ## Loading and recovering -/

/-- A word of the configuration block is read: it joins the image; before word 255 the next word is asked for; after
it the image is judged, and the part enters RECOVER with the configuration installed or, with CONFIG_BAD and its
reason, not; a word that fails after its fourth attempt has the same outcome with reason MEDIA (R145, R147, R148), and
so the memory timeout once it has counted (R105, assumption 2). A sample in progress at the installation completes on
the base it began on (R119, R149, assumption 36), and the time base keeps its phase (assumption 37). -/
def Obligations.LoaderReadsTheConfiguration : Prop :=
  ∀ (s : State) (n : AccessNumber) (f : InFlight) (d : Word), s.carries n f → f.purpose = .loader →
    let image := s.su.image ++ [d]
    let free : Bus := { s.bus with port := none }
    let entry (u : State) : State :=
      ({ u with recovery := some Recovery.start, su := { u.su with opState := .recover } } : State).askSummary.askSolo
        .scan { write := false, addr := s.slotAddr 0 0, mask := 15, data := 0 } 1
    let bad (u : State) (code : Word) : State :=
      let v := u.raise .configBad { detail := some code }
      entry { v with su := { v.su with validity := .invalid } }
    (image.length < 256 → exec (.loaderReadComplete n d) s = .next
      (({ s with bus := free, su := { s.su with image := image } } : State).askSolo .loader
        { write := false, addr := s.configAddr image.length, mask := 15, data := 0 } 1).settle)
    ∧ (256 ≤ image.length → ∀ r, judge image s.bridgeBase = some r → exec (.loaderReadComplete n d) s = .next
      (bad { s with bus := free, su := { s.su with image := image } } (BitVec.ofNat 32 r.code)).settle)
    ∧ (256 ≤ image.length → judge image s.bridgeBase = none → exec (.loaderReadComplete n d) s = .next
      (entry { s with
        bus := free
        su := { s.su with image := image, validity := .valid }
        cfg := settingsOf image
        mon := { s.mon with
          releaseRun := 0, cutRun := 0
          sampler :=
            match s.mon.sampler with
            | .converting k =>
              if s.cfg.divider = (settingsOf image).divider then .converting k
              else .timedOn k s.cfg.divider s.clk.phase
            | x => x
          published :=
            { state := s.mon.state, band := s.mon.level.map bandOf
              budget := budgetOf (settingsOf image) (s.mon.level.map bandOf) } } }).settle)
    ∧ (f.attempt = 4 → exec (.memoryErrorAnswer n) s = .next (bad { s with bus := free } 2).settle
      ∧ (f.timeout ≠ 250 → exec .memoryTimeout s = exec (.memoryErrorAnswer n) s))

/-- The seven checks of R146 in their order: the first that fails gives the reason, and an image that passes all is
valid. The fields that the checks read, and the items that a valid image installs, stand in the bits that R171 gives
them (R129, R144); the fields of an unused region entry are not installed, and what the entry then holds is assumption
35. -/
def Obligations.FirstFailedCheckGivesTheReason : Prop :=
  ∀ (image : List Word) (base : Nat),
    let w (i : Nat) : Nat := (image.getD i 0).toNat
    let used (r : Nat) : Prop := r < 8 ∧ (image.getD (10 + 3 * r) 0).getLsbD 31 = true
    let lo (r : Nat) : Nat := w (8 + 3 * r) % 2 ^ 25
    let hi (r : Nat) : Nat := w (9 + 3 * r) % 2 ^ 25
    let kind (c : Nat) : RegionKind := if c = 1 then .guarded else if c = 2 then .pass else .absent
    let mark := w 0 / 2 ^ 16 = 0x3B6E ∧ w 0 % 2 ^ 8 = 1
    let sum := image.foldl (· + ·) 0 = (0 : Word)
    let order := ∀ r, used r → lo r ≤ hi r
    let overlap := ∀ r q, used r → used q → r ≠ q → hi q < lo r ∨ hi r < lo q
    let bridge := ∀ r, used r → hi r < base
    let warnLevel := w 33 % 32
    let cutLevel := w 33 / 2 ^ 8 % 32
    let releaseLevel := w 33 / 2 ^ 16 % 32
    let cutCount := w 33 / 2 ^ 24 % 16
    let margin := w 33 / 2 ^ 28 % 8
    let interval := w 34 % 256
    let cls (k : Nat) : Nat := w (40 + k / 8) / 2 ^ (4 * (k % 8)) % 16
    let range := (10 ≤ w 1 % 256 ∧ w 1 % 256 ≤ 80) ∧ 1 ≤ w 2 % 2 ^ 16 ∧ (1 ≤ warnLevel ∧ warnLevel ≤ 30)
      ∧ cutLevel ≤ 29 ∧ 1 ≤ releaseLevel ∧ (1 ≤ cutCount ∧ cutCount ≤ 8) ∧ 1 ≤ margin ∧ 1 ≤ interval
      ∧ (∀ k < 18, cls k ≤ 3) ∧ 2 ≤ w 32 % 4 ∧ ∀ r, used r → 1 ≤ w (10 + 3 * r) % 4
    let monitor := cutLevel < warnLevel ∧ cutLevel < releaseLevel
    let c := settingsOf image
    (¬ mark → judge image base = some .mark)
    ∧ (mark → ¬ sum → judge image base = some .sum)
    ∧ (mark → sum → ¬ range → judge image base = some .range)
    ∧ (mark → sum → range →
        (¬ order → judge image base = some .order)
        ∧ (order → ¬ overlap → judge image base = some .overlap)
        ∧ (order → overlap → ¬ bridge → judge image base = some .bridge)
        ∧ (order → overlap → bridge → ¬ monitor → judge image base = some .monitor)
        ∧ (order → overlap → bridge → monitor → judge image base = none))
    ∧ c.divider = w 1 % 256 ∧ c.stallLimit = w 2 % 2 ^ 16 ∧ (∀ st : StreamId, c.idleTimeouts[st] = w (3 + st) % 2 ^ 16)
    ∧ (∀ r : Fin 8, (used r → c.regions[r] =
          { used := true, base := BitVec.ofNat 25 (lo r), limit := BitVec.ofNat 25 (hi r)
            kind := kind (w (10 + 3 * r) % 4) })
        ∧ (¬ used r → c.regions[r].used = false))
    ∧ c.defaultKind = kind (w 32 % 4)
    ∧ c.params = { warnLevel := warnLevel, cutLevel := cutLevel, releaseLevel := releaseLevel, cutCount := cutCount
                   margin := margin, interval := interval }
    ∧ (∀ b : Fin 8, c.budgets[b] = w (36 + b / 2) / 2 ^ (16 * (b.val % 2)) % 2 ^ 16)
    ∧ (∀ k : Fin 18, cls k ≤ 3 → (c.classes[k]).val = cls k)

/-- A scan read: a slot whose header word fails is left for the next slot; a candidate's words are read one by one up to
its seal and then word 127; the slot is then judged, and a sealed one raises the highest sequence seen, whose slot is
kept, the later one of equal numbers (R81), and is retired, raising the highest retired sequence, or joins the
sealed-unretired list, marked when an entry's address is not below the bridge base or its mask is 0 (R69, R70, R73,
R77). After slot N−1 the action list is built and its first action begins (R75, R76). -/
def Obligations.ScanReadsAndJudgesSlots : Prop :=
  ∀ (s : State) (n : AccessNumber) (f : InFlight) (d : Word) (r : Recovery), s.carries n f → f.purpose = .scan →
    s.recovery = some r →
    let words := r.scanWords ++ [d]
    let head := words.getD 0 0
    let count := head.toNat % 64
    let header := head.toNat / 2 ^ 16 = 0x7C3A ∧ 1 ≤ count ∧ count ≤ 62
    let u : State := { s with bus := { s.bus with port := none } }
    let reading (r' : Recovery) (k w : Nat) : State :=
      ({ u with recovery := some r' } : State).askSolo .scan
        { write := false, addr := s.slotAddr k w, mask := 15, data := 0 } 1
    let judged (r' : Recovery) : State :=
      if r.scanSlot + 1 < s.slotCount then
        reading { r' with scanSlot := r.scanSlot + 1, scanWords := [] } (r.scanSlot + 1) 0
      else
        u.beginAction
          { r' with scanWords := words, actions := buildActions r'.unretired (r'.highestRetired.getD 0) }
    (¬ header → words.length = 1 → exec (.scanReadComplete n d) s = .next (judged r).settle)
    ∧ (header → words.length < 2 * count + 3 →
      exec (.scanReadComplete n d) s = .next (reading { r with scanWords := words } r.scanSlot words.length).settle)
    ∧ (header → words.length = 2 * count + 3 →
      exec (.scanReadComplete n d) s = .next (reading { r with scanWords := words } r.scanSlot 127).settle)
    ∧ (header → words.length = 2 * count + 4 →
      let q := words.getD 1 0
      let matched := words.getD (2 * count + 2) 0 = ~~~ ((words.take (2 * count + 2)).foldl (· + ·) 0)
      let retired := d = ~~~ q
      let bad := (List.range count).any fun k =>
        let e := (words.getD (2 * k + 2) 0).toNat
        decide (s.memWords ≤ e % 2 ^ 25) || decide (s.bridgeBase ≤ e % 2 ^ 25) || decide (e / 2 ^ 28 = 0)
      let raised (seen : Option Word) : Option Word :=
        some (match seen with | some h => if h < q then q else h | none => q)
      (¬ matched → exec (.scanReadComplete n d) s = .next (judged r).settle)
      ∧ (matched → exec (.scanReadComplete n d) s = .next
          (judged
            { r with
              highestSeen := raised r.highestSeen
              highestSlot :=
                match r.highestSeen with
                | some h => if h ≤ q then r.scanSlot else r.highestSlot
                | none => r.scanSlot
              highestRetired := if retired then raised r.highestRetired else r.highestRetired
              unretired :=
                if retired then r.unretired
                else r.unretired ++ [{ slot := r.scanSlot, seq := q, count := count, bad := bad }] }).settle))

/-- The action list holds each sealed, unretired item once: the stale ones first, in slot order, retire-only; then, in
rising order of sequence number and in slot order within one number, each principal as a replay, or as a discard when
an entry failed its check, and each extra copy as retire-only (R75, R76, R77). -/
def Obligations.ActionListOrder : Prop :=
  ∀ (items : List Item) (f : Word), items.Pairwise (fun i j => i.slot < j.slot) →
    let actions := buildActions items f
    (actions.map fun a => a.item).Perm items
    ∧ (∀ a ∈ actions, a.kind =
        if a.item.seq ≤ f ∨ (∃ j ∈ items, j.slot < a.item.slot ∧ j.seq = a.item.seq) then .retireOnly
        else if a.item.bad then .discard else .replay)
    ∧ actions.Pairwise fun a b =>
        (b.item.seq ≤ f → a.item.seq ≤ f ∧ a.item.slot < b.item.slot)
        ∧ (f < a.item.seq → a.item.seq < b.item.seq ∨ (a.item.seq = b.item.seq ∧ a.item.slot < b.item.slot))

/-- A replay action reads an entry's two words again and writes its data home with its mask, entry by entry, and ends
with the retire write; the retire write of a replay raises the replayed count, that of a discard or retire-only action
raises REPLAY_DISCARD and the discarded count; then the next action begins (R77, R78, R79). That the write carries
what the second reading gives, and that an entry which has one of the faults of R77 only then is not written, its action
going on as a discard, is assumption 17. -/
def Obligations.ReplayAndRetireActions : Prop :=
  ∀ (s : State) (n : AccessNumber) (f : InFlight) (d : Word) (r : Recovery) (a : Action) (rest : List Action),
    s.carries n f → s.recovery = some r → r.actions = a :: rest →
    let u : State := { s with bus := { s.bus with port := none } }
    let read (r' : Recovery) (w : Nat) : State :=
      ({ u with recovery := some r' } : State).askSolo .replayRead
        { write := false, addr := s.slotAddr a.item.slot w, mask := 15, data := 0 } 1
    (f.purpose = .replayRead → r.replayAddr = none → exec (.replayReadComplete n d) s = .next
      (read { r with replayAddr := some d } (2 * r.replayEntry + 3)).settle)
    ∧ (f.purpose = .replayRead → ∀ w, r.replayAddr = some w →
      let faulty := s.memWords ≤ w.toNat % 2 ^ 25 ∨ s.bridgeBase ≤ w.toNat % 2 ^ 25 ∨ w.toNat / 2 ^ 28 = 0
      (¬ faulty → exec (.replayReadComplete n d) s = .next
        (u.askSolo .replayWrite
          { write := true, addr := w.extractLsb' 0 25, mask := w.extractLsb' 28 4, data := d } 1).settle)
      ∧ (faulty → exec (.replayReadComplete n d) s = .next
        (({ u with recovery := some { r with actions := { a with kind := .discard } :: rest } } : State).askSolo
          .recoveryRetire
          { write := true, addr := s.slotAddr a.item.slot 127, mask := 15, data := ~~~ a.item.seq } 1).settle))
    ∧ (f.purpose = .replayWrite → r.replayEntry + 1 < a.item.count → exec (.replayWriteComplete n) s = .next
      (read { r with replayEntry := r.replayEntry + 1, replayAddr := none } (2 * r.replayEntry + 4)).settle)
    ∧ (f.purpose = .replayWrite → a.item.count ≤ r.replayEntry + 1 → exec (.replayWriteComplete n) s = .next
      (u.askSolo .recoveryRetire
        { write := true, addr := s.slotAddr a.item.slot 127, mask := 15, data := ~~~ a.item.seq } 1).settle)
    ∧ (f.purpose = .recoveryRetire → a.kind = .replay → exec (.recoveryRetireComplete n) s = .next
      (u.beginAction { r with actions := rest, replayed := r.replayed + 1 }).settle)
    ∧ (f.purpose = .recoveryRetire → a.kind ≠ .replay → exec (.recoveryRetireComplete n) s = .next
      ((u.raise .replayDiscard { slot := some a.item.slot, seq := some a.item.seq }).beginAction
        { r with actions := rest, discarded := r.discarded + 1 }).settle)
    ∧ u.beginAction r =
        (if a.kind = .replay then read { r with replayEntry := 0, replayAddr := none } 2
         else ({ u with recovery := some { r with replayEntry := 0, replayAddr := none } } : State).askSolo
          .recoveryRetire
          { write := true, addr := s.slotAddr a.item.slot 127, mask := 15, data := ~~~ a.item.seq } 1)

/-- The last action's end, the list being then empty: the journal writer is seeded above the highest sequence seen and
after its slot, RECOVERED is raised with the replayed and discarded counts and START with the reset cause, and the part
is in RUN with a valid configuration and otherwise in SAFE, ready, a summary asked for (R81, R150, R152, R166, R86).
Where records wait, presentation then begins with the head of the queue (R159, R160). That START is raised before it
does is assumption 14, and that the change of state asks for a summary here is assumption 15. -/
def Obligations.EndOfThePass : Prop :=
  ∀ (s : State) (r : Recovery), r.actions = [] →
    let t := s.beginAction r
    let mode : OpState := if s.su.validity = .valid then .run else .safe
    let raised : State :=
      (({ s with eng := t.eng, recovery := none } : State).raise .recovered
        { detail := some (BitVec.ofNat 32 r.replayed ||| BitVec.ofNat 32 (r.discarded * 256)) }).raise .start
        { detail := some (BitVec.ofNat 32 ((s.su.resetCause.map ResetCause.code).getD 0)) }
    (∀ q, r.highestSeen = some q → t.eng.nextSeq = q + 1
      ∧ t.eng.ringHead = if r.highestSlot + 1 < s.slotCount then r.highestSlot + 1 else 0)
    ∧ (r.highestSeen = none → t.eng.nextSeq = 1 ∧ t.eng.ringHead = 0)
    ∧ t.su = { s.su with opState := mode }
    ∧ t.eng.badSlots = s.eng.badSlots ∧ t.eng.state = s.eng.state ∧ t.eng.queue = s.eng.queue
    ∧ t.recovery = none ∧ t.ready = true ∧ t.cfg = s.cfg ∧ t.mon = s.mon ∧ t.bus = s.bus
    ∧ t.streams = s.streams ∧ t.rows = s.rows
    ∧ (∀ k : Fin 18, t.ev.counters[k] =
        if k = EventKind.recovered.index ∨ k = EventKind.start.index then min 65535 (s.ev.counters[k] + 1)
        else s.ev.counters[k])
    ∧ ({ raised with su := t.su } : State).askSummary.ev.presentsHead t.ev

/-- An access of the pass that fails after its fourth attempt raises its event: SLOT_BAD with the slot for a read,
APPLY_FAIL with the sequence number and the home address for a home write, RETIRE_FAIL with the sequence number for a
retire write (R74, R80). It ends the pass and takes the part to FAULT with the journal writer unseeded, START with the
reset cause, a summary asked for, and presentation begun where records wait (R150, R152, R159, R166, assumptions 14 and
15). An installed configuration is withdrawn and the image kept: the monitor's runs are cleared and its budget is
published anew, a sample in progress completes on the base it began on (R119, R150, assumption 36), and the time base
keeps its phase (assumption 37). The memory timeout, once it has counted, is taken as an error answer (R105), whatever
count it stands at (assumption 2). -/
def Obligations.RecoveryFailureLeadsToFault : Prop :=
  ∀ (s : State) (n : AccessNumber) (f : InFlight), s.carries n f → f.attempt = 4 →
    f.purpose = .scan ∨ f.purpose = .replayRead ∨ f.purpose = .replayWrite ∨ f.purpose = .recoveryRetire →
    let slot : Option Nat := s.recovery.map fun r =>
      match r.actions with
      | a :: _ => a.item.slot
      | [] => r.scanSlot
    let seq : Option Word := s.recovery.bind fun r => r.actions.head?.map fun a => a.item.seq
    let free : State := { s with bus := { s.bus with port := none } }
    let raised : State :=
      if f.purpose = .replayWrite then free.raise .applyFail { seq := seq, addr := some f.access.addr }
      else if f.purpose = .recoveryRetire then free.raise .retireFail { seq := seq }
      else free.raise .slotBad { slot := slot }
    let withdrawn : Monitor :=
      { s.mon with
        releaseRun := 0, cutRun := 0
        sampler :=
          match s.mon.sampler with
          | .converting k => if s.cfg.divider = 40 then .converting k else .timedOn k s.cfg.divider s.clk.phase
          | x => x
        published := { state := s.mon.state, band := s.mon.level.map bandOf, budget := 0 } }
    let ended : State :=
      { raised with
        recovery := none, bus := { s.bus with port := none, solo := none }
        cfg := if s.su.validity = .valid then Settings.default else s.cfg
        mon := if s.su.validity = .valid then withdrawn else s.mon }
    let started := ended.raise .start { detail := some (BitVec.ofNat 32 ((s.su.resetCause.map ResetCause.code).getD 0)) }
    let asked : State := ({ started with su := { s.su with opState := .fault } } : State).askSummary
    (f.timeout ≠ 250 → exec .memoryTimeout s = exec (.memoryErrorAnswer n) s)
    ∧ (∃ e, exec (.memoryErrorAnswer n) s = .next ({ asked with ev := e } : State).settle
      ∧ (s.su.strapError = false → asked.ev.presentsHead e) ∧ (s.su.strapError = true → e = asked.ev))
    ∧ ∃ t, exec (.memoryErrorAnswer n) s = .next t
      ∧ t.su = { s.su with opState := .fault } ∧ t.recovery = none ∧ t.eng = s.eng ∧ t.ready = true ∧ t.flt = true
      ∧ t.cfg = (if s.su.validity = .valid then Settings.default else s.cfg)
      ∧ (∀ k : Fin 18, t.ev.counters[k] =
          if k = EventKind.start.index
              ∨ k = (if f.purpose = .replayWrite then EventKind.applyFail
                  else if f.purpose = .recoveryRetire then EventKind.retireFail else EventKind.slotBad).index
          then min 65535 (s.ev.counters[k] + 1) else s.ev.counters[k])

/-! ## The hold-up monitor -/

/-- A sample taken in BELOW: in RESET it is recorded and the release run stays 0; in WAIT a level at or above the
release level raises the run, a lower one sets it to 0 (R124). When the run reaches the cut count, the monitor leaves
BELOW and WAIT ends: LOAD with the loader's first read asked for, or PROVISION with PROV set; straps that read
otherwise at the second sample are a strap error: CONFIG_BAD with reason STRAP, the status writer's work withdrawn,
FAULT, and START (R141, R142, R143, R152, R165). WARN_ENTER is raised where the monitor enters WARN, and the change of
its state and that of the operating state ask for a summary (R132, R133, R166). In LOAD with the quiet period over, the
first read is presented at once (R106, R117). That a sample completes whatever is left of it is assumption 2, and that
the access carries the number before it rises is assumption 4. -/
def Obligations.SamplesInBelow : Prop :=
  ∀ (s : State) (l : Level) (pins : Straps), s.mon.state = .below → (∀ k, s.mon.sampler ≠ .resting k) →
    let p := s.cfg.params
    let band := bandOf l
    let stays (run : Nat) : State :=
      { s with mon :=
          { state := .below, level := some l, releaseRun := run, cutRun := s.mon.cutRun, sampler := .converting 16
            published := { state := .below, band := some band, budget := s.cfg.budgets[band] } } }
    (s.su.opState = .reset → exec (.sampleComplete l pins) s = .next (stays 0).settle)
    ∧ (s.su.opState = .wait → l.toNat < p.releaseLevel → 1 ≤ p.cutCount →
        exec (.sampleComplete l pins) s = .next (stays 0).settle)
    ∧ (s.su.opState = .wait → p.releaseLevel ≤ l.toNat → s.mon.releaseRun + 1 < p.cutCount →
        exec (.sampleComplete l pins) s = .next (stays (s.mon.releaseRun + 1)).settle)
    ∧ (s.su.opState = .wait → p.releaseLevel ≤ l.toNat → p.cutCount ≤ s.mon.releaseRun + 1 →
        ∀ first, s.su.straps = some first →
        let read : Access := { write := false, addr := s.configAddr s.su.image.length, mask := 15, data := 0 }
        let out : MonState := if l.toNat ≤ p.warnLevel then .warn else .normal
        let up : State :=
          { s with mon :=
              { state := out, level := some l, releaseRun := 0, cutRun := 0
                sampler :=
                  if out = .normal ∧ (∀ r : RowId, s.rows[r].state = .free) then .resting (p.interval * 1000)
                  else .converting 16
                published := { state := out, band := some band, budget := s.cfg.budgets[band] } } }
        let left : State :=
          (if out = .warn then up.raise .warnEnter { detail := some (BitVec.ofNat 32 l.toNat) } else up).askSummary
        let bad : State :=
          (if first.prov then left else ({ left with su := { s.su with opState := .load } } : State).askSummary).raise
            .configBad { detail := some 1 }
        ∃ t, exec (.sampleComplete l pins) s = .next t
          ∧ t.mon.state = (if l.toNat ≤ p.warnLevel then .warn else .normal) ∧ t.mon.level = some l
          ∧ t.mon.releaseRun = 0 ∧ t.mon.cutRun = 0
          ∧ t.mon.published = { state := t.mon.state, band := some band, budget := s.cfg.budgets[band] }
          ∧ t.su.straps = some first ∧ t.eng = s.eng ∧ t.rows = s.rows ∧ t.streams = s.streams ∧ t.cfg = s.cfg
          ∧ (pins ≠ first → t.su.opState = .fault ∧ t.su.strapError = true ∧ t.ev.job = none ∧ t.attn = s.attn
              ∧ t.flt = true
              ∧ t = (({ bad with
                  su := { s.su with opState := .fault, strapError := true }
                  ev := { bad.ev with
                    job := none, given := none, summaryPending := false, sReq := none, sCount := 0
                    retryWait := none } } : State).raise .start
                { detail := some (BitVec.ofNat 32 ((s.su.resetCause.map ResetCause.code).getD 0)) }).settle)
          ∧ (pins = first → first.prov = true → t.su = { s.su with opState := .provision }
              ∧ t = ({ left with su := { s.su with opState := .provision } } : State).askSummary.settle)
          ∧ (pins = first → first.prov = false → t.su = { s.su with opState := .load }
              ∧ t = (({ left with su := { s.su with opState := .load } } : State).askSummary.askSolo
                  .loader read 1).settle
              ∧ (s.bus.quiet.isSome = true → t.bus.solo = some { purpose := .loader, attempt := 1, access := read })
              ∧ (s.bus.quiet = none → s.bus.port = none → t.bus.solo = none ∧ t.bus.port = some
                  { purpose := .loader, attempt := 1, access := read, number := s.bus.nextNumber, timeout := 250 })))

/-- A sample taken in NORMAL or WARN that does not complete the cut run: NORMAL goes to WARN at or below the warn level,
raising WARN_ENTER; WARN goes to NORMAL at or above the warn level plus the margin, raising WARN_LEAVE; every sample
updates the cut run, the level and the publication; the next sample starts at once, or one interval later in NORMAL
with every row FREE (R121, R123, R125 to R127, R131 to R133). That a sample completes whatever is left of it is
assumption 2. -/
def Obligations.SamplesInNormalAndWarn : Prop :=
  ∀ (s : State) (l : Level) (pins : Straps), s.mon.state = .normal ∨ s.mon.state = .warn →
    (∀ k, s.mon.sampler ≠ .resting k) → s.su.opState ≠ .wait →
    let p := s.cfg.params
    let run := if l.toNat ≤ p.cutLevel then s.mon.cutRun + 1 else 0
    let after : MonState :=
      if s.mon.state = .normal then (if l.toNat ≤ p.warnLevel then .warn else .normal)
      else (if p.warnLevel + p.margin ≤ l.toNat then .normal else .warn)
    let u : State :=
      { s with mon :=
          { state := after, level := some l, releaseRun := s.mon.releaseRun, cutRun := run
            sampler :=
              if after = .normal ∧ (∀ r : RowId, s.rows[r].state = .free) then .resting (p.interval * 1000)
              else .converting 16
            published := { state := after, band := some (bandOf l), budget := s.cfg.budgets[bandOf l] } } }
    run < p.cutCount →
    exec (.sampleComplete l pins) s = .next
      (if after = s.mon.state then u
        else (u.raise (if after = .warn then .warnEnter else .warnLeave)
          { detail := some (BitVec.ofNat 32 l.toNat) }).askSummary).settle

/-- The sample that completes the cut run resets the part: every block at its reset value, the monitor back in BELOW
with the level and band kept, cause CUT, and, no other condition holding, the exit from RESET in the same step, which
is assumption 11 (R127, R128, R137, R139). The publication right after the reset, the budget 0 in it, is assumption
21; the sample that starts at that moment is on the new base (assumption 36). A sample that completes in CUT is
recorded as the last level, the converter goes on, and nothing else changes (R121, R128). That a sample completes
whatever is left of it is assumption 2. -/
def Obligations.CutRunResetsThePart : Prop :=
  (∀ (s : State) (l : Level) (pins : Straps), s.mon.state = .normal ∨ s.mon.state = .warn →
     (∀ k, s.mon.sampler ≠ .resting k) → l.toNat ≤ s.cfg.params.cutLevel → s.cfg.params.cutCount ≤ s.mon.cutRun + 1 →
     s.su.powerOn = false → s.su.line = false → s.su.pendingCause = none →
     ∃ t, exec (.sampleComplete l pins) s = .next t
       ∧ t.streams = Vector.replicate 4 StreamRec.reset ∧ t.rows = Vector.replicate 8 Row.free
       ∧ t.rowWait = [] ∧ t.entryWait = [] ∧ t.eng = Engine.reset ∧ t.recovery = none ∧ t.cfg = Settings.default
       ∧ t.mon.state = .below ∧ t.mon.level = some l ∧ t.mon.releaseRun = 0 ∧ t.mon.cutRun = 0
       ∧ t.mon.sampler = .converting 16
       ∧ t.mon.published = { state := .below, band := some (bandOf l), budget := 0 }
       ∧ t.bus = { Bus.reset with quiet := some 250, moment := s.bus.moment + 1 }
       ∧ t.su.opState = .wait ∧ t.su.resetCause = some .cut ∧ t.su.straps = some pins ∧ t.su.validity = .notRead
       ∧ t.su.image = [] ∧ t.ev.counters = Vector.replicate 18 0 ∧ t.ev.waiting = [] ∧ t.ev.pres = .none
       ∧ t.responses = s.responses ∧ t.clk.millis = 0)
  ∧ (∀ (s : State) (l : Level) (pins : Straps), s.mon.state = .cut → (∀ k, s.mon.sampler ≠ .resting k) →
       exec (.sampleComplete l pins) s = .next
         ({ s with mon := { s.mon with level := some l, sampler := .converting 16 } } : State).settle)

/-! ## The event unit, the status writer and the lines -/

/-- Every event taken raises its kind's counter by 1, up to 65,535, and no other; an event of class 0 does nothing more
(R153, R154). A record of class 1 to 3 against the queue: it merges into the waiting record of its kind and stream,
whose repeat count alone rises, to 255 at most, whatever the queue's room (R156). Otherwise, with the queue full, it
displaces the youngest record of the lowest waiting class if its own class is higher, and is dropped if not, the lost
count rising by 1 in either case (R157); with room it enters behind the records of its class and of higher ones
(R155). That the record displaced is the last of the waiting list, the youngest of the lowest class where the list has
its order, is assumption 26. -/
def Obligations.EventsAreCountedAndQueued : Prop :=
  (∀ (s : State) (k : EventKind) (f : EventFields),
     (∀ i : Fin 18, (s.raise k f).ev.counters[i] =
       if i = k.index then min 65535 (s.ev.counters[i] + 1) else s.ev.counters[i])
     ∧ (s.cfg.classes[k.index] = 0 → (s.raise k f).ev = { s.ev with counters := (s.raise k f).ev.counters }))
  ∧ (∀ (s : State) (k : EventKind) (f : EventFields), s.cfg.classes[k.index] ≠ 0 →
       let e := s.ev
       let new : Record :=
         { kind := k, cls := s.cfg.classes[k.index], fields := f, repeats := 1, stamp := s.clk.millis }
       let after := (s.raise k f).ev
       (∀ (a b : List Record) (w : Record), e.waiting = a ++ w :: b → w.kind = k → w.fields.stream = f.stream →
         (∀ x ∈ a, ¬ (x.kind = k ∧ x.fields.stream = f.stream)) →
         after = { e with
           counters := after.counters, waiting := a ++ { w with repeats := min 255 (w.repeats + 1) } :: b })
       ∧ ((∀ x ∈ e.waiting, ¬ (x.kind = k ∧ x.fields.stream = f.stream)) →
         (∀ (a : List Record) (l : Record), 16 ≤ e.queued → e.waiting = a ++ [l] → new.cls ≤ l.cls →
           after = { e with counters := after.counters, lost := e.lost + 1 })
         ∧ (∀ (a b : List Record) (l : Record), 16 ≤ e.queued → e.waiting = a ++ b ++ [l] → l.cls < new.cls →
           (∀ x ∈ a, new.cls ≤ x.cls) → (∀ x ∈ b, x.cls < new.cls) →
           after = { e with counters := after.counters, waiting := a ++ new :: b, lost := e.lost + 1 })
         ∧ (∀ a b : List Record, e.queued < 16 → e.waiting = a ++ b → (∀ x ∈ a, new.cls ≤ x.cls) →
           (∀ x ∈ b, x.cls < new.cls) → s.mayPresent = false ∨ e.pres ≠ .none →
           after = { e with counters := after.counters, waiting := a ++ new :: b })))

/-- A record that enters an empty queue from NONE where presentation may run is presented at once: UPDATING, the
presentation number raised, an update job given (R159, R160). -/
def Obligations.FirstRecordIsPresented : Prop :=
  ∀ (s : State) (k : EventKind) (f : EventFields), s.cfg.classes[k.index] ≠ 0 → s.ev.waiting = [] →
    s.ev.presented = none → s.ev.pres = .none → s.mayPresent = true →
    let new : Record :=
      { kind := k, cls := s.cfg.classes[k.index], fields := f, repeats := 1, stamp := s.clk.millis }
    let number := if s.ev.presNumber + 1 = 0 then 1 else s.ev.presNumber + 1
    let after := (s.raise k f).ev
    after.pres = .updating ∧ after.presented = some new ∧ after.waiting = [] ∧ after.presNumber = number
    ∧ (s.ev.job.isSome = true → after.job = s.ev.job ∧ after.given = some .update)
    ∧ (s.ev.job = none → after.job = some { kind := .update, words := presentationWords new number, index := 0 }
        ∧ after.given = none ∧ after.sReq = some 1 ∧ after.sCount = 0)

/-- An ACK in SHOWN ends the presentation: with a record waiting the head is presented next under the next number, its
update job given; with none waiting the area is cleared, a clear job given. The job begins at once where none is in
progress, and nothing else of the event unit changes. In NONE, UPDATING and CLEARING the ACK is stray and only counted;
in RESET it is not taken (R160, R162 to R165). -/
def Obligations.AckEndsThePresentation : Prop :=
  ∀ s : State,
    (s.su.opState = .reset → exec .ack s = .next s.settle)
    ∧ (s.su.opState ≠ .reset → s.ev.pres ≠ .shown → exec .ack s = .next
        ({ s with ev := { s.ev with stray := s.ev.stray + 1 } } : State).settle)
    ∧ (s.su.opState ≠ .reset → s.ev.pres = .shown → s.ev.waiting = [] → ∃ t : State, exec .ack s = .next t.settle
        ∧ t.ev.pres = .clearing ∧ t.ev.presented = none ∧ t.ev.waiting = [] ∧ t.ev.presNumber = s.ev.presNumber
        ∧ t.attn = false ∧ { t with ev := s.ev } = s
        ∧ (s.ev.job.isSome = true →
            t.ev = { s.ev with pres := .clearing, presented := none, given := some .clear })
        ∧ (s.ev.job = none → t.ev =
            { s.ev with
              pres := .clearing, presented := none, given := none, sReq := some 1, sCount := 0
              job := some { kind := .clear, words := clearWords s.ev.presNumber, index := 0 } }))
    ∧ (∀ r rest, s.su.opState ≠ .reset → s.ev.pres = .shown → s.ev.waiting = r :: rest →
        ∃ t : State, exec .ack s = .next t.settle
        ∧ t.ev.pres = .updating ∧ t.ev.presented = some r ∧ t.ev.waiting = rest ∧ t.attn = false
        ∧ t.ev.presNumber = (if s.ev.presNumber + 1 = 0 then 1 else s.ev.presNumber + 1)
        ∧ { t with ev := s.ev } = s
        ∧ ({ s.ev with pres := .none } : EventUnit).presentsHead t.ev)

/-- A status word completes: the failure, if any, is cleared and the next word is asked for at attempt 1 with the count
at 0. After the last word of an update job the state is SHOWN and a summary job begins; after that of a clear job it is
UPDATING for the head where records wait, whose update job begins with a summary pending, and otherwise NONE, and a
summary job begins; after that of a summary job the update or clear job that was given begins, else a pending summary,
else none (R160, R164, R165, R167). -/
def Obligations.StatusWordCompletes : Prop :=
  ∀ (s : State) (n : AccessNumber) (f : InFlight) (j : Job), s.carries n f → f.purpose = .status →
    s.ev.job = some j →
    let done (e : EventUnit) : State := { s with bus := { s.bus with port := none }, ev := e }
    let begun (e : EventUnit) (k : JobKind) (words : List Word) : EventUnit :=
      { e with statusFailure := false, job := some { kind := k, words := words, index := 0 }, sReq := some 1, sCount := 0 }
    let number := if s.ev.presNumber + 1 = 0 then 1 else s.ev.presNumber + 1
    let last := j.words.length ≤ j.index + 1
    (j.index + 1 < j.words.length → exec (.statusWordComplete n) s = .next
      (done { s.ev with
        statusFailure := false, job := some { j with index := j.index + 1 }, sReq := some 1, sCount := 0 }).settle)
    ∧ (last → j.kind = .update → s.ev.given = none → exec (.statusWordComplete n) s = .next
      (done { begun s.ev .summary [] with pres := .shown, summaryPending := false }).settle)
    ∧ (last → j.kind = .clear → s.ev.given = none → s.ev.waiting = [] → exec (.statusWordComplete n) s = .next
      (done { begun s.ev .summary [] with pres := .none, summaryPending := false }).settle)
    ∧ (∀ x rest, last → j.kind = .clear → s.ev.waiting = x :: rest → exec (.statusWordComplete n) s = .next
      (done { begun s.ev .update (presentationWords x number) with
        pres := .updating, presented := some x, waiting := rest, presNumber := number, given := none
        summaryPending := true }).settle)
    ∧ (∀ x, last → j.kind = .summary → s.ev.given = some .update → s.ev.presented = some x →
      exec (.statusWordComplete n) s = .next
        (done { begun s.ev .update (presentationWords x s.ev.presNumber) with given := none }).settle)
    ∧ (last → j.kind = .summary → s.ev.given = some .clear → exec (.statusWordComplete n) s = .next
      (done { begun s.ev .clear (clearWords s.ev.presNumber) with given := none }).settle)
    ∧ (last → j.kind = .summary → s.ev.given = none → s.ev.summaryPending = true →
      exec (.statusWordComplete n) s = .next (done { begun s.ev .summary [] with summaryPending := false }).settle)
    ∧ (last → j.kind = .summary → s.ev.given = none → s.ev.summaryPending = false →
      exec (.statusWordComplete n) s = .next (done { s.ev with statusFailure := false, job := none }).settle)

/-- The words the status block shows. A summary job's snapshot is summary words 0 to 23, each item in its bits: states,
codes and last level in word 0, the next sequence number, group states and notify causes in word 2, the lost and stray
counts, the counters in words 5 to 13, and 0 in words 14 to 23 (R166, R173). An update job writes the record's fields
with their present flags and the presentation number, a clear job an empty kind (R172). ATTN is asserted exactly in
SHOWN (R168), FLT exactly in SAFE or FAULT, while the engine is HALTED, or while a status failure is outstanding
(R169). -/
def Obligations.StatusWordsAndLines : Prop :=
  ∀ s : State,
    s.summaryWords.length = 24
    ∧ s.summaryWords[0]? = some s.summaryWord0
    ∧ bits s.summaryWord0 0 4 = s.su.opState.code
    ∧ bits s.summaryWord0 4 2 = ((s.su.resetCause.map ResetCause.code).getD 0)
    ∧ bits s.summaryWord0 8 2 = s.su.validity.code ∧ bits s.summaryWord0 12 2 = s.mon.state.code
    ∧ bits s.summaryWord0 16 1 = s.eng.state.code
    ∧ bits s.summaryWord0 24 8 = ((s.mon.level.map BitVec.toNat).getD 255)
    ∧ bits s.summaryWord0 6 2 = 0 ∧ bits s.summaryWord0 10 2 = 0 ∧ bits s.summaryWord0 14 2 = 0
    ∧ bits s.summaryWord0 17 7 = 0
    ∧ s.summaryWords[1]? = some s.eng.nextSeq
    ∧ (∃ w, s.summaryWords[2]? = some w ∧ ∀ st : StreamId,
        bits w (8 * st) 2 = s.streams[st].group.code ∧ bits w (8 * st + 2) 2 = 0
        ∧ bits w (8 * st + 4) 3 = ((s.streams[st].notify.map Cause.code).getD 0) ∧ bits w (8 * st + 7) 1 = 0)
    ∧ s.summaryWords[3]? = some s.ev.lost ∧ s.summaryWords[4]? = some s.ev.stray
    ∧ (∀ k : Fin 18, ∃ w, s.summaryWords[5 + k.val / 2]? = some w
        ∧ ((∀ j : Fin 18, s.ev.counters[j] ≤ 65535) → bits w (16 * (k.val % 2)) 16 = s.ev.counters[k]))
    ∧ (∀ i, 14 ≤ i → i < 24 → s.summaryWords[i]? = some 0)
    ∧ (∀ (r : Record) (number : Word), r.repeats ≤ 255 → ∃ w, (presentationWords r number)[0]? = some w
        ∧ bits w 0 5 = r.kind.code ∧ bits w 8 2 = r.cls.val ∧ bits w 24 8 = r.repeats
        ∧ (bits w 16 1 = 1 ↔ r.fields.stream.isSome = true)
        ∧ (bits w 17 1 = 1 ↔ r.fields.addr.isSome = true) ∧ (bits w 18 1 = 1 ↔ r.fields.seq.isSome = true)
        ∧ (bits w 19 1 = 1 ↔ r.fields.slot.isSome = true) ∧ (bits w 20 1 = 1 ↔ r.fields.detail.isSome = true)
        ∧ bits w 10 2 = ((r.fields.stream.map Fin.val).getD 0)
        ∧ bits w 5 3 = 0 ∧ bits w 12 4 = 0 ∧ bits w 21 3 = 0
        ∧ (presentationWords r number).drop 1 =
            [BitVec.ofNat 32 ((r.fields.addr.map BitVec.toNat).getD 0), r.fields.seq.getD 0,
              BitVec.ofNat 32 (r.fields.slot.getD 0), r.fields.detail.getD 0, r.stamp, 0, number]
        ∧ clearWords number = [0, 0, 0, 0, 0, 0, 0, number])
    ∧ (s.attn = true ↔ s.ev.pres = .shown)
    ∧ (s.flt = true ↔ s.su.opState = .safe ∨ s.su.opState = .fault ∨ s.eng.state = .halted
        ∨ s.ev.statusFailure = true)

/-! ## Headline results -/

/-- The record that the journal writer forms is one the recovery pass judges sealed, with the same entry count and
sequence number, and every entry's address, mask and data read back as they were staged (R53, R69, R170). -/
def Obligations.RecordReadsBack : Prop :=
  ∀ (st : StreamId) (q : Word) (entries : List Entry), 1 ≤ entries.length → entries.length ≤ 62 →
    let words := recordWords st q entries
    isSealed words = true ∧ words.length = 2 * entries.length + 3
    ∧ entryCountOf (words.getD 0 0) = entries.length ∧ words.getD 1 0 = q
    ∧ ∀ (k : Nat) (e : Entry), entries[k]? = some e →
        addrOf (words.getD (2 * k + 2) 0) = e.addr ∧ maskOf (words.getD (2 * k + 2) 0) = e.mask
        ∧ words.getD (2 * k + 3) 0 = e.data

/-- Every step keeps the laws of the part's phases: the reset conditions against the operating state, what the memory
port may carry, nothing under way outside a serving state, and the monitor in BELOW exactly in RESET and WAIT with its
publication up to date (R116, R117, R131, R134, R135, R137). That the publication is up to date right after a reset is
assumption 21, and that the monitor is never in CUT between steps is assumption 11. -/
def Obligations.EveryStepKeepsThePhaseLaw : Prop :=
  ∀ s t : State, s.phaseLaw → step s = .next t → t.phaseLaw

/-- Every step keeps the law of the event queue: at most 16 records, at most one of them presented and that exactly in
UPDATING and SHOWN, the waiting ones in the order of their classes, and one status job for what the presentation owes
(R155, R159). -/
def Obligations.EveryStepKeepsTheEventQueueLaw : Prop :=
  ∀ s t : State, s.phaseLaw → s.ev.lawful → step s = .next t → t.ev.lawful
end

