-- ==== Sys2Proof/Laws/State.lean ====
section
/-! SUPPORT. What each basic update of the state leaves in each field. -/

namespace Sys2Proof.Machine

/-! ## Replacing a stream record -/

@[simp] theorem State.setStream_pending (s : State) (st : StreamId) (r : StreamRec) :
    (s.setStream st r).pending = s.pending := rfl
@[simp] theorem State.setStream_responses (s : State) (st : StreamId) (r : StreamRec) :
    (s.setStream st r).responses = s.responses := rfl
@[simp] theorem State.setStream_streams (s : State) (st : StreamId) (r : StreamRec) :
    (s.setStream st r).streams = s.streams.set st r := rfl
@[simp] theorem State.setStream_rows (s : State) (st : StreamId) (r : StreamRec) :
    (s.setStream st r).rows = s.rows := rfl
@[simp] theorem State.setStream_rowWait (s : State) (st : StreamId) (r : StreamRec) :
    (s.setStream st r).rowWait = s.rowWait := rfl
@[simp] theorem State.setStream_entryWait (s : State) (st : StreamId) (r : StreamRec) :
    (s.setStream st r).entryWait = s.entryWait := rfl
@[simp] theorem State.setStream_eng (s : State) (st : StreamId) (r : StreamRec) :
    (s.setStream st r).eng = s.eng := rfl
@[simp] theorem State.setStream_recovery (s : State) (st : StreamId) (r : StreamRec) :
    (s.setStream st r).recovery = s.recovery := rfl
@[simp] theorem State.setStream_bus (s : State) (st : StreamId) (r : StreamRec) :
    (s.setStream st r).bus = s.bus := rfl
@[simp] theorem State.setStream_mon (s : State) (st : StreamId) (r : StreamRec) :
    (s.setStream st r).mon = s.mon := rfl
@[simp] theorem State.setStream_cfg (s : State) (st : StreamId) (r : StreamRec) :
    (s.setStream st r).cfg = s.cfg := rfl
@[simp] theorem State.setStream_su (s : State) (st : StreamId) (r : StreamRec) : (s.setStream st r).su = s.su := rfl
@[simp] theorem State.setStream_clk (s : State) (st : StreamId) (r : StreamRec) :
    (s.setStream st r).clk = s.clk := rfl
@[simp] theorem State.setStream_ev (s : State) (st : StreamId) (r : StreamRec) : (s.setStream st r).ev = s.ev := rfl
@[simp] theorem State.setStream_freeIndex (s : State) (st : StreamId) (r : StreamRec) :
    (s.setStream st r).freeIndex = s.freeIndex := rfl

/-! ## Replacing a row -/

@[simp] theorem State.setRow_pending (s : State) (r : RowId) (row : Row) : (s.setRow r row).pending = s.pending := rfl
@[simp] theorem State.setRow_responses (s : State) (r : RowId) (row : Row) :
    (s.setRow r row).responses = s.responses := rfl
@[simp] theorem State.setRow_streams (s : State) (r : RowId) (row : Row) : (s.setRow r row).streams = s.streams := rfl
@[simp] theorem State.setRow_rows (s : State) (r : RowId) (row : Row) :
    (s.setRow r row).rows = s.rows.set r row := rfl
@[simp] theorem State.setRow_rowWait (s : State) (r : RowId) (row : Row) : (s.setRow r row).rowWait = s.rowWait := rfl
@[simp] theorem State.setRow_entryWait (s : State) (r : RowId) (row : Row) :
    (s.setRow r row).entryWait = s.entryWait := rfl
@[simp] theorem State.setRow_eng (s : State) (r : RowId) (row : Row) : (s.setRow r row).eng = s.eng := rfl
@[simp] theorem State.setRow_recovery (s : State) (r : RowId) (row : Row) :
    (s.setRow r row).recovery = s.recovery := rfl
@[simp] theorem State.setRow_bus (s : State) (r : RowId) (row : Row) : (s.setRow r row).bus = s.bus := rfl
@[simp] theorem State.setRow_mon (s : State) (r : RowId) (row : Row) : (s.setRow r row).mon = s.mon := rfl
@[simp] theorem State.setRow_cfg (s : State) (r : RowId) (row : Row) : (s.setRow r row).cfg = s.cfg := rfl
@[simp] theorem State.setRow_su (s : State) (r : RowId) (row : Row) : (s.setRow r row).su = s.su := rfl
@[simp] theorem State.setRow_clk (s : State) (r : RowId) (row : Row) : (s.setRow r row).clk = s.clk := rfl
@[simp] theorem State.setRow_ev (s : State) (r : RowId) (row : Row) : (s.setRow r row).ev = s.ev := rfl
@[simp] theorem State.setRow_freeIndex (s : State) (r : RowId) (row : Row) :
    (s.setRow r row).freeIndex = s.freeIndex := rfl

/-! ## Recording a response -/

@[simp] theorem State.emit_pending (s : State) (st : StreamId) (c : Code) (d : Word) :
    (s.emit st c d).pending = s.pending := rfl
@[simp] theorem State.emit_responses (s : State) (st : StreamId) (c : Code) (d : Word) :
    (s.emit st c d).responses = s.responses ++ [{ stream := st, code := c, data := d }] := rfl
@[simp] theorem State.emit_streams (s : State) (st : StreamId) (c : Code) (d : Word) :
    (s.emit st c d).streams = s.streams := rfl
@[simp] theorem State.emit_rows (s : State) (st : StreamId) (c : Code) (d : Word) :
    (s.emit st c d).rows = s.rows := rfl
@[simp] theorem State.emit_rowWait (s : State) (st : StreamId) (c : Code) (d : Word) :
    (s.emit st c d).rowWait = s.rowWait := rfl
@[simp] theorem State.emit_entryWait (s : State) (st : StreamId) (c : Code) (d : Word) :
    (s.emit st c d).entryWait = s.entryWait := rfl
@[simp] theorem State.emit_eng (s : State) (st : StreamId) (c : Code) (d : Word) : (s.emit st c d).eng = s.eng := rfl
@[simp] theorem State.emit_recovery (s : State) (st : StreamId) (c : Code) (d : Word) :
    (s.emit st c d).recovery = s.recovery := rfl
@[simp] theorem State.emit_bus (s : State) (st : StreamId) (c : Code) (d : Word) : (s.emit st c d).bus = s.bus := rfl
@[simp] theorem State.emit_mon (s : State) (st : StreamId) (c : Code) (d : Word) : (s.emit st c d).mon = s.mon := rfl
@[simp] theorem State.emit_cfg (s : State) (st : StreamId) (c : Code) (d : Word) : (s.emit st c d).cfg = s.cfg := rfl
@[simp] theorem State.emit_su (s : State) (st : StreamId) (c : Code) (d : Word) : (s.emit st c d).su = s.su := rfl
@[simp] theorem State.emit_clk (s : State) (st : StreamId) (c : Code) (d : Word) : (s.emit st c d).clk = s.clk := rfl
@[simp] theorem State.emit_ev (s : State) (st : StreamId) (c : Code) (d : Word) : (s.emit st c d).ev = s.ev := rfl
@[simp] theorem State.emit_freeIndex (s : State) (st : StreamId) (c : Code) (d : Word) :
    (s.emit st c d).freeIndex = s.freeIndex := rfl

/-! ## Raising an event -/

@[simp] theorem State.raise_pending (s : State) (k : EventKind) (f : EventFields) :
    (s.raise k f).pending = s.pending := rfl
@[simp] theorem State.raise_responses (s : State) (k : EventKind) (f : EventFields) :
    (s.raise k f).responses = s.responses := rfl
@[simp] theorem State.raise_streams (s : State) (k : EventKind) (f : EventFields) :
    (s.raise k f).streams = s.streams := rfl
@[simp] theorem State.raise_rows (s : State) (k : EventKind) (f : EventFields) : (s.raise k f).rows = s.rows := rfl
@[simp] theorem State.raise_rowWait (s : State) (k : EventKind) (f : EventFields) :
    (s.raise k f).rowWait = s.rowWait := rfl
@[simp] theorem State.raise_entryWait (s : State) (k : EventKind) (f : EventFields) :
    (s.raise k f).entryWait = s.entryWait := rfl
@[simp] theorem State.raise_eng (s : State) (k : EventKind) (f : EventFields) : (s.raise k f).eng = s.eng := rfl
@[simp] theorem State.raise_recovery (s : State) (k : EventKind) (f : EventFields) :
    (s.raise k f).recovery = s.recovery := rfl
@[simp] theorem State.raise_bus (s : State) (k : EventKind) (f : EventFields) : (s.raise k f).bus = s.bus := rfl
@[simp] theorem State.raise_mon (s : State) (k : EventKind) (f : EventFields) : (s.raise k f).mon = s.mon := rfl
@[simp] theorem State.raise_cfg (s : State) (k : EventKind) (f : EventFields) : (s.raise k f).cfg = s.cfg := rfl
@[simp] theorem State.raise_su (s : State) (k : EventKind) (f : EventFields) : (s.raise k f).su = s.su := rfl
@[simp] theorem State.raise_clk (s : State) (k : EventKind) (f : EventFields) : (s.raise k f).clk = s.clk := rfl
@[simp] theorem State.raise_ev (s : State) (k : EventKind) (f : EventFields) :
    (s.raise k f).ev = s.ev.take s.mayPresent (s.formRecord k f) := rfl
@[simp] theorem State.raise_freeIndex (s : State) (k : EventKind) (f : EventFields) :
    (s.raise k f).freeIndex = s.freeIndex := rfl

/-! ## A request of F, JW or AP that begins waiting -/

@[simp] theorem State.ask_pending (s : State) (p : Purpose) (a : Access) (n : Nat) :
    (s.ask p a n).pending = s.pending := rfl
@[simp] theorem State.ask_responses (s : State) (p : Purpose) (a : Access) (n : Nat) :
    (s.ask p a n).responses = s.responses := rfl
@[simp] theorem State.ask_streams (s : State) (p : Purpose) (a : Access) (n : Nat) :
    (s.ask p a n).streams = s.streams := rfl
@[simp] theorem State.ask_rows (s : State) (p : Purpose) (a : Access) (n : Nat) : (s.ask p a n).rows = s.rows := rfl
@[simp] theorem State.ask_rowWait (s : State) (p : Purpose) (a : Access) (n : Nat) :
    (s.ask p a n).rowWait = s.rowWait := rfl
@[simp] theorem State.ask_entryWait (s : State) (p : Purpose) (a : Access) (n : Nat) :
    (s.ask p a n).entryWait = s.entryWait := rfl
@[simp] theorem State.ask_eng (s : State) (p : Purpose) (a : Access) (n : Nat) : (s.ask p a n).eng = s.eng := rfl
@[simp] theorem State.ask_recovery (s : State) (p : Purpose) (a : Access) (n : Nat) :
    (s.ask p a n).recovery = s.recovery := rfl
@[simp] theorem State.ask_mon (s : State) (p : Purpose) (a : Access) (n : Nat) : (s.ask p a n).mon = s.mon := rfl
@[simp] theorem State.ask_cfg (s : State) (p : Purpose) (a : Access) (n : Nat) : (s.ask p a n).cfg = s.cfg := rfl
@[simp] theorem State.ask_su (s : State) (p : Purpose) (a : Access) (n : Nat) : (s.ask p a n).su = s.su := rfl
@[simp] theorem State.ask_clk (s : State) (p : Purpose) (a : Access) (n : Nat) : (s.ask p a n).clk = s.clk := rfl
@[simp] theorem State.ask_ev (s : State) (p : Purpose) (a : Access) (n : Nat) : (s.ask p a n).ev = s.ev := rfl
@[simp] theorem State.ask_freeIndex (s : State) (p : Purpose) (a : Access) (n : Nat) :
    (s.ask p a n).freeIndex = s.freeIndex := rfl
@[simp] theorem State.ask_bus_port (s : State) (p : Purpose) (a : Access) (n : Nat) :
    (s.ask p a n).bus.port = s.bus.port := rfl
@[simp] theorem State.ask_bus_nextNumber (s : State) (p : Purpose) (a : Access) (n : Nat) :
    (s.ask p a n).bus.nextNumber = s.bus.nextNumber := rfl
@[simp] theorem State.ask_bus_quiet (s : State) (p : Purpose) (a : Access) (n : Nat) :
    (s.ask p a n).bus.quiet = s.bus.quiet := rfl
@[simp] theorem State.ask_bus_waiting (s : State) (p : Purpose) (a : Access) (n : Nat) :
    (s.ask p a n).bus.waiting
      = s.bus.waiting ++ [{ purpose := p, access := a, attempt := n, place := s.bus.moment }] := rfl
@[simp] theorem State.ask_bus_solo (s : State) (p : Purpose) (a : Access) (n : Nat) :
    (s.ask p a n).bus.solo = s.bus.solo := rfl
@[simp] theorem State.ask_bus_lastClass (s : State) (p : Purpose) (a : Access) (n : Nat) :
    (s.ask p a n).bus.lastClass = s.bus.lastClass := rfl
@[simp] theorem State.ask_bus_lastStream (s : State) (p : Purpose) (a : Access) (n : Nat) :
    (s.ask p a n).bus.lastStream = s.bus.lastStream := rfl
@[simp] theorem State.ask_bus_moment (s : State) (p : Purpose) (a : Access) (n : Nat) :
    (s.ask p a n).bus.moment = s.bus.moment := rfl

/-! ## A request of the loader or the recovery pass -/

@[simp] theorem State.askSolo_pending (s : State) (p : Purpose) (a : Access) (n : Nat) :
    (s.askSolo p a n).pending = s.pending := rfl
@[simp] theorem State.askSolo_responses (s : State) (p : Purpose) (a : Access) (n : Nat) :
    (s.askSolo p a n).responses = s.responses := rfl
@[simp] theorem State.askSolo_streams (s : State) (p : Purpose) (a : Access) (n : Nat) :
    (s.askSolo p a n).streams = s.streams := rfl
@[simp] theorem State.askSolo_rows (s : State) (p : Purpose) (a : Access) (n : Nat) :
    (s.askSolo p a n).rows = s.rows := rfl
@[simp] theorem State.askSolo_rowWait (s : State) (p : Purpose) (a : Access) (n : Nat) :
    (s.askSolo p a n).rowWait = s.rowWait := rfl
@[simp] theorem State.askSolo_entryWait (s : State) (p : Purpose) (a : Access) (n : Nat) :
    (s.askSolo p a n).entryWait = s.entryWait := rfl
@[simp] theorem State.askSolo_eng (s : State) (p : Purpose) (a : Access) (n : Nat) :
    (s.askSolo p a n).eng = s.eng := rfl
@[simp] theorem State.askSolo_recovery (s : State) (p : Purpose) (a : Access) (n : Nat) :
    (s.askSolo p a n).recovery = s.recovery := rfl
@[simp] theorem State.askSolo_mon (s : State) (p : Purpose) (a : Access) (n : Nat) :
    (s.askSolo p a n).mon = s.mon := rfl
@[simp] theorem State.askSolo_cfg (s : State) (p : Purpose) (a : Access) (n : Nat) :
    (s.askSolo p a n).cfg = s.cfg := rfl
@[simp] theorem State.askSolo_su (s : State) (p : Purpose) (a : Access) (n : Nat) : (s.askSolo p a n).su = s.su := rfl
@[simp] theorem State.askSolo_clk (s : State) (p : Purpose) (a : Access) (n : Nat) :
    (s.askSolo p a n).clk = s.clk := rfl
@[simp] theorem State.askSolo_ev (s : State) (p : Purpose) (a : Access) (n : Nat) : (s.askSolo p a n).ev = s.ev := rfl
@[simp] theorem State.askSolo_freeIndex (s : State) (p : Purpose) (a : Access) (n : Nat) :
    (s.askSolo p a n).freeIndex = s.freeIndex := rfl
@[simp] theorem State.askSolo_bus_port (s : State) (p : Purpose) (a : Access) (n : Nat) :
    (s.askSolo p a n).bus.port = s.bus.port := rfl
@[simp] theorem State.askSolo_bus_nextNumber (s : State) (p : Purpose) (a : Access) (n : Nat) :
    (s.askSolo p a n).bus.nextNumber = s.bus.nextNumber := rfl
@[simp] theorem State.askSolo_bus_quiet (s : State) (p : Purpose) (a : Access) (n : Nat) :
    (s.askSolo p a n).bus.quiet = s.bus.quiet := rfl
@[simp] theorem State.askSolo_bus_waiting (s : State) (p : Purpose) (a : Access) (n : Nat) :
    (s.askSolo p a n).bus.waiting = s.bus.waiting := rfl
@[simp] theorem State.askSolo_bus_solo (s : State) (p : Purpose) (a : Access) (n : Nat) :
    (s.askSolo p a n).bus.solo = some { purpose := p, access := a, attempt := n } := rfl
@[simp] theorem State.askSolo_bus_lastClass (s : State) (p : Purpose) (a : Access) (n : Nat) :
    (s.askSolo p a n).bus.lastClass = s.bus.lastClass := rfl
@[simp] theorem State.askSolo_bus_lastStream (s : State) (p : Purpose) (a : Access) (n : Nat) :
    (s.askSolo p a n).bus.lastStream = s.bus.lastStream := rfl
@[simp] theorem State.askSolo_bus_moment (s : State) (p : Purpose) (a : Access) (n : Nat) :
    (s.askSolo p a n).bus.moment = s.bus.moment := rfl

/-! ## Presenting an access -/

@[simp] theorem State.present_pending (s : State) (p : Purpose) (a : Access) (n : Nat) :
    (s.present p a n).pending = s.pending := rfl
@[simp] theorem State.present_responses (s : State) (p : Purpose) (a : Access) (n : Nat) :
    (s.present p a n).responses = s.responses := rfl
@[simp] theorem State.present_streams (s : State) (p : Purpose) (a : Access) (n : Nat) :
    (s.present p a n).streams = s.streams := rfl
@[simp] theorem State.present_rows (s : State) (p : Purpose) (a : Access) (n : Nat) :
    (s.present p a n).rows = s.rows := rfl
@[simp] theorem State.present_rowWait (s : State) (p : Purpose) (a : Access) (n : Nat) :
    (s.present p a n).rowWait = s.rowWait := rfl
@[simp] theorem State.present_entryWait (s : State) (p : Purpose) (a : Access) (n : Nat) :
    (s.present p a n).entryWait = s.entryWait := rfl
@[simp] theorem State.present_eng (s : State) (p : Purpose) (a : Access) (n : Nat) :
    (s.present p a n).eng = s.eng := rfl
@[simp] theorem State.present_recovery (s : State) (p : Purpose) (a : Access) (n : Nat) :
    (s.present p a n).recovery = s.recovery := rfl
@[simp] theorem State.present_mon (s : State) (p : Purpose) (a : Access) (n : Nat) :
    (s.present p a n).mon = s.mon := rfl
@[simp] theorem State.present_cfg (s : State) (p : Purpose) (a : Access) (n : Nat) :
    (s.present p a n).cfg = s.cfg := rfl
@[simp] theorem State.present_su (s : State) (p : Purpose) (a : Access) (n : Nat) : (s.present p a n).su = s.su := rfl
@[simp] theorem State.present_clk (s : State) (p : Purpose) (a : Access) (n : Nat) :
    (s.present p a n).clk = s.clk := rfl
@[simp] theorem State.present_ev (s : State) (p : Purpose) (a : Access) (n : Nat) : (s.present p a n).ev = s.ev := rfl
@[simp] theorem State.present_freeIndex (s : State) (p : Purpose) (a : Access) (n : Nat) :
    (s.present p a n).freeIndex = s.freeIndex := rfl
@[simp] theorem State.present_bus_port (s : State) (p : Purpose) (a : Access) (n : Nat) :
    (s.present p a n).bus.port
      = some { purpose := p, access := a, attempt := n, number := s.bus.nextNumber, timeout := memoryTimeoutTime } := rfl
@[simp] theorem State.present_bus_nextNumber (s : State) (p : Purpose) (a : Access) (n : Nat) :
    (s.present p a n).bus.nextNumber = s.bus.nextNumber + 1 := rfl
@[simp] theorem State.present_bus_quiet (s : State) (p : Purpose) (a : Access) (n : Nat) :
    (s.present p a n).bus.quiet = s.bus.quiet := rfl
@[simp] theorem State.present_bus_waiting (s : State) (p : Purpose) (a : Access) (n : Nat) :
    (s.present p a n).bus.waiting = s.bus.waiting := rfl
@[simp] theorem State.present_bus_solo (s : State) (p : Purpose) (a : Access) (n : Nat) :
    (s.present p a n).bus.solo = s.bus.solo := rfl
@[simp] theorem State.present_bus_lastClass (s : State) (p : Purpose) (a : Access) (n : Nat) :
    (s.present p a n).bus.lastClass = s.bus.lastClass := rfl
@[simp] theorem State.present_bus_lastStream (s : State) (p : Purpose) (a : Access) (n : Nat) :
    (s.present p a n).bus.lastStream = s.bus.lastStream := rfl
@[simp] theorem State.present_bus_moment (s : State) (p : Purpose) (a : Access) (n : Nat) :
    (s.present p a n).bus.moment = s.bus.moment := rfl

/-! ## Freeing the port -/

@[simp] theorem State.freePort_pending (s : State) : (s.freePort).pending = s.pending := rfl
@[simp] theorem State.freePort_responses (s : State) : (s.freePort).responses = s.responses := rfl
@[simp] theorem State.freePort_streams (s : State) : (s.freePort).streams = s.streams := rfl
@[simp] theorem State.freePort_rows (s : State) : (s.freePort).rows = s.rows := rfl
@[simp] theorem State.freePort_rowWait (s : State) : (s.freePort).rowWait = s.rowWait := rfl
@[simp] theorem State.freePort_entryWait (s : State) : (s.freePort).entryWait = s.entryWait := rfl
@[simp] theorem State.freePort_eng (s : State) : (s.freePort).eng = s.eng := rfl
@[simp] theorem State.freePort_recovery (s : State) : (s.freePort).recovery = s.recovery := rfl
@[simp] theorem State.freePort_mon (s : State) : (s.freePort).mon = s.mon := rfl
@[simp] theorem State.freePort_cfg (s : State) : (s.freePort).cfg = s.cfg := rfl
@[simp] theorem State.freePort_su (s : State) : (s.freePort).su = s.su := rfl
@[simp] theorem State.freePort_clk (s : State) : (s.freePort).clk = s.clk := rfl
@[simp] theorem State.freePort_ev (s : State) : (s.freePort).ev = s.ev := rfl
@[simp] theorem State.freePort_freeIndex (s : State) : (s.freePort).freeIndex = s.freeIndex := rfl
@[simp] theorem State.freePort_bus_port (s : State) : (s.freePort).bus.port = none := rfl
@[simp] theorem State.freePort_bus_nextNumber (s : State) : (s.freePort).bus.nextNumber = s.bus.nextNumber := rfl
@[simp] theorem State.freePort_bus_quiet (s : State) : (s.freePort).bus.quiet = s.bus.quiet := rfl
@[simp] theorem State.freePort_bus_waiting (s : State) : (s.freePort).bus.waiting = s.bus.waiting := rfl
@[simp] theorem State.freePort_bus_solo (s : State) : (s.freePort).bus.solo = s.bus.solo := rfl
@[simp] theorem State.freePort_bus_lastClass (s : State) : (s.freePort).bus.lastClass = s.bus.lastClass := rfl
@[simp] theorem State.freePort_bus_lastStream (s : State) : (s.freePort).bus.lastStream = s.bus.lastStream := rfl
@[simp] theorem State.freePort_bus_moment (s : State) : (s.freePort).bus.moment = s.bus.moment := rfl

end Sys2Proof.Machine
end

