-- ==== Sys2Proof/Laws/Arbiter.lean ====
section
/-! SUPPORT. What the close of a step does, and which request the arbiter chooses. -/

namespace Sys2Proof.Machine

/-! ## The close of a step -/

/-- In a serving state, with the port IDLE and no quiet period, the close of a step is a grant (R111). -/
theorem State.settle_serving {s : State} (h1 : s.bus.port = none) (h2 : s.bus.quiet = none)
    (h3 : s.su.opState.serving = true) :
    s.settle = ({ s with bus := { s.bus with moment := s.bus.moment + 1 } } : State).grantServing := by
  simp only [State.settle, State.arbitrate, h1, h2]
  cases h : s.su.opState <;> simp [h, OpState.serving] at h3 ⊢

/-- While an access is in flight the close of a step only ends the moment (R104). -/
theorem State.settle_busy {s : State} (h : s.bus.port.isSome = true) :
    s.settle = { s with bus := { s.bus with moment := s.bus.moment + 1 } } := by
  simp [State.settle, State.arbitrate, h]

/-- In RESET and WAIT the close of a step only ends the moment (R116). -/
theorem State.settle_notStarted {s : State} (h : s.su.opState = .reset ∨ s.su.opState = .wait) :
    s.settle = { s with bus := { s.bus with moment := s.bus.moment + 1 } } := by
  rcases h with h | h <;> simp [State.settle, State.arbitrate, h]

/-- A request taken together with the next command leaves the close of the step to it. -/
theorem State.settle_together (s : State) : s.settle true = s := rfl

/-- Whatever is granted, the close of a step changes the port's side and the event unit alone (R111). -/
theorem State.settle_eq (s : State) (together : Bool) :
    ∃ b e, s.settle together = { s with bus := b, ev := e } := by
  have solo : ∀ x : State, ∃ b e, x.presentSolo = { x with bus := b, ev := e } := by
    intro x; unfold State.presentSolo; split <;> exact ⟨_, _, rfl⟩
  have serving : ∀ x : State, ∃ b e, x.grantServing = { x with bus := b, ev := e } := by
    intro x; unfold State.grantServing State.grantStatus; repeat' split
    all_goals exact ⟨_, _, rfl⟩
  unfold State.settle State.arbitrate
  repeat' split
  all_goals first
    | exact ⟨_, _, rfl⟩
    | (obtain ⟨b, e, h⟩ := solo { s with bus := { s.bus with moment := s.bus.moment + 1 } }; exact ⟨b, e, h⟩)
    | (obtain ⟨b, e, h⟩ := serving { s with bus := { s.bus with moment := s.bus.moment + 1 } }; exact ⟨b, e, h⟩)

/-- The status writer does not go first while another request waits and its count is below 8 (R115). -/
theorem State.grantsStatus_others {s : State} (hw : s.bus.waiting ≠ []) (h : s.ev.sReq = none ∨ s.ev.sCount < 8) :
    s.grantsStatus = false := by
  rcases h with h | h
  · simp [State.grantsStatus, h]
  · have : ¬ maxStatusCount ≤ s.ev.sCount := Nat.not_le.mpr h
    simp [State.grantsStatus, hw, this]

/-! ## The choice -/

/-- The place of a request that is older than every other is the oldest. -/
theorem oldestPlace_eq (ws : List Waiting) (w : Waiting) (hw : w ∈ ws) (h : ∀ v ∈ ws, v = w ∨ w.place < v.place) :
    oldestPlace ws = some w.place := by
  unfold oldestPlace
  rw [List.min?_eq_some_iff]
  refine ⟨List.mem_map_of_mem hw, ?_⟩
  intro b hb
  obtain ⟨v, hv, rfl⟩ := List.mem_map.mp hb
  rcases h v hv with rfl | h
  · exact le_refl _
  · exact h.le

/-- Of requests that are all one, the alternation takes it. -/
theorem Bus.chooseTied_one (b : Bus) (tied : List Waiting) (w : Waiting) (hw : w ∈ tied) (hall : ∀ v ∈ tied, v = w)
    (hc : w.purpose.cls.isSome = true) : b.chooseTied tied = some w := by
  obtain ⟨c, hc⟩ := Option.isSome_iff_exists.mp hc
  have hcl : ∀ c', hasClass tied c' = true ↔ c' = c := by
    intro c'
    simp only [hasClass, List.any_eq_true]
    constructor
    · rintro ⟨v, hv, h⟩; rw [hall v hv, hc] at h
      have h' : some c = some c' := by simpa using h
      exact (Option.some.inj h').symm
    · rintro rfl; exact ⟨w, hw, by simp [hc]⟩
  have hfind : (classOrder b.lastClass).find? (hasClass tied) = some c := by
    have hmem : c ∈ classOrder b.lastClass := by cases b.lastClass <;> cases c <;> simp [classOrder]
    cases hx : (classOrder b.lastClass).find? (hasClass tied) with
    | none => rw [List.find?_eq_none] at hx; exact absurd ((hcl c).mpr rfl) (hx c hmem)
    | some c' => rw [(hcl c').mp (List.find?_some hx)]
  have hf : ∀ p : Waiting → Bool, p w = true → tied.find? p = some w := by
    intro p hp
    cases hx : tied.find? p with
    | none => rw [List.find?_eq_none] at hx; exact absurd hp (hx w hw)
    | some v => rw [hall v (List.mem_of_find?_eq_some hx)]
  unfold Bus.chooseTied
  rw [hfind]
  cases c with
  | f =>
    have : ∃ st, w.purpose = .forwarded st := by
      cases hp : w.purpose <;> simp [hp, Purpose.cls] at hc ⊢
    obtain ⟨st, hst⟩ := this
    have hs : ∀ st', hasStream tied st' = true ↔ st' = st := by
      intro st'
      simp only [hasStream, List.any_eq_true]
      constructor
      · rintro ⟨v, hv, h⟩; rw [hall v hv, hst] at h
        have h' : Purpose.forwarded st = Purpose.forwarded st' := by simpa using h
        exact (Purpose.forwarded.inj h').symm
      · rintro rfl; exact ⟨w, hw, by simp [hst]⟩
    have hsf : (streamOrder b.lastStream).find? (hasStream tied) = some st := by
      have hmem : st ∈ streamOrder b.lastStream := by
        unfold streamOrder; clear hs hst; generalize b.lastStream = l; revert st l; decide
      cases hx : (streamOrder b.lastStream).find? (hasStream tied) with
      | none => rw [List.find?_eq_none] at hx; exact absurd ((hs st).mpr rfl) (hx st hmem)
      | some c' => rw [(hs c').mp (List.find?_some hx)]
    simp only [hsf]
    exact hf _ (by simp [hst])
  | jw => exact hf _ (by simp [hc])
  | ap => exact hf _ (by simp [hc])

/-- The request that is older than every other is the one chosen. -/
theorem Bus.chooseOldest_eq {b : Bus} {w : Waiting} (hw : w ∈ b.waiting)
    (h : ∀ v ∈ b.waiting, v = w ∨ w.place < v.place) (hc : w.purpose.cls.isSome = true) : b.chooseOldest = some w := by
  simp only [Bus.chooseOldest, oldestPlace_eq _ _ hw h]
  refine b.chooseTied_one _ w (by simp [hw]) (fun v hv => ?_) hc
  simp only [List.mem_filter, beq_iff_eq] at hv
  rcases h v hv.1 with h | h
  · exact h
  · omega

/-- The alternation takes one of the requests that share a place, of the first class in turn that waits (R113). -/
theorem Bus.chooseTied_mem (b : Bus) {tied : List Waiting} (hne : tied ≠ [])
    (hall : ∀ v ∈ tied, v.purpose.cls.isSome = true) :
    ∃ v ∈ tied, b.chooseTied tied = some v ∧ (classOrder b.lastClass).find? (hasClass tied) = v.purpose.cls := by
  obtain ⟨w, hw⟩ := List.exists_mem_of_ne_nil _ hne
  obtain ⟨cw, hcw⟩ := Option.isSome_iff_exists.mp (hall w hw)
  have hmem : ∀ c, c ∈ classOrder b.lastClass := by intro c; cases b.lastClass <;> cases c <;> simp [classOrder]
  cases hf : (classOrder b.lastClass).find? (hasClass tied) with
  | none =>
    rw [List.find?_eq_none] at hf
    refine absurd ?_ (hf cw (hmem cw))
    simp only [hasClass, List.any_eq_true]
    exact ⟨w, hw, by simp [hcw]⟩
  | some c =>
    have hc := List.find?_some hf
    simp only [hasClass, List.any_eq_true] at hc
    obtain ⟨v, hv, hcv⟩ := hc
    have hcv : v.purpose.cls = some c := by simpa using hcv
    have ofClass : ∃ v ∈ tied, tied.find? (fun w => w.purpose.cls == some c) = some v ∧ some c = v.purpose.cls := by
      cases hx : tied.find? (fun w => w.purpose.cls == some c) with
      | none => rw [List.find?_eq_none] at hx; exact absurd (by simp [hcv]) (hx v hv)
      | some x =>
        have hxc : x.purpose.cls = some c := by simpa using List.find?_some hx
        exact ⟨x, List.mem_of_find?_eq_some hx, rfl, hxc.symm⟩
    unfold Bus.chooseTied
    rw [hf]
    cases c with
    | jw => exact ofClass
    | ap => exact ofClass
    | f =>
      obtain ⟨st, hst⟩ : ∃ st, v.purpose = .forwarded st := by
        cases hp : v.purpose <;> simp [hp, Purpose.cls] at hcv ⊢
      simp only []
      cases hs : (streamOrder b.lastStream).find? (hasStream tied) with
      | none =>
        rw [List.find?_eq_none] at hs
        have hin : st ∈ streamOrder b.lastStream := by
          unfold streamOrder; clear hs hst; generalize b.lastStream = l; revert st l; decide
        refine absurd ?_ (hs st hin)
        simp only [hasStream, List.any_eq_true]
        exact ⟨v, hv, by simp [hst]⟩
      | some st' =>
        have hx := List.find?_some hs
        simp only [hasStream, List.any_eq_true] at hx
        obtain ⟨x, hx, hxp⟩ := hx
        simp only []
        cases hy : tied.find? (fun w => w.purpose == .forwarded st') with
        | none => rw [List.find?_eq_none] at hy; exact absurd hxp (hy x hx)
        | some y =>
          have hyp : y.purpose = .forwarded st' := by simpa using List.find?_some hy
          exact ⟨y, List.mem_of_find?_eq_some hy, rfl, by rw [hyp]; rfl⟩

end Sys2Proof.Machine
end

