-- ==== Sys2Proof/Laws/Events.lean ====
section
/-! SUPPORT. What each operation of the event unit does to the law of the event queue. -/

namespace Sys2Proof.Machine

/-! ## What the law says about the jobs -/

/-- With nothing owed, no update or clear job has been given. -/
theorem EventUnit.lawful.given_none {e : EventUnit} (h : e.lawful) (ho : e.pres.owes = []) : e.given = none := by
  have hj := h.jobs
  rw [ho, EventUnit.presentationJobs, List.filter_append, List.append_eq_nil_iff] at hj
  cases hg : e.given with
  | none => rfl
  | some k =>
    have h2 := hj.2
    rw [hg] at h2
    have : k = .summary := by simpa using h2
    exact absurd (this ▸ hg) h.given

/-- With nothing owed, the job in progress is none or a summary. -/
theorem EventUnit.lawful.job_summary {e : EventUnit} (h : e.lawful) (ho : e.pres.owes = []) :
    (e.job.map Job.kind).toList.filter (· != .summary) = [] := by
  have hj := h.jobs
  rw [ho, EventUnit.presentationJobs, List.filter_append, List.append_eq_nil_iff] at hj
  exact hj.1

/-! ## Operations that leave the queue's law alone -/

/-- The law looks at the queue, the counters, the presentation and the kinds of the jobs. -/
theorem EventUnit.lawful.congr {e f : EventUnit} (h : e.lawful) (h1 : f.counters = e.counters)
    (h2 : f.waiting = e.waiting) (h3 : f.presented = e.presented) (h4 : f.pres = e.pres)
    (h5 : f.job.map Job.kind = e.job.map Job.kind) (h6 : f.given = e.given) : f.lawful where
  size := by unfold EventUnit.queued; rw [h2, h3]; exact h.size
  presented := by rw [h3, h4]; exact h.presented
  order := by rw [h2]; exact h.order
  records := by rw [h2]; exact h.records
  counters := by rw [h1]; exact h.counters
  jobs := by rw [EventUnit.presentationJobs, h5, h6, h4]; exact h.jobs
  given := by rw [h6]; exact h.given

/-- Beginning the next job keeps the law (R165). -/
theorem EventUnit.lawful.beginJob {e : EventUnit} (h : e.lawful) : e.beginJob.lawful := by
  unfold EventUnit.beginJob
  split
  · exact h
  · rename_i hjob
    have key : ∀ (f : EventUnit), f.counters = e.counters → f.waiting = e.waiting → f.presented = e.presented →
        f.pres = e.pres → f.presentationJobs = e.presentationJobs → f.given ≠ some .summary → f.lawful := by
      intro f h1 h2 h3 h4 h5 h6
      exact
        { size := by unfold EventUnit.queued; rw [h2, h3]; exact h.size
          presented := by rw [h3, h4]; exact h.presented
          order := by rw [h2]; exact h.order
          records := by rw [h2]; exact h.records
          counters := by rw [h1]; exact h.counters
          jobs := by rw [h5, h4]; exact h.jobs
          given := h6 }
    split
    · rename_i hg
      split
      · exact key _ rfl rfl rfl rfl
          (by simp [EventUnit.presentationJobs, EventUnit.startJob, hjob, hg]) (by simp [EventUnit.startJob])
      · rename_i hp
        have hj := h.jobs
        simp only [EventUnit.presentationJobs, hjob, hg] at hj
        have hu : e.pres = .updating := by
          cases hpr : e.pres <;> simp [hpr, PresState.owes] at hj ⊢
        have := h.presented.mpr (.inl hu)
        rw [hp] at this
        cases this
    · rename_i k hk hg
      have hkk : k = .clear := by
        cases k with
        | update => exact absurd rfl hk
        | clear => rfl
        | summary => exact absurd hg h.given
      subst hkk
      exact key _ rfl rfl rfl rfl
        (by simp [EventUnit.presentationJobs, EventUnit.startJob, hjob, hg]) (by simp [EventUnit.startJob])
    · rename_i hg
      split
      · exact key _ rfl rfl rfl rfl
          (by simp [EventUnit.presentationJobs, EventUnit.startJob, hjob, hg]) (by simp [EventUnit.startJob, hg])
      · exact h

/-- A summary asked for keeps the law (R166). -/
theorem EventUnit.lawful.askSummary {e : EventUnit} (h : e.lawful) : e.askSummary.lawful := by
  unfold EventUnit.askSummary
  split
  · exact h
  · exact (h.congr (f := { e with summaryPending := true }) rfl rfl rfl rfl rfl rfl).beginJob

/-! ## Presentation (R160 to R164) -/

/-- Entering UPDATING with nothing owed and nothing presented keeps the law (R160). -/
theorem EventUnit.lawful.enterUpdating {e : EventUnit} (h : e.lawful) (ho : e.pres.owes = [])
    (hp : e.presented = none) : e.enterUpdating.lawful := by
  unfold EventUnit.enterUpdating
  split
  · exact h
  · rename_i r rest hw
    apply EventUnit.lawful.beginJob
    have hq := h.size
    rw [EventUnit.queued, hw, hp] at hq
    exact
      { size := by simpa [EventUnit.queued] using hq
        presented := by simp
        order := (List.pairwise_cons.mp (hw ▸ h.order)).2
        records := fun x hx => h.records x (by rw [hw]; exact List.mem_cons_of_mem _ hx)
        counters := h.counters
        jobs := by
          rw [EventUnit.presentationJobs, List.filter_append]
          dsimp only
          rw [h.job_summary ho]
          rfl
        given := by simp }

/-- Presentation begins, if it may, without breaking the law (R159). -/
theorem EventUnit.lawful.startPresentation {e : EventUnit} (h : e.lawful) (may : Bool) :
    (e.startPresentation may).lawful := by
  unfold EventUnit.startPresentation
  split
  · rename_i hc
    have hn : e.pres = .none := by
      rw [Bool.and_eq_true] at hc
      simpa using hc.2
    refine h.enterUpdating (by rw [hn]; rfl) ?_
    cases hp : e.presented with
    | none => rfl
    | some r =>
      have := h.presented.mp (by rw [hp]; rfl)
      rw [hn] at this
      simp at this
  · exact h

/-- What the beginning of presentation does where presentation may run (R159, R160). -/
theorem EventUnit.startPresentation_presentsHead (e : EventUnit) : e.presentsHead (e.startPresentation true) := by
  refine ⟨fun h => ?_, fun r rest hp hw => ⟨fun hj => ?_, fun hj => ?_⟩⟩
  · rcases h with h | h
    · simp [EventUnit.startPresentation, h]
    · simp [EventUnit.startPresentation, EventUnit.enterUpdating, h]
  · obtain ⟨j, hj⟩ := Option.isSome_iff_exists.mp hj
    simp [EventUnit.startPresentation, hp, EventUnit.enterUpdating, hw, EventUnit.beginJob, hj, nextPresNumber]
  · simp [EventUnit.startPresentation, hp, EventUnit.enterUpdating, hw, EventUnit.beginJob, hj, nextPresNumber,
      EventUnit.startJob]

/-! ## The queue (R154 to R157) -/

theorem mem_insertRecord {r x : Record} {l : List Record} : x ∈ insertRecord r l ↔ x = r ∨ x ∈ l := by
  induction l with
  | nil => simp [insertRecord]
  | cons w l ih =>
    unfold insertRecord
    split
    · simp
    · simp only [List.mem_cons, ih]; tauto

theorem length_insertRecord (r : Record) (l : List Record) : (insertRecord r l).length = l.length + 1 := by
  induction l with
  | nil => rfl
  | cons w l ih =>
    unfold insertRecord
    split
    · rfl
    · simp [ih]

/-- A record inserted in its place keeps the order of the classes (R155). -/
theorem pairwise_insertRecord {r : Record} {l : List Record} (h : l.Pairwise fun a b => b.cls ≤ a.cls) :
    (insertRecord r l).Pairwise fun a b => b.cls ≤ a.cls := by
  induction l with
  | nil => simp [insertRecord]
  | cons w l ih =>
    have hw := List.pairwise_cons.mp h
    unfold insertRecord
    split
    · rename_i hlt
      refine List.pairwise_cons.mpr ⟨fun x hx => ?_, h⟩
      rcases List.mem_cons.mp hx with rfl | hx
      · exact hlt.le
      · exact (hw.1 x hx).trans hlt.le
    · rename_i hge
      refine List.pairwise_cons.mpr ⟨fun x hx => ?_, ih hw.2⟩
      rcases mem_insertRecord.mp hx with rfl | hx
      · exact not_lt.mp hge
      · exact hw.1 x hx

/-- What a merge leaves: the same classes and the same length, each repeat count in its range (R156). -/
theorem mergeInto_spec {r : Record} {l ws : List Record} (h : mergeInto r l = some ws) :
    ws.map Record.cls = l.map Record.cls
    ∧ ((∀ x ∈ l, x.cls ≠ 0 ∧ 1 ≤ x.repeats ∧ x.repeats ≤ 255) →
        ∀ x ∈ ws, x.cls ≠ 0 ∧ 1 ≤ x.repeats ∧ x.repeats ≤ 255) := by
  induction l generalizing ws with
  | nil => simp [mergeInto] at h
  | cons w l ih =>
    unfold mergeInto at h
    split at h
    · obtain rfl := Option.some.inj h
      refine ⟨rfl, fun hl x hx => ?_⟩
      rcases List.mem_cons.mp hx with rfl | hx
      · have := hl w (List.mem_cons_self ..)
        refine ⟨this.1, ?_, ?_⟩ <;> dsimp only <;> omega
      · exact hl x (List.mem_cons_of_mem _ hx)
    · obtain ⟨ws', hm, rfl⟩ := Option.map_eq_some_iff.mp h
      obtain ⟨h1, h2⟩ := ih hm
      refine ⟨by simp [h1], fun hl x hx => ?_⟩
      rcases List.mem_cons.mp hx with rfl | hx
      · exact hl x (List.mem_cons_self ..)
      · exact h2 (fun y hy => hl y (List.mem_cons_of_mem _ hy)) x hx

/-- A counted event keeps the law (R154). -/
theorem EventUnit.lawful.count {e : EventUnit} (h : e.lawful) (k : EventKind) : (e.count k).lawful :=
  { h with
    counters := by
      intro i
      unfold EventUnit.count
      by_cases hi : k.index = i
      · subst hi; simp
      · dsimp only
        have : (e.counters.set k.index (min 65535 (e.counters[k.index] + 1)))[i] = e.counters[i] :=
          Vector.getElem_set_ne _ _ (by intro he; exact hi (Fin.ext he))
        rw [this]
        exact h.counters i }

/-- The waiting records replaced by others that keep the queue's law. -/
theorem EventUnit.lawful.withWaiting {e : EventUnit} (h : e.lawful) {ws : List Record}
    (h1 : ws.length + (if e.presented.isSome then 1 else 0) ≤ maxRecords)
    (h2 : ws.Pairwise fun a b => b.cls ≤ a.cls)
    (h3 : ∀ x ∈ ws, x.cls ≠ 0 ∧ 1 ≤ x.repeats ∧ x.repeats ≤ 255) (lost : Word) :
    ({ e with waiting := ws, lost := lost } : EventUnit).lawful :=
  { h with size := h1, order := h2, records := h3 }

/-- An event taken keeps the law (R153 to R157, R159). -/
theorem EventUnit.lawful.take {e : EventUnit} (h : e.lawful) (may : Bool) {r : Record} (h1 : 1 ≤ r.repeats)
    (h2 : r.repeats ≤ 255) : (e.take may r).lawful := by
  have hc := h.count r.kind
  unfold EventUnit.take
  dsimp only
  split
  · exact hc
  · rename_i hcls
    split
    · rename_i ws hm
      obtain ⟨m1, m2⟩ := mergeInto_spec hm
      refine hc.withWaiting ?_ ?_ (m2 hc.records) _
      · have hl : ws.length = (e.count r.kind).waiting.length := by
          simpa using congrArg List.length m1
        rw [hl]
        exact hc.size
      · have : ws.Pairwise (fun a b => b.cls ≤ a.cls) ↔
            (e.count r.kind).waiting.Pairwise (fun a b => b.cls ≤ a.cls) := by
          rw [← List.pairwise_map (f := Record.cls) (R := fun a b => b ≤ a),
            ← List.pairwise_map (f := Record.cls) (R := fun a b => b ≤ a), m1]
        exact this.mpr hc.order
    · have hrec : ∀ l : List Record, (∀ x ∈ l, x.cls ≠ 0 ∧ 1 ≤ x.repeats ∧ x.repeats ≤ 255) →
          ∀ x ∈ insertRecord r l, x.cls ≠ 0 ∧ 1 ≤ x.repeats ∧ x.repeats ≤ 255 := by
        intro l hl x hx
        rcases mem_insertRecord.mp hx with rfl | hx
        · exact ⟨hcls, h1, h2⟩
        · exact hl x hx
      split
      · rename_i hq
        apply EventUnit.lawful.startPresentation
        refine hc.withWaiting ?_ (pairwise_insertRecord hc.order) (hrec _ hc.records) _
        rw [length_insertRecord]
        have : (e.count r.kind).queued < maxRecords := hq
        unfold EventUnit.queued at this
        omega
      · unfold EventUnit.displaceOrDrop
        split
        · split
          · rename_i l hl hlt
            have hd : (e.count r.kind).waiting.dropLast ++ [l] = (e.count r.kind).waiting := by
              obtain ⟨ys, hys⟩ := List.getLast?_eq_some_iff.mp hl
              rw [hys, List.dropLast_concat]
            have hsub : (e.count r.kind).waiting.dropLast.Sublist (e.count r.kind).waiting :=
              List.dropLast_sublist _
            refine hc.withWaiting ?_ (pairwise_insertRecord (hc.order.sublist hsub))
              (hrec _ fun x hx => hc.records x (hsub.subset hx)) _
            rw [length_insertRecord]
            have hs := hc.size
            have hl' := congrArg List.length hd
            rw [List.length_append, List.length_singleton] at hl'
            rw [hl']
            exact hs
          · exact hc.congr rfl rfl rfl rfl rfl rfl
        · exact hc.congr rfl rfl rfl rfl rfl rfl

/-! ## Acknowledgement and job ends -/

/-- A presentation that ends leaves nothing presented. -/
theorem EventUnit.lawful.unpresented {e : EventUnit} (h : e.lawful) (ho : e.pres.owes = []) (given : Option JobKind)
    (pres : PresState) (hp : pres = .none ∧ given = none ∨ pres = .clearing ∧ given = some .clear) (sp : Bool) :
    ({ e with presented := none, pres := pres, given := given, summaryPending := sp } : EventUnit).lawful :=
  { size := by
      have := h.size
      unfold EventUnit.queued at this ⊢
      dsimp only
      simp only [Option.isSome_none, Bool.false_eq_true, if_false]
      omega
    presented := by rcases hp with ⟨rfl, rfl⟩ | ⟨rfl, rfl⟩ <;> simp
    order := h.order
    records := h.records
    counters := h.counters
    jobs := by
      rw [EventUnit.presentationJobs, List.filter_append]
      dsimp only
      rw [h.job_summary ho]
      rcases hp with ⟨rfl, rfl⟩ | ⟨rfl, rfl⟩ <;> rfl
    given := by rcases hp with ⟨rfl, rfl⟩ | ⟨rfl, rfl⟩ <;> simp }

/-- An ACK keeps the law (R162, R163). -/
theorem EventUnit.lawful.acknowledge {e : EventUnit} (h : e.lawful) : e.acknowledge.lawful := by
  unfold EventUnit.acknowledge
  split
  · rename_i hs
    have ho : e.pres.owes = [] := by rw [hs]; rfl
    unfold EventUnit.endPresentation
    dsimp only
    split
    · unfold EventUnit.enterClearing
      exact (h.unpresented ho (some .clear) .clearing (.inr ⟨rfl, rfl⟩) e.summaryPending).beginJob
    · have hn := h.unpresented ho none .none (.inl ⟨rfl, rfl⟩) e.summaryPending
      have hu := hn.enterUpdating rfl rfl
      rename_i hne
      have hw : ∃ r rest, e.waiting = r :: rest := by
        cases hw : e.waiting with
        | nil => rw [hw] at hne; exact absurd rfl hne
        | cons r rest => exact ⟨r, rest, rfl⟩
      obtain ⟨r, rest, hw⟩ := hw
      unfold EventUnit.enterUpdating at hu ⊢
      simp only [hw] at hu ⊢
      exact hu
  · exact h.congr rfl rfl rfl rfl rfl rfl
  · exact h.congr rfl rfl rfl rfl rfl rfl
  · exact h.congr rfl rfl rfl rfl rfl rfl

/-- The job in progress is what the presentation owes, and nothing further has been given. -/
theorem EventUnit.lawful.owed_of_job {e : EventUnit} (h : e.lawful) {j : Job} (hj : e.job = some j)
    (hk : j.kind ≠ .summary) : e.pres.owes = [j.kind] ∧ e.given = none := by
  have hjobs := h.jobs
  rw [EventUnit.presentationJobs, List.filter_append, hj] at hjobs
  have h1 : ((some j : Option Job).map Job.kind).toList.filter (· != .summary) = [j.kind] := by
    simp [hk]
  rw [h1] at hjobs
  have h2 : e.given.toList.filter (· != .summary) = [] := by
    cases hp : e.pres <;> rw [hp] at hjobs <;> simp [PresState.owes] at hjobs
    · simpa using hjobs.2
    · simpa using hjobs.2
  refine ⟨by rw [← hjobs, h2]; rfl, ?_⟩
  cases hg : e.given with
  | none => rfl
  | some k =>
    rw [hg] at h2
    have : k = .summary := by simpa using h2
    exact absurd (this ▸ hg) h.given

/-- A status word that completes keeps the law (R160, R164, R165). -/
theorem EventUnit.lawful.wordDone {e : EventUnit} (h : e.lawful) : e.wordDone.lawful := by
  unfold EventUnit.wordDone
  split
  · exact h
  · rename_i j hj
    dsimp only
    split
    · exact h.congr rfl rfl rfl rfl (by simp [hj]) rfl
    · unfold EventUnit.endJob
      dsimp only
      cases hk : j.kind with
      | update =>
        obtain ⟨ho, hg⟩ := h.owed_of_job hj (by simp [hk])
        have hp : e.pres = .updating := by
          rw [hk] at ho
          cases hp : e.pres <;> rw [hp] at ho <;> simp [PresState.owes] at ho ⊢
        unfold EventUnit.updateDone
        apply EventUnit.lawful.beginJob
        exact
          { size := h.size
            presented := by
              dsimp only
              constructor
              · intro _; exact .inr rfl
              · intro _; exact h.presented.mpr (.inl hp)
            order := h.order
            records := h.records
            counters := h.counters
            jobs := by simp [EventUnit.presentationJobs, hg, PresState.owes]
            given := by simp [hg] }
      | clear =>
        obtain ⟨ho, hg⟩ := h.owed_of_job hj (by simp [hk])
        have hp : e.pres = .clearing := by
          rw [hk] at ho
          cases hp : e.pres <;> rw [hp] at ho <;> simp [PresState.owes] at ho ⊢
        have hnp : e.presented = none := by
          cases hpr : e.presented with
          | none => rfl
          | some r =>
            have := h.presented.mp (by rw [hpr]; rfl)
            rw [hp] at this
            simp at this
        have hl : ({ e with
            statusFailure := false, job := none, pres := .none, summaryPending := true } : EventUnit).lawful :=
          { size := h.size
            presented := by simp [hnp]
            order := h.order
            records := h.records
            counters := h.counters
            jobs := by simp [EventUnit.presentationJobs, hg, PresState.owes]
            given := by simp [hg] }
        unfold EventUnit.clearDone
        dsimp only
        split
        · exact hl.beginJob
        · exact hl.enterUpdating rfl hnp
      | summary =>
        apply EventUnit.lawful.beginJob
        exact
          { size := h.size
            presented := h.presented
            order := h.order
            records := h.records
            counters := h.counters
            jobs := by
              have := h.jobs
              simp only [EventUnit.presentationJobs, hj, Option.map_some, hk] at this ⊢
              simpa using this
            given := h.given }

/-- The status writer withdrawn while nothing is owed keeps the law (R165). -/
theorem EventUnit.lawful.withdrawWriter {e : EventUnit} (h : e.lawful) (ho : e.pres.owes = []) :
    e.withdrawWriter.lawful :=
  { size := h.size
    presented := h.presented
    order := h.order
    records := h.records
    counters := h.counters
    jobs := by simp [EventUnit.presentationJobs, EventUnit.withdrawWriter, ho]
    given := by simp [EventUnit.withdrawWriter] }

/-! ## In the part -/

/-- An event raised keeps the law (R153). -/
theorem State.raise_lawful {s : State} (h : s.ev.lawful) (k : EventKind) (f : EventFields) : (s.raise k f).ev.lawful :=
  h.take _ (by simp [State.formRecord]) (by simp [State.formRecord])

/-- A summary asked for keeps the law (R166). -/
theorem State.askSummary_lawful {s : State} (h : s.ev.lawful) : s.askSummary.ev.lawful := by
  unfold State.askSummary
  split
  · exact h
  · exact h.askSummary

end Sys2Proof.Machine
end

