-- ==== Sys2Proof/Laws/Ops.lean ====
section
/-! SUPPORT. What the shared operations do, once each: record updates, requests taken, answers matched, waits that
stand. -/

namespace Sys2Proof.Machine

/-! ## Vectors read at a Fin -/

theorem fin_set_self {α : Type} {n : Nat} (v : Vector α n) (i : Fin n) (x : α) : (v.set i x)[i] = x := by simp

theorem fin_set_ne {α : Type} {n : Nat} (v : Vector α n) {i j : Fin n} (x : α) (h : i ≠ j) : (v.set i x)[j] = v[j] :=
  Vector.getElem_set_ne _ _ (by intro e; exact h (Fin.ext e))

theorem fin_set_same {α : Type} {n : Nat} (v : Vector α n) (i : Fin n) : v.set i v[i] = v := by simp

/-! ## Record updates -/

@[simp] theorem State.setStream_self (s : State) (st : StreamId) (r : StreamRec) :
    (s.setStream st r).streams[st] = r := by simp

theorem State.setStream_ne (s : State) (r : StreamRec) {st w : StreamId} (h : st ≠ w) :
    (s.setStream st r).streams[w] = s.streams[w] := by
  simp only [State.setStream_streams]
  exact Vector.getElem_set_ne _ _ (by intro e; exact h (Fin.ext e))

@[simp] theorem State.setRow_self (s : State) (r : RowId) (row : Row) : (s.setRow r row).rows[r] = row := by simp

theorem State.setRow_ne (s : State) (row : Row) {r k : RowId} (h : r ≠ k) : (s.setRow r row).rows[k] = s.rows[k] := by
  simp only [State.setRow_rows]
  exact Vector.getElem_set_ne _ _ (by intro e; exact h (Fin.ext e))

@[simp] theorem State.setStream_twice (s : State) (st : StreamId) (a b : StreamRec) :
    (s.setStream st a).setStream st b = s.setStream st b := by simp [State.setStream]

@[simp] theorem State.setRow_twice (s : State) (r : RowId) (a b : Row) : (s.setRow r a).setRow r b = s.setRow r b := by
  simp [State.setRow]

theorem State.setStream_same (s : State) (st : StreamId) : s.setStream st s.streams[st] = s := by
  simp [State.setStream]

/-- A stream with nothing outstanding answered: only its stall timer and the response differ. -/
theorem State.respond_eq (s : State) (st : StreamId) (c : Code) (d : Word) :
    s.respond st c d = { s with
      streams := s.streams.set st { s.streams[st] with outstanding := none, stallTimer := none }
      responses := s.responses ++ [{ stream := st, code := c, data := d }] } := rfl

/-! ## Requests (R86 to R89) -/

/-- A request presented while the port is not ready has no effect. -/
theorem State.request_notReady {s : State} (h : s.ready = false) (st : StreamId) (q : Request) (path : State → State) :
    s.request st q path = s := by simp [State.request, State.takeRequest, h]

/-- A request of a stream that has one outstanding is answered PROTOCOL (R88). -/
theorem State.request_second {s : State} {st : StreamId} (h : s.ready = true)
    (ho : s.streams[st].outstanding.isSome = true) (q : Request) (path : State → State) :
    s.request st q path = (s.emit st .protocol 0).raise .protocol { stream := some st } := by
  simp only [State.request, State.takeRequest, h, State.portAnswer, ho]
  rfl

/-- A WRITE that the port takes goes to its path. -/
theorem State.request_write {s : State} {st : StreamId} (h : s.takesWrite st) (k : Attr) (a : Addr) (m : Mask)
    (d : Word) (path : State → State) :
    s.request st (writeRequest k a m d) path = path (s.accept st (writeRequest k a m d)) := by
  obtain ⟨⟨h1, h2⟩, h3⟩ := h
  simp [-Fin.getElem_fin, State.request, State.takeRequest, h1, State.portAnswer, h2, writeRequest, h3]

/-- A READ of attribute NONE that the port takes goes to its path. -/
theorem State.request_read {s : State} {st : StreamId} (h : s.takes st) (a : Addr) (m : Mask) (d : Word)
    (path : State → State) :
    s.request st (readRequest .none a m d) path = path (s.accept st (readRequest .none a m d)) := by
  obtain ⟨h1, h2⟩ := h
  simp [-Fin.getElem_fin, State.request, State.takeRequest, h1, State.portAnswer, h2, readRequest]

/-! ## Answers (R104) -/

/-- The answer that matches, for an access of the expected purpose, frees the port and hands the outcome on. -/
theorem State.answered_match {s : State} {n : AccessNumber} {f : InFlight} (h : s.carries n f)
    (isMine : Purpose → Bool) (hp : isMine f.purpose = true) (taken : InFlight → State → State) :
    s.answered n isMine taken = taken f s.freePort := by
  obtain ⟨h1, h2⟩ := h
  simp [State.answered, State.matched, h1, h2, hp]

/-- An answer that matches no access in flight changes nothing. -/
theorem State.answered_noMatch {s : State} {n : AccessNumber} (h : ∀ f, s.bus.port = some f → f.number ≠ n)
    (isMine : Purpose → Bool) (taken : InFlight → State → State) : s.answered n isMine taken = s := by
  cases hp : s.bus.port with
  | none => simp [State.answered, State.matched, hp]
  | some f => simp [State.answered, State.matched, hp, h f hp]

/-- The memory timeout of an access in flight that has counted is its error answer (R105). -/
theorem exec_memoryTimeout_eq {s : State} {n : AccessNumber} {f : InFlight} (h : s.carries n f)
    (hc : f.timeout ≠ memoryTimeoutTime) : exec .memoryTimeout s = exec (.memoryErrorAnswer n) s := by
  have e := State.answered_match h (fun _ => true) rfl fun f s => s.accessFailed f
  simp [exec, execMemoryTimeout, execMemoryErrorAnswer, e, State.timeOut, h.1, hc]

/-- The memory timeout does not happen to an access just presented (R105). -/
theorem exec_memoryTimeout_full {s : State} {f : InFlight} (hp : s.bus.port = some f)
    (hc : f.timeout = memoryTimeoutTime) : exec .memoryTimeout s = .next s.settle := by
  simp [exec, execMemoryTimeout, State.timeOut, hp, hc]

/-! ## Waits that stand (R8, R32) -/

theorem State.noWaiters.waitsStand {s : State} (h : s.noWaiters) : s.waitsStand := ⟨.inl h.2, .inl h.1⟩

/-- When no waiting write can be served, serving and offering change nothing. -/
theorem State.afterFree_of_waitsStand {s : State} (h : s.waitsStand) : s.afterFree = s := by
  obtain ⟨he, hr⟩ := h
  have h1 : s.serve = s := by
    rcases he with he | he
    · simp [State.serve, he, State.serveEntries]
    · cases hw : s.entryWait with
      | nil => simp [State.serve, hw, State.serveEntries]
      | cons a l => simp [State.serve, hw, State.serveEntries, he]
  have h2 : s.offer = s := by
    rcases hr with hr | hr
    · simp [State.offer, hr, State.offerRows]
    · cases hw : s.rowWait with
      | nil => simp [State.offer, hw, State.offerRows]
      | cons a l => simp [State.offer, hw, State.offerRows, hr]
  rw [State.afterFree, h1, h2]

/-- With no write waiting, the service of the wait lists changes nothing. -/
theorem State.noWaiters.serve_offer {s : State} (h : s.noWaiters) : s.serve.offer = s :=
  State.afterFree_of_waitsStand h.waitsStand

/-! ## Rows of a stream -/

theorem State.dropOpenRow_none {s : State} {st : StreamId} (h : s.streams[st].openRow = none) :
    s.dropOpenRow st = s := by simp [-Fin.getElem_fin, State.dropOpenRow, h]

theorem State.dropOpenRow_opened {s : State} {st : StreamId} {r : RowId} (h : s.streams[st].openRow = some r)
    (ho : s.rows[r].state = .opened) : s.dropOpenRow st = s.setRow r Row.free := by
  simp [-Fin.getElem_fin, State.dropOpenRow, h, ho, State.freeRow]

end Sys2Proof.Machine
end

