-- ==== Sys2Proof/Laws/Group.lean ====
section
/-! SUPPORT. What the operands and the group controller's shared operations do: byte lanes, an accepted request, a
refusal, the waits carried over an update, a new entry. -/

namespace Sys2Proof.Machine

/-! ## Byte lanes (R27, R39) -/

theorem laneByte_ofLanes_zero (b3 b2 b1 b0 : BitVec 8) : laneByte (ofLanes b3 b2 b1 b0) 0 = b0 := by
  unfold laneByte ofLanes; ext i hi
  simp only [BitVec.getElem_extractLsb', BitVec.getLsbD_append]
  simp [hi]

theorem laneByte_ofLanes_one (b3 b2 b1 b0 : BitVec 8) : laneByte (ofLanes b3 b2 b1 b0) 1 = b1 := by
  unfold laneByte ofLanes; ext i hi
  simp only [BitVec.getElem_extractLsb', BitVec.getLsbD_append]
  simp [show 8 * 1 + i - 8 = i by omega, hi]

theorem laneByte_ofLanes_two (b3 b2 b1 b0 : BitVec 8) : laneByte (ofLanes b3 b2 b1 b0) 2 = b2 := by
  unfold laneByte ofLanes; ext i hi
  simp only [BitVec.getElem_extractLsb', BitVec.getLsbD_append]
  have h1 : ¬ 8 * 2 + i < 8 := by omega
  have h2 : ¬ 8 * 2 + i - 8 < 8 := by omega
  simp [-Nat.reduceMul, h1, h2, show 8 * 2 + i - 8 - 8 = i by omega, hi]

theorem laneByte_ofLanes_three (b3 b2 b1 b0 : BitVec 8) : laneByte (ofLanes b3 b2 b1 b0) 3 = b3 := by
  unfold laneByte ofLanes; ext i hi
  simp only [BitVec.getElem_extractLsb', BitVec.getLsbD_append]
  have h1 : ¬ 8 * 3 + i < 8 := by omega
  have h2 : ¬ 8 * 3 + i - 8 < 8 := by omega
  have h3 : ¬ 8 * 3 + i - 8 - 8 < 8 := by omega
  simp [-Nat.reduceMul, h1, h2, h3, show 8 * 3 + i - 8 - 8 - 8 = i by omega, hi]

/-- Each lane of a word built lane by lane is the byte it was built from. -/
theorem laneByte_ofLanes (f : Nat → BitVec 8) {n : Nat} (hn : n < 4) :
    laneByte (ofLanes (f 3) (f 2) (f 1) (f 0)) n = f n := by
  match n, hn with
  | 0, _ => exact laneByte_ofLanes_zero ..
  | 1, _ => exact laneByte_ofLanes_one ..
  | 2, _ => exact laneByte_ofLanes_two ..
  | 3, _ => exact laneByte_ofLanes_three ..

/-- A masked merge takes the new byte in the lanes of the mask and keeps the old one elsewhere (R27). -/
theorem laneByte_mergeMask (m : Mask) (new old : Word) {n : Nat} (hn : n < 4) :
    laneByte (mergeMask m new old) n = if m.getLsbD n then laneByte new n else laneByte old n :=
  laneByte_ofLanes (pickLane m new old) hn

/-- A guarded read's answer takes each lane from the first layer that holds it, otherwise from memory (R39). -/
theorem laneByte_mergeLayers (ls : List Layer) (memory : Word) {n : Nat} (hn : n < 4) :
    laneByte (mergeLayers ls memory) n =
      match ls.find? (fun l => l.mask.getLsbD n) with
      | some l => laneByte l.data n
      | none => laneByte memory n :=
  laneByte_ofLanes (layerLane ls memory) hn

/-! ## An accepted request (R87) -/

theorem State.accept_eq (s : State) (st : StreamId) (q : Request) :
    s.accept st q = s.setStream st { s.streams[st] with outstanding := some q } := rfl

@[simp] theorem State.accept_group (s : State) (st : StreamId) (q : Request) :
    (s.accept st q).streams[st].group = s.streams[st].group := by simp [State.accept]

@[simp] theorem State.accept_openRow (s : State) (st : StreamId) (q : Request) :
    (s.accept st q).streams[st].openRow = s.streams[st].openRow := by simp [State.accept]

@[simp] theorem State.accept_rows (s : State) (st : StreamId) (q : Request) : (s.accept st q).rows = s.rows := rfl
@[simp] theorem State.accept_eng (s : State) (st : StreamId) (q : Request) : (s.accept st q).eng = s.eng := rfl
@[simp] theorem State.accept_mon (s : State) (st : StreamId) (q : Request) : (s.accept st q).mon = s.mon := rfl
@[simp] theorem State.accept_cfg (s : State) (st : StreamId) (q : Request) : (s.accept st q).cfg = s.cfg := rfl
@[simp] theorem State.accept_wordKind (s : State) (st : StreamId) (q : Request) (a : Addr) :
    (s.accept st q).wordKind a = s.wordKind a := rfl
@[simp] theorem State.accept_conflicts (s : State) (st w : StreamId) (q : Request) (a : Addr) :
    (s.accept st q).conflicts w a = s.conflicts w a := rfl
@[simp] theorem State.accept_freeEntries (s : State) (st : StreamId) (q : Request) :
    (s.accept st q).freeEntries = s.freeEntries := rfl

/-- Events and the acceptance of a request are about different blocks. -/
theorem State.raise_accept (s : State) (st : StreamId) (q : Request) (k : EventKind) (f : EventFields) :
    (s.accept st q).raise k f = (s.raise k f).accept st q := rfl

/-- An accepted request that is answered leaves what answering without it leaves. -/
theorem State.respond_accept (s : State) (st : StreamId) (q : Request) (c : Code) (d : Word) :
    (s.accept st q).respond st c d = s.respond st c d := by
  simp [-Fin.getElem_fin, State.accept, State.respond, State.setStream, fin_set_self, Vector.set_set, State.emit]

/-! ## Rows and the staging store (R4, R24) -/

/-- The rows, one by one. -/
theorem State.rows_toList (s : State) : s.rows.toList = allRows.map fun r => s.rows[r] := by
  apply List.ext_getElem
  · simp [allRows]
  · intro i h1 h2
    have hi : i < 8 := by simpa using h1
    interval_cases i <;> rfl

/-- Entries in use, row by row. -/
theorem State.usedEntries_eq (s : State) : s.usedEntries = (allRows.map fun r => s.rows[r].entries.length).sum := by
  rw [State.usedEntries, State.rows_toList, List.map_map]; rfl

/-- A row replaced: the entries in use change by the difference. -/
theorem State.usedEntries_set (s : State) (r : RowId) (row : Row) :
    (s.setRow r row).usedEntries + s.rows[r].entries.length = s.usedEntries + row.entries.length := by
  rw [State.usedEntries_eq, State.usedEntries_eq]
  fin_cases r <;> simp [allRows, State.setRow] <;> omega

/-- The lowest-numbered FREE row. -/
theorem State.lowestFree_eq_some {s : State} {r : RowId} (h : s.rows[r].state = .free)
    (below : ∀ q : RowId, q < r → s.rows[q].state ≠ .free) : s.lowestFree = some r := by
  unfold State.lowestFree allRows
  rw [List.find?_eq_some_iff_getElem]
  refine ⟨by rw [h]; rfl, r.val, by simp, ?_, ?_⟩
  · fin_cases r <;> rfl
  · intro j hj
    have hj8 : j < 8 := by omega
    have e : [0, 1, 2, 3, 4, 5, 6, 7][j]'(by simp; omega) = (⟨j, hj8⟩ : RowId) := by interval_cases j <;> rfl
    have := below ⟨j, hj8⟩ (by simpa [Fin.lt_def] using hj)
    simp only [e]; simpa using this

/-- No row is FREE. -/
theorem State.lowestFree_eq_none {s : State} (h : ∀ r : RowId, s.rows[r].state ≠ .free) : s.lowestFree = none := by
  unfold State.lowestFree
  rw [List.find?_eq_none]
  intro r _
  simpa using h r

/-- The lowest-numbered FREE row is FREE. -/
theorem State.lowestFree_free {s : State} {r : RowId} (h : s.lowestFree = some r) : s.rows[r].state = .free := by
  have := List.find?_some h
  simpa using this

/-- No conflict (R34), row by row. -/
theorem State.conflicts_eq_false {s : State} {st : StreamId} {a : Addr} : s.conflicts st a = false ↔
    ∀ r : RowId, s.rows[r].state = .opened → s.rows[r].owner ≠ some st → ∀ e ∈ s.rows[r].entries, e.addr ≠ a := by
  rw [State.conflicts, State.rows_toList, List.any_map, List.any_eq_false]
  constructor
  · intro h r ho hw e he hea
    refine h r (by fin_cases r <;> simp [allRows]) ?_
    simp only [Function.comp, ho, Bool.and_eq_true, List.any_eq_true]
    exact ⟨⟨rfl, by simpa using hw⟩, e, he, by simpa using hea⟩
  · intro h r _ hc
    simp only [Function.comp, Bool.and_eq_true, List.any_eq_true] at hc
    obtain ⟨⟨h1, h2⟩, e, he, hea⟩ := hc
    exact h r (by simpa using h1) (by simpa using h2) e he (by simpa using hea)

/-! ## The waits over an update that leaves them alone -/

theorem State.waitsStand.congr {s t : State} (h : s.waitsStand) (h1 : t.entryWait = s.entryWait)
    (h2 : t.rowWait = s.rowWait) (h3 : t.rows = s.rows) : t.waitsStand := by
  obtain ⟨a, b⟩ := h
  refine ⟨?_, ?_⟩
  · rw [h1]; simpa [State.freeEntries, State.usedEntries, h3] using a
  · rw [h2]; simpa [State.lowestFree, h3] using b

/-- The waits stand over an update that keeps each row's entry count and whether it is FREE. -/
theorem State.waitsStand.congr_rows {s t : State} (h : s.waitsStand) (h1 : t.entryWait = s.entryWait)
    (h2 : t.rowWait = s.rowWait)
    (h3 : ∀ r : RowId, t.rows[r].entries.length = s.rows[r].entries.length
      ∧ (t.rows[r].state = .free ↔ s.rows[r].state = .free)) : t.waitsStand := by
  obtain ⟨a, b⟩ := h
  refine ⟨?_, ?_⟩
  · rw [h1]; simpa [-Fin.getElem_fin, State.freeEntries, State.usedEntries_eq, h3] using a
  · rw [h2]
    refine b.imp_right fun hn => State.lowestFree_eq_none fun r hr => ?_
    have hr' := (h3 r).2.mp hr
    rw [State.lowestFree, List.find?_eq_none] at hn
    exact absurd hr' (by simpa using hn r (by fin_cases r <;> simp [allRows]))

theorem State.noWaiters.congr {s t : State} (h : s.noWaiters) (h1 : t.entryWait = s.entryWait)
    (h2 : t.rowWait = s.rowWait) : t.noWaiters := ⟨by rw [h2]; exact h.1, by rw [h1]; exact h.2⟩

/-! ## Refusals (R11, R13) -/

/-- A refused GROUP write of a stream without an open row: NOTIFY with the cause, and the answer. -/
theorem State.refuse_group_noRow {s : State} {st : StreamId} (q : Request) (c : Cause)
    (h : s.streams[st].openRow = none) :
    (s.accept st q).refuse st .group c = { s with
      streams := s.streams.set st (StreamRec.notified c)
      responses := s.responses ++ [{ stream := st, code := c.response, data := 0 }] } := by
  simp only [State.refuse]
  rw [State.dropOpenRow_none (by rw [State.accept_openRow, h])]
  simp [-Fin.getElem_fin, -BitVec.ofNat_eq_ofNat, State.toNotify, State.accept, State.respond, fin_set_self,
    State.setStream, State.emit, StreamRec.reset, StreamRec.notified]

/-- A refused CLOSE of a stream without an open row: IDLE, and the answer. -/
theorem State.refuse_close_noRow {s : State} {st : StreamId} (q : Request) (c : Cause)
    (h : s.streams[st].openRow = none) :
    (s.accept st q).refuse st .close c = { s with
      streams := s.streams.set st StreamRec.reset
      responses := s.responses ++ [{ stream := st, code := c.response, data := 0 }] } := by
  simp only [State.refuse]
  rw [State.dropOpenRow_none (by rw [State.accept_openRow, h])]
  simp [-Fin.getElem_fin, -BitVec.ofNat_eq_ofNat, State.toIdle, State.accept, State.respond, fin_set_self,
    State.setStream, State.emit, StreamRec.reset]

/-- A refused GROUP write of a stream that owns an OPEN row: the row is freed as well. -/
theorem State.refuse_group_row {s : State} {st : StreamId} {r : RowId} (c : Cause)
    (h : s.streams[st].openRow = some r) (ho : s.rows[r].state = .opened) :
    s.refuse st .group c = { s with
      streams := s.streams.set st (StreamRec.notified c)
      rows := s.rows.set r Row.free
      responses := s.responses ++ [{ stream := st, code := c.response, data := 0 }] } := by
  simp only [State.refuse]
  rw [State.dropOpenRow_opened h ho]
  simp [-Fin.getElem_fin, -BitVec.ofNat_eq_ofNat, State.toNotify, State.respond, fin_set_self, State.setStream,
    State.setRow, State.emit, StreamRec.reset, StreamRec.notified]

/-- A refused CLOSE of a stream that owns an OPEN row: the row is freed as well. -/
theorem State.refuse_close_row {s : State} {st : StreamId} {r : RowId} (c : Cause)
    (h : s.streams[st].openRow = some r) (ho : s.rows[r].state = .opened) :
    s.refuse st .close c = { s with
      streams := s.streams.set st StreamRec.reset
      rows := s.rows.set r Row.free
      responses := s.responses ++ [{ stream := st, code := c.response, data := 0 }] } := by
  simp only [State.refuse]
  rw [State.dropOpenRow_opened h ho]
  simp [-Fin.getElem_fin, -BitVec.ofNat_eq_ofNat, State.toIdle, State.respond, fin_set_self, State.setStream,
    State.setRow, State.emit, StreamRec.reset]

/-! ## What the tests and sums over rows say -/

/-- A conflict is an entry for the word in an OPEN row of another stream (R34). -/
theorem State.conflicts_iff (s : State) (st : StreamId) (a : Addr) : s.conflicts st a = true ↔
    ∃ q : RowId, s.rows[q].state = .opened ∧ s.rows[q].owner ≠ some st ∧ ∃ e ∈ s.rows[q].entries, e.addr = a := by
  rw [State.conflicts, State.rows_toList, List.any_map, List.any_eq_true]
  constructor
  · rintro ⟨r, _, h⟩
    simp only [Function.comp, Bool.and_eq_true, beq_iff_eq, bne_iff_ne, List.any_eq_true] at h
    exact ⟨r, h.1.1, h.1.2, h.2⟩
  · rintro ⟨r, h1, h2, h3⟩
    refine ⟨r, by fin_cases r <;> simp [allRows], ?_⟩
    simp only [Function.comp, Bool.and_eq_true, beq_iff_eq, bne_iff_ne, List.any_eq_true]
    exact ⟨⟨h1, h2⟩, h3⟩

/-- The reservation: what the queue's CLOSED rows cost and its JOURNALING rows still owe (R47). -/
theorem State.reservation_eq (s : State) : s.reservation = (s.eng.queue.map fun q =>
    match s.rows[q].state with
    | .closed => 2 * s.rows[q].entries.length + 3
    | .journaling => 2 * s.rows[q].entries.length + 3 - ((s.eng.jw.map Work.progress).getD 0)
    | _ => 0).sum := by
  unfold State.reservation
  congr 1
  apply List.map_congr_left
  intro q _
  simp only [State.owed]
  cases s.rows[q].state <;> try rfl
  cases s.eng.jw <;> rfl

/-- The layers of a guarded read: the reader's own OPEN row, then the commit queue from its tail (R37). -/
theorem State.layersFor_eq (s : State) (st : StreamId) (a : Addr) : s.layersFor st a =
    (((match s.streams[st].group, s.streams[st].openRow with
      | .opened, some r => [r]
      | _, _ => []) ++ s.eng.queue.reverse).filterMap fun r =>
      (s.rows[r].entries.find? fun e => e.addr == a).map fun e => { mask := e.mask, data := e.data }) := by
  simp only [State.layersFor, List.filterMap_append, List.filterMap_map]
  congr 1
  cases s.streams[st].group <;> cases s.streams[st].openRow <;> rfl

end Sys2Proof.Machine
end

