-- ==== Sys2Proof/Laws/Engine.lean ====
section
/-! SUPPORT. What the halt, the journal writer and the applier may change. -/

namespace Sys2Proof.Machine

/-! ## Changes of the group side alone -/

/-- `t` differs from `s` at most in the streams, the rows and the responses, and keeps the responses given. -/
def State.GroupSide (s t : State) : Prop :=
  ∃ streams rows rs, t = { s with streams := streams, rows := rows, responses := s.responses ++ rs }

theorem State.GroupSide.rfl' {s : State} : s.GroupSide s := ⟨s.streams, s.rows, [], by simp⟩

theorem State.GroupSide.trans {s t u : State} (h : s.GroupSide t) (k : t.GroupSide u) : s.GroupSide u := by
  obtain ⟨a, b, c, rfl⟩ := h
  obtain ⟨a', b', c', rfl⟩ := k
  exact ⟨a', b', c ++ c', by simp⟩

theorem State.GroupSide.setStream (s : State) (st : StreamId) (r : StreamRec) : s.GroupSide (s.setStream st r) :=
  ⟨s.streams.set st r, s.rows, [], by simp [State.setStream]⟩

theorem State.GroupSide.setRow (s : State) (r : RowId) (row : Row) : s.GroupSide (s.setRow r row) :=
  ⟨s.streams, s.rows.set r row, [], by simp [State.setRow]⟩

theorem State.GroupSide.respond (s : State) (st : StreamId) (c : Code) (d : Word) : s.GroupSide (s.respond st c d) :=
  ⟨_, _, _, rfl⟩

theorem State.GroupSide.dropOpenRow (s : State) (st : StreamId) : s.GroupSide (s.dropOpenRow st) := by
  unfold State.dropOpenRow
  split
  · split
    · exact .setRow ..
    · exact .rfl'
  · exact .rfl'

theorem State.GroupSide.toIdle (s : State) (st : StreamId) : s.GroupSide (s.toIdle st) := .setStream ..

theorem State.GroupSide.toNotify (s : State) (st : StreamId) (c : Cause) : s.GroupSide (s.toNotify st c) := .setStream ..

/-- A refusal touches the stream, its open row and the responses (R11, R13). -/
theorem State.GroupSide.refuse (s : State) (st : StreamId) (k : Attr) (c : Cause) : s.GroupSide (s.refuse st k c) := by
  unfold State.refuse
  refine (State.GroupSide.dropOpenRow s st).trans ?_
  dsimp only
  split
  · exact (State.GroupSide.toIdle _ st).trans (.respond ..)
  · exact (State.GroupSide.toNotify _ st _).trans (.respond ..)

theorem State.GroupSide.haltStream (s : State) (st : StreamId) : s.GroupSide (s.haltStream st) := by
  unfold State.haltStream
  split
  · split
    · exact (State.GroupSide.toIdle _ st).trans (.respond ..)
    · exact (State.GroupSide.toNotify _ st _).trans (.respond ..)
  · exact .rfl'
  · exact ((State.GroupSide.dropOpenRow s st).trans (.toNotify ..)).trans (.respond ..)
  · exact (State.GroupSide.dropOpenRow s st).trans (.toNotify ..)
  · exact ((State.GroupSide.dropOpenRow s st).trans (.toIdle ..)).trans (.respond ..)
  · exact .rfl'

theorem State.GroupSide.haltRow (s : State) (r : RowId) : s.GroupSide (s.haltRow r) := by
  unfold State.haltRow
  split
  · exact .setRow ..
  · exact .rfl'

theorem State.GroupSide.foldl {α : Type} {f : State → α → State} (h : ∀ (s : State) a, s.GroupSide (f s a)) (l : List α)
    (s : State) : s.GroupSide (l.foldl f s) := by
  induction l generalizing s with
  | nil => exact .rfl'
  | cons a l ih => exact (h s a).trans (ih (f s a))

/-! ## The halt (R63 to R65) -/

/-- A summary asked for changes the event unit alone. -/
theorem State.askSummary_eq (s : State) : ∃ e, s.askSummary = { s with ev := e } ∧ (s.ev.lawful → e.lawful) := by
  unfold State.askSummary
  split
  · exact ⟨s.ev, rfl, id⟩
  · exact ⟨_, rfl, fun h => h.askSummary⟩

/-- Entry to a serving state changes the operating state and the event unit alone: START is raised, a summary is asked
for, and presentation begins where it may run (R152, R159, R166). -/
theorem State.enterServing_eq (s : State) (o : OpState) :
    let asked := ({ s.raise .start { detail := some (startDetail s.su.resetCause) } with
      su := { s.su with opState := o } } : State).askSummary
    ∃ e, s.enterServing o = { asked with ev := e }
      ∧ (o = .run ∨ o = .safe ∨ o = .fault ∧ s.su.strapError = false → asked.ev.presentsHead e)
      ∧ (o = .fault → s.su.strapError = true → e = asked.ev) := by
  intro asked
  have hm : asked.mayPresent = (o == .run || o == .safe || (o == .fault && !s.su.strapError)) := by
    obtain ⟨e, he, _⟩ := State.askSummary_eq ({ s.raise .start { detail := some (startDetail s.su.resetCause) } with
      su := { s.su with opState := o } } : State)
    simp only [asked, he]
    cases o <;> rfl
  refine ⟨asked.ev.startPresentation asked.mayPresent, rfl, fun h => ?_, fun ho h => ?_⟩
  · have : asked.mayPresent = true := by rw [hm]; rcases h with rfl | rfl | ⟨rfl, h⟩ <;> simp [*]
    rw [this]; exact asked.ev.startPresentation_presentsHead
  · have : asked.mayPresent = false := by rw [hm, ho, h]; rfl
    simp [this, EventUnit.startPresentation]

/-- What the halt may change: the group side, the wait lists, the engine, the waiting requests and the event unit. -/
theorem State.halt_eq (s : State) : ∃ streams rows rs queue e, (s.ev.lawful → e.lawful) ∧
    s.halt = { s with
      streams := streams, rows := rows, responses := s.responses ++ rs, rowWait := [], entryWait := []
      eng := { s.eng with state := .halted, jw := none, queue := queue }
      bus := s.bus.withdrawEngine, ev := e } := by
  obtain ⟨e, he, hl⟩ := State.askSummary_eq { s with eng := { s.eng with state := .halted, jw := none } }
  unfold State.halt
  dsimp only
  rw [he]
  dsimp only
  generalize hu : allStreams.foldl State.haltStream _ = u
  have hG := (hu ▸ State.GroupSide.foldl State.GroupSide.haltStream allStreams _).trans
    (State.GroupSide.foldl State.GroupSide.haltRow u.eng.queue u)
  generalize u.keptQueue = queue
  generalize u.eng.queue.foldl State.haltRow u = v at hG ⊢
  obtain ⟨a, b, c, rfl⟩ := hG
  exact ⟨a, b, c, queue, e, hl, rfl⟩

theorem State.halt_noWaiters (s : State) : s.halt.noWaiters := by
  obtain ⟨a, b, c, q, e, _, h⟩ := s.halt_eq
  rw [h]; exact ⟨rfl, rfl⟩

/-! ## The journal writer (R52) -/

/-- The slot search looks at the rows' slots, the ring head, the bad-slot list and the slot count (R50). -/
theorem State.findSlot_congr {s t : State} (h1 : ∀ r : RowId, t.rows[r].slot = s.rows[r].slot)
    (h2 : t.eng.ringHead = s.eng.ringHead) (h3 : t.eng.badSlots = s.eng.badSlots) (h4 : t.su.straps = s.su.straps) :
    t.findSlot = s.findSlot := by
  have hs : t.slotsInUse = s.slotsInUse := by
    rw [State.slotsInUse, State.slotsInUse, State.rows_toList, State.rows_toList, List.filterMap_map,
      List.filterMap_map]
    exact congrArg (fun f => allRows.filterMap f) (funext fun r => h1 r)
  have ha : t.slotAvailable = s.slotAvailable := by
    funext k; simp only [State.slotAvailable, hs, h3]
  simp only [State.findSlot, ha, h2, State.slotCount, h4]

/-- The first word of a record is its header word (R53). -/
theorem Row.record_zero (r : Row) : r.record.getD 0 0 = headerWord (r.owner.getD 0) r.entries.length := by
  simp [Row.record, recordWords, recordBody]

/-- The first write of a record is never the seal (R53). -/
theorem Row.journalPurpose_zero (r : Row) : r.journalPurpose 0 = .journal := by
  have h : ¬ 0 + 1 = r.cost := by unfold Row.cost; omega
  rw [Row.journalPurpose, if_neg h]

/-- A slot given to a row: the row's slot and state, the ring head after it, and the header word asked for
(R50, R52, R56). -/
theorem State.allocate_eq (s : State) (r : RowId) :
    s.allocate r = ({ s with
      rows := s.rows.set r { s.rows[r] with slot := some s.findSlot, state := .journaling }
      eng := { s.eng with ringHead := s.slotAfter s.findSlot, jw := some { row := r, progress := 0 } } }
        : State).ask .journal
      { write := true, addr := s.slotAddr s.findSlot 0, mask := 15
        data := headerWord (s.rows[r].owner.getD 0) s.rows[r].entries.length } 1 := by
  simp only [State.allocate, State.askJournal, State.setRow, fin_set_self, Row.journalPurpose_zero, Row.record_zero]
  rfl

/-- A journal start serves nobody: it frees no entry and no row, or it halts and empties the wait lists. -/
theorem State.startJournal_waitsStand {s : State} (h : s.waitsStand) : s.startJournal.waitsStand := by
  unfold State.startJournal
  split
  · rename_i r _ _ hr
    unfold State.journalRow
    split
    · exact (State.halt_noWaiters _).waitsStand
    · have hc : s.rows[r].state = .closed := by
        unfold State.oldestClosed at hr
        simpa using List.find?_some hr
      dsimp only
      rw [State.allocate_eq]
      refine State.waitsStand.congr_rows (s := s) h ?_ ?_ fun q => ?_
      · rfl
      · rfl
      · simp only [State.ask, State.setRow_rows, Vector.set_set, fin_set_self]
        by_cases e : r = q
        · subst e; rw [fin_set_self]; simp [-Fin.getElem_fin, hc]
        · rw [fin_set_ne _ _ e]; simp
  · exact h

end Sys2Proof.Machine
end

