-- ==== Sys2Proof/Laws/Frame.lean ====
section
/-! SUPPORT. What no request, engine outcome or event changes: the start-up controller, the configured items, the
recovery pass, the monitor's own state, and the port. -/

namespace Sys2Proof.Machine

/-- `t` keeps what only resets, samples, the loader, the recovery pass and the arbiter change. -/
structure State.Keeps (s t : State) : Prop where
  pending : t.pending = s.pending
  su : t.su = s.su
  cfg : t.cfg = s.cfg
  clk : t.clk = s.clk
  recovery : t.recovery = s.recovery
  mon : { t.mon with sampler := s.mon.sampler } = s.mon
  port : t.bus.port = s.bus.port
  solo : t.bus.solo = s.bus.solo
  quiet : t.bus.quiet = s.bus.quiet
  waiting : ∀ w ∈ t.bus.waiting, w ∈ s.bus.waiting ∨ w.purpose.cls.isSome = true
  responses : s.responses <+: t.responses
  events : s.ev.lawful → t.ev.lawful

theorem State.Keeps.refl (s : State) : s.Keeps s :=
  ⟨rfl, rfl, rfl, rfl, rfl, rfl, rfl, rfl, rfl, fun _ h => .inl h, List.prefix_refl _, id⟩

theorem State.Keeps.trans {s t u : State} (h : s.Keeps t) (k : t.Keeps u) : s.Keeps u where
  pending := k.pending.trans h.pending
  su := k.su.trans h.su
  cfg := k.cfg.trans h.cfg
  clk := k.clk.trans h.clk
  recovery := k.recovery.trans h.recovery
  mon := by
    have h1 := h.mon
    have h2 := k.mon
    rw [← h1, ← h2]
  port := k.port.trans h.port
  solo := k.solo.trans h.solo
  quiet := k.quiet.trans h.quiet
  waiting := fun w hw => (k.waiting w hw).elim (fun h' => h.waiting w h') .inr
  responses := h.responses.trans k.responses
  events := k.events ∘ h.events

/-- A change of streams, rows, wait lists, engine, event unit and free-value counter, with responses added at most. -/
theorem State.Keeps.of_fields {s t : State} (h1 : t.pending = s.pending) (h2 : t.su = s.su) (h3 : t.cfg = s.cfg)
    (h4 : t.clk = s.clk) (h5 : t.recovery = s.recovery) (h6 : t.mon = s.mon) (h7 : t.bus = s.bus)
    (h8 : t.ev = s.ev) (h9 : s.responses <+: t.responses) : s.Keeps t :=
  ⟨h1, h2, h3, h4, h5, by rw [h6], by rw [h7], by rw [h7], by rw [h7], fun w hw => .inl (by rwa [h7] at hw), h9,
    fun h => by rwa [h8]⟩

theorem State.GroupSide.keeps {s t : State} (h : s.GroupSide t) : s.Keeps t := by
  obtain ⟨a, b, c, rfl⟩ := h
  exact .of_fields rfl rfl rfl rfl rfl rfl rfl rfl (List.prefix_append _ _)

theorem State.Keeps.raise (s : State) (k : EventKind) (f : EventFields) : s.Keeps (s.raise k f) :=
  ⟨rfl, rfl, rfl, rfl, rfl, rfl, rfl, rfl, rfl, fun _ h => .inl h, List.prefix_refl _,
    fun h => State.raise_lawful h k f⟩

theorem State.Keeps.ask (s : State) {p : Purpose} (h : p.cls.isSome = true) (a : Access) (n : Nat) :
    s.Keeps (s.ask p a n) where
  pending := rfl
  su := rfl
  cfg := rfl
  clk := rfl
  recovery := rfl
  mon := rfl
  port := rfl
  solo := rfl
  quiet := rfl
  waiting := by
    intro w hw
    rcases List.mem_append.mp hw with hw | hw
    · exact .inl hw
    · rw [List.mem_singleton.mp hw]; exact .inr h
  responses := List.prefix_refl _
  events := id

theorem State.Keeps.noteRowInUse (s : State) : s.Keeps s.noteRowInUse :=
  ⟨rfl, rfl, rfl, rfl, rfl, rfl, rfl, rfl, rfl, fun _ h => .inl h, List.prefix_refl _, id⟩

theorem State.Keeps.halt (s : State) : s.Keeps s.halt := by
  obtain ⟨a, b, c, q, e, hl, h⟩ := s.halt_eq
  rw [h]
  exact ⟨rfl, rfl, rfl, rfl, rfl, rfl, rfl, rfl, rfl, fun w hw => .inl (List.mem_filter.mp hw).1,
    List.prefix_append _ _, hl⟩

/-! ## The engine -/

theorem State.Keeps.askJournal (s : State) : s.Keeps s.askJournal := by
  unfold State.askJournal
  split
  · refine .ask s ?_ _ _
    unfold Row.journalPurpose
    split <;> rfl
  · exact .refl s

theorem State.Keeps.allocate (s : State) (r : RowId) : s.Keeps (s.allocate r) := by
  unfold State.allocate
  dsimp only
  refine State.Keeps.trans ?_ (.askJournal _)
  exact .of_fields rfl rfl rfl rfl rfl rfl rfl rfl (List.prefix_refl _)

theorem State.Keeps.startJournal (s : State) : s.Keeps s.startJournal := by
  unfold State.startJournal
  split
  · unfold State.journalRow
    split
    · exact (State.Keeps.raise ..).trans (.halt _)
    · dsimp only
      refine State.Keeps.trans ?_ (.allocate _ _)
      exact .of_fields rfl rfl rfl rfl rfl rfl rfl rfl (List.prefix_refl _)
  · exact .refl s

theorem State.Keeps.askApply (s : State) : s.Keeps s.askApply := by
  unfold State.askApply
  split
  · split
    · exact .ask s rfl _ _
    · exact .ask s rfl _ _
  · exact .refl s

theorem State.Keeps.startApply (s : State) : s.Keeps s.startApply := by
  unfold State.startApply
  split
  · split
    · refine State.Keeps.trans ?_ (.askApply _)
      exact .of_fields rfl rfl rfl rfl rfl rfl rfl rfl (List.prefix_refl _)
    · exact .refl s
  · exact .refl s

theorem State.Keeps.setEng (s : State) (e : Engine) : s.Keeps { s with eng := e } :=
  .of_fields rfl rfl rfl rfl rfl rfl rfl rfl (List.prefix_refl _)

theorem State.Keeps.journalDone (s : State) : s.Keeps s.journalDone := by
  unfold State.journalDone
  split
  · exact (State.Keeps.setEng ..).trans (.askJournal _)
  · exact .refl s

theorem State.Keeps.answerDurable (s : State) (r : RowId) : s.Keeps (s.answerDurable r) := by
  unfold State.answerDurable
  split
  · exact ((State.GroupSide.toIdle s _).trans (.respond ..)).keeps
  · exact .refl s

theorem State.Keeps.sealDone (s : State) : s.Keeps s.sealDone := by
  unfold State.sealDone
  split
  · dsimp only
    refine State.Keeps.trans ?_ ((State.Keeps.answerDurable _ _).trans ((State.Keeps.startJournal _).trans (.startApply _)))
    exact .of_fields rfl rfl rfl rfl rfl rfl rfl rfl (List.prefix_refl _)
  · exact .refl s

theorem State.Keeps.applyDone (s : State) : s.Keeps s.applyDone := by
  unfold State.applyDone
  split
  · dsimp only
    refine State.Keeps.trans ?_ (.askApply _)
    split
    · exact .setEng ..
    · exact .of_fields rfl rfl rfl rfl rfl rfl rfl rfl (List.prefix_refl _)
  · exact .refl s

theorem State.Keeps.journalFailed (s : State) : s.Keeps s.journalFailed := by
  unfold State.journalFailed
  split
  · dsimp only
    split
    · exact ((State.Keeps.raise ..).trans (.setEng ..)).trans (.allocate _ _)
    · exact (State.Keeps.raise ..).trans (.halt _)
  · exact .refl s

theorem State.Keeps.applyFailed (s : State) (a : Addr) : s.Keeps (s.applyFailed a) :=
  (State.Keeps.raise ..).trans (.halt _)

theorem State.Keeps.retireFailed (s : State) : s.Keeps s.retireFailed := (State.Keeps.raise ..).trans (.halt _)

/-! ## The group controller and the store -/

theorem State.Keeps.refusalEvent (s : State) (st : StreamId) (c : Cause) (a : Addr) :
    s.Keeps (s.refusalEvent st c a) := by
  unfold State.refusalEvent
  split
  · exact .raise ..
  · exact .raise ..
  · exact .refl s

theorem State.Keeps.newEntry (s : State) (r : RowId) (a : Addr) (m : Mask) (d : Word) : s.Keeps (s.newEntry r a m d) :=
  .of_fields rfl rfl rfl rfl rfl rfl rfl rfl (List.prefix_refl _)

theorem State.Keeps.stageEntry (s : State) (r : RowId) (a : Addr) (m : Mask) (d : Word) :
    s.Keeps (s.stageEntry r a m d) := by
  unfold State.stageEntry
  split
  · exact (State.GroupSide.setRow ..).keeps
  · exact .newEntry ..

theorem State.Keeps.finishClose (s : State) (st : StreamId) (r : RowId) : s.Keeps (s.finishClose st r) := by
  unfold State.finishClose
  split
  · exact ((State.GroupSide.setRow s r _).trans ((State.GroupSide.toIdle _ st).trans (.respond ..))).keeps
  · split
    · unfold State.enqueueClosed State.stopStall
      dsimp only
      refine State.Keeps.trans ?_ ((State.GroupSide.setStream _ st _).keeps.trans (.startJournal _))
      exact .of_fields rfl rfl rfl rfl rfl rfl rfl rfl (List.prefix_refl _)
    · exact ((State.GroupSide.setRow s r _).trans
        ((State.GroupSide.toIdle _ st).trans (.respond ..))).keeps.trans (.raise ..)

theorem State.Keeps.finishWrite (s : State) (st : StreamId) (r : RowId) (k : Attr) : s.Keeps (s.finishWrite st r k) := by
  unfold State.finishWrite
  split
  · exact .finishClose ..
  · exact ((State.GroupSide.respond s st _ _).trans (.setStream ..)).keeps

theorem State.Keeps.stageWrite (s : State) (st : StreamId) (r : RowId) (q : Request) : s.Keeps (s.stageWrite st r q) := by
  unfold State.stageWrite
  split
  · exact .finishWrite ..
  · split
    · exact (State.Keeps.stageEntry ..).trans (.finishWrite ..)
    · exact (State.Keeps.refusalEvent ..).trans (State.GroupSide.refuse ..).keeps
    · refine State.Keeps.trans ?_ ((State.GroupSide.setStream _ st _).trans (.setStream ..)).keeps
      exact .of_fields rfl rfl rfl rfl rfl rfl rfl rfl (List.prefix_refl _)

theorem State.Keeps.openWrite (s : State) (st : StreamId) (q : Request) : s.Keeps (s.openWrite st q) := by
  unfold State.openWrite
  split
  · exact (State.Keeps.refusalEvent ..).trans (State.GroupSide.refuse ..).keeps
  · split
    · refine State.Keeps.trans ?_ (.stageWrite ..)
      unfold State.assignRow
      dsimp only
      have h : ∀ row r, s.Keeps (s.setRow r row).noteRowInUse := fun row r =>
        (State.GroupSide.setRow s r row).keeps.trans (.noteRowInUse _)
      split
      · exact (h _ _).trans (State.GroupSide.setStream ..).keeps
      · exact (h _ _).trans (State.GroupSide.setStream ..).keeps
    · refine State.Keeps.trans ?_ (State.GroupSide.setStream ..).keeps
      exact .of_fields rfl rfl rfl rfl rfl rfl rfl rfl (List.prefix_refl _)

theorem State.Keeps.restage (s : State) (st : StreamId) : s.Keeps (s.restage st) := by
  unfold State.restage
  split
  · split
    · exact (State.Keeps.refusalEvent ..).trans (State.GroupSide.refuse ..).keeps
    · exact (State.Keeps.newEntry ..).trans (.finishWrite ..)
  · exact .refl s

theorem State.Keeps.serveEntries (n : Nat) (s : State) : s.Keeps (State.serveEntries n s) := by
  induction n generalizing s with
  | zero => exact .refl s
  | succ n ih =>
    unfold State.serveEntries
    split
    · exact .refl s
    · split
      · exact .refl s
      · refine State.Keeps.trans ?_ ((State.Keeps.restage _ _).trans (ih _))
        exact .of_fields rfl rfl rfl rfl rfl rfl rfl rfl (List.prefix_refl _)

theorem State.Keeps.offerRow (s : State) (st : StreamId) : s.Keeps (s.offerRow st) := by
  unfold State.offerRow
  split
  · exact .openWrite ..
  · exact .refl s

theorem State.Keeps.offerRows (n : Nat) (s : State) : s.Keeps (State.offerRows n s) := by
  induction n generalizing s with
  | zero => exact .refl s
  | succ n ih =>
    unfold State.offerRows
    split
    · refine State.Keeps.trans ?_ ((State.Keeps.offerRow _ _).trans (ih _))
      exact .of_fields rfl rfl rfl rfl rfl rfl rfl rfl (List.prefix_refl _)
    · exact .refl s

theorem State.Keeps.afterFree (s : State) : s.Keeps s.afterFree :=
  (State.Keeps.serveEntries _ s).trans (.offerRows _ _)

theorem State.Keeps.refuseRegion (s : State) (st : StreamId) (q : Request) : s.Keeps (s.refuseRegion st q) :=
  (State.Keeps.raise ..).trans (State.GroupSide.refuse ..).keeps

theorem State.Keeps.groupWrite (s : State) (st : StreamId) (k : WordKind) (q : Request) :
    s.Keeps (s.groupWrite st k q) := by
  unfold State.groupWrite
  split
  · exact (State.GroupSide.respond ..).keeps
  · split
    · exact .openWrite ..
    · exact .refuseRegion ..
  · split
    · exact (State.GroupSide.setStream ..).keeps.trans (.stageWrite ..)
    · exact .refuseRegion ..
  · exact .refl s
  · exact .refl s

theorem State.Keeps.closeWrite (s : State) (st : StreamId) (k : WordKind) (q : Request) :
    s.Keeps (s.closeWrite st k q) := by
  unfold State.closeWrite
  split
  · exact ((State.GroupSide.toIdle s st).trans (.respond ..)).keeps
  · split
    · exact .openWrite ..
    · exact .refuseRegion ..
  · split
    · exact (State.GroupSide.setStream ..).keeps.trans (.stageWrite ..)
    · exact (State.GroupSide.setStream ..).keeps.trans (.refuseRegion ..)
  · exact .refl s
  · exact .refl s

theorem State.Keeps.abortWrite (s : State) (st : StreamId) : s.Keeps (s.abortWrite st) := by
  unfold State.abortWrite
  split
  · exact (State.GroupSide.respond ..).keeps
  · exact ((State.GroupSide.dropOpenRow s st).trans ((State.GroupSide.toIdle _ st).trans (.respond ..))).keeps
  · exact ((State.GroupSide.toIdle s st).trans (.respond ..)).keeps
  · exact .refl s

theorem State.Keeps.retireDone (s : State) : s.Keeps s.retireDone := by
  unfold State.retireDone
  split
  · rename_i w _
    have h1 : s.Keeps (s.freeEntriesOf w.row).serve :=
      (State.GroupSide.setRow s _ _).keeps.trans (.serveEntries _ _)
    have h2 : (s.freeEntriesOf w.row).serve.Keeps ((s.freeEntriesOf w.row).serve.leaveQueue w.row) :=
      .of_fields rfl rfl rfl rfl rfl rfl rfl rfl (List.prefix_refl _)
    exact h1.trans (h2.trans ((State.Keeps.offerRows _ _).trans (.startApply _)))
  · exact .refl s

/-! ## Plain requests -/

theorem State.Keeps.refusePlain (s : State) (st : StreamId) (q : Request) : s.Keeps (s.refusePlain st q) :=
  (State.GroupSide.respond ..).keeps.trans (.raise ..)

theorem State.Keeps.forwardWrite (s : State) (st : StreamId) (q : Request) : s.Keeps (s.forwardWrite st q) := by
  unfold State.forwardWrite
  split
  · exact (State.GroupSide.respond ..).keeps
  · exact .ask s rfl _ _

theorem State.Keeps.forwardRead (s : State) (st : StreamId) (q : Request) : s.Keeps (s.forwardRead st q) :=
  .ask s rfl _ _

theorem State.Keeps.plainWrite (s : State) (st : StreamId) (q : Request) : s.Keeps (s.plainWrite st q) := by
  unfold State.plainWrite
  split
  · exact .forwardWrite ..
  · split
    · exact .forwardWrite ..
    · exact .refusePlain ..
  · exact .refusePlain ..
  · exact .refusePlain ..
  · exact .refusePlain ..

theorem State.Keeps.plainRead (s : State) (st : StreamId) (q : Request) : s.Keeps (s.plainRead st q) := by
  unfold State.plainRead
  split
  · unfold State.guardedRead
    dsimp only
    split
    · exact (State.GroupSide.respond ..).keeps
    · exact (State.GroupSide.setStream ..).keeps.trans (.forwardRead ..)
  · exact .forwardRead ..
  · exact .forwardRead ..
  · exact .refusePlain ..
  · exact .refusePlain ..

/-- A request command keeps what its path keeps. -/
theorem State.Keeps.request (s : State) (st : StreamId) (q : Request) {path : State → State}
    (h : ∀ s : State, s.Keeps (path s)) : s.Keeps (s.request st q path) := by
  have ht : s.Keeps (s.takeRequest st q).1 := by
    unfold State.takeRequest
    split
    · exact .refl s
    · split
      · unfold State.answerAtPort
        have he : ∀ c, s.Keeps (s.emit st c 0) := fun c =>
          .of_fields rfl rfl rfl rfl rfl rfl rfl rfl (List.prefix_append _ _)
        dsimp only
        split
        · exact (he _).trans (.raise ..)
        · exact he _
      · exact (State.GroupSide.setStream ..).keeps
  unfold State.request
  split
  · rename_i heq
    rw [heq] at ht
    exact ht.trans (h _)
  · rename_i heq
    rw [heq] at ht
    exact ht

end Sys2Proof.Machine
end

