-- ==== Sys2Proof/Laws/Halt.lean ====
section
/-! SUPPORT. The halt taken against one stream, one row, all streams and all rows of the queue (R23, R64). -/

namespace Sys2Proof.Machine

/-! ## One stream -/

/-- The stream has a GROUP or CLOSE write outstanding (R23). -/
def StreamRec.asks (r : StreamRec) : Bool :=
  match r.outstanding with
  | some q => q.write && (q.attr == .group || q.attr == .close)
  | none => false

theorem StreamRec.groupedPending_none (r : StreamRec) : r.groupedPending = none ↔ r.asks = false := by
  unfold StreamRec.groupedPending StreamRec.asks
  cases r.outstanding with
  | none => simp
  | some q => simp only []; cases (q.write && (q.attr == .group || q.attr == .close)) <;> simp

/-- The stream record as the halt leaves it (R23). -/
def StreamRec.halted (r : StreamRec) : StreamRec :=
  match r.group, r.groupedPending with
  | .idle, some attr => if attr = .close then StreamRec.reset else StreamRec.notified .halted
  | .idle, none => r
  | .opened, some _ => StreamRec.notified .halted
  | .opened, none => { r with group := .notify, openRow := none, notify := some .halted, idleTimer := none }
  | .closing, _ => StreamRec.reset
  | .notify, _ => r

/-- The halt answers the stream HALTED (R23). -/
def StreamRec.answeredHalted (r : StreamRec) : Bool := r.group == .closing || (r.asks && r.group != .notify)

theorem State.dropOpenRow_streams (s : State) (st : StreamId) : (s.dropOpenRow st).streams = s.streams := by
  unfold State.dropOpenRow
  split
  · split <;> rfl
  · rfl

theorem State.dropOpenRow_responses (s : State) (st : StreamId) : (s.dropOpenRow st).responses = s.responses := by
  unfold State.dropOpenRow
  split
  · split <;> rfl
  · rfl

/-- The halt taken against one stream leaves every other stream's record alone. -/
theorem State.haltStream_other (s : State) {st w : StreamId} (h : st ≠ w) :
    (s.haltStream st).streams[w] = s.streams[w] := by
  unfold State.haltStream State.dropOpenRow
  repeat' split
  all_goals simp only [State.toIdle, State.toNotify, State.respond, State.setStream, State.emit, State.freeRow,
    State.setRow, fin_set_ne _ _ h]

/-- The halt taken against one stream leaves its record as R23 says. -/
theorem State.haltStream_self (s : State) (st : StreamId) : (s.haltStream st).streams[st] = s.streams[st].halted := by
  unfold State.haltStream StreamRec.halted
  cases hg : s.streams[st].group <;> cases hp : s.streams[st].groupedPending <;> simp only []
  · rename_i a
    cases a <;> simp [-Fin.getElem_fin, State.toIdle, State.toNotify, State.respond, State.setStream, State.emit,
      fin_set_self, StreamRec.reset, StreamRec.notified]
  all_goals simp [-Fin.getElem_fin, State.toNotify, State.toIdle, State.respond, State.setStream, State.emit,
    fin_set_self, State.dropOpenRow_streams, StreamRec.reset, StreamRec.notified]

/-- The halt taken against one stream answers it HALTED, or nobody (R23). -/
theorem State.haltStream_responses (s : State) (st : StreamId) :
    (s.haltStream st).responses = s.responses
      ++ (if s.streams[st].answeredHalted then [{ stream := st, code := .halted, data := 0 }] else []) := by
  have hn := s.streams[st].groupedPending_none
  unfold State.haltStream StreamRec.answeredHalted
  cases hg : s.streams[st].group <;> cases hp : s.streams[st].groupedPending <;> simp only []
  · rw [hn.mp hp]; simp
  · have ha : s.streams[st].asks = true := Bool.eq_true_of_not_eq_false (by rw [← hn, hp]; simp)
    rw [ha]
    rename_i a
    cases a <;> simp [State.toIdle, State.toNotify, State.respond, State.setStream, State.emit]
  · rw [hn.mp hp]; simp [State.toNotify, State.setStream, State.dropOpenRow_responses]
  · have ha : s.streams[st].asks = true := Bool.eq_true_of_not_eq_false (by rw [← hn, hp]; simp)
    rw [ha]; simp [State.toNotify, State.respond, State.setStream, State.emit, State.dropOpenRow_responses]
  · simp [State.toIdle, State.respond, State.setStream, State.emit, State.dropOpenRow_responses]
  · simp [State.toIdle, State.respond, State.setStream, State.emit, State.dropOpenRow_responses]
  · simp
  · simp

/-- The halt frees the row for the stream: it holds it in OPEN (R23, R64). -/
def State.haltFrees (s : State) (st : StreamId) (r : RowId) : Prop :=
  (s.streams[st].group = .opened ∨ s.streams[st].group = .closing) ∧ s.streams[st].openRow = some r
    ∧ s.rows[r].state = .opened

theorem State.dropOpenRow_rows (s : State) (st : StreamId) (r : RowId) : (s.dropOpenRow st).rows[r] =
    if s.streams[st].openRow = some r ∧ s.rows[r].state = .opened then Row.free else s.rows[r] := by
  unfold State.dropOpenRow
  cases hk : s.streams[st].openRow with
  | none => simp
  | some k =>
    simp only []
    by_cases hkr : k = r
    · subst hkr
      by_cases ho : s.rows[k].state = .opened
      · simp [-Fin.getElem_fin, ho, State.freeRow, State.setRow, fin_set_self]
      · simp [-Fin.getElem_fin, ho]
    · have hn : ¬ (some k = some r ∧ s.rows[r].state = .opened) := by simp [hkr]
      rw [if_neg hn]
      split
      · exact State.setRow_ne _ _ hkr
      · rfl

theorem State.haltStream_frees {s : State} {st : StreamId} {r : RowId} (h : s.haltFrees st r) :
    (s.haltStream st).rows[r] = Row.free := by
  have hd := s.dropOpenRow_rows st r
  rw [if_pos h.2] at hd
  unfold State.haltStream
  rcases h.1 with hg | hg <;> cases hp : s.streams[st].groupedPending <;> simp only [hg] <;> exact hd

theorem State.haltStream_keeps {s : State} {st : StreamId} {r : RowId} (h : ¬ s.haltFrees st r) :
    (s.haltStream st).rows[r] = s.rows[r] := by
  have hd := s.dropOpenRow_rows st r
  unfold State.haltStream
  cases hg : s.streams[st].group <;> cases hp : s.streams[st].groupedPending <;> simp only []
  · simp only [State.respond, State.emit, State.setStream]; split <;> rfl
  all_goals first
    | rfl
    | (rw [if_neg fun k => h ⟨by rw [hg]; decide, k⟩] at hd; exact hd)

/-! ## All streams -/

/-- The halt leaves every stream's record as R23 says. -/
theorem State.haltStreams_record (s : State) (st : StreamId) :
    (allStreams.foldl State.haltStream s).streams[st] = s.streams[st].halted := by
  simp only [allStreams, List.foldl]
  fin_cases st <;> simp only [Fin.zero_eta, Fin.mk_one, Fin.reduceFinMk]
  · rw [State.haltStream_other _ (by decide), State.haltStream_other _ (by decide),
      State.haltStream_other _ (by decide), State.haltStream_self]
  · rw [State.haltStream_other _ (by decide), State.haltStream_other _ (by decide), State.haltStream_self,
      State.haltStream_other _ (by decide)]
  · rw [State.haltStream_other _ (by decide), State.haltStream_self, State.haltStream_other _ (by decide),
      State.haltStream_other _ (by decide)]
  · rw [State.haltStream_self, State.haltStream_other _ (by decide), State.haltStream_other _ (by decide),
      State.haltStream_other _ (by decide)]

/-- The HALTED answers of one halt stand in stream order (R23, assumption 32). -/
theorem State.haltStreams_responses (s : State) :
    (allStreams.foldl State.haltStream s).responses = s.responses
      ++ ((([0, 1, 2, 3] : List StreamId).filter fun st => s.streams[st].answeredHalted).map fun st =>
        ({ stream := st, code := .halted, data := 0 } : Response)) := by
  simp only [allStreams, List.foldl, State.haltStream_responses]
  rw [State.haltStream_other (st := 2) (w := 3) _ (by decide), State.haltStream_other (st := 1) (w := 3) _ (by decide),
    State.haltStream_other (st := 0) (w := 3) _ (by decide), State.haltStream_other (st := 1) (w := 2) _ (by decide),
    State.haltStream_other (st := 0) (w := 2) _ (by decide), State.haltStream_other (st := 0) (w := 1) _ (by decide)]
  simp only [List.filter]
  cases s.streams[(0 : StreamId)].answeredHalted <;> cases s.streams[(1 : StreamId)].answeredHalted
    <;> cases s.streams[(2 : StreamId)].answeredHalted <;> cases s.streams[(3 : StreamId)].answeredHalted <;> simp

/-- A row that some stream of the list holds in OPEN is freed, and every other row is kept. -/
theorem State.haltStreams_rows (l : List StreamId) (hn : l.Nodup) (s : State) (r : RowId) :
    ((∃ st ∈ l, s.haltFrees st r) → (l.foldl State.haltStream s).rows[r] = Row.free)
      ∧ ((¬ ∃ st ∈ l, s.haltFrees st r) → (l.foldl State.haltStream s).rows[r] = s.rows[r]) := by
  induction l generalizing s with
  | nil => simp
  | cons a l ih =>
    obtain ⟨ha, hn⟩ := List.nodup_cons.mp hn
    obtain ⟨freed, kept⟩ := ih hn (s.haltStream a)
    have hst : ∀ st ∈ l, (s.haltStream a).streams[st] = s.streams[st] := fun st h =>
      s.haltStream_other (by rintro rfl; exact ha h)
    simp only [List.foldl]
    by_cases hc : s.haltFrees a r
    · have hr := State.haltStream_frees hc
      have hno : ¬ ∃ st ∈ l, (s.haltStream a).haltFrees st r := by
        rintro ⟨st, _, h⟩
        have h := h.2.2
        rw [hr] at h
        cases h
      exact ⟨fun _ => by rw [kept hno, hr], fun h => absurd ⟨a, by simp, hc⟩ h⟩
    · have hr := State.haltStream_keeps hc
      have he : (∃ st ∈ l, (s.haltStream a).haltFrees st r) ↔ ∃ st ∈ a :: l, s.haltFrees st r := by
        constructor
        · rintro ⟨st, h, k⟩
          refine ⟨st, by simp [h], ?_⟩
          unfold State.haltFrees at k ⊢
          rwa [hst st h, hr] at k
        · rintro ⟨st, h, k⟩
          rcases List.mem_cons.mp h with rfl | h
          · exact absurd k hc
          · refine ⟨st, h, ?_⟩
            unfold State.haltFrees at k ⊢
            rwa [hst st h, hr]
      exact ⟨fun h => freed (he.mpr h), fun h => by rw [kept fun h' => h (he.mp h'), hr]⟩

/-! ## The rows of the commit queue -/

/-- The CLOSED and JOURNALING rows of the list are freed, and every other row is kept (R64). -/
theorem State.haltRows_rows (l : List RowId) (s : State) (r : RowId) : (l.foldl State.haltRow s).rows[r] =
    if r ∈ l ∧ s.rows[r].state.aborted = true then Row.free else s.rows[r] := by
  induction l generalizing s with
  | nil => simp
  | cons a l ih =>
    simp only [List.foldl]
    rw [ih]
    have ha : (s.haltRow a).rows[r] = if r = a ∧ s.rows[r].state.aborted = true then Row.free else s.rows[r] := by
      unfold State.haltRow
      by_cases h : r = a
      · subst h
        by_cases h2 : s.rows[r].state.aborted = true
        · simp [-Fin.getElem_fin, h2, State.freeRow, State.setRow, fin_set_self]
        · simp [-Fin.getElem_fin, h2]
      · rw [if_neg fun k : r = a ∧ _ => h k.1]
        split
        · exact State.setRow_ne _ _ (Ne.symm h)
        · rfl
    rw [ha]
    by_cases h : r = a
    · subst h
      by_cases h2 : s.rows[r].state.aborted = true
      · rw [if_pos (⟨rfl, h2⟩ : r = r ∧ _), show Row.free.state.aborted = false from rfl]
        simp [-Fin.getElem_fin, h2]
      · simp [-Fin.getElem_fin, h2]
    · simp [-Fin.getElem_fin, h]

end Sys2Proof.Machine
end

