-- ==== Sys2Proof/Laws/Layout.lean ====
section
/-! SUPPORT. What a field placed in a word reads as, alone and among others. -/

namespace Sys2Proof.Machine

/-- The bits of a word are its value shifted down and cut off (10.1). -/
theorem bits_eq (w : Word) (lo n : Nat) : bits w lo n = w.toNat / 2 ^ lo % 2 ^ n := by
  simp [bits, BitVec.extractLsb'_toNat, Nat.shiftRight_eq_div_pow]

/-- The bits of fields laid over each other are the bits of each, laid over each other. -/
theorem bits_or (a b : Word) (lo n : Nat) : bits (a ||| b) lo n = bits a lo n ||| bits b lo n := by
  simp only [bits, BitVec.extractLsb'_or, BitVec.toNat_or]

/-- A value of `m` bits placed at bit `at` lies below bit `m + at`. -/
theorem field_value_lt {v m at' k : Nat} (hv : v < 2 ^ m) (h : at' + m ≤ k) : v * 2 ^ at' < 2 ^ k :=
  calc v * 2 ^ at' < 2 ^ m * 2 ^ at' := Nat.mul_lt_mul_of_pos_right hv (by positivity)
    _ = 2 ^ (m + at') := by rw [pow_add]
    _ ≤ 2 ^ k := Nat.pow_le_pow_right (by decide) (by omega)

/-- A part of a field reads as that part of its value. -/
theorem bits_field_in (lo n at' m v : Nat) (hv : v < 2 ^ m) (h : at' + m ≤ 32) (hl : at' ≤ lo) :
    bits (field at' v) lo n = v / 2 ^ (lo - at') % 2 ^ n := by
  rw [bits_eq]
  simp only [field, BitVec.toNat_ofNat, Nat.mod_eq_of_lt (field_value_lt hv h)]
  obtain ⟨d, rfl⟩ := Nat.exists_eq_add_of_le hl
  rw [pow_add, Nat.mul_comm (2 ^ at'), Nat.mul_div_mul_right _ _ (by positivity)]
  simp

/-- A field reads as its value in its own bits. -/
theorem bits_field_same (lo n v : Nat) (hv : v < 2 ^ n) (h : lo + n ≤ 32) : bits (field lo v) lo n = v := by
  rw [bits_field_in lo n lo n v hv h (le_refl _)]
  simp [Nat.mod_eq_of_lt hv]

/-- A field has no part in the bits below it. -/
theorem bits_field_above (lo n at' v : Nat) (h : lo + n ≤ at') (hl : at' ≤ 32) : bits (field at' v) lo n = 0 := by
  rw [bits_eq]
  simp only [field, BitVec.toNat_ofNat]
  have hd : 2 ^ lo * 2 ^ n ∣ (v * 2 ^ at') % 2 ^ 32 := by
    rw [← pow_add]
    exact (Nat.dvd_mod_iff (Nat.pow_dvd_pow 2 (by omega))).mpr (Dvd.dvd.mul_left (Nat.pow_dvd_pow 2 h) v)
  obtain ⟨k, hk⟩ := hd
  rw [hk, mul_assoc, Nat.mul_div_cancel_left _ (by positivity)]
  simp

/-- A field has no part in the bits above it. -/
theorem bits_field_below (lo n at' m v : Nat) (hv : v < 2 ^ m) (h : at' + m ≤ lo) : bits (field at' v) lo n = 0 := by
  rw [bits_eq]
  simp only [field, BitVec.toNat_ofNat]
  rw [Nat.div_eq_of_lt (lt_of_le_of_lt (Nat.mod_le _ _) (field_value_lt hv h))]
  simp

end Sys2Proof.Machine
end

