-- ==== Sys2Proof/Laws/Monitor.lean ====
section
/-! SUPPORT. What a completed sample does, and what the next sample waits for (R119, R121). -/

namespace Sys2Proof.Machine

/-- A row is in use exactly when not every row is FREE (R121). -/
theorem State.rowInUse_iff (s : State) : s.rowInUse = true ↔ ¬ ∀ r : RowId, s.rows[r].state = .free := by
  rw [State.rowInUse, State.rows_toList, List.any_map, List.any_eq_true]
  push Not
  constructor
  · rintro ⟨r, _, h⟩; exact ⟨r, by simpa using h⟩
  · rintro ⟨r, h⟩; exact ⟨r, by fin_cases r <;> simp [allRows], by simpa using h⟩

/-- The next sample: one idle sample interval later in NORMAL with every row FREE, at once otherwise (R121). -/
theorem State.nextSampler_eq (s : State) : s.nextSampler =
    if s.mon.state = .normal ∧ (∀ r : RowId, s.rows[r].state = .free) then
      .resting (s.cfg.params.interval * 1000)
    else .converting 16 := by
  have h := s.rowInUse_iff
  simp only [State.nextSampler, State.continuous, sampleTime, microsPerMilli]
  by_cases h1 : s.mon.state = .normal <;> by_cases h2 : ∀ r : RowId, s.rows[r].state = .free
  · have h3 : s.rowInUse = false := by rw [← Bool.not_eq_true, h]; simpa using h2
    rw [if_pos ⟨h1, h2⟩]; simp [h1, h3]
  · have h3 : s.rowInUse = true := by rw [h]; exact h2
    rw [if_neg fun k => h2 k.2]; simp [h1, h3]
  · rw [if_neg fun k => h1 k.1]; simp [h1]
  · rw [if_neg fun k => h1 k.1]; simp [h1]

/-- A sample is in progress exactly while the converter does not wait for the next (R119). -/
theorem Sampler.inProgress_iff (x : Sampler) : x.inProgress = true ↔ ∀ k, x ≠ .resting k := by
  cases x <;> simp [Sampler.inProgress]

/-- A sample in progress completes; with none in progress nothing does (R119). -/
theorem exec_sampleComplete_eq {s : State} (h : ∀ k, s.mon.sampler ≠ .resting k) (l : Level) (pins : Straps) :
    exec (.sampleComplete l pins) s = .next (s.sampleDone l pins).settle := by
  simp [exec, execSampleComplete, State.takeSample, (Sampler.inProgress_iff _).mpr h]

/-- Outside CUT the level is taken, and the next sample scheduled after all that follows from it (R121, R123). -/
theorem State.sampleDone_of_ne_cut {s : State} (h : s.mon.state ≠ .cut) (l : Level) (pins : Straps) :
    s.sampleDone l pins = (s.takeLevel l pins).scheduleSample := by
  rw [State.sampleDone, if_neg h]

/-- The next sample's start does not depend on a summary asked for, nor the summary on the sample. -/
theorem State.askSummary_scheduleSample (s : State) : s.askSummary.scheduleSample = s.scheduleSample.askSummary := by
  unfold State.askSummary
  by_cases h : s.su.strapError = true
  · have h' : s.scheduleSample.su.strapError = true := h
    rw [if_pos h, if_pos h']
  · have h' : ¬ s.scheduleSample.su.strapError = true := h
    rw [if_neg h, if_neg h']; rfl

/-- Outside RUN, SAFE and FAULT an event enters the queue and the presentation stands still (R159). -/
theorem EventUnit.take_quiet (e : EventUnit) (r : Record) :
    (e.take false r).pres = e.pres ∧ (e.take false r).job = e.job ∧ (e.take false r).sReq = e.sReq := by
  unfold EventUnit.take
  dsimp only
  by_cases h : r.cls = 0
  · rw [if_pos h]; exact ⟨rfl, rfl, rfl⟩
  · rw [if_neg h]
    cases mergeInto r (e.count r.kind).waiting with
    | some ws => exact ⟨rfl, rfl, rfl⟩
    | none =>
      dsimp only
      by_cases h2 : (e.count r.kind).queued < maxRecords
      · rw [if_pos h2]; exact ⟨rfl, rfl, rfl⟩
      · rw [if_neg h2]
        unfold EventUnit.displaceOrDrop
        cases (e.count r.kind).waiting.getLast? with
        | none => exact ⟨rfl, rfl, rfl⟩
        | some l =>
          dsimp only
          by_cases h3 : l.cls < r.cls
          · rw [if_pos h3]; exact ⟨rfl, rfl, rfl⟩
          · rw [if_neg h3]; exact ⟨rfl, rfl, rfl⟩

/-- The strap check fails exactly when the samples differ: the bridge area is never larger than half the memory
(R140, R141). -/
theorem strapsBad_iff (first second : Straps) : strapsBad first second = decide (second ≠ first) := by
  have h : ¬ memWordsOf first < 2 * bridgeWordsOf first := by
    unfold memWordsOf bridgeWordsOf
    have h1 : 2 ^ first.bas.toNat ≤ 2 ^ 3 := Nat.pow_le_pow_right (by omega) (by have := first.bas.isLt; omega)
    have h2 : 1 ≤ 2 ^ first.msz.toNat := Nat.one_le_two_pow
    omega
  simp only [strapsBad, decide_eq_false h, Bool.or_false]
  rw [Bool.eq_iff_iff, bne_iff_ne, decide_eq_true_iff]
  exact ne_comm

end Sys2Proof.Machine
end

