-- ==== Sys2Proof/Laws/Phase.lean ====
section
/-! SUPPORT. Which operations keep the law of the part's phases and the law of the event queue: each shared operation,
the resets, the samples, loading, recovering, answers and time. -/

namespace Sys2Proof.Machine

/-! ## The laws -/

/-- What a kept monitor leaves in its parts. -/
theorem State.Keeps.monitorParts {s t : State} (k : s.Keeps t) : t.mon.state = s.mon.state ∧ t.mon.level = s.mon.level
    ∧ t.mon.releaseRun = s.mon.releaseRun ∧ t.mon.cutRun = s.mon.cutRun ∧ t.mon.published = s.mon.published := by
  have h := k.mon
  refine ⟨?_, ?_, ?_, ?_, ?_⟩
  · have := congrArg Monitor.state h; exact this
  · have := congrArg Monitor.level h; exact this
  · have := congrArg Monitor.releaseRun h; exact this
  · have := congrArg Monitor.cutRun h; exact this
  · have := congrArg Monitor.published h; exact this

/-- Both laws together: no operation keeps one of them without the other. -/
def State.Lawful (s : State) : Prop := s.phaseLaw ∧ s.ev.lawful

/-- The law of the reset conditions speaks of the start-up controller only. -/
theorem State.resetLaw.congr {s t : State} (h : s.resetLaw) (e : t.su = s.su) : t.resetLaw := by
  obtain ⟨a, b, c, d, f, g⟩ := h
  constructor <;> rw [e] <;> assumption

/-- The law of the monitor speaks of the operating state, the configured items and the monitor's parts. -/
theorem State.monitorLaw.congr {s t : State} (h : s.monitorLaw) (e : t.su.opState = s.su.opState) (ec : t.cfg = s.cfg)
    (k : t.mon.state = s.mon.state ∧ t.mon.level = s.mon.level ∧ t.mon.releaseRun = s.mon.releaseRun
    ∧ t.mon.cutRun = s.mon.cutRun ∧ t.mon.published = s.mon.published) : t.monitorLaw := by
  obtain ⟨k1, k2, k3, k4, k5⟩ := k
  obtain ⟨a, b, c, d, f⟩ := h
  constructor
  · rw [k1, e]; exact a
  · rw [k1]; exact b
  · rw [k5, k1, k2, ec]; exact c
  · rw [k3, ec]; exact d
  · rw [k4, ec]; exact f

/-- In a serving state the law of the start asks for nothing. -/
theorem State.startLaw_of_serving {t : State} (h : t.su.opState.serving = true) : t.startLaw := by
  constructor <;> (intro h2; rw [h] at h2; cases h2)

/-! ## Operations that leave the phase -/

/-- What keeps the start-up controller, the configured items and the port keeps the laws in a serving state. -/
theorem State.Lawful.keeps {s t : State} (h : s.Lawful) (hs : s.su.opState.serving = true) (k : s.Keeps t) :
    State.Lawful t := by
  obtain ⟨⟨hr, hp, hst, hm⟩, he⟩ := h
  refine ⟨⟨State.resetLaw.congr hr k.su, ?_, State.startLaw_of_serving (by rw [k.su]; exact hs),
      State.monitorLaw.congr hm (by rw [k.su]) k.cfg (State.Keeps.monitorParts k)⟩, k.events he⟩
  constructor
  · rw [k.port, k.su]; exact hp.port
  · rw [k.solo, k.su]; exact hp.solo
  · rw [k.port, k.solo]; exact hp.apart
  · intro w hw; rcases k.waiting w hw with h | h
    · exact hp.waiting w h
    · exact h
  · rw [k.recovery, k.su]; exact hp.recovery

/-- A change of the event unit alone. -/
theorem State.Lawful.withEvents {s : State} {e : EventUnit} (h : s.Lawful) (he : e.lawful)
    (hn : s.su.opState.serving = false → e.pres = .none ∧ e.given = none ∧ e.statusFailure = false
    ∧ e.retryWait = none ∧ ∀ j, e.job = some j → j.kind = .summary ∧ j.words = []) :
    State.Lawful { s with ev := e } := by
  obtain ⟨⟨hr, hp, hst, hm⟩, _⟩ := h
  refine ⟨⟨State.resetLaw.congr hr rfl, ⟨hp.port, hp.solo, hp.apart, hp.waiting, hp.recovery⟩, ?_,
      State.monitorLaw.congr hm rfl rfl ⟨rfl, rfl, rfl, rfl, rfl⟩⟩, he⟩
  exact ⟨hst.streams, hst.rows, hst.waits, hst.engine, hst.requests, fun h => ⟨(hn h).1, (hn h).2.1⟩, fun h =>
      (hn h).2.2⟩

/-- The event unit outside a serving state: nothing presented or given, and at most a summary without its snapshot. -/
def EventUnit.AtRest (e : EventUnit) : Prop := e.pres = .none ∧ e.given = none ∧ e.statusFailure = false
    ∧ e.retryWait = none ∧ ∀ j, e.job = some j → j.kind = .summary ∧ j.words = []

/-- A summary asked for leaves it so. -/
theorem EventUnit.AtRest.askSummary {e : EventUnit} (h : EventUnit.AtRest e) : EventUnit.AtRest e.askSummary := by
  obtain ⟨h1, h2, h3, h4, h5⟩ := h
  unfold EventUnit.askSummary
  split
  · exact ⟨h1, h2, h3, h4, h5⟩
  · rcases hj : e.job with _ | j
    · have : ({ e with summaryPending := true } : EventUnit).beginJob =
          ({ e with summaryPending := false } : EventUnit).startJob .summary [] := by simp [EventUnit.beginJob, hj, h2]
      have e2 := congrArg EventUnit.AtRest this
      rw [hj] at e2
      rw [e2]
      exact ⟨h1, h2, h3, h4, by intro j' h'; simp [EventUnit.startJob] at h'; rw [← h']; exact ⟨rfl, rfl⟩⟩
    · have : ({ e with summaryPending := true } : EventUnit).beginJob = { e with summaryPending := true } := by
          simp [EventUnit.beginJob, hj]
      have e2 := congrArg EventUnit.AtRest this
      rw [hj] at e2
      rw [e2]
      exact ⟨h1, h2, h3, h4, by intro j' h'; exact h5 j' (by rw [hj]; exact h')⟩

/-- An event taken where no presentation may run leaves it so. -/
theorem EventUnit.AtRest.take {e : EventUnit} (h : EventUnit.AtRest e) (r) : EventUnit.AtRest (e.take false r) := by
  obtain ⟨h1, h2, h3, h4, h5⟩ := h
  unfold EventUnit.take
  dsimp only
  split
  · exact ⟨h1, h2, h3, h4, h5⟩
  · split
    · exact ⟨h1, h2, h3, h4, h5⟩
    · split
      · unfold EventUnit.startPresentation; simp only [Bool.false_and]; exact ⟨h1, h2, h3, h4, h5⟩
      · unfold EventUnit.displaceOrDrop
        split
        · split <;> exact ⟨h1, h2, h3, h4, h5⟩
        · exact ⟨h1, h2, h3, h4, h5⟩

/-- Outside a serving state the event unit is at rest. -/
theorem State.Lawful.atRest {s : State} (h : s.Lawful) (hn : s.su.opState.serving = false) : EventUnit.AtRest s.ev :=
  ⟨(h.1.start.presentation hn).1, (h.1.start.presentation hn).2, (h.1.start.writer hn).1, (h.1.start.writer hn).2.1,
      (h.1.start.writer hn).2.2⟩

/-- Outside a serving state no presentation may run (R159). -/
theorem State.mayPresent_of_notServing {s : State} (hn : s.su.opState.serving = false) : s.mayPresent = false := by
  unfold State.mayPresent; cases h : s.su.opState <;> rw [h] at hn <;> simp [OpState.serving] at hn ⊢

/-- An event raised keeps the laws. -/
theorem State.Lawful.raise {s : State} (h : s.Lawful) (k f) : State.Lawful (s.raise k f) := by
  refine State.Lawful.withEvents h (State.raise_lawful h.2 k f) ?_
  intro hn
  have := EventUnit.AtRest.take (State.Lawful.atRest h hn) (s.formRecord k f)
  rw [State.mayPresent_of_notServing hn]; exact this

/-- A summary asked for keeps the laws. -/
theorem State.Lawful.askSummary {s : State} (h : s.Lawful) : State.Lawful s.askSummary := by
  unfold State.askSummary
  split
  · exact h
  · exact State.Lawful.withEvents h h.2.askSummary (fun hn => EventUnit.AtRest.askSummary (State.Lawful.atRest h hn))

/-- An access that the operating state allows, asked for with the port IDLE. -/
theorem State.Lawful.askSolo {s : State} (h : s.Lawful) {p : Purpose} (a n) (h1 : p.allowedIn s.su.opState = true)
    (h2 : s.su.opState.serving = false) (h3 : s.bus.port = none) : State.Lawful (s.askSolo p a n) := by
  obtain ⟨⟨hr, hp, hst, hm⟩, he⟩ := h
  refine ⟨⟨State.resetLaw.congr hr rfl, ⟨hp.port, ?_, ?_, hp.waiting, hp.recovery⟩, ?_,
      State.monitorLaw.congr hm rfl rfl ⟨rfl, rfl, rfl, rfl, rfl⟩⟩, he⟩
  · intro q hq
    simp only [State.askSolo, Option.some.injEq] at hq
    subst hq; exact ⟨h1, h2⟩
  · intro hx; simp only [State.askSolo] at hx; rw [h3] at hx; cases hx
  · exact ⟨hst.streams, hst.rows, hst.waits, hst.engine, hst.requests, hst.presentation, hst.writer⟩

/-- The same, with the operating state named. -/
theorem State.Lawful.askSolo_at {s : State} (h : s.Lawful) {p : Purpose} (a n) {o : OpState} (ho : s.su.opState = o)
    (h1 : p.allowedIn o = true) (h2 : o.serving = false) (h3 : s.bus.port = none) : State.Lawful (s.askSolo p a n) :=
  State.Lawful.askSolo h a n (by rw [ho]; exact h1) (by rw [ho]; exact h2) h3

/-- The port becoming IDLE keeps the laws. -/
theorem State.Lawful.freePort {s : State} (h : s.Lawful) : State.Lawful s.freePort := by
  obtain ⟨⟨hr, hp, hst, hm⟩, he⟩ := h
  refine ⟨⟨State.resetLaw.congr hr rfl, ⟨?_, hp.solo, ?_, hp.waiting, hp.recovery⟩, ?_,
      State.monitorLaw.congr hm rfl rfl ⟨rfl, rfl, rfl, rfl, rfl⟩⟩, he⟩
  · intro f hf; cases hf
  · intro hf; cases hf
  · exact ⟨hst.streams, hst.rows, hst.waits, hst.engine, hst.requests, hst.presentation, hst.writer⟩

/-- A change of the arbiter that leaves the port and what waits. -/
theorem State.Lawful.withBus {s : State} (h : s.Lawful) (b : Bus) (h1 : b.port = s.bus.port)
    (h2 : b.solo = s.bus.solo) (h3 : b.waiting = s.bus.waiting) : State.Lawful { s with bus := b } := by
  obtain ⟨⟨hr, hp, hst, hm⟩, he⟩ := h
  refine ⟨⟨State.resetLaw.congr hr rfl, ⟨?_, ?_, ?_, ?_, hp.recovery⟩, ?_, State.monitorLaw.congr hm rfl rfl
      ⟨rfl, rfl, rfl, rfl, rfl⟩⟩, he⟩
  · dsimp only; rw [h1]; exact hp.port
  · dsimp only; rw [h2]; exact hp.solo
  · dsimp only; rw [h1, h2]; exact hp.apart
  · dsimp only; rw [h3]; exact hp.waiting
  · exact ⟨hst.streams, hst.rows, hst.waits, hst.engine, fun hn => by dsimp only; rw [h3]; exact hst.requests hn,
        hst.presentation, hst.writer⟩

/-! ## The arbiter -/

/-- What the arbiter chooses as oldest waits. -/
theorem Bus.chooseOldest_mem {b : Bus} {w} (h : b.chooseOldest = some w) : w ∈ b.waiting := by
  unfold Bus.chooseOldest at h
  split at h
  · unfold Bus.chooseTied at h
    split at h
    · split at h
      · exact (List.mem_filter.mp (List.mem_of_find?_eq_some h)).1
      · cases h
    · exact (List.mem_filter.mp (List.mem_of_find?_eq_some h)).1
    · cases h
  · cases h

/-- What the arbiter chooses waits. -/
theorem Bus.choose_mem {b : Bus} {x w} (h : b.choose x = some w) : w ∈ b.waiting := by
  unfold Bus.choose at h
  split at h
  · rename_i v hv
    obtain rfl := Option.some.inj h
    split at hv
    · exact List.mem_of_find?_eq_some hv
    · cases hv
  · exact Bus.chooseOldest_mem h

/-- A grant keeps the laws. -/
theorem State.Lawful.arbitrate {s : State} (h : s.Lawful) : State.Lawful s.arbitrate := by
  unfold State.arbitrate
  split
  · exact h
  · rename_i hpq
    have hport : s.bus.port = none := by
      cases hx : s.bus.port <;> simp [hx] at hpq ⊢
    obtain ⟨⟨hr, hp, hst, hm⟩, he⟩ := h
    have solo : State.Lawful s.presentSolo := by
      unfold State.presentSolo
      split
      · rename_i q hq
        obtain ⟨h1, h2⟩ := hp.solo q hq
        refine ⟨⟨State.resetLaw.congr hr rfl, ⟨?_, ?_, ?_, hp.waiting, hp.recovery⟩, ?_,
            State.monitorLaw.congr hm rfl rfl ⟨rfl, rfl, rfl, rfl, rfl⟩⟩, he⟩
        · intro f hf; simp only [State.present, Option.some.injEq] at hf; subst hf; exact h1
        · intro q' hq'; cases hq'
        · intro _; rfl
        · exact ⟨hst.streams, hst.rows, hst.waits, hst.engine, hst.requests, hst.presentation, hst.writer⟩
      · exact ⟨⟨hr, hp, hst, hm⟩, he⟩
    have serve : s.su.opState.serving = true → State.Lawful s.grantServing := by
      intro hs
      have hsolo : s.bus.solo = none := by
        cases hx : s.bus.solo with
        | none => rfl
        | some q => have := (hp.solo q hx).2; rw [hs] at this; cases this
      have hallow : ∀ p : Purpose, p.cls.isSome = true ∨ p = .status → p.allowedIn s.su.opState = true := by
        intro p hp
        cases hx : s.su.opState <;> rw [hx] at hs <;> simp [OpState.serving] at hs <;> simp only [Purpose.allowedIn]
            <;> rcases hp with hp | hp <;> simp [hp]
      unfold State.grantServing
      split
      · unfold State.grantStatus
        split
        · rename_i j a hj ha
          refine ⟨⟨State.resetLaw.congr hr rfl, ⟨?_, ?_, ?_, hp.waiting, hp.recovery⟩, State.startLaw_of_serving hs,
              State.monitorLaw.congr hm rfl rfl ⟨rfl, rfl, rfl, rfl, rfl⟩⟩, ?_⟩
          · intro f hf; simp only [State.present, Option.some.injEq] at hf; subst hf; exact hallow _ (.inr rfl)
          · exact hp.solo
          · intro _; exact hsolo
          · refine he.congr rfl rfl rfl rfl ?_ rfl
            show (some (s.grantedJob j)).map Job.kind = s.ev.job.map Job.kind
            rw [hj]; simp only [Option.map_some, State.grantedJob]; split <;> rfl
        · exact ⟨⟨hr, hp, hst, hm⟩, he⟩
      · split
        · rename_i w hw
          have hc := hp.waiting w (Bus.choose_mem hw)
          refine ⟨⟨State.resetLaw.congr hr rfl, ⟨?_, ?_, ?_, ?_, hp.recovery⟩, State.startLaw_of_serving hs,
              State.monitorLaw.congr hm rfl rfl ⟨rfl, rfl, rfl, rfl, rfl⟩⟩, ?_⟩
          · intro f hf; simp only [State.grantWaiting, State.present, Option.some.injEq] at hf; subst hf
            exact hallow _ (.inl hc)
          · exact hp.solo
          · intro _; exact hsolo
          · intro v hv; exact hp.waiting v (List.mem_of_mem_erase hv)
          · exact he.congr rfl rfl rfl rfl rfl rfl
        · exact ⟨⟨hr, hp, hst, hm⟩, he⟩
    split
    · exact ⟨⟨hr, hp, hst, hm⟩, he⟩
    · exact ⟨⟨hr, hp, hst, hm⟩, he⟩
    · exact solo
    · exact solo
    all_goals (rename_i hx; exact serve (by rw [hx]; rfl))

/-- The close of a step keeps the laws. -/
theorem State.Lawful.settle {s : State} (h : s.Lawful) (t) : State.Lawful (s.settle t) := by
  unfold State.settle
  split
  · exact h
  · exact State.Lawful.arbitrate (State.Lawful.withBus h _ rfl rfl rfl)

/-- A request at the port keeps the laws. -/
theorem State.Lawful.request {s : State} (h : s.Lawful) (st q) {path : State → State}
    (hp : ∀ s : State, s.Keeps (path s)) : State.Lawful (s.request st q path) := by
  by_cases hr : s.ready = true
  · exact State.Lawful.keeps h hr (State.Keeps.request s st q hp)
  · rw [State.request_notReady (by simpa using hr)]; exact h

/-! ## Resets (R137 to R139) -/

/-- The state inside a reset: the laws without the fixing of the condition that began it. -/
structure State.Resetting (s : State) : Prop where
  op : s.su.opState = .reset
  pend : s.su.pendingCause.isSome = true
  cause : s.su.resetCause = none
  straps : s.su.straps = none
  err : s.su.strapError = false
  delay : s.su.powerOnDelay.isSome = true → s.su.powerOn = true
  port : s.portLaw
  start : s.startLaw
  mon : s.monitorLaw
  ev : s.ev.lawful

/-- With a condition holding, the part rests in RESET. -/
theorem State.Resetting.lawful {s : State} (h : State.Resetting s) (hc : s.su.powerOn = true ∨ s.su.line = true) :
    State.Lawful s := by
  refine ⟨⟨⟨?_, ?_, ?_, ?_, ?_, ?_⟩, h.port, h.start, h.mon⟩, h.ev⟩
  · simp [h.op, hc]
  · simp [h.op, h.pend]
  · simp [h.op, h.cause]
  · simp [h.op, h.straps]
  · exact h.delay
  · rw [h.err]; intro hx; cases hx

/-- The exit from RESET, taken or not. -/
theorem State.Resetting.exitReset {s : State} (h : State.Resetting s) (pins : Straps) : State.Lawful
    (s.exitReset pins) := by
  unfold State.exitReset
  split
  · rename_i hc
    apply State.Lawful.askSummary
    have hmb : s.mon.state = .below := h.mon.below.mpr (.inl h.op)
    refine ⟨⟨⟨?_, ?_, ?_, ?_, ?_, ?_⟩, ⟨?_, ?_, ?_, ?_, ?_⟩, ⟨?_, ?_, ?_, ?_, ?_, ?_, ?_⟩, ⟨?_, ?_, ?_, ?_, ?_⟩⟩, h.ev⟩
    · simp [hc]
    · simp
    · simp [h.pend]
    · simp
    · intro hd; exact h.delay hd
    · intro he; dsimp only at he; rw [h.err] at he; cases he
    · intro f hf; have := h.port.port f hf; rw [h.op] at this; simp [Purpose.allowedIn] at this
    · intro q hq; have := (h.port.solo q hq).1; rw [h.op] at this; simp [Purpose.allowedIn] at this
    · exact h.port.apart
    · exact h.port.waiting
    · have := h.port.recovery; rw [h.op] at this; simp at this ⊢; exact this
    · intro _; exact h.start.streams (by rw [h.op]; rfl)
    · intro _; exact h.start.rows (by rw [h.op]; rfl)
    · intro _; exact h.start.waits (by rw [h.op]; rfl)
    · intro _; exact h.start.engine (by rw [h.op]; rfl)
    · intro _; exact h.start.requests (by rw [h.op]; rfl)
    · intro _; exact h.start.presentation (by rw [h.op]; rfl)
    · intro _; exact h.start.writer (by rw [h.op]; rfl)
    · simp [hmb]
    · exact h.mon.notCut
    · exact h.mon.published
    · exact h.mon.release
    · exact h.mon.cut
  · rename_i hc
    apply State.Resetting.lawful h
    by_cases h1 : s.su.powerOn = true
    · exact .inl h1
    · by_cases h2 : s.su.line = true
      · exact .inr h2
      · exact absurd ⟨h.op, by simpa using h1, by simpa using h2⟩ hc

/-- The event unit after a reset keeps the law of the queue. -/
theorem EventUnit.reset_lawful : EventUnit.reset.lawful := by
  constructor <;> simp [EventUnit.reset, EventUnit.queued, EventUnit.presentationJobs, PresState.owes]

/-- Every reset taken leads inside a reset. -/
theorem State.takeReset_resetting {s : State} (h : s.su.powerOnDelay.isSome = true → s.su.powerOn = true)
    (c : ResetCause) :
    State.Resetting (s.takeReset c) := by
  have hb : budgetOf Settings.default ((s.mon.levelAfter c).map bandOf) = 0 := by
    cases (s.mon.levelAfter c) <;> simp [budgetOf, Settings.default]
  refine ⟨rfl, rfl, rfl, rfl, rfl, h, ⟨?_, ?_, ?_, ?_, ?_⟩, ⟨?_, ?_, ?_, ?_, ?_, ?_, ?_⟩, ⟨?_, ?_, ?_, ?_, ?_⟩,
      EventUnit.reset_lawful⟩
  · intro f hf; cases hf
  · intro f hf; cases hf
  · intro _; rfl
  · intro w hw; cases hw
  · simp [State.takeReset, State.reset, StartUp.afterReset, StartUp.reset]
  · intro _; rfl
  · intro _; rfl
  · intro _; exact ⟨rfl, rfl⟩
  · intro _; rfl
  · intro _; rfl
  · intro _; exact ⟨rfl, rfl⟩
  · intro _; exact ⟨rfl, rfl, by intro j hj; cases hj⟩
  · simp [State.takeReset, State.reset, StartUp.afterReset, StartUp.reset, Monitor.afterReset, Monitor.reset]
  · simp [State.takeReset, Monitor.afterReset, Monitor.reset]
  · show ({ state := .below, band := (s.mon.levelAfter c).map bandOf, budget := 0 } : Publication) =
        { state := .below, band := (s.mon.levelAfter c).map bandOf
          budget := budgetOf Settings.default ((s.mon.levelAfter c).map bandOf) }
    rw [hb]
  · show 0 < 4; decide
  · show 0 < 4; decide

/-! ## Serving states -/

/-- A serving state entered with nothing under way. -/
theorem State.Lawful.toServing {s : State} (h : s.Lawful) (o : OpState) (ho : o.serving = true)
    (h0 : s.su.opState ≠ .reset ∧ s.su.opState ≠ .wait ) (hrec : s.recovery = none) (hsolo : s.bus.solo = none)
    (hport : s.bus.port = none) (hse : s.su.strapError = true → o = .fault) :
    State.Lawful { s with su := { s.su with opState := o } } := by
  obtain ⟨⟨hr, hp, hst, hm⟩, he⟩ := h
  have hor : o ≠ .reset := by rintro rfl; cases ho
  have how : o ≠ .wait := by rintro rfl; cases ho
  have horec : o ≠ .recover := by rintro rfl; cases ho
  refine ⟨⟨⟨?_, ?_, ?_, ?_, ?_, ?_⟩, ⟨?_, ?_, ?_, ?_, ?_⟩, State.startLaw_of_serving ho, ⟨?_, ?_, ?_, ?_, ?_⟩⟩, he⟩
  · have := hr.conditions; simp [h0.1] at this; simp [hor, this]
  · have := hr.forming; simp [h0.1] at this; simp [hor, this]
  · have := hr.fixed; simp [h0.1] at this; simp [hor, this]
  · have := hr.straps; simp [h0.1] at this; simp [hor, this]
  · exact hr.delay
  · exact hse
  · intro f hf; dsimp only at hf; rw [hport] at hf; cases hf
  · intro f hf; dsimp only at hf; rw [hsolo] at hf; cases hf
  · intro _; exact hsolo
  · exact hp.waiting
  · simp [hrec, horec]
  · have := hm.below; simp [h0.1, h0.2] at this; simp [hor, how, this]
  · exact hm.notCut
  · exact hm.published
  · exact hm.release
  · exact hm.cut

/-- In RESET and WAIT nothing is under way (R116). -/
theorem State.Lawful.nothing_underWay {s : State} (h : s.Lawful) (hw : s.su.opState = .reset ∨ s.su.opState = .wait) :
    s.bus.port = none ∧ s.bus.solo = none ∧ s.recovery = none := by
  refine ⟨?_, ?_, ?_⟩
  · cases hx : s.bus.port with
    | none => rfl
    | some f => have := h.1.port.port f hx; rcases hw with hw | hw <;> rw [hw] at this
        <;> simp [Purpose.allowedIn] at this
  · cases hx : s.bus.solo with
    | none => rfl
    | some f => have := (h.1.port.solo f hx).1; rcases hw with hw | hw <;> rw [hw] at this
        <;> simp [Purpose.allowedIn] at this
  · have := h.1.port.recovery
    rcases hw with hw | hw <;> (rw [hw] at this; simp at this; exact this)

/-- A presentation that begins in a serving state keeps the laws. -/
theorem State.Lawful.startPresentation {s : State} (h : s.Lawful) (hs : s.su.opState.serving = true) :
    State.Lawful { s with ev := s.ev.startPresentation s.mayPresent } := by
  refine State.Lawful.withEvents h (h.2.startPresentation _) ?_
  intro hn; rw [hs] at hn; cases hn

/-- The entry to a serving state keeps the laws. -/
theorem State.Lawful.enterServing {s : State} (h : s.Lawful) (o : OpState) (ho : o.serving = true)
    (h0 : s.su.opState ≠ .reset ∧ s.su.opState ≠ .wait) (hrec : s.recovery = none) (hsolo : s.bus.solo = none)
    (hport : s.bus.port = none) (hse : s.su.strapError = true → o = .fault) : State.Lawful (s.enterServing o) := by
  unfold State.enterServing State.setOpState
  dsimp only
  have hg := State.Lawful.raise h .start { detail := some (startDetail s.su.resetCause) }
  have h1 := State.Lawful.toServing hg o ho h0 hrec hsolo hport hse
  have h2 := State.Lawful.askSummary h1
  apply State.Lawful.startPresentation h2
  obtain ⟨e, he, _⟩ := State.askSummary_eq
      ({ s.raise .start { detail := some (startDetail s.su.resetCause) } with
        su := { (s.raise .start { detail := some (startDetail s.su.resetCause) }).su with opState := o } } : State)
  rw [he]; exact ho

/-- A change of the start-up controller in what the laws do not speak of. -/
theorem State.Lawful.withStartUp {s : State} (h : s.Lawful) (o : OpState) (u : StartUp)
    (hu : u.opState = o ∧ u.pendingCause = s.su.pendingCause ∧ u.resetCause = s.su.resetCause ∧ u.straps = s.su.straps
    ∧ u.powerOn = s.su.powerOn ∧ u.line = s.su.line ∧ u.powerOnDelay = s.su.powerOnDelay
    ∧ u.strapError = s.su.strapError) (ho : o = s.su.opState) : State.Lawful { s with su := u } := by
  obtain ⟨⟨hr, hp, hst, hm⟩, he⟩ := h
  obtain ⟨u1, u2, u3, u4, u5, u6, u7, u8⟩ := hu
  subst ho
  obtain ⟨a, b, c, d, f, g⟩ := hr
  refine ⟨⟨⟨?_, ?_, ?_, ?_, ?_, ?_⟩, ⟨?_, ?_, hp.apart, hp.waiting, ?_⟩, ⟨?_, ?_, ?_, ?_, ?_, ?_, ?_⟩,
      State.monitorLaw.congr hm u1 rfl ⟨rfl, rfl, rfl, rfl, rfl⟩⟩, he⟩
  · dsimp only; rw [u1, u5, u6]; exact a
  · dsimp only; rw [u1, u2]; exact b
  · dsimp only; rw [u1, u3]; exact c
  · dsimp only; rw [u1, u4]; exact d
  · dsimp only; rw [u5, u7]; exact f
  · dsimp only; rw [u1, u8]; exact g
  · dsimp only; rw [u1]; exact hp.port
  · dsimp only; rw [u1]; exact hp.solo
  · dsimp only; rw [u1]; exact hp.recovery
  all_goals dsimp only; rw [u1]
  · exact hst.streams
  · exact hst.rows
  · exact hst.waits
  · exact hst.engine
  · exact hst.requests
  · exact hst.presentation
  · exact hst.writer

/-! ## The end of WAIT -/

/-- The state between a sample that ends WAIT, or LOAD, and the state that follows: all but the law of BELOW. -/
structure State.Leaving (s : State) : Prop where
  op : s.su.opState = .wait ∨ s.su.opState = .load
  reset : s.resetLaw
  start : s.startLaw
  port : s.bus.port = none
  solo : s.bus.solo = none
  rcv : s.recovery = none
  notBelow : s.mon.state ≠ .below
  notCut : s.mon.state ≠ .cut
  published : s.mon.published =
      { state := s.mon.state, band := s.mon.level.map bandOf, budget := budgetOf s.cfg (s.mon.level.map bandOf) }
  rel : s.mon.releaseRun < s.cfg.params.cutCount
  cut : s.mon.cutRun < s.cfg.params.cutCount
  ev : s.ev.lawful

/-- There the event unit is at rest. -/
theorem State.Leaving.atRest {s : State} (h : State.Leaving s) : EventUnit.AtRest s.ev := by
  have hn : s.su.opState.serving = false := by rcases h.op with h | h <;> rw [h] <;> rfl
  exact ⟨(h.start.presentation hn).1, (h.start.presentation hn).2, (h.start.writer hn).1, (h.start.writer hn).2.1,
      (h.start.writer hn).2.2⟩

/-- A change of the event unit alone. -/
theorem State.Leaving.withEvents {s : State} (h : State.Leaving s) {e : EventUnit} (he : e.lawful)
    (hq : EventUnit.AtRest e) : State.Leaving { s with ev := e } :=
  ⟨h.op, State.resetLaw.congr h.reset rfl, ⟨h.start.streams, h.start.rows, h.start.waits, h.start.engine,
      h.start.requests, fun _ => ⟨hq.1, hq.2.1⟩, fun _ => hq.2.2⟩, h.port, h.solo, h.rcv, h.notBelow, h.notCut,
      h.published, h.rel, h.cut, he⟩

/-- An event raised. -/
theorem State.Leaving.raise {s : State} (h : State.Leaving s) (k f) : State.Leaving (s.raise k f) := by
  refine State.Leaving.withEvents h (State.raise_lawful h.ev k f) ?_
  have hn : s.su.opState.serving = false := by rcases h.op with h | h <;> rw [h] <;> rfl
  rw [State.mayPresent_of_notServing hn]; exact EventUnit.AtRest.take (State.Leaving.atRest h) _

/-- A summary asked for. -/
theorem State.Leaving.askSummary {s : State} (h : State.Leaving s) : State.Leaving s.askSummary := by
  unfold State.askSummary; split
  · exact h
  · exact State.Leaving.withEvents h h.ev.askSummary (EventUnit.AtRest.askSummary (State.Leaving.atRest h))

/-- The move to a later operating state restores the laws. -/
theorem State.Leaving.moved {s : State} (h : State.Leaving s) (o : OpState) (ho : o ≠ .reset ∧ o ≠ .wait)
    (rec : Option Recovery) (hrec : rec.isSome = true ↔ o = .recover) (b : Bool) (hb : b = true → o = .fault)
    (e : EventUnit) (he : e.lawful) (hq : EventUnit.AtRest e) :
    State.Lawful { s with recovery := rec, su := { s.su with opState := o, strapError := b }, ev := e } := by
  have hn : s.su.opState.serving = false := by rcases h.op with h | h <;> rw [h] <;> rfl
  have hnr : s.su.opState ≠ .reset := by rcases h.op with h | h <;> rw [h] <;> decide
  obtain ⟨ho1, ho2⟩ := ho
  have hr := h.reset
  refine ⟨⟨⟨?_, ?_, ?_, ?_, ?_, ?_⟩, ⟨?_, ?_, ?_, ?_, ?_⟩, ⟨?_, ?_, ?_, ?_, ?_, ?_, ?_⟩, ⟨?_, ?_, ?_, ?_, ?_⟩⟩, he⟩
  · have := hr.conditions; simp [hnr] at this; simp [ho1, this]
  · have := hr.forming; simp [hnr] at this; simp [ho1, this]
  · have := hr.fixed; simp [hnr] at this; simp [ho1, this]
  · have := hr.straps; simp [hnr] at this; simp [ho1, this]
  · exact hr.delay
  · exact hb
  · intro f hf; dsimp only at hf; rw [h.port] at hf; cases hf
  · intro f hf; dsimp only at hf; rw [h.solo] at hf; cases hf
  · intro _; exact h.solo
  · intro w hw; dsimp only at hw; rw [h.start.requests hn] at hw; cases hw
  · exact hrec
  · intro _; exact h.start.streams hn
  · intro _; exact h.start.rows hn
  · intro _; exact h.start.waits hn
  · intro _; exact h.start.engine hn
  · intro _; exact h.start.requests hn
  · intro _; exact ⟨hq.1, hq.2.1⟩
  · intro _; exact hq.2.2
  · simp [ho1, ho2, h.notBelow]
  · exact h.notCut
  · exact h.published
  · exact h.rel
  · exact h.cut

/-- Outside FAULT no strap error is recorded. -/
theorem State.resetLaw.noStrapError {s : State} (h : s.resetLaw) (ho : s.su.opState ≠ .fault) :
    s.su.strapError = false := by
  by_contra hc; exact ho (h.strapError (by simpa using hc))

/-- The entry to LOAD, PROVISION or a serving state. -/
theorem State.Leaving.setOpState {s : State} (h : State.Leaving s) (o : OpState)
    (ho : o ≠ .reset ∧ o ≠ .wait ∧ o ≠ .recover) : State.Lawful (s.setOpState o) := by
  unfold State.setOpState
  apply State.Lawful.askSummary
  have he : s.su.strapError = false := State.resetLaw.noStrapError h.reset
      (by rcases h.op with h | h <;> rw [h] <;> decide)
  have := State.Leaving.moved h o ⟨ho.1, ho.2.1⟩ none (by simp [ho.2.2]) s.su.strapError
      (by rw [he]; intro h; cases h) s.ev h.ev (State.Leaving.atRest h)
  have e2 : s.recovery = none := h.rcv
  rw [← e2] at this
  exact this

/-- A strap error leads to FAULT (R141). -/
theorem State.Leaving.strapFault {s : State} (h : State.Leaving s) : State.Lawful s.strapFault := by
  unfold State.strapFault State.enterServing
  dsimp only
  have h1 := State.Leaving.raise h .configBad { detail := some (configBadDetail .strap) }
  generalize hv : s.raise .configBad { detail := some (configBadDetail .strap) } = v at h1 ⊢
  have hn : v.su.opState.serving = false := by rcases h1.op with h | h <;> rw [h] <;> rfl
  have hq := State.Leaving.atRest h1
  have hl : v.ev.withdrawWriter.lawful := h1.ev.withdrawWriter (by rw [hq.1]; rfl)
  have hwq : EventUnit.AtRest v.ev.withdrawWriter := ⟨hq.1, rfl, hq.2.2.1, rfl, by intro j hj; cases hj⟩
  have hmay : ∀ x : State, x.su.strapError = true → (x.su.opState = .fault ∨ x.su.opState.serving = false)
      → x.mayPresent = false := by
    intro x h1 h2
    rcases h2 with h2 | h2
    · simp [State.mayPresent, h2, h1]
    · exact State.mayPresent_of_notServing h2
  have hl2 : (v.ev.withdrawWriter.take false
      (({ v with su := { v.su with strapError := true }, ev := v.ev.withdrawWriter } : State).formRecord .start
      { detail := some (startDetail v.su.resetCause) })).lawful := hl.take _ (by simp [State.formRecord])
      (by simp [State.formRecord])
  have hq2 := EventUnit.AtRest.take hwq (({ v with su := { v.su with strapError := true }, ev := v.ev.withdrawWriter }
      : State).formRecord .start { detail := some (startDetail v.su.resetCause) })
  have hm : ({ v with su := { v.su with strapError := true }, ev := v.ev.withdrawWriter } : State).mayPresent = false
      := hmay _ rfl (.inr hn)
  simp only [State.raise]
  rw [hm]
  simp only [State.setOpState, State.askSummary]
  simp only [if_true]
  rw [hmay _ rfl (.inl rfl)]
  simp only [EventUnit.startPresentation, Bool.false_and]
  have := State.Leaving.moved h1 .fault ⟨by decide, by decide⟩ none (by simp) true (fun _ => rfl) _ hl2 hq2
  rw [← h1.rcv] at this
  exact this

/-- The end of WAIT (R143). -/
theorem State.Leaving.endWait {s : State} (h : State.Leaving s) (hw : s.su.opState = .wait) (pins) : State.Lawful
    (s.endWait pins) := by
  unfold State.endWait
  split
  · split
    · split
      · exact State.Leaving.strapFault h
      · exact State.Leaving.setOpState h _ ⟨by decide, by decide, by decide⟩
    · dsimp only
      have hl := State.Leaving.setOpState h .load ⟨by decide, by decide, by decide⟩
      obtain ⟨e, he, hle⟩ := State.askSummary_eq ({ s with su := { s.su with opState := .load } } : State)
      split
      · apply State.Leaving.strapFault
        have hs : s.setOpState .load = { s with su := { s.su with opState := .load }, ev := e } := he
        rw [hs] at hl ⊢
        refine ⟨.inr rfl, hl.1.reset, hl.1.start, h.port, h.solo, h.rcv, h.notBelow, h.notCut, h.published, h.rel,
            h.cut, hl.2⟩
      · unfold State.askLoader
        have hs : s.setOpState .load = { s with su := { s.su with opState := .load }, ev := e } := he
        rw [hs] at hl ⊢
        exact State.Lawful.askSolo hl _ _ rfl rfl h.port
  · rename_i hs
    have := h.reset.straps.mp (by rw [hw]; decide)
    rw [hs] at this; cases this

/-! ## Samples -/

/-- A change of the monitor alone. -/
theorem State.Lawful.withMonitor {s : State} (h : s.Lawful) (m : Monitor)
    (hm : ({ s with mon := m } : State).monitorLaw) : State.Lawful { s with mon := m } := by
  obtain ⟨⟨hr, hp, hst, _⟩, he⟩ := h
  exact ⟨⟨State.resetLaw.congr hr rfl, ⟨hp.port, hp.solo, hp.apart, hp.waiting, hp.recovery⟩,
      ⟨hst.streams, hst.rows, hst.waits, hst.engine, hst.requests, hst.presentation, hst.writer⟩, hm⟩, he⟩

/-- A sample's level taken in BELOW, NORMAL or WARN keeps the laws (R123 to R128). -/
theorem State.Lawful.takeLevel {s : State} (h : s.Lawful) (l pins) : State.Lawful (s.takeLevel l pins) := by
  have hpos : 0 < s.cfg.params.cutCount := lt_of_le_of_lt (Nat.zero_le _) h.1.monitor.cut
  unfold State.takeLevel
  dsimp only
  generalize hv : ({ s with mon := s.mon.sample s.cfg.params (s.su.opState == OpState.reset) l } :
      State).publish = v
  have hvs : v = { s with mon := v.mon } := by rw [← hv]; rfl
  have hpub : v.mon.published =
      { state := v.mon.state, band := v.mon.level.map bandOf, budget := budgetOf v.cfg (v.mon.level.map bandOf) } :=
      by rw [← hv]; rfl
  have hst : v.mon.state = (s.mon.sample s.cfg.params (s.su.opState == OpState.reset) l).state := by rw [← hv]; rfl
  have hrel : v.mon.releaseRun = (s.mon.sample s.cfg.params (s.su.opState == OpState.reset) l).releaseRun := by
      rw [← hv]; rfl
  have hcut : v.mon.cutRun = (s.mon.sample s.cfg.params (s.su.opState == OpState.reset) l).cutRun := by rw [← hv]; rfl
  have hcfg : v.cfg = s.cfg := by rw [hvs]
  have hsu : v.su = s.su := by rw [hvs]
  clear hv
  by_cases hb : s.mon.state = .below
  · have hop := h.1.monitor.below.mp hb
    by_cases hlv : (s.su.opState == OpState.reset) = false ∧ s.cfg.params.cutCount ≤ nextReleaseRun s.cfg.params
        (s.su.opState == OpState.reset) s.mon.releaseRun l.toNat
    · have hw : s.su.opState = .wait := by
        rcases hop with h | h
        · rw [h] at hlv; simp at hlv
        · exact h
      have hms : s.mon.sample s.cfg.params (s.su.opState == OpState.reset) l =
          { s.mon with
            level := some l, state := if l.toNat ≤ s.cfg.params.warnLevel then .warn else .normal
            releaseRun := 0, cutRun := 0 } := by
        simp only [Monitor.sample, hb, Monitor.sampleBelow]
        rw [if_pos]
        rw [hlv.1]; simpa using (by have := hlv.2; rw [hlv.1] at this; exact this)
      rw [hms] at hst hrel hcut
      obtain ⟨n1, n2, n3⟩ := State.Lawful.nothing_underWay h (.inr hw)
      have hmid : State.Leaving v := by
        rw [hvs]
        refine ⟨.inl hw, State.resetLaw.congr h.1.reset rfl,
            ⟨h.1.start.streams, h.1.start.rows, h.1.start.waits, h.1.start.engine, h.1.start.requests,
            h.1.start.presentation, h.1.start.writer⟩, n1, n2, n3, ?_, ?_, ?_, ?_, ?_, h.2⟩
        · dsimp only; rw [hst]; dsimp only; split <;> simp
        · dsimp only; rw [hst]; dsimp only; split <;> simp
        · dsimp only; rw [hpub, hcfg]
        · dsimp only; rw [hrel]; exact hpos
        · dsimp only; rw [hcut]; exact hpos
      have hm1 : State.Leaving (v.raiseSample s.mon.state l) := by
        unfold State.raiseSample; split
        · exact State.Leaving.raise hmid _ _
        · exact hmid
      have hm2 : State.Leaving ((v.raiseSample s.mon.state l).askIfChanged s.mon.state) := by
        unfold State.askIfChanged; split
        · exact hm1
        · exact State.Leaving.askSummary hm1
      have hmon : ((v.raiseSample s.mon.state l).askIfChanged s.mon.state).mon = v.mon ∧
          ((v.raiseSample s.mon.state l).askIfChanged s.mon.state).su = v.su := by
        have e1 : (v.raiseSample s.mon.state l).mon = v.mon ∧ (v.raiseSample s.mon.state l).su = v.su := by
            unfold State.raiseSample; split <;> exact ⟨rfl, rfl⟩
        unfold State.askIfChanged; split
        · exact e1
        · obtain ⟨e, he, _⟩ := State.askSummary_eq (v.raiseSample s.mon.state l); rw [he]; exact e1
      unfold State.followMonitor
      rw [hmon.1]
      have hw' : ((v.raiseSample s.mon.state l).askIfChanged s.mon.state).su.opState = .wait := by
        rw [hmon.2, hsu]; exact hw
      have hne : v.mon.state = .normal ∨ v.mon.state = .warn := by rw [hst]; dsimp only; split <;> simp
      rcases hne with hne | hne <;> (rw [hne]; simp only []; rw [if_pos hw']; exact State.Leaving.endWait hm2 hw' pins)
    · have hms : s.mon.sample s.cfg.params (s.su.opState == OpState.reset) l =
          { s.mon with
            level := some l
            releaseRun := nextReleaseRun s.cfg.params (s.su.opState == OpState.reset) s.mon.releaseRun l.toNat } := by
        simp only [Monitor.sample, hb, Monitor.sampleBelow]
        rw [if_neg]
        · intro hc; apply hlv
          simp only [Bool.and_eq_true, Bool.not_eq_true', decide_eq_true_eq] at hc
          exact hc
      rw [hms] at hst hrel hcut
      have hrlt : nextReleaseRun s.cfg.params (s.su.opState == OpState.reset) s.mon.releaseRun l.toNat <
          s.cfg.params.cutCount := by
        by_cases hx : (s.su.opState == OpState.reset) = true
        · rw [hx]; simpa [nextReleaseRun] using hpos
        · by_contra hc; exact hlv ⟨by simpa using hx, Nat.not_lt.mp hc⟩
      have hg : State.Lawful v := by
        rw [hvs]
        refine State.Lawful.withMonitor h _ ⟨?_, ?_, ?_, ?_, ?_⟩
        · dsimp only; rw [hst]; exact h.1.monitor.below
        · dsimp only; rw [hst]; exact h.1.monitor.notCut
        · dsimp only; rw [hpub, hcfg]
        · dsimp only; rw [hrel]; exact hrlt
        · dsimp only; rw [hcut]; exact h.1.monitor.cut
      have hsb : v.mon.state = .below := by rw [hst]; exact hb
      have hr : v.raiseSample s.mon.state l = v := by simp [State.raiseSample, hb, hsb, sampleEvent]
      rw [hr]
      have ha : v.askIfChanged s.mon.state = v := by simp [State.askIfChanged, hb, hsb]
      rw [ha]
      simp only [State.followMonitor, hsb]; exact hg
  · have hnw : ¬ (s.su.opState = .reset ∨ s.su.opState = .wait) := fun hc => hb (h.1.monitor.below.mpr hc)
    have hnu : s.mon.state = .normal ∨ s.mon.state = .warn := by
      have := h.1.monitor.notCut
      cases hx : s.mon.state <;> simp [hx] at hb this ⊢
    by_cases hc : s.cfg.params.cutCount ≤ nextCutRun s.cfg.params s.mon.cutRun l.toNat
    · have hvc : v.mon.state = .cut := by
        rw [hst]; rcases hnu with h | h <;> simp [Monitor.sample, h, Monitor.sampleUp, hc]
      generalize hy : (v.raiseSample s.mon.state l).askIfChanged s.mon.state = y
      have hr : v.raiseSample s.mon.state l = v := by rcases hnu with h | h
          <;> simp [State.raiseSample, h, hvc, sampleEvent]
      rw [hr] at hy
      have hye : ∃ e, y = { v with ev := e } := by
        rw [← hy]; unfold State.askIfChanged; split
        · exact ⟨_, rfl⟩
        · obtain ⟨e, he, _⟩ := State.askSummary_eq v; exact ⟨e, he⟩
      obtain ⟨e, rfl⟩ := hye
      simp only [State.followMonitor, hvc, State.cutReset]
      apply State.Resetting.exitReset
      have hd : v.su.powerOnDelay.isSome = true → v.su.powerOn = true := by rw [hsu]; exact h.1.reset.delay
      exact State.takeReset_resetting hd .cut
    · have hms : s.mon.sample s.cfg.params (s.su.opState == OpState.reset) l =
          { s.mon with
            level := some l, state := s.mon.state.afterSample s.cfg.params l.toNat
            cutRun := nextCutRun s.cfg.params s.mon.cutRun l.toNat } := by
        rcases hnu with h | h <;> simp [Monitor.sample, h, Monitor.sampleUp, hc]
      rw [hms] at hst hrel hcut
      have hne : v.mon.state = .normal ∨ v.mon.state = .warn := by
        rw [hst]; rcases hnu with h | h <;> rw [h] <;> simp only [MonState.afterSample] <;> split <;> simp
      have hg : State.Lawful v := by
        rw [hvs]
        refine State.Lawful.withMonitor h _ ⟨?_, ?_, ?_, ?_, ?_⟩
        · dsimp only
          constructor
          · intro hx; rw [hx] at hne; simp at hne
          · intro hx; exact absurd hx hnw
        · dsimp only; rcases hne with h | h <;> rw [h] <;> decide
        · dsimp only; rw [hpub, hcfg]
        · dsimp only; rw [hrel]; exact h.1.monitor.release
        · dsimp only; rw [hcut]; exact Nat.not_le.mp hc
      have hg1 : State.Lawful (v.raiseSample s.mon.state l) := by
        unfold State.raiseSample; split
        · exact State.Lawful.raise hg _ _
        · exact hg
      have hg2 : State.Lawful ((v.raiseSample s.mon.state l).askIfChanged s.mon.state) := by
        unfold State.askIfChanged; split
        · exact hg1
        · exact State.Lawful.askSummary hg1
      have hmon : ((v.raiseSample s.mon.state l).askIfChanged s.mon.state).mon = v.mon ∧
          ((v.raiseSample s.mon.state l).askIfChanged s.mon.state).su = v.su := by
        have e1 : (v.raiseSample s.mon.state l).mon = v.mon ∧ (v.raiseSample s.mon.state l).su = v.su := by
            unfold State.raiseSample; split <;> exact ⟨rfl, rfl⟩
        unfold State.askIfChanged; split
        · exact e1
        · obtain ⟨e, he, _⟩ := State.askSummary_eq (v.raiseSample s.mon.state l); rw [he]; exact e1
      unfold State.followMonitor
      rw [hmon.1]
      have hw' : ¬ ((v.raiseSample s.mon.state l).askIfChanged s.mon.state).su.opState = .wait := by
        rw [hmon.2, hsu]; exact fun hx => hnw (.inr hx)
      rcases hne with hne | hne <;> (rw [hne]; simp only []; rw [if_neg hw']; exact hg2)

/-- The converter plays no part in the laws. -/
theorem State.Lawful.withSampler {s : State} (h : s.Lawful) (x : Sampler) :
    State.Lawful { s with mon := { s.mon with sampler := x } } :=
  State.Lawful.withMonitor h _ (State.monitorLaw.congr h.1.monitor rfl rfl ⟨rfl, rfl, rfl, rfl, rfl⟩)

/-- A sample's completion keeps the laws (R123 to R128). -/
theorem State.Lawful.sampleDone {s : State} (h : s.Lawful) (l pins) : State.Lawful (s.sampleDone l pins) := by
  unfold State.sampleDone
  rw [if_neg h.1.monitor.notCut]
  exact State.Lawful.withSampler (State.Lawful.takeLevel h l pins) _

/-! ## Loading and recovering -/

/-- What a summary asked for leaves as it was. -/
theorem State.askSummary_parts (s : State) : s.askSummary.su = s.su ∧ s.askSummary.bus = s.bus
    ∧ s.askSummary.recovery = s.recovery ∧ s.askSummary.mon = s.mon ∧ s.askSummary.cfg = s.cfg := by
  obtain ⟨e, he, _⟩ := State.askSummary_eq s; rw [he]; exact ⟨rfl, rfl, rfl, rfl, rfl⟩

/-- The entry to RECOVER (R72). -/
theorem State.Lawful.enterRecover {s : State} (h : s.Lawful) (ho : s.su.opState = .load) (hp : s.bus.port = none)
    (hs : s.bus.solo = none) : State.Lawful s.enterRecover := by
  unfold State.enterRecover State.setOpState State.askSlotRead
  have hq := State.Lawful.atRest h (by rw [ho]; rfl)
  have hmid : State.Leaving s := by
    refine ⟨.inr ho, h.1.reset, h.1.start, hp, hs, ?_, ?_, h.1.monitor.notCut, h.1.monitor.published,
        h.1.monitor.release, h.1.monitor.cut, h.2⟩
    · have := h.1.port.recovery; rw [ho] at this; simpa using this
    · intro hb; have := h.1.monitor.below.mp hb; rw [ho] at this; simp at this
  have he : s.su.strapError = false := State.resetLaw.noStrapError h.1.reset (by rw [ho]; decide)
  have hg := State.Leaving.moved hmid .recover ⟨by decide, by decide⟩ (some Recovery.start) (by simp) s.su.strapError
      (by rw [he]; intro h; cases h) s.ev h.2 hq
  have hg2 := State.Lawful.askSummary
      (s := { s with recovery := some Recovery.start, su := { s.su with opState := .recover } }) hg
  apply State.Lawful.askSolo hg2
  · rw [(State.askSummary_parts _).1]; rfl
  · rw [(State.askSummary_parts _).1]; rfl
  · rw [(State.askSummary_parts _).2.1]; exact hp

/-- The record of the configuration's validity. -/
theorem State.Lawful.withValidity {s : State} (h : s.Lawful) (v : Validity) :
    State.Lawful { s with su := { s.su with validity := v } } :=
  State.Lawful.withStartUp h s.su.opState _ ⟨rfl, rfl, rfl, rfl, rfl, rfl, rfl, rfl⟩ rfl

/-- The configuration image. -/
theorem State.Lawful.withImage {s : State} (h : s.Lawful) (v) :
    State.Lawful { s with su := { s.su with image := v } } :=
  State.Lawful.withStartUp h s.su.opState _ ⟨rfl, rfl, rfl, rfl, rfl, rfl, rfl, rfl⟩ rfl

/-- An installation of configured items whose cut count is not 0. -/
theorem State.Lawful.install {s : State} (h : s.Lawful) (c : Settings) (hc : 0 < c.params.cutCount) : State.Lawful
    (s.install c) := by
  obtain ⟨⟨hr, hp, hst, hm⟩, he⟩ := h
  refine ⟨⟨State.resetLaw.congr hr rfl, ⟨hp.port, hp.solo, hp.apart, hp.waiting, hp.recovery⟩,
      ⟨hst.streams, hst.rows, hst.waits, hst.engine, hst.requests, hst.presentation, hst.writer⟩,
      ⟨hm.below, hm.notCut, rfl, hc, hc⟩⟩, he⟩

/-- A valid configuration has a cut count of at least 1 (R129). -/
theorem judge_cutCount {image b} (h : judge image b = none) : 0 < (settingsOf image).params.cutCount := by
  have hr : rangePasses image = true := by
    unfold judge at h
    by_contra hc
    have hc' : rangePasses image = false := by simpa using hc
    rw [hc'] at h
    simp at h
    split at h
    · cases h
    · split at h <;> cases h
  unfold rangePasses at hr
  simp only [Bool.and_eq_true, inRange, decide_eq_true_eq] at hr
  show 0 < (imageParams image).cutCount
  omega

/-- An invalid configuration (R147). -/
theorem State.Lawful.configInvalid {s : State} (h : s.Lawful) (ho : s.su.opState = .load) (hp : s.bus.port = none)
    (hs : s.bus.solo = none) (r) : State.Lawful (s.configInvalid r) := by
  unfold State.configInvalid
  dsimp only
  exact State.Lawful.enterRecover (State.Lawful.withValidity (State.Lawful.raise h _ _) _) ho hp hs

/-- A word of the configuration block read (R145 to R148). -/
theorem State.Lawful.loaderDone {s : State} (h : s.Lawful) (ho : s.su.opState = .load) (hp : s.bus.port = none)
    (hs : s.bus.solo = none) (d) : State.Lawful (s.loaderDone d) := by
  unfold State.loaderDone
  dsimp only
  have hg := State.Lawful.withImage h (s.su.image ++ [d])
  split
  · exact State.Lawful.askSolo_at hg _ _ ho rfl rfl hp
  · unfold State.judgeImage
    split
    · exact State.Lawful.configInvalid hg ho hp hs _
    · rename_i hj
      unfold State.configValid
      exact State.Lawful.enterRecover (State.Lawful.withValidity (State.Lawful.install hg _ (judge_cutCount hj)) _) ho
          hp hs

/-- A change of the recovery pass. -/
theorem State.Lawful.withRecovery {s : State} (h : s.Lawful) (ho : s.su.opState = .recover) (r : Recovery) :
    State.Lawful { s with recovery := some r } := by
  obtain ⟨⟨hr, hp, hst, hm⟩, he⟩ := h
  exact ⟨⟨State.resetLaw.congr hr rfl, ⟨hp.port, hp.solo, hp.apart, hp.waiting, by simp [ho]⟩,
      ⟨hst.streams, hst.rows, hst.waits, hst.engine, hst.requests, hst.presentation, hst.writer⟩,
      State.monitorLaw.congr hm rfl rfl ⟨rfl, rfl, rfl, rfl, rfl⟩⟩, he⟩

/-- The end of RECOVER with an event and the engine seeded. -/
theorem State.Lawful.leaveRecover {s : State} (h : s.Lawful) (ho : s.su.opState = .recover) (hp : s.bus.port = none)
    (hs : s.bus.solo = none) (e : Engine) (k : EventKind) (f : EventFields) (o : OpState) (hso : o.serving = true) :
    State.Lawful (({ s with eng := e, recovery := none } : State).raise k f |>.enterServing o) := by
  unfold State.enterServing State.setOpState
  dsimp only
  have hn : s.su.opState.serving = false := by rw [ho]; rfl
  have he0 : s.su.strapError = false := State.resetLaw.noStrapError h.1.reset (by rw [ho]; decide)
  have hor : o ≠ .reset := by rintro rfl; cases hso
  have how : o ≠ .wait := by rintro rfl; cases hso
  have horec : o ≠ .recover := by rintro rfl; cases hso
  generalize hv : ((({ s with eng := e, recovery := none } : State).raise k f).raise .start
      { detail := some (startDetail (({ s with eng := e, recovery := none } : State).raise k f).su.resetCause) }) = v
  have hve : v = { s with eng := e, recovery := none, ev := v.ev } := by rw [← hv]; rfl
  have hvl : v.ev.lawful := by rw [← hv]; exact State.raise_lawful (State.raise_lawful h.2 _ _) _ _
  have hg : State.Lawful ({ v with su := { v.su with opState := o } } : State) := by
    rw [hve]
    obtain ⟨⟨hr, hp', hst, hm⟩, he⟩ := h
    refine ⟨⟨⟨?_, ?_, ?_, ?_, ?_, ?_⟩, ⟨?_, ?_, ?_, ?_, ?_⟩, State.startLaw_of_serving hso, ⟨?_, ?_, ?_, ?_, ?_⟩⟩, hvl⟩
    · have := hr.conditions; simp [ho] at this; simp [hor, this]
    · have := hr.forming; simp [ho] at this; simp [hor, this]
    · have := hr.fixed; simp [ho] at this; simp [hor, this]
    · have := hr.straps; simp [ho] at this; simp [hor, this]
    · exact hr.delay
    · intro hx; dsimp only at hx; rw [he0] at hx; cases hx
    · intro f hf; dsimp only at hf; rw [hp] at hf; cases hf
    · intro f hf; dsimp only at hf; rw [hs] at hf; cases hf
    · intro _; exact hs
    · exact hp'.waiting
    · simp [horec]
    · have := hm.below; simp [ho] at this; simp [hor, how, this]
    · exact hm.notCut
    · exact hm.published
    · exact hm.release
    · exact hm.cut
  exact State.Lawful.startPresentation (State.Lawful.askSummary hg) (by rw [(State.askSummary_parts _).1]; exact hso)

/-- The next action of the pass, or its end (R78 to R81). -/
theorem State.Lawful.beginAction {s : State} (h : s.Lawful) (ho : s.su.opState = .recover) (hp : s.bus.port = none)
    (hs : s.bus.solo = none) (r) : State.Lawful (s.beginAction r) := by
  unfold State.beginAction
  split
  · unfold State.endRecovery
    dsimp only
    exact State.Lawful.leaveRecover h ho hp hs _ _ _ _ (by split <;> rfl)
  · have hg := State.Lawful.withRecovery h ho { r with replayEntry := 0, replayAddr := none }
    dsimp only
    split
    · exact State.Lawful.askSolo_at hg _ _ ho rfl rfl hp
    all_goals exact State.Lawful.askSolo_at hg _ _ ho rfl rfl hp

/-- A scan read (R73). -/
theorem State.Lawful.scanDone {s : State} (h : s.Lawful) (ho : s.su.opState = .recover) (hp : s.bus.port = none)
    (hs : s.bus.solo = none) (d) : State.Lawful (s.scanDone d) := by
  unfold State.scanDone
  split
  · dsimp only
    split
    · exact State.Lawful.askSolo_at (State.Lawful.withRecovery h ho _) _ _ ho rfl rfl hp
    · unfold State.nextSlot
      split
      · exact State.Lawful.askSolo_at (State.Lawful.withRecovery h ho _) _ _ ho rfl rfl hp
      · exact State.Lawful.beginAction h ho hp hs _
  · exact h

/-- A replay read (R78). -/
theorem State.Lawful.replayReadDone {s : State} (h : s.Lawful) (ho : s.su.opState = .recover) (hp : s.bus.port = none)
    (d) : State.Lawful (s.replayReadDone d) := by
  unfold State.replayReadDone
  split
  · split
    · exact State.Lawful.askSolo_at (State.Lawful.withRecovery h ho _) _ _ ho rfl rfl hp
    · split
      · exact State.Lawful.askSolo_at (State.Lawful.withRecovery h ho _) _ _ ho rfl rfl hp
      · exact State.Lawful.askSolo_at h _ _ ho rfl rfl hp
    · exact h
  · exact h

/-- A replay write (R78). -/
theorem State.Lawful.replayWriteDone {s : State} (h : s.Lawful) (ho : s.su.opState = .recover)
    (hp : s.bus.port = none) : State.Lawful (s.replayWriteDone) := by
  unfold State.replayWriteDone
  split
  · split
    · split
      · exact State.Lawful.askSolo_at (State.Lawful.withRecovery h ho _) _ _ ho rfl rfl hp
      · exact State.Lawful.askSolo_at h _ _ ho rfl rfl hp
    · exact h
  · exact h

/-- A retire write of the pass (R79). -/
theorem State.Lawful.recoveryRetireDone {s : State} (h : s.Lawful) (ho : s.su.opState = .recover)
    (hp : s.bus.port = none) (hs : s.bus.solo = none) : State.Lawful (s.recoveryRetireDone) := by
  unfold State.recoveryRetireDone
  split
  · split
    · split
      · exact State.Lawful.beginAction h ho hp hs _
      all_goals exact State.Lawful.beginAction (State.Lawful.raise h _ _) ho hp hs _
    · exact h
  · exact h

/-- FAULT from RECOVER (R150). -/
theorem State.Lawful.enterFault {s : State} (h : s.Lawful) (ho : s.su.opState = .recover) (hp : s.bus.port = none)
    (hs : s.bus.solo = none) : State.Lawful s.enterFault := by
  unfold State.enterFault
  dsimp only
  have key : ∀ x : State, State.Lawful x → x.su.opState = .recover → x.bus.port = none → x.bus.solo = none
      → State.Lawful (({ x with recovery := none, bus := { x.bus with solo := none } } : State).enterServing .fault)
      := by
    intro x hx h1 h2 h3
    have e : ({ x with recovery := none, bus := { x.bus with solo := none } } : State) = { x with recovery := none }
        := by rw [← h3]
    rw [e]
    unfold State.enterServing State.setOpState
    dsimp only
    generalize hv : ({ x with recovery := none } : State).raise .start
        { detail := some (startDetail x.su.resetCause) } = v
    have hve : v = { x with recovery := none, ev := v.ev } := by rw [← hv]; rfl
    have hvl : v.ev.lawful := by rw [← hv]; exact State.raise_lawful hx.2 _ _
    have hg : State.Lawful ({ v with su := { v.su with opState := .fault } } : State) := by
      rw [hve]
      obtain ⟨⟨hr, hp', hst, hm⟩, he⟩ := hx
      refine ⟨⟨⟨?_, ?_, ?_, ?_, ?_, ?_⟩, ⟨?_, ?_, ?_, ?_, ?_⟩, State.startLaw_of_serving rfl, ⟨?_, ?_, ?_, ?_, ?_⟩⟩, hvl⟩
      · have := hr.conditions; simp [h1] at this; simp [this]
      · have := hr.forming; simp [h1] at this; simp [this]
      · have := hr.fixed; simp [h1] at this; simp [this]
      · have := hr.straps; simp [h1] at this; simp [this]
      · exact hr.delay
      · intro _; rfl
      · intro f hf; dsimp only at hf; rw [h2] at hf; cases hf
      · intro f hf; dsimp only at hf; rw [h3] at hf; cases hf
      · intro _; exact h3
      · exact hp'.waiting
      · simp
      · have := hm.below; simp [h1] at this; simp [this]
      · exact hm.notCut
      · exact hm.published
      · exact hm.release
      · exact hm.cut
    exact State.Lawful.startPresentation (State.Lawful.askSummary hg) (by rw [(State.askSummary_parts _).1]; rfl)
  split
  · have := key (s.install Settings.default) (State.Lawful.install h _ (by decide)) ho hp hs
    exact this
  · exact key s h ho hp hs

/-- A failed attempt, retried or handed to its requester (R107 to R109). -/
theorem State.Lawful.accessFailed {s : State} (h : s.Lawful) (f : InFlight)
    (ha : f.purpose.allowedIn s.su.opState = true) (hp : s.bus.port = none) (hs : s.bus.solo = none) : State.Lawful
    (s.accessFailed f) := by
  have hserv : f.purpose.cls.isSome = true ∨ f.purpose = .status → s.su.opState.serving = true := by
    intro hx
    cases ho : s.su.opState <;> rw [ho] at ha <;> (try rfl) <;> cases hpp : f.purpose <;> rw [hpp] at ha hx
        <;> simp [Purpose.allowedIn, Purpose.cls] at ha hx
  have hload : f.purpose = .loader → s.su.opState = .load := by
    intro hx; rw [hx] at ha
    cases ho : s.su.opState <;> rw [ho] at ha <;> simp [Purpose.allowedIn, Purpose.cls] at ha ⊢
  have hrec : (f.purpose = .scan ∨ f.purpose = .replayRead ∨ f.purpose = .replayWrite ∨ f.purpose = .recoveryRetire)
      → s.su.opState = .recover := by
    intro hx
    rcases hx with hx | hx | hx | hx <;> rw [hx] at ha <;>
    cases ho : s.su.opState <;> rw [ho] at ha <;> simp [Purpose.allowedIn, Purpose.cls] at ha ⊢
  have hns : ∀ o, s.su.opState = o → o = .load ∨ o = .recover → s.su.opState.serving = false := by
    rintro o ho (rfl | rfl) <;> rw [ho] <;> rfl
  unfold State.accessFailed
  split
  · exact h
  · split
    · unfold State.retry
      cases hpp : f.purpose <;> simp only []
      · exact h
      · exact State.Lawful.keeps h (hserv (by rw [hpp]; exact .inl rfl)) (.ask _ rfl _ _)
      · exact State.Lawful.keeps h (hserv (by rw [hpp]; exact .inl rfl)) (.ask _ rfl _ _)
      · exact State.Lawful.keeps h (hserv (by rw [hpp]; exact .inl rfl)) (.ask _ rfl _ _)
      · exact State.Lawful.keeps h (hserv (by rw [hpp]; exact .inl rfl)) (.ask _ rfl _ _)
      · refine State.Lawful.withEvents h (h.2.congr rfl rfl rfl rfl rfl rfl) ?_
        intro hn; rw [hserv (by rw [hpp]; exact .inr rfl)] at hn; cases hn
      · have := hload hpp; exact State.Lawful.askSolo h _ _ (by rw [this]; rfl) (hns _ this (.inl rfl)) hp
      · have := hrec (by simp [hpp]); exact State.Lawful.askSolo h _ _ (by rw [this]; rfl) (hns _ this (.inr rfl)) hp
      · have := hrec (by simp [hpp]); exact State.Lawful.askSolo h _ _ (by rw [this]; rfl) (hns _ this (.inr rfl)) hp
      · have := hrec (by simp [hpp]); exact State.Lawful.askSolo h _ _ (by rw [this]; rfl) (hns _ this (.inr rfl)) hp
      · have := hrec (by simp [hpp]); exact State.Lawful.askSolo h _ _ (by rw [this]; rfl) (hns _ this (.inr rfl)) hp
    · unfold State.handFailure
      cases hpp : f.purpose <;> simp only []
      · exact State.Lawful.keeps h (hserv (by rw [hpp]; exact .inl rfl))
            ((State.GroupSide.respond ..).keeps.trans (.raise ..))
      · exact State.Lawful.keeps h (hserv (by rw [hpp]; exact .inl rfl)) (.journalFailed _)
      · exact State.Lawful.keeps h (hserv (by rw [hpp]; exact .inl rfl)) (.journalFailed _)
      · exact State.Lawful.keeps h (hserv (by rw [hpp]; exact .inl rfl)) (.applyFailed _ _)
      · exact State.Lawful.keeps h (hserv (by rw [hpp]; exact .inl rfl)) (.retireFailed _)
      · refine State.Lawful.withEvents h (h.2.congr rfl rfl rfl rfl rfl rfl) ?_
        intro hn; rw [hserv (by rw [hpp]; exact .inr rfl)] at hn; cases hn
      · exact State.Lawful.configInvalid h (hload hpp) hp hs _
      · exact State.Lawful.enterFault (State.Lawful.raise h _ _) (hrec (by simp [hpp])) hp hs
      · exact State.Lawful.enterFault (State.Lawful.raise h _ _) (hrec (by simp [hpp])) hp hs
      · exact State.Lawful.enterFault (State.Lawful.raise h _ _) (hrec (by simp [hpp])) hp hs
      · exact State.Lawful.enterFault (State.Lawful.raise h _ _) (hrec (by simp [hpp])) hp hs

/-! ## Answers and time -/

/-- An answer, matched or discarded (R104). -/
theorem State.Lawful.answered {s : State} (h : s.Lawful) (n) (m : Purpose → Bool) (act : InFlight → State → State)
   (ha : ∀ f, s.bus.port = some f → m f.purpose = true → State.Lawful (act f s.freePort)) : State.Lawful
       (s.answered n m act) := by
  unfold State.answered State.matched
  cases hp : s.bus.port with
  | none => exact h
  | some f =>
    dsimp only
    split
    · rename_i f' hf
      split at hf
      · obtain rfl := Option.some.inj hf
        split
        · rename_i hm; exact ha _ hp hm
        · exact h
      · cases hf
    · exact h

/-- An outcome handed to the engine while it runs. -/
theorem State.Lawful.ifRunning {s : State} (h : s.Lawful) (hs : s.su.opState.serving = true) {act : State → State}
    (ha : ∀ s : State, s.Keeps (act s)) : State.Lawful (s.ifRunning act) := by
  unfold State.ifRunning; split
  · exact State.Lawful.keeps h hs (ha s)
  · exact h

/-- An access of F, JW, AP or S is in flight in a serving state only. -/
theorem State.Lawful.serving_of_port {s : State} (h : s.Lawful) {f} (hf : s.bus.port = some f)
    (hx : f.purpose.cls.isSome = true ∨ f.purpose = .status) : s.su.opState.serving = true := by
  have ha := h.1.port.port f hf
  cases ho : s.su.opState <;> rw [ho] at ha <;> (try rfl) <;> cases hpp : f.purpose <;> rw [hpp] at ha hx
      <;> simp [Purpose.allowedIn, Purpose.cls] at ha hx

/-- The loader's access is in flight in LOAD only. -/
theorem State.Lawful.load_of_port {s : State} (h : s.Lawful) {f} (hf : s.bus.port = some f)
    (hx : f.purpose = .loader) : s.su.opState = .load := by
  have ha := h.1.port.port f hf
  rw [hx] at ha
  cases ho : s.su.opState <;> rw [ho] at ha <;> simp [Purpose.allowedIn, Purpose.cls] at ha ⊢

/-- The recovery pass's access is in flight in RECOVER only. -/
theorem State.Lawful.recover_of_port {s : State} (h : s.Lawful) {f} (hf : s.bus.port = some f)
    (hx : f.purpose = .scan ∨ f.purpose = .replayRead ∨ f.purpose = .replayWrite ∨ f.purpose = .recoveryRetire) :
    s.su.opState = .recover := by
  have ha := h.1.port.port f hf
  rcases hx with hx | hx | hx | hx <;> rw [hx] at ha <;>
    cases ho : s.su.opState <;> rw [ho] at ha <;> simp [Purpose.allowedIn, Purpose.cls] at ha ⊢

/-- A microsecond keeps the laws. -/
theorem State.Lawful.tickMicro {s : State} (h : s.Lawful) : State.Lawful s.tickMicro := by
  obtain ⟨⟨hr, hp, hst, hm⟩, he⟩ := h
  refine ⟨⟨⟨hr.conditions, hr.forming, hr.fixed, hr.straps, ?_, hr.strapError⟩,
      ⟨?_, hp.solo, ?_, hp.waiting, hp.recovery⟩,
      ⟨?_, hst.rows, hst.waits, hst.engine, hst.requests, hst.presentation, ?_⟩, State.monitorLaw.congr hm rfl rfl
      ⟨rfl, rfl, rfl, rfl, rfl⟩⟩, he.congr rfl rfl rfl rfl rfl rfl⟩
  · intro hd; apply hr.delay
    simpa [State.tickMicro, countDown] using hd
  · intro f hf
    simp only [State.tickMicro] at hf
    obtain ⟨g, hg, rfl⟩ := Option.map_eq_some_iff.mp hf
    exact hp.port g hg
  · intro hx
    apply hp.apart
    simpa [State.tickMicro] using hx
  · intro hn
    have := hst.streams hn
    show #v[s.streams[0].tick, s.streams[1].tick, s.streams[2].tick, s.streams[3].tick] = _
    rw [this]; decide
  · intro hn
    obtain ⟨a, b, c⟩ := hst.writer hn
    exact ⟨a, by show countDown s.ev.retryWait = none; rw [b]; rfl, c⟩

/-- A CLK period keeps the laws. -/
theorem State.Lawful.tickClk {s : State} (h : s.Lawful) : State.Lawful s.tickClk := by
  replace h := State.Lawful.withSampler h s.mon.sampler.period
  unfold State.tickClk
  dsimp only
  split
  · obtain ⟨⟨hr, hp, hst, hm⟩, he⟩ := h
    exact ⟨⟨State.resetLaw.congr hr rfl, ⟨hp.port, hp.solo, hp.apart, hp.waiting, hp.recovery⟩,
          ⟨hst.streams, hst.rows, hst.waits, hst.engine, hst.requests, hst.presentation, hst.writer⟩,
          State.monitorLaw.congr hm rfl rfl ⟨rfl, rfl, rfl, rfl, rfl⟩⟩, he⟩
  · exact State.Lawful.tickMicro h

/-- A step on an empty queue keeps the laws. -/
theorem State.Lawful.idle {s : State} (h : s.Lawful) : State.Lawful s.idle := by
  unfold State.idle
  apply State.Lawful.settle
  split
  · exact h
  · exact State.Lawful.tickClk h


end Sys2Proof.Machine
end

