-- ==== Sys2Proof/Laws/Waiting.lean ====
section
/-! SUPPORT. What the service of the wait lists does: one turn of `serve` and of `offer`, and that the turns they take are
always enough. -/

namespace Sys2Proof.Machine

/-! ## What may happen to the wait lists -/

/-- `t` has the wait lists of `s`, or neither any more: a halt empties both (R45). -/
def State.WaitsKept (s t : State) : Prop :=
  (t.entryWait = s.entryWait ∧ t.rowWait = s.rowWait) ∨ t.noWaiters

theorem State.WaitsKept.refl (s : State) : s.WaitsKept s := .inl ⟨rfl, rfl⟩

theorem State.WaitsKept.trans {s t u : State} (h : s.WaitsKept t) (g : t.WaitsKept u) : s.WaitsKept u := by
  rcases h with ⟨a, b⟩ | ⟨a, b⟩ <;> rcases g with ⟨c, d⟩ | g
  · exact .inl ⟨c.trans a, d.trans b⟩
  · exact .inr g
  · exact .inr ⟨d.trans a, c.trans b⟩
  · exact .inr g

theorem State.WaitsKept.entries {s t : State} (h : s.WaitsKept t) : t.entryWait.length ≤ s.entryWait.length := by
  rcases h with ⟨a, _⟩ | ⟨_, a⟩ <;> rw [a]
  exact Nat.zero_le _

theorem State.WaitsKept.rows {s t : State} (h : s.WaitsKept t) : t.rowWait.length ≤ s.rowWait.length := by
  rcases h with ⟨_, a⟩ | ⟨a, _⟩ <;> rw [a]
  exact Nat.zero_le _

theorem State.WaitsKept.startJournal (s : State) : s.WaitsKept s.startJournal := by
  unfold State.startJournal
  split
  · unfold State.journalRow
    split
    · exact .inr (State.halt_noWaiters _)
    · dsimp only; rw [State.allocate_eq]; exact .inl ⟨rfl, rfl⟩
  · exact .refl s

/-- Waits that are empty stay empty. -/
theorem State.WaitsKept.noWaiters {s t : State} (h : s.WaitsKept t) (hw : s.noWaiters) : t.noWaiters := by
  rcases h with ⟨a, b⟩ | h
  · exact ⟨b.trans hw.1, a.trans hw.2⟩
  · exact h

theorem State.WaitsKept.refuse (s : State) (st : StreamId) (k : Attr) (c : Cause) : s.WaitsKept (s.refuse st k c) := by
  have h : ∀ u : State, (if k == .close then u.toIdle st else u.toNotify st c).entryWait = u.entryWait
      ∧ (if k == .close then u.toIdle st else u.toNotify st c).rowWait = u.rowWait := by
    intro u; split <;> exact ⟨rfl, rfl⟩
  have d : (s.dropOpenRow st).entryWait = s.entryWait ∧ (s.dropOpenRow st).rowWait = s.rowWait := by
    unfold State.dropOpenRow; split
    · split <;> exact ⟨rfl, rfl⟩
    · exact ⟨rfl, rfl⟩
  exact .inl ⟨((h _).1).trans d.1, ((h _).2).trans d.2⟩

theorem State.WaitsKept.refusalEvent (s : State) (st : StreamId) (c : Cause) (a : Addr) :
    s.WaitsKept (s.refusalEvent st c a) := by
  unfold State.refusalEvent; split <;> exact .inl ⟨rfl, rfl⟩

theorem State.WaitsKept.finishWrite (s : State) (st : StreamId) (r : RowId) (k : Attr) :
    s.WaitsKept (s.finishWrite st r k) := by
  unfold State.finishWrite
  split
  · unfold State.finishClose
    split
    · exact .inl ⟨rfl, rfl⟩
    · split
      · exact State.WaitsKept.trans (.inl ⟨rfl, rfl⟩) (.startJournal _)
      · exact .inl ⟨rfl, rfl⟩
  · exact .inl ⟨rfl, rfl⟩

theorem State.WaitsKept.restage (s : State) (st : StreamId) : s.WaitsKept (s.restage st) := by
  unfold State.restage
  split
  · split
    · exact (State.WaitsKept.refusalEvent ..).trans (.refuse ..)
    · exact State.WaitsKept.trans (.inl ⟨rfl, rfl⟩) (.finishWrite ..)
  · exact .refl s

/-- A staging request leaves the row wait alone, or a halt empties it. -/
theorem State.stageWrite_rowWait (s : State) (st : StreamId) (r : RowId) (q : Request) :
    (s.stageWrite st r q).rowWait = s.rowWait ∨ (s.stageWrite st r q).rowWait = [] := by
  have key : ∀ {t u : State}, u.rowWait = s.rowWait → u.WaitsKept t → t.rowWait = s.rowWait ∨ t.rowWait = [] := by
    intro t u e h
    rcases h with ⟨_, b⟩ | ⟨b, _⟩
    · exact .inl (b.trans e)
    · exact .inr b
  unfold State.stageWrite
  split
  · exact key rfl (.finishWrite ..)
  · split
    · refine key ?_ (.finishWrite ..)
      unfold State.stageEntry; split <;> rfl
    · exact key rfl ((State.WaitsKept.refusalEvent ..).trans (.refuse ..))
    · exact .inl rfl

/-- An opening write that finds a FREE row leaves the row wait alone, or a halt empties it. -/
theorem State.openWrite_rowWait {s : State} {r : RowId} (h : s.lowestFree = some r) (st : StreamId) (q : Request) :
    (s.openWrite st q).rowWait = s.rowWait ∨ (s.openWrite st q).rowWait = [] := by
  unfold State.openWrite
  split
  · rcases (State.WaitsKept.refusalEvent s st _ q.addr).trans (.refuse ..) with ⟨_, b⟩ | ⟨b, _⟩
    · exact .inl b
    · exact .inr b
  · rw [h]
    have e : (s.assignRow st r q.attr).rowWait = s.rowWait := by unfold State.assignRow; dsimp only; split <;> rfl
    have := State.stageWrite_rowWait (s.assignRow st r q.attr) st r q
    rw [e] at this; exact this

/-! ## The entry wait list (R32) -/

/-- As many turns as the list is long are enough: more make no difference. -/
theorem State.serveEntries_enough (n : Nat) : ∀ (m : Nat) (s : State), s.entryWait.length ≤ n → s.entryWait.length ≤ m →
    State.serveEntries n s = State.serveEntries m s := by
  have none : ∀ (k : Nat) (s : State), s.entryWait = [] → State.serveEntries k s = s := by
    intro k s h; cases k <;> simp [State.serveEntries, h]
  induction n with
  | zero => intro m s h _; rw [none _ s (by simpa using h), none _ s (by simpa using h)]
  | succ n ih =>
    intro m s hn hm
    cases hw : s.entryWait with
    | nil => rw [none _ s hw, none _ s hw]
    | cons st rest =>
      cases m with
      | zero => rw [hw] at hm; simp at hm
      | succ m =>
        simp only [State.serveEntries, hw]
        split
        · rfl
        · have := (State.WaitsKept.restage { s with entryWait := rest } st).entries
          rw [hw] at hn hm
          simp only [List.length_cons] at hn hm
          exact ih m _ (le_trans this (by simpa using hn)) (le_trans this (by simpa using hm))

/-- Nothing to serve: nobody waits, or no entry is free (R32). -/
theorem State.serve_eq_self {s : State} (h : s.entryWait = [] ∨ s.freeEntries = 0) : s.serve = s := by
  unfold State.serve
  cases hw : s.entryWait with
  | nil => rfl
  | cons st rest =>
    have h0 : s.freeEntries = 0 := by rcases h with h | h; · rw [hw] at h; cases h
                                      · exact h
    simp [State.serveEntries, hw, h0]

/-- One turn of the service: the head leaves the list and is examined again, and the rest is served (R32). -/
theorem State.serve_cons {s : State} {st : StreamId} {rest : List StreamId} (h : s.entryWait = st :: rest)
    (hf : s.freeEntries ≠ 0) : s.serve = ({ s with entryWait := rest }.restage st).serve := by
  have e : s.serve = State.serveEntries rest.length ({ s with entryWait := rest }.restage st) := by
    simp [State.serve, h, State.serveEntries, hf]
  rw [e]
  exact State.serveEntries_enough _ _ _ (State.WaitsKept.restage { s with entryWait := rest } st).entries (le_refl _)

/-! ## The row wait (R8) -/

/-- As many turns as the list is long are enough: more make no difference. -/
theorem State.offerRows_enough (n : Nat) : ∀ (m : Nat) (s : State), s.rowWait.length ≤ n → s.rowWait.length ≤ m →
    State.offerRows n s = State.offerRows m s := by
  have none : ∀ (k : Nat) (s : State), s.rowWait = [] → State.offerRows k s = s := by
    intro k s h; cases k <;> simp [State.offerRows, h]
  induction n with
  | zero => intro m s h _; rw [none _ s (by simpa using h), none _ s (by simpa using h)]
  | succ n ih =>
    intro m s hn hm
    cases hw : s.rowWait with
    | nil => rw [none _ s hw, none _ s hw]
    | cons st rest =>
      cases m with
      | zero => rw [hw] at hm; simp at hm
      | succ m =>
        simp only [State.offerRows, hw]
        cases hl : s.lowestFree with
        | none => rfl
        | some r =>
          have : ({ s with rowWait := rest }.offerRow st).rowWait.length ≤ rest.length := by
            unfold State.offerRow
            split
            · rcases State.openWrite_rowWait (s := { s with rowWait := rest }) hl st _ with g | g <;> rw [g]
              exact Nat.zero_le _
            · exact le_refl _
          rw [hw] at hn hm
          simp only [List.length_cons] at hn hm
          exact ih m _ (le_trans this (by omega)) (le_trans this (by omega))

/-- Nothing to offer: nobody waits, or no row is FREE (R8). -/
theorem State.offer_eq_self {s : State} (h : s.rowWait = [] ∨ s.lowestFree = none) : s.offer = s := by
  unfold State.offer
  cases hw : s.rowWait with
  | nil => rfl
  | cons st rest =>
    have h0 : s.lowestFree = none := by rcases h with h | h; · rw [hw] at h; cases h
                                        · exact h
    simp [State.offerRows, hw, h0]

/-- One turn of the offer: the oldest waiting write leaves the list and is examined again, and the rest are offered what
is left (R8). -/
theorem State.offer_cons {s : State} {st : StreamId} {rest : List StreamId} {r : RowId} {q : Request}
    (h : s.rowWait = st :: rest) (hl : s.lowestFree = some r) (hq : s.streams[st].outstanding = some q) :
    s.offer = ({ s with rowWait := rest }.openWrite st q).offer := by
  have e : s.offer = State.offerRows rest.length ({ s with rowWait := rest }.openWrite st q) := by
    simp only [State.offer, h, List.length_cons, State.offerRows, hl, State.offerRow, hq]
  rw [e]
  refine State.offerRows_enough _ _ _ ?_ (le_refl _)
  rcases State.openWrite_rowWait (s := { s with rowWait := rest }) hl st q with g | g <;> rw [g]
  exact Nat.zero_le _

end Sys2Proof.Machine
end

