-- ==== Sys2Proof/WellFormed.lean ====
section
/-! DEFINITION. Well-formed commands. -/

namespace Sys2Proof

/-- R84: "a READ must carry NONE". The operand types already keep every other field in its range. An ill-formed READ
is still a request that the port can take: it answers it PROTOCOL at line 2 of R89 (assumption 23). -/
def Instr.wellFormed : Instr → Bool
  | .plainRead _ attr _ _ _ _ => attr == .none
  | .groupWrite .. | .closeWrite .. | .abortWrite .. | .plainWrite .. => true
  | .idleTimerExpiry _ | .stallTimerExpiry _ | .memoryTimeout | .quietPeriodEnd | .idleSampleInterval => true
  | .sampleComplete .. | .statusRetryWait => true
  | .powerOn _ | .powerOnDelayEnd _ | .resetLineAssert | .resetLineRelease _ | .ack => true
  | .journalWriteComplete _ | .sealComplete _ | .applyWriteComplete _ | .retireWriteComplete _ => true
  | .statusWordComplete _ | .loaderReadComplete .. | .scanReadComplete .. | .replayReadComplete .. => true
  | .replayWriteComplete _ | .recoveryRetireComplete _ | .forwardedAccessComplete .. => true
  | .memoryErrorAnswer _ | .staleAnswer .. => true

end Sys2Proof
end

