-- ==== Sys2Proof/Tests/Slice0.lean ====
section
/-! SUPPORT. The session's own tests: the well-formedness smoke test, examples worked in the spec, one or two steps per
command, and for each statement a state that meets the premises of each of its clauses (`test_witness_…`). -/

namespace Sys2Proof.Tests

open Sys2Proof.Machine

/-! ## Small states -/

/-- The smallest memory and bridge area: 262,144 words, bridge base 258,048, 28 slots. -/
def pins : Straps := { msz := 0, bas := 0, prov := false }

/-- The part in a state after the exit from RESET, monitor in NORMAL, words 0 to FFh and 300h to the bridge base
GUARDED, the others PASS by a region or by default, and an idle timeout of 5 ms for stream 0. -/
def part (o : OpState) : State :=
  { State.reset with
    su := { StartUp.reset with
      opState := o, resetCause := some .powerOn, pendingCause := none, straps := some pins, validity := .valid
      powerOn := false, powerOnDelay := none }
    mon := { Monitor.reset with
      state := .normal, level := some 31, published := { state := .normal, band := some 7, budget := 208 } }
    cfg := { Settings.default with
      idleTimeouts := #v[5, 0, 0, 0], budgets := Vector.replicate 8 208
      regions := ((Settings.default.regions.set 0 { used := true, base := 0, limit := 0xFF, kind := .guarded }).set 1
        { used := true, base := 0x100, limit := 0x1FF, kind := .pass }).set 7
        { used := true, base := 0x300, limit := 258047, kind := .guarded } } }

/-- The part in RUN. -/
def run : State := part .run

/-- The monitor in WARN with a published budget. -/
def warned (budget : Nat) (s : State) : State :=
  { s with mon := { s.mon with state := .warn, published := { state := .warn, band := some 2, budget := budget } } }

/-- The engine HALTED. -/
def halted (s : State) : State := { s with eng := { s.eng with state := .halted } }

/-- Entries for n words from a word on, all lanes. -/
def cells (a n : Nat) : List Entry :=
  (List.range n).map fun i => { addr := BitVec.ofNat 25 (a + i), mask := 15, data := BitVec.ofNat 32 (a + i) }

/-- A row in a state with entries. -/
def rowIn (o : StreamId) (st : RowState) (es : List Entry) : Row :=
  { owner := some o, state := st, entries := es, seq := some 705, slot := some 3 }

/-- A stream in OPEN with its row. -/
def building (st : StreamId) (r : RowId) (es : List Entry) (s : State) : State :=
  (s.setRow r { owner := some st, state := .opened, entries := es, seq := none, slot := none }).setStream st
    { StreamRec.reset with group := .opened, openRow := some r, idleTimer := some 4999 }

/-- A stream with a write outstanding, and its stall timer running if given. -/
def asking (st : StreamId) (q : Request) (stall : Option Nat) (s : State) : State :=
  s.setStream st { s.streams[st] with outstanding := some q, stallTimer := stall }

/-- A grouped write of stream data. -/
def request (k : Attr) (a : Addr) (m : Mask) : Request :=
  { write := true, attr := k, addr := a, mask := m, data := 0x11223344, captured := [] }

/-- A stream in NOTIFY. -/
def broken (st : StreamId) (s : State) : State := s.setStream st (StreamRec.notified .conflict)

/-- Every row in use: rows 1 to 7 hold n entries each, SEALED, and wait in the commit queue. -/
def crowded (n : Nat) (s : State) : State :=
  { s with
    rows := #v[s.rows[0], rowIn 1 .sealed (cells 1000 n), rowIn 1 .sealed (cells 2000 n), rowIn 1 .sealed (cells 3000 n),
      rowIn 1 .sealed (cells 4000 n), rowIn 1 .sealed (cells 5000 n), rowIn 1 .sealed (cells 6000 n),
      rowIn 1 .sealed (cells 7000 n)]
    eng := { s.eng with queue := [1, 2, 3, 4, 5, 6, 7] } }

/-- An access to word 5 in flight under number 9. -/
def flight (p : Purpose) (attempt : Nat) : InFlight :=
  { purpose := p, access := { write := true, addr := 5, mask := 15, data := 0 }, attempt := attempt, number := 9
    timeout := 100 }

/-- A state with an access in flight. -/
def flying (p : Purpose) (attempt : Nat) (s : State) : State :=
  { s with bus := { s.bus with port := some (flight p attempt) } }

/-- The journal writer on row 0, which is JOURNALING with 2 entries. -/
def journaling (progress : Nat) (s : State) : State :=
  { s.setRow 0 (rowIn 0 .journaling (cells 16 2)) with
    eng := { s.eng with queue := [0], jw := some { row := 0, progress := progress } } }

/-- The applier on row 0, with 2 entries. -/
def applying (state : RowState) (progress : Nat) (s : State) : State :=
  { s.setRow 0 (rowIn 0 state (cells 16 2)) with
    eng := { s.eng with queue := [0], ap := some { row := 0, progress := progress } } }

/-- A waiting request of the arbiter. -/
def waiting (p : Purpose) (place : Nat) : Waiting :=
  { purpose := p, access := { write := true, addr := 5, mask := 15, data := 0 }, attempt := 1, place := place }

/-- Requests waiting at the arbiter. -/
def queued (ws : List Waiting) (s : State) : State := { s with bus := { s.bus with waiting := ws } }

/-- The store full: 62 entries in rows 1 to 4 and 8 in row 5, all SEALED; rows 0, 6 and 7 FREE. -/
def stored (queue : List RowId) : State :=
  { run with
    rows := #v[Row.free, rowIn 1 .sealed (cells 1000 62), rowIn 1 .sealed (cells 2000 62), rowIn 1 .sealed (cells 3000 62),
      rowIn 1 .sealed (cells 4000 62), rowIn 1 .sealed (cells 5000 8), Row.free, Row.free]
    eng := { run.eng with queue := queue } }

/-- A state with the converter as given. -/
def sampling (x : Sampler) (s : State) : State := { s with mon := { s.mon with sampler := x } }

/-- The state a command leads to. -/
def after (c : Instr) (s : State) : State :=
  match exec c s with
  | .next t => t
  | _ => s

/-- The last response given, as its code. -/
def answer (c : Instr) (s : State) : Option Code := (after c s).responses.getLast?.map fun r => r.code

/-! ## Well-formed commands -/

theorem test_wellFormed_read_without_attribute : Instr.wellFormed (.plainRead 0 .none 5 15 0 false) = true := by decide

theorem test_illFormed_reads_refused :
    Instr.wellFormed (.plainRead 0 .group 5 15 0 false) = false
    ∧ Instr.wellFormed (.plainRead 0 .close 5 15 0 false) = false
    ∧ Instr.wellFormed (.plainRead 0 .abort 5 15 0 false) = false := by decide

/-! ## Examples worked in the spec -/

/-- R67: 1 MiB with 16 KiB: bridge base 258,048, slot 0 at 258,560, the last slot ends at 262,143. -/
theorem test_geometry_smallest : run.bridgeBase = 258048 ∧ run.slotAddr 0 0 = 258560 ∧ run.slotAddr 27 127 = 262143 := by
  decide

/-- R67: 128 MiB with 128 KiB: bridge base 33,521,664, slot 251 the last. -/
theorem test_geometry_largest :
    bridgeBaseOf { msz := 7, bas := 3, prov := false } = 33521664
    ∧ slotCountOf { msz := 7, bas := 3, prov := false } = 252 := by decide

/-- A group of one word of stream 2 under sequence number 705: the record and its retire mark. -/
theorem test_record_705 :
    recordWords 2 705 [{ addr := 0x40000, mask := 15, data := 0x12345678 }]
      = [0x7C3A0201, 0x2C1, 0xF0040000, 0x12345678, 0x818DA4C5]
    ∧ retireMark 705 = 0xFFFFFD3E := by decide

/-- That record is judged sealed; with its seal wrong it is not (R69). -/
theorem test_record_judged :
    isSealed [0x7C3A0201, 0x2C1, 0xF0040000, 0x12345678, 0x818DA4C5] = true
    ∧ isSealed [0x7C3A0201, 0x2C1, 0xF0040000, 0x12345678, 0x818DA4C4] = false := by decide

/-- R75, R76: sequence 5 is stale below a retired 6; 7 and its extra copy; 8 fails its check. -/
theorem test_action_list :
    (buildActions [{ slot := 0, seq := 8, count := 1, bad := true }, { slot := 1, seq := 7, count := 1, bad := false },
        { slot := 2, seq := 5, count := 1, bad := false }, { slot := 3, seq := 7, count := 1, bad := false }] 6).map
      (fun a => (a.kind, a.item.slot))
      = [(.retireOnly, 2), (.replay, 1), (.retireOnly, 3), (.discard, 0)] := by decide

/-- The worked recovery scan of chapter 4: slot 4 (701) is stale, slot 7 (703) is replayed, slot 8 (704) discarded. -/
theorem test_worked_recovery_scan :
    (buildActions [{ slot := 4, seq := 701, count := 1, bad := false }, { slot := 7, seq := 703, count := 3, bad := false },
        { slot := 8, seq := 704, count := 2, bad := true }] 702).map (fun a => (a.kind, a.item.slot))
      = [(.retireOnly, 4), (.replay, 7), (.discard, 8)]
    ∧ [(701 : Word), 703, 704].map retireMark = [0xFFFFFD42, 0xFFFFFD40, 0xFFFFFD3F] := by decide

/-! ## Commands -/

theorem test_groupWrite : answer (.groupWrite 0 5 15 1 false) run = some .done
    ∧ answer (.groupWrite 0 0x180 15 1 false) run = some .region
    ∧ answer (.groupWrite 0 5 15 1 false) (warned 10 run) = some .hold := by decide

theorem test_closeWrite : answer (.closeWrite 0 5 0 0 false) run = some .durable
    ∧ (after (.closeWrite 0 5 15 0xAA false) run).bus.port.map (fun f => (f.purpose, f.access.addr, f.access.data))
      = some (.journal, 258560, 0x7C3A0001) := by decide

/-- The row an empty CLOSE frees goes to the write that waits, which is answered after the CLOSE (R8, R19). -/
theorem test_closeWrite_offersTheRow :
    let s := { asking 1 (request .group 5 0) (some 7) (crowded 1 (building 0 0 [] run)) with rowWait := [1] }
    (after (.closeWrite 0 5 0 0 false) s).responses
      = [{ stream := 0, code := .durable, data := 0 }, { stream := 1, code := .done, data := 0 }]
    ∧ (after (.closeWrite 0 5 0 0 false) s).rows[(0 : RowId)].owner = some 1 := by decide

theorem test_abortWrite : answer (.abortWrite 0 5 0 0 false) run = some .done
    ∧ answer (.abortWrite 1 5 0 0 false) (broken 1 run) = some .aborted := by decide

theorem test_plainWrite : answer (.plainWrite 0 5 15 1 false) run = some .region
    ∧ (after (.plainWrite 0 0x180 15 1 false) run).bus.port.map (fun f => f.purpose) = some (.forwarded 0) := by decide

/-- A guarded read of a word whose entry holds every lane is answered from the reader's row. -/
theorem test_plainRead : (after (.plainRead 0 .none 40 0 0 false) (building 0 0 (cells 40 1) run)).responses
    = [{ stream := 0, code := .done, data := 40 }] := by decide

theorem test_idleTimerExpiry : (after (.idleTimerExpiry 0) (building 0 0 (cells 40 1) run)).streams[(0 : StreamId)]
    = StreamRec.notified .idle := by decide

/-- A GROUP write at the same moment is taken first and restarts the timer: the expiry does not happen (R17). -/
theorem test_idleTimerExpiry_afterGroupWrite :
    let s := after (.idleTimerExpiry 0) (after (.groupWrite 0 40 15 1 true) (building 0 0 (cells 40 1) run))
    s.streams[(0 : StreamId)].group = .opened ∧ s.streams[(0 : StreamId)].idleTimer = some 5000 := by decide

theorem test_stallTimerExpiry :
    answer (.stallTimerExpiry 0) { asking 0 (request .group 5 15) (some 2000) (crowded 1 run) with rowWait := [0] }
      = some .busy := by decide

/-- A waiter in the middle of its list leaves, and the others keep their order (R32, R33). -/
theorem test_stallTimerExpiry_middle :
    let s := { asking 0 (request .group 5 15) (some 2000) (crowded 1 (building 3 0 [] run)) with rowWait := [1, 0, 2] }
    (after (.stallTimerExpiry 0) s).rowWait = [1, 2]
    ∧ (after (.stallTimerExpiry 0) s).responses = [{ stream := 0, code := .busy, data := 0 }] := by decide

theorem test_memoryTimeout : answer .memoryTimeout
    (flying (.forwarded 0) 1 (asking 0 (request .none 5 15) none run)) = some .media := by decide

/-- An error answer taken first ends the access; the next one has just been presented, and the expiry does not happen
(R105). -/
theorem test_memoryTimeout_afterAnswer :
    let s := after .memoryTimeout (after (.memoryErrorAnswer 9) (flying .journal 1 (journaling 2 run)))
    s.bus.port.map (fun f => (f.purpose, f.attempt, f.timeout)) = some (.journal, 2, 250) := by decide

theorem test_quietPeriodEnd : (after .quietPeriodEnd { run with bus := { run.bus with quiet := some 0 } }).bus.quiet
    = none := by decide

theorem test_idleSampleInterval :
    (after .idleSampleInterval { run with mon := { run.mon with sampler := .resting 0 } }).mon.sampler
      = .converting 16 := by decide

/-- Level 12 is the default warn level: NORMAL goes to WARN (R125). -/
theorem test_sampleComplete : (after (.sampleComplete 12 pins) run).mon.state = .warn
    ∧ (after (.sampleComplete 13 pins) run).mon.state = .normal := by decide

/-- A sample completes in CUT: the last level alone is recorded, and the converter goes on (R121, R128). -/
theorem test_sampleInCut :
    let s := { run with mon := { run.mon with state := .cut, level := some 4 } }
    (after (.sampleComplete 31 pins) s).mon = { s.mon with level := some 31, sampler := .converting 16 } := by decide

theorem test_statusRetryWait :
    (after .statusRetryWait { run with ev := { run.ev with
      retryWait := some 0, statusFailure := true, job := some { kind := .clear, words := clearWords 1, index := 2 } } }
      ).bus.port.map (fun f => (f.purpose, f.access.addr, f.attempt)) = some (.status, 258306, 1) := by decide

theorem test_powerOn : (after (.powerOn true) run).su.opState = .reset ∧ (after (.powerOn true) run).ready = false := by
  decide

theorem test_powerOnDelayEnd : (after (.powerOnDelayEnd pins) State.reset).su.opState = .wait
    ∧ (after (.powerOnDelayEnd pins) State.reset).su.resetCause = some .powerOn := by decide

theorem test_resetLineAssert : (after .resetLineAssert run).su.pendingCause = some .line := by decide

theorem test_resetLineRelease :
    (after (.resetLineRelease pins) (after .resetLineAssert run)).su.opState = .wait := by decide

theorem test_ack : (after .ack run).ev.stray = 1 := by decide

theorem test_journalWriteComplete :
    (after (.journalWriteComplete 9) (flying .journal 1 (journaling 0 run))).bus.port.map
      (fun f => (f.purpose, f.access.addr, f.access.data)) = some (.journal, 258945, 705) := by decide

theorem test_sealComplete :
    answer (.sealComplete 9) (flying .sealWrite 1 (asking 0 (request .close 5 15) none (journaling 6 run)))
      = some .durable := by decide

theorem test_applyWriteComplete :
    (after (.applyWriteComplete 9) (flying .apply 1 (applying .applying 1 run))).bus.port.map
      (fun f => (f.purpose, f.access.addr, f.access.data)) = some (.retire, 259071, 0xFFFFFD3E) := by decide

theorem test_retireWriteComplete :
    (after (.retireWriteComplete 9) (flying .retire 1 (applying .retiring 2 run))).rows[(0 : RowId)] = Row.free := by
  decide

/-- The freed entries serve a GROUP write that waits: it is answered DONE (R32, R60). -/
theorem test_retireServesTheWaiting :
    let s := flying .retire 1 { asking 1 (request .group 5 15) (some 1) (building 1 1 [] (applying .retiring 2 run)) with
      entryWait := [1] }
    (after (.retireWriteComplete 9) s).responses = [{ stream := 1, code := .done, data := 0 }]
    ∧ (after (.retireWriteComplete 9) s).rows[(0 : RowId)] = Row.free := by decide

theorem test_statusWordComplete :
    (after (.statusWordComplete 9) (flying .status 1 { run with ev := { run.ev with
      pres := .updating, presented := some { kind := .stall, cls := 2, fields := {}, repeats := 1, stamp := 0 }
      job := some { kind := .update, words := clearWords 1, index := 7 } } })).attn = true := by decide

theorem test_loaderReadComplete :
    (after (.loaderReadComplete 9 0x3B6E0001) (flying .loader 1 (part .load))).bus.port.map (fun f => f.access.addr)
      = some 258049 := by decide

theorem test_scanReadComplete :
    (after (.scanReadComplete 9 0) (flying .scan 1 { part .recover with recovery := some Recovery.start })).bus.port.map
      (fun f => f.access.addr) = some 258688 := by decide

/-- The last slot, 27, with no record in any: the action list is empty, and the pass ends in RUN. -/
theorem test_lastSlot : (after (.scanReadComplete 9 0)
    (flying .scan 1 { part .recover with recovery := some { Recovery.start with scanSlot := 27 } })).su.opState = .run := by
  decide

/-- A replay of one entry from slot 1. -/
def replaying (addr : Option Word) : State :=
  { part .recover with recovery := some { Recovery.start with
      actions := [{ kind := .replay, item := { slot := 1, seq := 703, count := 1, bad := false } }], replayAddr := addr } }

theorem test_replayReadComplete :
    (after (.replayReadComplete 9 0xAB) (flying .replayRead 1 (replaying (some 0x30000005)))).bus.port.map
      (fun f => (f.access.addr, f.access.mask, f.access.data)) = some (5, 3, 0xAB) := by decide

/-- An entry whose mask is 0 when it is read again is not written: the retire write is asked for instead. -/
theorem test_replayReadAgainFaulty :
    (after (.replayReadComplete 9 0xAB) (flying .replayRead 1 (replaying (some 0x00000005)))).bus.port.map
      (fun f => (f.purpose, f.access.addr, f.access.data)) = some (.recoveryRetire, 258815, 0xFFFFFD40) := by decide

theorem test_replayWriteComplete :
    (after (.replayWriteComplete 9) (flying .replayWrite 1 (replaying (some 0x30000005)))).bus.port.map
      (fun f => (f.purpose, f.access.data)) = some (.recoveryRetire, 0xFFFFFD40) := by decide

theorem test_recoveryRetireComplete :
    (after (.recoveryRetireComplete 9) (flying .recoveryRetire 1 (replaying none))).su.opState = .run := by decide

theorem test_forwardedAccessComplete :
    (after (.forwardedAccessComplete 9 0xAB) (flying (.forwarded 1) 1
      (asking 1 { request .none 0x180 15 with write := false } none run))).responses
      = [{ stream := 1, code := .done, data := 0xAB }] := by decide

theorem test_memoryErrorAnswer :
    (after (.memoryErrorAnswer 9) (flying .journal 4 (journaling 0 run))).eng.badSlots = [3]
    ∧ (after (.memoryErrorAnswer 9) (flying .journal 3 (journaling 0 run))).bus.port.map (fun f => f.attempt) = some 4 := by
  decide

theorem test_staleAnswer : (after (.staleAnswer 9 false 0) (flying .journal 1 run)).bus.port = some (flight .journal 1) := by
  decide

/-- A step on an empty queue: a CLK period; the 40th completes a microsecond. -/
theorem test_emptyQueue : (match step { run with clk := { run.clk with phase := 39 } } with
    | .next t => some (t.clk.micros, t.mon.sampler) | _ => none) = some (1, .converting 15) := by decide

/-- A sample that the divider changed under counts its own periods of 40, not those of the new divider 20 (R119). -/
theorem test_sampleOnItsOwnBase :
    let s (p phase : Nat) : State :=
      { sampling (.timedOn 3 40 p) run with cfg := { run.cfg with divider := 20 }, clk := { run.clk with phase := phase } }
    let x (t : State) : Option Sampler := match step t with | .next u => some u.mon.sampler | _ => none
    x (s 10 19) = some (.timedOn 3 40 11) ∧ x (s 39 5) = some (.timedOn 2 40 0) := by decide

/-- From reset with no command ever given, a period passes in RESET. -/
theorem test_reset_step : (match step State.reset with | .next t => some (t.su.opState, t.clk.phase) | _ => none)
    = some (.reset, 1) := by decide

/-! ## Premises that are met: the queue, the resets, the port -/

theorem test_witness_StepRunsTheFrontCommand : ({ run with pending := [.ack] } : State).pending = .ack :: [] := by decide

/-- A timer at its end; the periods before and at a microsecond's end; the ends of a microsecond and a millisecond; a
sample on an older base. -/
theorem test_witness_EmptyQueueIsOneClkPeriod :
    (run.pending = [] ∧ (sampling (.converting 0) run).due = true)
    ∧ (run.due = false ∧ 38 + 1 < run.cfg.divider ∧ run.cfg.divider ≤ 39 + 1) ∧ 998 + 1 < 1000 ∧ 1000 ≤ 999 + 1
    ∧ ((sampling (.timedOn 3 40 39) run).due = false ∧ (sampling (.timedOn 3 40 39) run).pending = []) := by
  decide

theorem test_witness_ResetCauseIsTheStrongest :
    let s := { State.reset with su := { State.reset.su with powerOn := false } }
    s.su.opState = .reset ∧ s.su.powerOn = false ∧ s.su.line = false := by decide

theorem test_witness_LastConditionEndsReset :
    let both := { State.reset with su := { State.reset.su with line := true } }
    let line := { State.reset with su := { State.reset.su with line := true, powerOn := false, powerOnDelay := none } }
    (State.reset.su.opState = .reset ∧ State.reset.su.strapError = false ∧ State.reset.su.powerOnDelay.isSome = true
      ∧ State.reset.su.line = false)
    ∧ (line.su.opState = .reset ∧ line.su.strapError = false ∧ line.su.powerOn = false)
    ∧ (both.su.opState = .reset ∧ both.su.powerOnDelay.isSome = true ∧ both.su.line = true ∧ both.su.powerOn = true) := by
  decide

theorem test_witness_ChecksAtTheRequestPort :
    (part .recover).su.opState = .recover
    ∧ (run.ready = true ∧ (asking 0 (request .none 5 15) none run).streams[(0 : StreamId)].outstanding.isSome = true)
    ∧ (run.takes 3 ∧ Attr.abort ≠ .none) ∧ ((part .fault).takes 0 ∧ (part .fault).su.opState = .fault) := by decide

/-- Words on both sides of the bridge base 258,048 and of the memory size 262,144. -/
theorem test_witness_PlainRequestRouting :
    let absent := { run with cfg := { Settings.default with defaultKind := .absent } }
    (run.takesWrite 0 ∧ run.wordKind 0x1FF = .pass) ∧ ((part .provision).takesWrite 0
      ∧ (part .provision).wordKind 258048 = .bridge ∧ (part .provision).su.opState = .provision)
    ∧ (run.wordKind 258047 = .guarded ∧ run.wordKind 258048 = .bridge ∧ run.su.opState ≠ .provision)
    ∧ (run.takes 0 ∧ run.wordKind 262143 = .bridge ∧ run.wordKind 262144 = .outOfRange)
    ∧ (absent.takes 0 ∧ absent.wordKind 5 = .absent) := by decide

theorem test_witness_GuardedReadFromLayers :
    let whole := building 0 0 (cells 40 1) run
    let partly := building 0 0 [{ addr := 40, mask := 7, data := 0 }] run
    (whole.takes 0 ∧ whole.wordKind 40 = .guarded
      ∧ ∀ n < 4, ∃ l ∈ whole.layersFor 0 40, l.mask.getLsbD n = true)
    ∧ (partly.takes 0 ∧ partly.wordKind 40 = .guarded
      ∧ ∃ n < 4, ∀ l ∈ partly.layersFor 0 40, l.mask.getLsbD n = false) := by decide

theorem test_witness_WordKindTests :
    let r : Region := { used := true, base := 0x100, limit := 0x1FF, kind := .pass }
    let strap := { part .fault with su := { (part .fault).su with strapError := true } }
    run.memWords ≤ (262144 : Addr).toNat
    ∧ ((262143 : Addr).toNat < run.memWords ∧ run.bridgeBase ≤ (258048 : Addr).toNat ∧ run.su.strapError = false)
    ∧ ((258048 : Addr).toNat < strap.memWords ∧ strap.su.strapError = true ∧ strap.su.opState ≠ .run)
    ∧ ((258047 : Addr).toNat < (part .safe).bridgeBase ∧ (part .safe).su.opState ≠ .run)
    ∧ (run.su.opState = .run ∧ r ∈ run.cfg.regions.toList ∧ r.base ≤ 0x100 ∧ (0x1FF : Addr) ≤ r.limit
      ∧ ∀ q ∈ run.cfg.regions.toList, q.used = true → q.base ≤ 0x1FF → (0x1FF : Addr) ≤ q.limit → q = r)
    ∧ (∀ q ∈ run.cfg.regions.toList, q.used = true → ¬ (q.base ≤ 0x2FF ∧ (0x2FF : Addr) ≤ q.limit))
    ∧ (∀ q ∈ run.cfg.regions.toList, q.used = true → ¬ (q.base ≤ 0x200 ∧ (0x200 : Addr) ≤ q.limit)) := by decide

/-! ## Premises that are met: grouped writes -/

theorem test_witness_AbortEndsTheBracket :
    (run.takesWrite 0 ∧ run.streams[(0 : StreamId)].group = .idle ∧ run.waitsStand)
    ∧ ((broken 0 run).takesWrite 0 ∧ (broken 0 run).streams[(0 : StreamId)].group = .notify ∧ (broken 0 run).waitsStand)
    ∧ (let s := building 0 7 (cells 40 1) run
      s.takesWrite 0 ∧ s.streams[(0 : StreamId)].group = .opened ∧ s.streams[(0 : StreamId)].openRow = some 7
      ∧ s.rows[(7 : RowId)].state = .opened ∧ s.noWaiters) := by decide

theorem test_witness_NotifyAnswersAborted :
    (broken 3 run).takesWrite 3 ∧ (broken 3 run).streams[(3 : StreamId)].group = .notify ∧ (broken 3 run).waitsStand := by
  decide

theorem test_witness_OpeningRefusals :
    let claimed := building 1 2 (cells 5 1) run
    (run.takesWrite 0 ∧ run.streams[(0 : StreamId)].group = .idle ∧ run.streams[(0 : StreamId)].openRow = none
      ∧ run.waitsStand ∧ run.wordKind 0x1FF ≠ .guarded)
    ∧ ((halted run).takesWrite 0 ∧ (halted run).wordKind 0x300 = .guarded ∧ (halted run).eng.state = .halted)
    ∧ ((warned 0 run).takesWrite 0 ∧ (warned 0 run).wordKind 5 = .guarded ∧ (warned 0 run).eng.state ≠ .halted
      ∧ (warned 0 run).mon.published.state = .warn)
    ∧ (claimed.takesWrite 0 ∧ claimed.wordKind 5 = .guarded ∧ claimed.eng.state ≠ .halted ∧ claimed.waitsStand
      ∧ claimed.mon.published.state ≠ .warn ∧ (1 : Mask) ≠ 0 ∧ claimed.conflicts 0 5 = true) := by decide

/-- The first row and, with it taken, the second. -/
theorem test_witness_OpeningGroupWrite :
    let s := building 1 0 (cells 40 1) run
    (run.takesWrite 0 ∧ run.streams[(0 : StreamId)].group = .idle ∧ run.waitsStand ∧ run.wordKind 5 = .guarded
      ∧ run.eng.state = .running ∧ run.mon.published.state ≠ .warn ∧ run.rows[(0 : RowId)] = Row.free
      ∧ (∀ q : RowId, q < 0 → run.rows[q].state ≠ .free) ∧ run.conflicts 0 5 = false ∧ run.freeEntries ≠ 0)
    ∧ (s.takesWrite 0 ∧ s.waitsStand ∧ s.rows[(1 : RowId)] = Row.free ∧ (∀ q : RowId, q < 1 → s.rows[q].state ≠ .free)
      ∧ s.conflicts 0 5 = false ∧ s.freeEntries ≠ 0) := by decide

theorem test_witness_EmptyClosesAreDurableAtOnce :
    let s := building 0 0 [] run
    (run.takesWrite 0 ∧ run.streams[(0 : StreamId)].group = .idle ∧ run.noWaiters ∧ run.wordKind 5 = .guarded
      ∧ run.eng.state = .running ∧ run.mon.published.state ≠ .warn ∧ (∃ r : RowId, run.rows[r] = Row.free)
      ∧ (∀ q : RowId, run.rows[q].state = .free → run.rows[q] = Row.free))
    ∧ (s.takesWrite 0 ∧ s.streams[(0 : StreamId)].group = .opened ∧ s.streams[(0 : StreamId)].openRow = some 0
      ∧ s.rows[(0 : RowId)].state = .opened ∧ s.rows[(0 : RowId)].entries = [] ∧ s.noWaiters ∧ s.wordKind 5 = .guarded) := by
  decide

/-- No row FREE; the store full with 4 entries in the stream's row and 36 in each of the seven others; and full with a
row FREE. -/
theorem test_witness_GroupedWritesThatWait :
    let noRow := crowded 1 (building 1 0 [] run)
    let full := crowded 36 (building 0 0 (cells 40 4) run)
    let opening := stored [1, 2, 3, 4, 5]
    (noRow.takesWrite 0 ∧ noRow.streams[(0 : StreamId)].group = .idle ∧ noRow.streams[(0 : StreamId)].stallTimer = none
      ∧ noRow.waitsStand ∧ noRow.wordKind 5 = .guarded ∧ noRow.eng.state = .running ∧ noRow.mon.published.state ≠ .warn
      ∧ noRow.conflicts 0 5 = false ∧ ∀ r : RowId, noRow.rows[r].state ≠ .free)
    ∧ (full.takesWrite 0 ∧ full.streams[(0 : StreamId)].group = .opened ∧ full.streams[(0 : StreamId)].openRow = some 0
      ∧ full.streams[(0 : StreamId)].stallTimer = none ∧ full.waitsStand ∧ full.wordKind 5 = .guarded
      ∧ full.conflicts 0 5 = false ∧ (∀ e ∈ full.rows[(0 : RowId)].entries, e.addr ≠ 5)
      ∧ full.rows[(0 : RowId)].entries.length < 62 ∧ full.freeEntries = 0 ∧ full.eng.queue ≠ [])
    ∧ (opening.takesWrite 0 ∧ opening.streams[(0 : StreamId)].group = .idle
      ∧ opening.streams[(0 : StreamId)].stallTimer = none ∧ opening.waitsStand ∧ opening.wordKind 5 = .guarded
      ∧ opening.eng.state = .running ∧ opening.mon.published.state ≠ .warn ∧ opening.conflicts 0 5 = false
      ∧ opening.rows[(0 : RowId)] = Row.free ∧ (∀ q : RowId, q < 0 → opening.rows[q].state ≠ .free)
      ∧ opening.freeEntries = 0 ∧ opening.eng.queue ≠ []) := by decide

/-- A row with 61 entries. -/
theorem test_witness_GroupWriteMakesAnEntry :
    let s := building 0 0 (cells 40 61) run
    s.takesWrite 0 ∧ s.streams[(0 : StreamId)].group = .opened ∧ s.streams[(0 : StreamId)].openRow = some 0
    ∧ s.waitsStand ∧ s.wordKind 5 = .guarded ∧ s.conflicts 0 5 = false ∧ (∀ e ∈ s.rows[(0 : RowId)].entries, e.addr ≠ 5)
    ∧ s.rows[(0 : RowId)].entries.length < 62 ∧ s.freeEntries ≠ 0 ∧ (0 : Mask) = 0 ∧ (15 : Mask) ≠ 0 := by decide

theorem test_witness_GroupWriteCoalesces :
    let e : Entry := { addr := 5, mask := 1, data := 0xAB }
    let s := building 0 0 [e] run
    (s.takesWrite 0 ∧ s.streams[(0 : StreamId)].group = .opened ∧ s.streams[(0 : StreamId)].openRow = some 0
      ∧ s.waitsStand ∧ s.wordKind 5 = .guarded ∧ s.conflicts 0 5 = false ∧ s.rows[(0 : RowId)].entries[0]? = some e)
    ∧ ∀ (j : Nat) (f : Entry), s.rows[(0 : RowId)].entries[j]? = some f → f.addr = 5 → j = 0 := by
  refine ⟨by decide, fun j f h _ => ?_⟩
  match j, h with
  | 0, _ => rfl
  | _ + 1, h => exact absurd h (by simp [building, State.setRow, State.setStream])

/-- A kind other than GUARDED, another stream's claim, and a row with 62 entries; the store full with the commit queue
empty, for a row with 4 entries and for an opening write. -/
theorem test_witness_RefusedWritesEndTheGroup :
    let s := building 1 2 (cells 5 1) (building 0 0 (cells 40 62) run)
    let full := { crowded 36 (building 0 0 (cells 40 4) run) with eng := run.eng }
    let opening := stored []
    (s.takesWrite 0 ∧ s.streams[(0 : StreamId)].group = .opened ∧ s.streams[(0 : StreamId)].openRow = some 0
      ∧ s.rows[(0 : RowId)].state = .opened ∧ s.noWaiters ∧ s.wordKind 0x100 ≠ .guarded
      ∧ (s.wordKind 5 = .guarded ∧ s.conflicts 0 5 = true)
      ∧ (s.wordKind 6 = .guarded ∧ s.conflicts 0 6 = false ∧ (∀ e ∈ s.rows[(0 : RowId)].entries, e.addr ≠ 6)
        ∧ s.rows[(0 : RowId)].entries.length = 62))
    ∧ (full.takesWrite 0 ∧ full.streams[(0 : StreamId)].group = .opened ∧ full.streams[(0 : StreamId)].openRow = some 0
      ∧ full.rows[(0 : RowId)].state = .opened ∧ full.noWaiters ∧ full.wordKind 5 = .guarded ∧ full.conflicts 0 5 = false
      ∧ (∀ e ∈ full.rows[(0 : RowId)].entries, e.addr ≠ 5) ∧ full.rows[(0 : RowId)].entries.length < 62
      ∧ full.freeEntries = 0 ∧ full.eng.queue = [])
    ∧ (opening.takesWrite 0 ∧ opening.streams[(0 : StreamId)].group = .idle ∧ opening.noWaiters
      ∧ opening.wordKind 5 = .guarded ∧ opening.eng.state = .running ∧ opening.mon.published.state ≠ .warn
      ∧ opening.conflicts 0 5 = false ∧ opening.rows[(0 : RowId)] = Row.free
      ∧ (∀ q : RowId, q < 0 → opening.rows[q].state ≠ .free) ∧ opening.freeEntries = 0 ∧ opening.eng.queue = []) := by
  decide

/-- In NORMAL, with a write of its own; in WARN with cost 5, no reservation and a budget of 5; and an opening CLOSE. -/
theorem test_witness_CloseAdmitted :
    let s := building 0 0 (cells 40 1) run
    let w := warned 5 s
    (s.takesWrite 0 ∧ s.streams[(0 : StreamId)].group = .opened ∧ s.streams[(0 : StreamId)].openRow = some 0
      ∧ s.waitsStand ∧ s.wordKind 5 = .guarded ∧ s.stagingLine 0 0 5 = .staged
      ∧ (s.stageEntry 0 5 3 0xAB).rows[(0 : RowId)].entries ≠ [] ∧ (s.stageEntry 0 5 3 0xAB).mon.published.state ≠ .warn)
    ∧ (w.takesWrite 0 ∧ w.waitsStand ∧ w.wordKind 5 = .guarded ∧ w.rows[(0 : RowId)].entries ≠ []
      ∧ 2 * w.rows[(0 : RowId)].entries.length + 3 + w.reservation ≤ w.mon.published.budget)
    ∧ (run.takesWrite 0 ∧ run.streams[(0 : StreamId)].group = .idle ∧ run.noWaiters ∧ run.wordKind 5 = .guarded
      ∧ run.eng.state = .running ∧ run.mon.published.state ≠ .warn ∧ run.conflicts 0 5 = false
      ∧ run.rows[(0 : RowId)] = Row.free ∧ (∀ q : RowId, q < 0 → run.rows[q].state ≠ .free)
      ∧ run.freeEntries ≠ 0) := by decide

/-- Cost 5, a row of cost 7 in CLOSED, and a budget of 11. -/
theorem test_witness_CloseRefusedHoldup :
    let s := warned 11 (building 0 0 (cells 40 1)
      { run.setRow 1 (rowIn 1 .closed (cells 90 2)) with eng := { run.eng with queue := [1] } })
    s.takesWrite 0 ∧ s.streams[(0 : StreamId)].group = .opened ∧ s.streams[(0 : StreamId)].openRow = some 0
    ∧ s.rows[(0 : RowId)].state = .opened ∧ s.noWaiters ∧ s.wordKind 5 = .guarded ∧ s.rows[(0 : RowId)].entries ≠ []
    ∧ s.mon.published.state = .warn
    ∧ s.mon.published.budget < 2 * s.rows[(0 : RowId)].entries.length + 3 + s.reservation := by decide

/-- A timer that has counted, one of a timeout of 0, and one at its full timeout of 5 ms. -/
theorem test_witness_IdleExpiryBreaksTheGroup :
    let s := building 0 0 (cells 40 1) run
    let none' := building 1 0 (cells 40 1) run
    let full := s.restartIdle 0
    (s.streams[(0 : StreamId)].group = .opened ∧ s.streams[(0 : StreamId)].openRow = some 0
      ∧ s.rows[(0 : RowId)].state = .opened ∧ s.streams[(0 : StreamId)].idleTimer = some 4999
      ∧ 4999 ≠ s.cfg.idleTimeouts[(0 : StreamId)] * 1000 ∧ s.noWaiters)
    ∧ (none'.streams[(1 : StreamId)].idleTimer = some 4999 ∧ none'.cfg.idleTimeouts[(1 : StreamId)] = 0)
    ∧ (full.cfg.idleTimeouts[(0 : StreamId)] ≠ 0
      ∧ full.streams[(0 : StreamId)].idleTimer = some (full.cfg.idleTimeouts[(0 : StreamId)] * 1000)) := by decide

/-- A write that waits for a row, and a write in OPEN that waits for an entry. -/
theorem test_witness_StallExpiryRefusesBusy :
    let forRow := { asking 0 (request .close 5 15) (some 2000) (crowded 1 run) with rowWait := [0] }
    let forEntry := { asking 0 (request .group 5 15) (some 2000) (building 0 0 (cells 40 4) run) with entryWait := [0] }
    (forRow.streams[(0 : StreamId)].stallTimer = some 2000
      ∧ forRow.streams[(0 : StreamId)].outstanding = some (request .close 5 15) ∧ forRow.rowWait = [0]
      ∧ forRow.entryWait = [] ∧ forRow.streams[(0 : StreamId)].openRow = none)
    ∧ (forEntry.streams[(0 : StreamId)].stallTimer = some 2000
      ∧ forEntry.streams[(0 : StreamId)].outstanding = some (request .group 5 15) ∧ forEntry.rowWait = []
      ∧ forEntry.entryWait = [0] ∧ forEntry.streams[(0 : StreamId)].openRow = some 0
      ∧ forEntry.rows[(0 : RowId)].state = .opened)
    ∧ 0 ∈ { forRow with rowWait := [1, 0, 2] }.rowWait ∧ 0 ∈ { forEntry with entryWait := [1, 0, 2] }.entryWait := by
  decide

/-- The store full: 4 entries in row 0, none in row 1, 42 in each of the six others; and every row in use. -/
theorem test_witness_AFreedRowServesTheWaiting :
    let forEntry := { asking 1 (request .group 5 15) (some 7) (building 1 1 [] (crowded 42 (building 0 0 (cells 40 4) run)))
      with entryWait := [1] }
    let forRow := { asking 1 (request .group 5 0) (some 7) (crowded 1 (building 0 0 (cells 40 4) run)) with rowWait := [1] }
    (forEntry.takesWrite 0 ∧ forEntry.streams[(0 : StreamId)].group = .opened
      ∧ forEntry.streams[(0 : StreamId)].openRow = some 0 ∧ forEntry.rows[(0 : RowId)].state = .opened
      ∧ forEntry.rows[(0 : RowId)].entries ≠ [] ∧ forEntry.usedEntries = 256 ∧ forEntry.entryWait = [1]
      ∧ forEntry.rowWait = [] ∧ forEntry.streams[(1 : StreamId)].outstanding = some (request .group 5 15)
      ∧ forEntry.streams[(1 : StreamId)].openRow = some 1 ∧ forEntry.conflicts 1 5 = false)
    ∧ (forRow.takesWrite 0 ∧ forRow.streams[(0 : StreamId)].group = .opened
      ∧ forRow.streams[(0 : StreamId)].openRow = some 0 ∧ forRow.rows[(0 : RowId)].state = .opened
      ∧ (∀ p : RowId, forRow.rows[p].state ≠ .free) ∧ forRow.entryWait = [] ∧ forRow.rowWait = [1]
      ∧ forRow.streams[(1 : StreamId)].outstanding = some (request .group 5 0)
      ∧ forRow.streams[(1 : StreamId)].group = .idle ∧ forRow.eng.state = .running
      ∧ forRow.mon.published.state ≠ .warn) := by decide

/-- The head of the entry wait list: in conflict, staged, and a CLOSE admitted in NORMAL, in WARN within a budget of 5
and refused with one of 4. -/
theorem test_witness_AFreedRowServesTheWaiting_serve :
    let s (q : Request) (u : State) : State := { asking 1 q (some 1) (building 1 1 [] u) with entryWait := [1, 2] }
    let claimed := s (request .group 5 15) (building 0 0 (cells 5 1) run)
    let close := s (request .close 5 15) run
    (run.entryWait = [] ∧ (stored []).freeEntries = 0)
    ∧ (claimed.entryWait = 1 :: [2] ∧ claimed.freeEntries ≠ 0
      ∧ claimed.streams[(1 : StreamId)].outstanding = some (request .group 5 15)
      ∧ claimed.streams[(1 : StreamId)].openRow = some 1 ∧ claimed.conflicts 1 5 = true
      ∧ claimed.rows[(1 : RowId)].state = .opened)
    ∧ (close.entryWait = 1 :: [2] ∧ close.freeEntries ≠ 0 ∧ close.conflicts 1 5 = false
      ∧ close.streams[(1 : StreamId)].outstanding = some (request .close 5 15)
      ∧ close.streams[(1 : StreamId)].openRow = some 1 ∧ close.mon.published.state ≠ .warn
      ∧ close.reservation = 0 ∧ 2 * (close.rows[(1 : RowId)].entries.length + 1) + 3 = 5)
    ∧ ((warned 5 close).mon.published.state = .warn ∧ (warned 5 close).mon.published.budget = 5
      ∧ (warned 4 close).mon.published.budget < 5) := by decide

/-- The oldest opening write that waits: with the engine HALTED, in WARN, in conflict, and neither. -/
theorem test_witness_AFreedRowServesTheWaiting_offer :
    let s (u : State) : State := { asking 1 (request .close 5 15) (some 1) u with rowWait := [1, 2] }
    let claimed := s (building 0 0 (cells 5 1) run)
    (run.rowWait = [] ∧ (crowded 1 (building 0 0 [] run)).lowestFree = none)
    ∧ ((s run).rowWait = 1 :: [2] ∧ (s run).lowestFree = some 0
      ∧ (s run).streams[(1 : StreamId)].outstanding = some (request .close 5 15)
      ∧ (s run).streams[(1 : StreamId)].openRow = none ∧ (s run).eng.state ≠ .halted
      ∧ (s run).mon.published.state ≠ .warn ∧ (s run).conflicts 1 5 = false)
    ∧ (s (halted run)).eng.state = .halted ∧ (s (warned 5 run)).mon.published.state = .warn
    ∧ (claimed.lowestFree = some 1 ∧ (15 : Mask) ≠ 0 ∧ claimed.conflicts 1 5 = true) := by decide

/-! ## Premises that are met: the commit engine and the arbiter -/

/-- With a row already, HALTED, with no row CLOSED; and behind a SEALED row, with and without a number left. -/
theorem test_witness_JournalWriterStartsARow :
    let busy := journaling 0 run
    let s := { (run.setRow 1 (rowIn 0 .sealed (cells 40 1))).setRow 0 (rowIn 1 .closed (cells 90 62)) with
      eng := { run.eng with queue := [1, 0], nextSeq := 0xFFFFFFFF } }
    busy.eng.jw.isSome = true ∧ (halted run).eng.state = .halted ∧ (∀ r ∈ run.eng.queue, run.rows[r].state ≠ .closed)
    ∧ (s.eng.jw = none ∧ s.eng.state = .running ∧ s.eng.queue = [1] ++ 0 :: []
      ∧ (∀ q ∈ [(1 : RowId)], s.rows[q].state ≠ .closed) ∧ s.rows[(0 : RowId)].state = .closed ∧ s.eng.nextSeq ≠ 0
      ∧ ({ s.eng with nextSeq := s.eng.nextSeq + 1 } : Engine).nextSeq = 0) := by decide

theorem test_witness_SlotSearchFindsTheFirstAvailable :
    let s := { run with eng := { run.eng with badSlots := [0, 1, 2, 3, 4, 5, 6, 27], ringHead := 27 } }
    28 ≤ s.slotCount ∧ s.eng.badSlots.length ≤ 8 := by decide

/-- The first word; and the last before the seal. -/
theorem test_witness_JournalWriteCompletes :
    ∀ p ∈ [0, 5], let s := flying .journal 1 (journaling p run)
      s.carries 9 (flight .journal 1) ∧ s.eng.state = .running ∧ s.eng.jw = some { row := 0, progress := p } := by decide

theorem test_witness_SealIsTheDurabilityPoint :
    let s := flying .sealWrite 1 (journaling 6 run)
    s.carries 9 (flight .sealWrite 1) ∧ s.eng.state = .running ∧ s.eng.jw = some { row := 0, progress := 6 }
    ∧ s.rows[(0 : RowId)].owner = some 0 := by decide

theorem test_witness_ApplierStartsTheHead :
    let busy := applying .applying 0 run
    let early := { run.setRow 0 (rowIn 0 .closed (cells 16 2)) with eng := { run.eng with queue := [0] } }
    let s := { run.setRow 0 (rowIn 0 .sealed (cells 16 1)) with eng := { run.eng with queue := [0] } }
    busy.eng.ap.isSome = true ∧ (halted run).eng.state = .halted
    ∧ (early.eng.queue.head? = some 0 ∧ early.rows[(0 : RowId)].state ≠ .sealed)
    ∧ (s.eng.ap = none ∧ s.eng.state = .running ∧ s.eng.queue.head? = some 0 ∧ s.rows[(0 : RowId)].state = .sealed
      ∧ s.rows[(0 : RowId)].entries = { addr := 16, mask := 15, data := 16 } :: []) := by decide

/-- Before the last entry, and at it. -/
theorem test_witness_ApplyWriteCompletes :
    let s := flying .apply 1 (applying .applying 0 run)
    let last := flying .apply 1 (applying .applying 1 run)
    (s.carries 9 (flight .apply 1) ∧ s.eng.state = .running ∧ s.eng.ap = some { row := 0, progress := 0 }
      ∧ s.rows[(0 : RowId)].entries[1]? = some { addr := 17, mask := 15, data := 17 })
    ∧ (last.carries 9 (flight .apply 1) ∧ last.eng.ap = some { row := 0, progress := 1 }
      ∧ last.rows[(0 : RowId)].entries.length ≤ 1 + 1) := by decide

theorem test_witness_RetireWriteCompletes :
    let s := flying .retire 1 (applying .retiring 2 run)
    s.carries 9 (flight .retire 1) ∧ s.eng.state = .running ∧ s.eng.ap = some { row := 0, progress := 2 } ∧ s.noWaiters := by
  decide

/-- With 7 bad slots and with 8. -/
theorem test_witness_JournalWriteFails :
    let s := flying .sealWrite 4 (journaling 6 run)
    let bad (ks : List Nat) : State := { s with eng := { s.eng with badSlots := ks } }
    (∀ ks ∈ [[4, 5, 6, 7, 8, 9, 10], [4, 5, 6, 7, 8, 9, 10, 11]], (bad ks).carries 9 (flight .sealWrite 4)
      ∧ (bad ks).eng.state = .running ∧ (bad ks).eng.jw = some { row := 0, progress := 6 }
      ∧ (bad ks).rows[(0 : RowId)].slot = some 3)
    ∧ (flight .sealWrite 4).timeout ≠ 250
    ∧ (bad [4, 5, 6, 7, 8, 9, 10]).eng.badSlots.length < 8
    ∧ 8 ≤ (bad [4, 5, 6, 7, 8, 9, 10, 11]).eng.badSlots.length := by decide

theorem test_witness_ApplyFailureHalts :
    let s := flying .apply 4 (applying .applying 1 run)
    let t := flying .retire 4 (applying .retiring 2 run)
    (s.carries 9 (flight .apply 4) ∧ s.eng.state = .running ∧ s.eng.ap = some { row := 0, progress := 1 })
    ∧ (flight .apply 4).timeout ≠ 250
    ∧ (t.carries 9 (flight .retire 4) ∧ t.eng.state = .running ∧ t.eng.ap = some { row := 0, progress := 2 }) := by decide

/-- Row 0 JOURNALING with its stream in CLOSING, row 1 OPEN with its stream and a plain write of it outstanding, stream 2
in NOTIFY, stream 3 waiting; and what the halt makes of them. -/
theorem test_witness_HaltActsOnRowsAndStreams :
    let plain := request .none 0x180 15
    let s := asking 3 (request .close 5 15) (some 1) (broken 2
      (asking 1 plain none (building 1 1 (cells 40 1) (journaling 2 (run.setStream 0
        { StreamRec.reset with group := .closing, openRow := some 0, outstanding := some (request .close 5 15) })))))
    (s.rows[(0 : RowId)].state = .journaling ∧ 0 ∈ s.eng.queue ∧ s.streams[(0 : StreamId)].group = .closing
      ∧ s.streams[(1 : StreamId)].openRow = some 1 ∧ s.streams[(1 : StreamId)].group = .opened
      ∧ s.streams[(1 : StreamId)].outstanding = some plain ∧ s.rows[(1 : RowId)].state = .opened
      ∧ s.streams[(2 : StreamId)].group = .notify ∧ s.streams[(3 : StreamId)].group = .idle
      ∧ s.streams[(3 : StreamId)].outstanding = some (request .close 5 15) ∧ s.rows[(2 : RowId)].state = .free)
    ∧ s.halt.rows[(0 : RowId)] = Row.free ∧ s.halt.rows[(1 : RowId)] = Row.free
    ∧ s.halt.streams[(1 : StreamId)].group = .notify ∧ s.halt.streams[(1 : StreamId)].outstanding = some plain
    ∧ s.halt.streams[(3 : StreamId)] = StreamRec.reset
    ∧ s.halt.responses = [{ stream := 0, code := .halted, data := 0 }, { stream := 3, code := .halted, data := 0 }] := by
  decide

/-- After a halt, with each of the four accesses in flight; an answer whose number is not the access's; and an access
just presented. -/
theorem test_witness_DiscardedAnswers :
    (∀ p ∈ [Purpose.journal, .sealWrite, .apply, .retire],
      (flying p 1 (halted run)).carries 9 (flight p 1) ∧ (flying p 1 (halted run)).eng.state = .halted)
    ∧ (flying .apply 1 run).bus.port = some (flight .apply 1) ∧ (flight .apply 1).number ≠ 8
    ∧ { flight .apply 1 with timeout := 250 }.timeout = 250 := by decide

theorem test_witness_FailedAttemptsAreRetried :
    (∀ p ∈ [Purpose.journal, .sealWrite, .apply, .retire, .loader, .scan, .replayRead, .replayWrite, .recoveryRetire,
      .status], ∀ k ∈ [1, 3], (flying p k run).carries 9 (flight p k) ∧ (flight p k).attempt < 4
        ∧ (flight p k).timeout ≠ 250)
    ∧ run.eng.state = .running := by decide

theorem test_witness_ForwardedOutcomes :
    let read : Request := { request .none 5 15 with write := false }
    let layered : Request := { read with captured := [{ mask := 1, data := 0xAB }] }
    (∀ q ∈ [request .none 0x180 15, read, layered],
      let s := flying (.forwarded 1) 1 (asking 1 q none run)
      s.carries 9 (flight (.forwarded 1) 1) ∧ s.streams[(1 : StreamId)].outstanding = some q)
    ∧ (flight (.forwarded 1) 1).attempt = 1 ∧ (flight (.forwarded 1) 1).timeout ≠ 250 ∧ read.write = false ∧ read.captured = []
    ∧ (request .none 0x180 15).write = true := by decide

/-- With a status request or none, its count at 7; in NORMAL, and in WARN with no JW request. -/
theorem test_witness_ArbiterGrantsTheOldest :
    let w := waiting (.forwarded 2) 4
    let s := queued [waiting .apply 5, w] run
    let u : State := { s with ev := { s.ev with sReq := some 1, sCount := 7 } }
    s.bus.port = none ∧ s.bus.quiet = none ∧ s.su.opState.serving = true ∧ s.ev.sReq = none
    ∧ (u.ev.sReq = some 1 ∧ u.ev.sCount < 8) ∧ s.mon.published.state ≠ .warn
    ∧ ((warned 0 s).mon.published.state = .warn ∧ ∀ v ∈ (warned 0 s).bus.waiting, v.purpose.cls ≠ some .jw)
    ∧ w ∈ s.bus.waiting ∧ w.purpose.cls.isSome = true ∧ ∀ v ∈ s.bus.waiting, v = w ∨ w.place < v.place := by decide

/-- A JW request in WARN behind an older one; AP and F at one place, and in WARN too; two forwarder requests of one
place; the status writer alone, at its eighth turn, and at its seventh. -/
theorem test_witness_ArbiterPrecedences :
    let status (k : Nat) (s : State) : State :=
      { s with ev := { s.ev with sReq := some 1, sCount := k, job := some { kind := .clear, words := clearWords 1, index := 0 } } }
    let s := queued [waiting (.forwarded 0) 1, waiting .journal 2] run
    let mixed := queued [waiting .apply 2, waiting (.forwarded 0) 2] run
    let tied := queued [waiting (.forwarded 3) 2, waiting (.forwarded 1) 2] run
    (s.bus.port = none ∧ s.bus.quiet = none ∧ s.su.opState.serving = true
      ∧ (∀ w ∈ s.bus.waiting, w.purpose.cls.isSome = true) ∧ s.ev.sReq = none
      ∧ (warned 0 s).mon.published.state = .warn ∧ ∃ w ∈ (warned 0 s).bus.waiting, w.purpose.cls = some .jw)
    ∧ (mixed.ev.sReq = none ∧ mixed.mon.published.state ≠ .warn ∧ waiting (.forwarded 0) 2 ∈ mixed.bus.waiting
      ∧ mixed.bus.lastClass = .ap ∧ (warned 0 mixed).mon.published.state = .warn
      ∧ ∀ w ∈ (warned 0 mixed).bus.waiting, w.purpose.cls ≠ some .jw)
    ∧ (tied.ev.sReq = none ∧ tied.mon.published.state ≠ .warn ∧ tied.bus.lastStream = 3
      ∧ waiting (.forwarded 1) 2 ∈ tied.bus.waiting ∧ (1 + 3 - 3) % 4 ≤ (3 + 3 - 3) % 4)
    ∧ ((status 0 run).ev.sReq = some 1 ∧ (status 0 run).ev.job.isSome = true ∧ (status 0 run).bus.waiting = [])
    ∧ ((status 8 s).ev.sCount = 8 ∧ (status 8 s).ev.sReq = some 1 ∧ (status 8 s).bus.waiting ≠ [])
    ∧ (∀ u ∈ [s, mixed, tied], (status 7 u).ev.sReq = some 1 ∧ (status 7 u).ev.sCount < 8) := by decide

/-- Who is granted: F before AP after an AP grant, stream 1 before stream 3 after stream 3; JW in WARN also while a
status request waits, whose count rises. -/
theorem test_alternation :
    (queued [waiting .apply 2, waiting (.forwarded 0) 2] run).settle.bus.port.map (fun f => f.purpose)
      = some (.forwarded 0)
    ∧ (queued [waiting (.forwarded 3) 2, waiting (.forwarded 1) 2] run).settle.bus.port.map (fun f => f.purpose)
      = some (.forwarded 1)
    ∧ (let s := queued [waiting (.forwarded 0) 1, waiting .journal 2] (warned 0 run)
      let t := ({ s with ev := { s.ev with sReq := some 1, sCount := 6 } } : State).settle
      t.bus.port.map (fun f => f.purpose) = some .journal ∧ t.ev.sCount = 7) := by decide

/-- A summary's first grant takes the snapshot and writes its word 0 to status block word 8. -/
theorem test_summarySnapshot :
    let s := { run with ev := { run.ev with sReq := some 1, job := some { kind := .summary, words := [], index := 0 } } }
    s.settle.bus.port.map (fun f => (f.access.addr, f.access.mask, f.access.data)) = some (258312, 15, run.summaryWord0)
    ∧ s.settle.ev.job.map (fun j => j.words.length) = some 24 := by decide

theorem test_witness_TimerMoments :
    let q : Solo := { purpose := .loader, access := { write := false, addr := 258048, mask := 15, data := 0 }, attempt := 1 }
    let load := { part .load with bus := { Bus.reset with quiet := some 0, solo := some q } }
    let w := waiting (.forwarded 2) 4
    let prov := queued [waiting (.forwarded 0) 5, w] (part .provision)
    (load.su.opState = .load ∧ load.bus.port = none ∧ load.bus.solo = some q) ∧ (part .wait).su.opState = .wait
    ∧ (w ∈ prov.bus.waiting ∧ prov.su.opState = .provision ∧ prov.bus.port = none ∧ prov.ev.sReq = none
      ∧ (∀ v ∈ prov.bus.waiting, ∃ st, v.purpose = .forwarded st) ∧ ∀ v ∈ prov.bus.waiting, v = w ∨ w.place < v.place)
    ∧ (part .provision).su.opState.serving = true ∧ (flight .status 4).timeout ≠ 250
    ∧ (sampling (.resting 0) run).mon.sampler = .resting 0
    ∧ run.mon.sampler = .converting 16
    ∧ ({ run with ev := { run.ev with retryWait := some 0 } } : State).ev.retryWait.isSome = true
    ∧ ((flying .status 4 run).carries 9 (flight .status 4) ∧ (flight .status 4).attempt = 4) := by decide

/-- A sample in progress is no wait for the next one: the premise of the idle sample interval and of every sample. -/
theorem test_witness_sampleInProgress (k : Nat) :
    run.mon.sampler ≠ .resting k ∧ (sampling (.timedOn 3 40 10) run).mon.sampler ≠ .resting k :=
  ⟨fun h => Sampler.noConfusion (show Sampler.converting 16 = .resting k from h),
    fun h => Sampler.noConfusion (show Sampler.timedOn 3 40 10 = .resting k from h)⟩

/-! ## Premises that are met: loading and recovering -/

/-- A configuration image of 256 words: a valid one with some words replaced, and the last word the one that makes the
sum 0. Two regions are used: words 0 to FFh and 100h to 1FFh. -/
def image (changes : List (Nat × Word)) : List Word :=
  let good : List (Nat × Word) :=
    [(0, 0x3B6E0001), (1, 40), (2, 2000), (9, 0xFF), (10, 0x80000001), (11, 0x100), (12, 0x1FF), (13, 0x80000002), (32, 2),
      (33, 0x2410060C), (34, 8)]
  let body := (List.range 255).map fun i => ((changes ++ good).lookup i).getD 0
  body ++ [0 - sumWords body]

theorem test_judge_each_reason :
    judge (image []) 258048 = none ∧ judge (image [(0, 0x3B6E0002)]) 258048 = some .mark
    ∧ judge (image [] |>.set 20 1) 258048 = some .sum ∧ judge (image [(2, 0)]) 258048 = some .range := by decide +kernel

theorem test_judge_each_later_reason :
    judge (image [(8, 0x100)]) 258048 = some .order ∧ judge (image [(11, 0xFF)]) 258048 = some .overlap
    ∧ judge (image [(12, 258048)]) 258048 = some .bridge ∧ judge (image [(12, 258047)]) 258048 = none
    ∧ judge (image [(33, 0x24100C0C)]) 258048 = some .monitor := by decide +kernel

/-- A loader read that leaves 255 words, and the last one: of a bad and of a valid image. -/
theorem test_witness_LoaderReadsTheConfiguration :
    let s (im : List Word) : State := flying .loader 1 { part .load with su := { (part .load).su with image := im } }
    let valid := image []
    (∀ im ∈ [valid.take 254, valid.take 255], (s im).carries 9 (flight .loader 1))
    ∧ (valid.take 254 ++ [valid.getD 254 0]).length < 256
    ∧ (256 ≤ (valid.take 255 ++ [(0 : Word)]).length
      ∧ judge (valid.take 255 ++ [0]) (s (valid.take 255)).bridgeBase = some .sum)
    ∧ (256 ≤ (valid.take 255 ++ [valid.getD 255 0]).length
      ∧ judge (valid.take 255 ++ [valid.getD 255 0]) (s (valid.take 255)).bridgeBase = none)
    ∧ ((flight .loader 4).attempt = 4 ∧ (flying .loader 4 (part .load)).carries 9 (flight .loader 4)) := by decide +kernel

/-- A valid image with divider 20: the sample in progress stays on the divider 40 that it began on (R119, R149). -/
theorem test_sampleAtInstallation :
    let im := image [(1, 20)]
    let s := flying .loader 1 { part .load with
      su := { (part .load).su with image := im.take 255 }, clk := { run.clk with phase := 7 } }
    (after (.loaderReadComplete 9 (im.getD 255 0)) s).mon.sampler = .timedOn 16 40 7
    ∧ (after (.loaderReadComplete 9 (im.getD 255 0)) s).cfg.divider = 20 := by decide +kernel

/-- The used flag, base and limit of a region entry of an image. -/
abbrev usedIn (im : List Word) (r : Nat) : Prop := (im.getD (10 + 3 * r) 0).getLsbD 31 = true
abbrev baseIn (im : List Word) (r : Nat) : Nat := (im.getD (8 + 3 * r) 0).toNat % 2 ^ 25
abbrev limitIn (im : List Word) (r : Nat) : Nat := (im.getD (9 + 3 * r) 0).toNat % 2 ^ 25

/-- Checks 1 to 3 in the fields of an image: each image of the next theorem passes them, and each of two fails one. -/
theorem test_witness_FirstFailedCheckGivesTheReason_range :
    let w (im : List Word) (i : Nat) : Nat := (im.getD i 0).toNat
    let range (im : List Word) : Prop := (10 ≤ w im 1 % 256 ∧ w im 1 % 256 ≤ 80) ∧ 1 ≤ w im 2 % 2 ^ 16
      ∧ (1 ≤ w im 33 % 32 ∧ w im 33 % 32 ≤ 30) ∧ w im 33 / 2 ^ 8 % 32 ≤ 29 ∧ 1 ≤ w im 33 / 2 ^ 16 % 32
      ∧ (1 ≤ w im 33 / 2 ^ 24 % 16 ∧ w im 33 / 2 ^ 24 % 16 ≤ 8) ∧ 1 ≤ w im 33 / 2 ^ 28 % 8 ∧ 1 ≤ w im 34 % 256
      ∧ (∀ k < 18, w im (40 + k / 8) / 2 ^ (4 * (k % 8)) % 16 ≤ 3) ∧ 2 ≤ w im 32 % 4
      ∧ ∀ r < 8, usedIn im r → 1 ≤ w im (10 + 3 * r) % 4
    (∀ im ∈ [image [], image [(8, 0x100)], image [(11, 0xFF)], image [(12, 258048)]],
      w im 0 / 2 ^ 16 = 0x3B6E ∧ w im 0 % 2 ^ 8 = 1 ∧ im.foldl (· + ·) 0 = 0 ∧ range im)
    ∧ ¬ range (image [(2, 0)]) ∧ ¬ range (image [(34, 0)]) ∧ usedIn (image []) 1 ∧ ¬ usedIn (image []) 2 := by
  decide +kernel

/-- For each check, an image that passes the checks before it. Regions: 0 to FFh and 100h to 1FFh. -/
theorem test_witness_FirstFailedCheckGivesTheReason :
    let used (im : List Word) (r : Nat) : Prop := r < 8 ∧ (im.getD (10 + 3 * r) 0).getLsbD 31 = true
    let lo (im : List Word) (r : Nat) : Nat := (im.getD (8 + 3 * r) 0).toNat % 2 ^ 25
    let hi (im : List Word) (r : Nat) : Nat := (im.getD (9 + 3 * r) 0).toNat % 2 ^ 25
    let order (im : List Word) : Prop := ∀ r, used im r → lo im r ≤ hi im r
    let overlap (im : List Word) : Prop :=
      ∀ r q, used im r → used im q → r ≠ q → hi im q < lo im r ∨ hi im r < lo im q
    let bridge (im : List Word) : Prop := ∀ r, used im r → hi im r < 258048
    (order (image []) ∧ overlap (image []) ∧ bridge (image []))
    ∧ ¬ order (image [(8, 0x100)])
    ∧ (order (image [(11, 0xFF)]) ∧ ¬ overlap (image [(11, 0xFF)]))
    ∧ (order (image [(12, 258048)]) ∧ overlap (image [(12, 258048)]) ∧ ¬ bridge (image [(12, 258048)])) := by
  refine ⟨⟨fun r h => ?_, fun r q h g n => ?_, fun r h => ?_⟩, fun h => ?_, ⟨fun r h => ?_, fun h => ?_⟩,
    fun r h => ?_, fun r q h g n => ?_, fun h => ?_⟩
  · exact (by decide +kernel : ∀ r < 8, usedIn (image []) r → baseIn (image []) r ≤ limitIn (image []) r) r h.1 h.2
  · exact (by decide +kernel : ∀ r q : Fin 8, usedIn (image []) r → usedIn (image []) q → r ≠ q →
      limitIn (image []) q < baseIn (image []) r ∨ limitIn (image []) r < baseIn (image []) q) ⟨r, h.1⟩ ⟨q, g.1⟩ h.2 g.2 (fun e => n (congrArg Fin.val e))
  · exact (by decide +kernel : ∀ r < 8, usedIn (image []) r → limitIn (image []) r < 258048) r h.1 h.2
  · exact absurd (h 0 ⟨by decide, by decide +kernel⟩) (by decide +kernel)
  · exact (by decide +kernel : ∀ r < 8, usedIn (image [(11, 0xFF)]) r →
      baseIn (image [(11, 0xFF)]) r ≤ limitIn (image [(11, 0xFF)]) r) r h.1 h.2
  · exact absurd (h 0 1 ⟨by decide, by decide +kernel⟩ ⟨by decide, by decide +kernel⟩ (by decide)) (by decide +kernel)
  · exact (by decide +kernel : ∀ r < 8, usedIn (image [(12, 258048)]) r →
      baseIn (image [(12, 258048)]) r ≤ limitIn (image [(12, 258048)]) r) r h.1 h.2
  · exact (by decide +kernel : ∀ r q : Fin 8, usedIn (image [(12, 258048)]) r → usedIn (image [(12, 258048)]) q →
      r ≠ q → limitIn (image [(12, 258048)]) q < baseIn (image [(12, 258048)]) r
        ∨ limitIn (image [(12, 258048)]) r < baseIn (image [(12, 258048)]) q) ⟨r, h.1⟩ ⟨q, g.1⟩ h.2 g.2 (fun e => n (congrArg Fin.val e))
  · exact absurd (h 1 ⟨by decide, by decide +kernel⟩) (by decide +kernel)

/-- In the last slot but one and in the last; a header that fails, words of a candidate, its seal, and word 127 with the retire mark and without. -/
theorem test_witness_ScanReadsAndJudgesSlots :
    let s := flying .scan 1 { part .recover with recovery := some Recovery.start }
    let record := recordWords 2 705 [{ addr := 0x40000, mask := 15, data := 0x12345678 }]
    let header (w : Word) : Prop := w.toNat / 2 ^ 16 = 0x7C3A ∧ 1 ≤ w.toNat % 64 ∧ w.toNat % 64 ≤ 62
    s.carries 9 (flight .scan 1) ∧ s.recovery = some Recovery.start ∧ 26 + 1 < s.slotCount ∧ ¬ 27 + 1 < s.slotCount
    ∧ ¬ header 0x7C3A003F ∧ ¬ header 0x7C3A0000 ∧ header 0x7C3A003E
    ∧ (header (record.getD 0 0) ∧ (record.take 4).length < 2 * 1 + 3 ∧ record.length = 2 * 1 + 3)
    ∧ (record ++ [retireMark 705]).length = 2 * 1 + 4
    ∧ (record.getD 4 0 = ~~~ ((record.take 4).foldl (· + ·) 0)) := by decide

theorem test_witness_ActionListOrder :
    [{ slot := 1, seq := 7, count := 1, bad := false }, { slot := 3, seq := 7, count := 1, bad := false },
      { slot := 27, seq := 2, count := 1, bad := true }].Pairwise (fun (i j : Item) => i.slot < j.slot) := by decide

theorem test_witness_ReplayAndRetireActions :
    (∀ p ∈ [Purpose.replayRead, .replayWrite, .recoveryRetire], (flying p 1 (replaying none)).carries 9 (flight p 1))
    ∧ (replaying none).recovery.map (fun r => r.replayAddr) = some none
    ∧ (replaying (some 0x30000005)).recovery.map (fun r => r.replayAddr) = some (some 0x30000005)
    ∧ (replaying none).recovery.map (fun r => r.actions)
      = some [{ kind := .replay, item := { slot := 1, seq := 703, count := 1, bad := false } }]
    ∧ Recovery.start.replayEntry + 1 < 2 ∧ 1 ≤ Recovery.start.replayEntry + 1
    ∧ (let faulty (w : Word) : Prop :=
        (replaying none).memWords ≤ w.toNat % 2 ^ 25 ∨ (replaying none).bridgeBase ≤ w.toNat % 2 ^ 25
          ∨ w.toNat / 2 ^ 28 = 0
      ¬ faulty 0x1003EFFF ∧ faulty 0x1003F000 ∧ faulty 0x10040000 ∧ faulty 0x0003EFFF) := by decide

theorem test_witness_EndOfThePass :
    Recovery.start.actions = [] ∧ Recovery.start.highestSeen = none
    ∧ { Recovery.start with highestSeen := some 0xFFFFFFFF }.highestSeen = some (0xFFFFFFFF : Word) := by decide

/-- The pass ends with two records replayed and one discarded: RECOVERED and START of a power-on reset enter the queue,
and the first is presented (R81, R152, R159). -/
theorem test_endOfThePass :
    let t := (part .recover).beginAction { Recovery.start with replayed := 2, discarded := 1 }
    t.ev.presented.map (fun r => (r.kind, r.fields.detail)) = some (.recovered, some 0x102)
    ∧ t.ev.waiting.map (fun r => (r.kind, r.fields.detail)) = [(.start, some 1)] := by decide

/-- With a strap error and without one, with a valid configuration. -/
theorem test_witness_RecoveryFailureLeadsToFault :
    (∀ p ∈ [Purpose.scan, .replayRead, .replayWrite, .recoveryRetire],
      (flying p 4 (replaying none)).carries 9 (flight p 4) ∧ (flight p 4).attempt = 4 ∧ (flight p 4).timeout ≠ 250)
    ∧ (replaying none).su.strapError = false ∧ (replaying none).su.validity = .valid
    ∧ { (replaying none).su with strapError := true }.strapError = true := by decide

/-- A retire write of the pass fails: RETIRE_FAIL with the sequence number is presented, and the budget published is 0,
that of the defaults (R80, R150). -/
theorem test_passFails :
    let t := after (.memoryErrorAnswer 9) (flying .recoveryRetire 4 (replaying none))
    t.ev.presented.map (fun r => (r.kind, r.fields.seq)) = some (.retireFail, some 703)
    ∧ t.mon.published.budget = 0 ∧ t.flt = true := by decide

/-! ## Premises that are met: the monitor -/

/-- The part in BELOW, with a release run. -/
def below (o : OpState) (releaseRun : Nat) (prov : Bool) : State :=
  { part o with
    mon := { Monitor.reset with releaseRun := releaseRun }
    su := { (part o).su with straps := some { pins with prov := prov }, validity := .notRead } }

/-- In RESET; in WAIT at levels 15 and 16, before and at the cut count of 4; with the straps read alike and not. -/
theorem test_witness_SamplesInBelow :
    (below .reset 0 false).mon.state = .below ∧ (below .reset 0 false).mon.sampler.inProgress = true
    ∧ (below .reset 0 false).su.opState = .reset
    ∧ ((below .wait 2 false).su.opState = .wait ∧ (15 : Level).toNat < (below .wait 2 false).cfg.params.releaseLevel
      ∧ 1 ≤ (below .wait 2 false).cfg.params.cutCount)
    ∧ ((below .wait 2 false).cfg.params.releaseLevel ≤ (16 : Level).toNat
      ∧ (below .wait 2 false).mon.releaseRun + 1 < (below .wait 2 false).cfg.params.cutCount)
    ∧ ((below .wait 3 false).cfg.params.cutCount ≤ (below .wait 3 false).mon.releaseRun + 1
      ∧ (below .wait 3 false).su.straps = some pins ∧ { pins with prov := true } ≠ pins)
    ∧ (below .wait 3 true).su.straps = some { pins with prov := true }
    ∧ ((below .wait 3 false).bus.quiet = none ∧ (below .wait 3 false).bus.port = none) := by decide

/-- The fourth sample in a row at the release level ends WAIT: LOAD, PROVISION or FAULT by the straps. -/
theorem test_endOfWait :
    (after (.sampleComplete 16 pins) (below .wait 3 false)).su.opState = .load
    ∧ (after (.sampleComplete 16 { pins with prov := true }) (below .wait 3 true)).su.opState = .provision
    ∧ (after (.sampleComplete 16 { pins with prov := true }) (below .wait 3 false)).su.opState = .fault
    ∧ (after (.sampleComplete 16 pins) (below .wait 3 false)).bus.port.map (fun f => f.access.addr) = some 258048 := by
  decide

/-- NORMAL at levels 12 and 13, WARN at 13 and 14 (warn level 12, margin 2); level 6 counts towards CUT, 7 does not. -/
theorem test_witness_SamplesInNormalAndWarn :
    let p := run.cfg.params
    (run.mon.state = .normal ∧ run.mon.sampler.inProgress = true ∧ run.su.opState ≠ .wait
      ∧ (12 : Level).toNat ≤ p.warnLevel ∧ ¬ (13 : Level).toNat ≤ p.warnLevel)
    ∧ ((warned 0 run).mon.state = .warn ∧ ¬ p.warnLevel + p.margin ≤ (13 : Level).toNat
      ∧ p.warnLevel + p.margin ≤ (14 : Level).toNat)
    ∧ ((6 : Level).toNat ≤ p.cutLevel ∧ ¬ (7 : Level).toNat ≤ p.cutLevel ∧ 2 + 1 < p.cutCount) := by decide

/-- The fourth sample in a row at the cut level; and a monitor in CUT. -/
theorem test_witness_CutRunResetsThePart :
    let s := { warned 0 run with mon := { (warned 0 run).mon with cutRun := 3 } }
    s.mon.state = .warn ∧ s.mon.sampler.inProgress = true ∧ (6 : Level).toNat ≤ s.cfg.params.cutLevel
    ∧ s.cfg.params.cutCount ≤ s.mon.cutRun + 1 ∧ s.su.powerOn = false ∧ s.su.line = false
    ∧ s.su.pendingCause = none
    ∧ ({ run with mon := { run.mon with state := .cut } } : State).mon.state = .cut := by decide

/-! ## Premises that are met: the event unit -/

/-- A record of a kind and class with a stream. -/
def record (k : EventKind) (c : Fin 4) (st : Option StreamId) : Record :=
  { kind := k, cls := c, fields := { stream := st }, repeats := 1, stamp := 0 }

/-- Class 0 and class 1; a merge; a full queue of 16 with the last record of a lower class, and of the same; room for
one more. MEDIA is of class 2. -/
theorem test_witness_EventsAreCountedAndQueued :
    let silent := { run with cfg := { run.cfg with classes := Vector.replicate 18 0 } }
    let rs (n : Nat) (c : Fin 4) : List Record := (List.replicate n (record .slotBad c none))
    let e (ws : List Record) : EventUnit := { run.ev with pres := .shown, presented := some (record .stall 2 none), waiting := ws }
    silent.cfg.classes[EventKind.media.index] = 0 ∧ run.cfg.classes[EventKind.media.index] = 2
    ∧ ((record .media 2 (some 1)).kind = .media ∧ ∀ x ∈ rs 3 2, ¬ (x.kind = .media ∧ x.fields.stream = some 1))
    ∧ (16 ≤ (e (rs 14 2 ++ [record .slotBad 2 none])).queued ∧ (2 : Fin 4) ≤ (record .slotBad 2 none).cls)
    ∧ (16 ≤ (e (rs 8 3 ++ rs 6 1 ++ [record .slotBad 1 none])).queued ∧ (record .slotBad 1 none).cls < (2 : Fin 4)
      ∧ (∀ x ∈ rs 8 3, (2 : Fin 4) ≤ x.cls) ∧ ∀ x ∈ rs 6 1, x.cls < (2 : Fin 4))
    ∧ ((e (rs 8 3 ++ rs 6 1)).queued < 16 ∧ (e []).pres ≠ .none) := by decide

theorem test_witness_FirstRecordIsPresented :
    let busy := { run with ev := { run.ev with job := some { kind := .summary, words := [], index := 0 } } }
    run.cfg.classes[EventKind.media.index] ≠ 0
    ∧ (∀ s ∈ [run, busy], s.ev.waiting = [] ∧ s.ev.presented = none ∧ s.ev.pres = .none ∧ s.mayPresent = true)
    ∧ run.ev.job = none ∧ busy.ev.job.isSome = true := by decide

theorem test_witness_AckEndsThePresentation :
    let s (p : PresState) (ws : List Record) : State := { run with ev := { run.ev with pres := p, waiting := ws } }
    let busy : State :=
      { run with ev := { run.ev with pres := .shown, job := some { kind := .summary, words := [], index := 0 } } }
    State.reset.su.opState = .reset ∧ (s .updating []).su.opState ≠ .reset ∧ (s .updating []).ev.pres ≠ .shown
    ∧ ((s .shown []).ev.pres = .shown ∧ (s .shown []).ev.waiting = [] ∧ (s .shown []).ev.job = none)
    ∧ (busy.ev.pres = .shown ∧ busy.ev.waiting = [] ∧ busy.ev.job.isSome = true)
    ∧ (s .shown [record .media 2 none]).ev.waiting = record .media 2 none :: [] := by decide

theorem test_witness_StatusWordCompletes :
    let s (k : JobKind) (n i : Nat) : State := flying .status 1
      { run with ev := { run.ev with job := some { kind := k, words := List.replicate n 0, index := i } } }
    let given (k : Option JobKind) (pending : Bool) : EventUnit :=
      { (s .summary 24 23).ev with given := k, presented := some (record .media 2 none), summaryPending := pending }
    (∀ k ∈ [JobKind.update, .clear, .summary], (s k 8 6).carries 9 (flight .status 1))
    ∧ (6 + 1 < (List.replicate 8 (0 : Word)).length ∧ (List.replicate 8 (0 : Word)).length ≤ 7 + 1)
    ∧ ((s .update 8 7).ev.given = none ∧ (s .clear 8 7).ev.given = none ∧ (s .clear 8 7).ev.waiting = []
      ∧ (s .summary 24 23).ev.given = none ∧ (s .summary 24 23).ev.summaryPending = false)
    ∧ { (s .clear 8 7).ev with waiting := [record .media 2 none] }.waiting = record .media 2 none :: []
    ∧ ((given (some .update) false).given = some .update ∧ (given (some .update) false).presented.isSome = true
      ∧ (given (some .clear) false).given = some .clear
      ∧ (given none true).given = none ∧ (given none true).summaryPending = true) := by decide

/-- A clear job ends with a record waiting: UPDATING for it under the next number, a summary pending (R164). -/
theorem test_clearEndsWithARecordWaiting :
    let t := after (.statusWordComplete 9) (flying .status 1 { run with ev := { run.ev with
      pres := .clearing, waiting := [record .media 2 none], presNumber := 6
      job := some { kind := .clear, words := clearWords 6, index := 7 } } })
    t.ev.pres = .updating ∧ t.ev.presNumber = 7 ∧ t.ev.waiting = [] ∧ t.ev.summaryPending = true
    ∧ t.ev.job.map (fun j => (j.kind, j.index)) = some (.update, 0) := by decide

theorem test_witness_StatusWordsAndLines :
    { record .media 2 none with repeats := 255 }.repeats ≤ 255
    ∧ (record .media 2 (some 3)).fields.stream = some (3 : StreamId) := by decide

/-! ## Premises that are met: the headline results -/

theorem test_witness_RecordReadsBack :
    (1 ≤ (cells 16 1).length ∧ (cells 16 1).length ≤ 62) ∧ (1 ≤ (cells 16 62).length ∧ (cells 16 62).length ≤ 62) := by
  decide

/-- The part in RUN keeps both laws, and it has a next state. -/
theorem test_witness_EveryStepKeepsThePhaseLaw : run.phaseLaw ∧ run.ev.lawful ∧ ∃ t, step run = .next t := by
  refine ⟨⟨?_, ?_, ?_, ?_⟩, ?_, run.idle, rfl⟩
  · constructor <;> decide
  · refine ⟨fun f h => ?_, fun q h => ?_, by decide, by decide, by decide⟩ <;> simp [run, part, State.reset, Bus.reset] at h
  · constructor <;> decide
  · constructor <;> decide
  · constructor <;> decide

end Sys2Proof.Tests
end

