-- ==== Sys2Proof/Proofs/GroupedWrites.lean ====
section
/-! PROOFS. What each operation of a grouped write leaves, stated once per branch: the request taken, the staging line,
the staged entry, the answer, the refusal, the close, the row assigned. `x` stands for the stream's record as the write
comes to the store. -/

namespace Sys2Proof.Machine

/-! ## The grouped request commands, once taken (R87) -/

section
variable {s t : State} {st : StreamId} (h : s.takesWrite st) {a : Addr} {m : Mask} {d : Word} (tog : Bool)
include h

theorem exec_groupWrite_taken
    (e : (s.accept st (writeRequest .group a m d)).groupWrite st (s.wordKind a) (writeRequest .group a m d) = t) :
    exec (.groupWrite st a m d tog) s = .next (t.serve.offer.settle tog) := by
  simp only [exec, execGroupWrite, State.request_write h, State.accept_wordKind, State.afterFree, e]

theorem exec_closeWrite_taken
    (e : (s.accept st (writeRequest .close a m d)).closeWrite st (s.wordKind a) (writeRequest .close a m d) = t) :
    exec (.closeWrite st a m d tog) s = .next (t.serve.offer.settle tog) := by
  simp only [exec, execCloseWrite, State.request_write h, State.accept_wordKind, State.afterFree, e]

theorem exec_abortWrite_taken (e : (s.accept st (writeRequest .abort a m d)).abortWrite st = t) :
    exec (.abortWrite st a m d tog) s = .next (t.serve.offer.settle tog) := by
  simp only [exec, execAbortWrite, State.request_write h, State.afterFree, e]

end

/-! ## Waits that stand over a write (R8, R32) -/

/-- Where no waiting write can be served, the services do nothing. -/
theorem State.waitsStand.next {t : State} {o : Host.Outcome State Fault Refusal} {tog : Bool} (ht : t.waitsStand)
    (h : o = .next (t.serve.offer.settle tog)) : o = .next (t.settle tog) := by
  rw [h, show t.serve.offer = t from State.afterFree_of_waitsStand ht]

/-- The waits stand over an update that takes entries and rows and gives none back. -/
theorem State.waitsStand.set_row {s t : State} {r : RowId} {row : Row} (h : s.waitsStand)
    (he : t.entryWait = s.entryWait) (hw : t.rowWait = s.rowWait) (hr : t.rows = s.rows.set r row)
    (hl : s.rows[r].entries.length ≤ row.entries.length) (hf : row.state = .free → s.rows[r].state = .free) :
    t.waitsStand := by
  obtain ⟨entries, rows⟩ := h
  refine ⟨?_, ?_⟩
  · have used := s.usedEntries_set r row
    have same : t.usedEntries = (s.setRow r row).usedEntries := by rw [State.usedEntries, hr]; rfl
    rw [he]
    refine entries.imp_right fun h0 => ?_
    simp only [State.freeEntries, storeSize] at h0 ⊢
    omega
  · rw [hw]
    refine rows.imp_right fun h0 => State.lowestFree_eq_none fun q hq => ?_
    have was : s.rows[q].state = .free := by
      rw [hr] at hq
      by_cases e : r = q
      · subst e; rw [fin_set_self] at hq; exact hf hq
      · rwa [fin_set_ne _ _ e] at hq
    rw [State.lowestFree, List.find?_eq_none] at h0
    exact absurd was (by simpa using h0 q (by fin_cases q <;> simp [allRows]))

/-- What the services lead to, and what they lead to where nobody waits. -/
theorem State.settled_and_served {s t : State} {o : Host.Outcome State Fault Refusal} {tog : Bool}
    (h : o = .next (t.serve.offer.settle tog)) (he : t.entryWait = s.entryWait) (hw : t.rowWait = s.rowWait) :
    (s.noWaiters → o = .next (t.settle tog)) ∧ o = .next (t.serve.offer.settle tog) :=
  ⟨fun hn => (hn.congr he hw).waitsStand.next h, h⟩

/-! ## The group controller's routes (R7, R10, R12, R14, R18) -/

section
variable {s : State} {st : StreamId} {r : RowId} (q : Request) (k : WordKind)

theorem State.groupWrite_notify (hg : s.streams[st].group = .notify) :
    s.groupWrite st k q = s.respond st .aborted := by
  simp only [State.groupWrite, hg]

theorem State.closeWrite_notify (hg : s.streams[st].group = .notify) :
    s.closeWrite st k q = (s.toIdle st).respond st .aborted := by
  simp only [State.closeWrite, hg]

theorem State.groupWrite_idle (hg : s.streams[st].group = .idle) :
    s.groupWrite st k q = if k = .guarded then s.openWrite st q else s.refuseRegion st q := by
  simp only [State.groupWrite, hg]

theorem State.closeWrite_idle (hg : s.streams[st].group = .idle) :
    s.closeWrite st k q = if k = .guarded then s.openWrite st q else s.refuseRegion st q := by
  simp only [State.closeWrite, hg]

theorem State.groupWrite_opened_region {k : WordKind} (hg : s.streams[st].group = .opened)
    (hr : s.streams[st].openRow = some r) (hk : k ≠ .guarded) : s.groupWrite st k q = s.refuseRegion st q := by
  simp only [State.groupWrite, hg, hr, if_neg hk]

theorem State.closeWrite_opened_region {k : WordKind} (hg : s.streams[st].group = .opened)
    (hr : s.streams[st].openRow = some r) (hk : k ≠ .guarded) :
    s.closeWrite st k q = (s.enterClosing st).refuseRegion st q := by
  simp only [State.closeWrite, hg, hr, if_neg hk]

/-- The record of a stream in OPEN as its write comes to the store: the write is outstanding, the idle timer is held,
and a CLOSE has moved the stream to CLOSING (R15, R18). -/
def StreamRec.writing (x : StreamRec) (q : Request) : StreamRec :=
  { x with outstanding := some q, idleTimer := none, group := if q.attr = .close then .closing else x.group }

theorem State.groupWrite_opened (hg : s.streams[st].group = .opened) (hr : s.streams[st].openRow = some r)
    (hq : q.attr = .group) :
    (s.accept st q).groupWrite st .guarded q = (s.setStream st (s.streams[st].writing q)).stageWrite st r q := by
  simp [-Fin.getElem_fin, State.groupWrite, hg, hr, State.holdIdle, State.accept_eq, fin_set_self,
    StreamRec.writing, hq]

theorem State.closeWrite_opened (hg : s.streams[st].group = .opened) (hr : s.streams[st].openRow = some r)
    (hq : q.attr = .close) :
    (s.accept st q).closeWrite st .guarded q = (s.setStream st (s.streams[st].writing q)).stageWrite st r q := by
  simp [-Fin.getElem_fin, State.closeWrite, hg, hr, State.enterClosing, State.accept_eq, fin_set_self,
    StreamRec.writing, hq]

end

/-! ## Refusals (R11, R13) -/

section
variable {u : State} {st : StreamId} {x : StreamRec} {r : RowId} (k : Attr) (c : Cause)

/-- A refusal frees the OPEN row of the stream. -/
theorem State.refuse_row (hx : x.openRow = some r) (ho : u.rows[r].state = .opened) :
    (u.setStream st x).refuse st k c = { u with
      streams := u.streams.set st (if k = .close then StreamRec.reset else StreamRec.notified c)
      rows := u.rows.set r Row.free
      responses := u.responses ++ [{ stream := st, code := c.response, data := 0 }] } := by
  have hr : (u.setStream st x).streams[st].openRow = some r := by rw [State.setStream_self, hx]
  cases k
  case close => rw [State.refuse_close_row c hr ho]; simp [State.setStream]
  all_goals
    simp only [State.refuse, State.dropOpenRow_opened hr ho]
    simp [-Fin.getElem_fin, -BitVec.ofNat_eq_ofNat, State.toNotify, State.respond, fin_set_self, State.setStream,
      State.setRow, State.emit, StreamRec.reset, StreamRec.notified]

theorem State.refuse_ownRow (hx : u.streams[st].openRow = some r) (ho : u.rows[r].state = .opened) :
    u.refuse st k c = { u with
      streams := u.streams.set st (if k = .close then StreamRec.reset else StreamRec.notified c)
      rows := u.rows.set r Row.free
      responses := u.responses ++ [{ stream := st, code := c.response, data := 0 }] } := by
  have h := State.refuse_row (u := u) (st := st) k c hx ho
  rwa [State.setStream_same] at h

/-- A write refused REGION in OPEN: the event, the answer, and the row freed (R10, R18, R94). -/
theorem State.refuseRegion_row {q : Request} (hx : x.openRow = some r) (ho : u.rows[r].state = .opened) :
    (u.setStream st x).refuseRegion st q = { u.raise .region { stream := some st, addr := some q.addr } with
      streams := u.streams.set st (if q.attr = .close then StreamRec.reset else StreamRec.notified .region)
      rows := u.rows.set r Row.free
      responses := u.responses ++ [{ stream := st, code := .region, data := 0 }] } :=
  State.refuse_row (u := u.raise .region { stream := some st, addr := some q.addr }) q.attr .region hx ho

/-- A refusal of a stream without an open row frees none. -/
theorem State.refuse_noRow (hx : x.openRow = none) :
    (u.setStream st x).refuse st k c = { u with
      streams := u.streams.set st (if k = .close then StreamRec.reset else StreamRec.notified c)
      responses := u.responses ++ [{ stream := st, code := c.response, data := 0 }] } := by
  have hr : (u.setStream st x).streams[st].openRow = none := by rw [State.setStream_self, hx]
  simp only [State.refuse, State.dropOpenRow_none hr]
  cases k <;>
    simp [-Fin.getElem_fin, -BitVec.ofNat_eq_ofNat, State.toNotify, State.toIdle, State.respond, fin_set_self,
      State.setStream, State.emit, StreamRec.reset, StreamRec.notified]

theorem State.refuse_ownNoRow (hx : u.streams[st].openRow = none) :
    u.refuse st k c = { u with
      streams := u.streams.set st (if k = .close then StreamRec.reset else StreamRec.notified c)
      responses := u.responses ++ [{ stream := st, code := c.response, data := 0 }] } := by
  have h := State.refuse_noRow (u := u) (st := st) k c hx
  rwa [State.setStream_same] at h

end

/-! ## The staging lines (R26 to R31) -/

theorem Row.find_isSome_iff (row : Row) (a : Addr) : (row.find a).isSome = true ↔ ∃ e ∈ row.entries, e.addr = a := by
  simp [Row.find]

theorem Row.find_isSome_eq_false {row : Row} {a : Addr} (h : ∀ e ∈ row.entries, e.addr ≠ a) :
    (row.find a).isSome = false := by
  rw [Bool.eq_false_iff, Ne, Row.find_isSome_iff]
  rintro ⟨e, he, hea⟩
  exact h e he hea

section
variable {s : State} {st : StreamId} {r : RowId} {a : Addr}

theorem State.stagingLine_conflict (hc : s.conflicts st a = true) : s.stagingLine st r a = .refused .conflict := by
  simp [State.stagingLine, hc]

theorem State.stagingLine_held (hc : s.conflicts st a = false) (hh : ∃ e ∈ s.rows[r].entries, e.addr = a) :
    s.stagingLine st r a = .staged := by
  have hf := (Row.find_isSome_iff s.rows[r] a).mpr hh
  simp only [State.stagingLine, hc, hf]
  rfl

variable (hc : s.conflicts st a = false) (hn : ∀ e ∈ s.rows[r].entries, e.addr ≠ a)
include hc hn

theorem State.stagingLine_rowFull (hl : 62 ≤ s.rows[r].entries.length) :
    s.stagingLine st r a = .refused .overflow := by
  simp only [State.stagingLine, hc, Row.find_isSome_eq_false hn, if_pos (show maxRowEntries ≤ _ from hl)]
  rfl

/-- With room in the row the store decides: a free entry, a wait, or the refusal. -/
theorem State.stagingLine_store (hl : s.rows[r].entries.length < 62) :
    s.stagingLine st r a =
      if s.freeEntries = 0 then (if s.eng.queue = [] then .refused .overflow else .waits) else .staged := by
  have room : ¬ maxRowEntries ≤ s.rows[r].entries.length := Nat.not_le.mpr hl
  simp only [State.stagingLine, hc, Row.find_isSome_eq_false hn, if_neg room, List.isEmpty_iff]
  rfl

end

/-! ## The staged entry (R24, R27, R28) -/

/-- The entry that a write of word a makes: the bytes outside the mask are the next free values (R24, assumption 5). -/
def State.freshEntry (s : State) (a : Addr) (m : Mask) (d : Word) : Entry :=
  { addr := a, mask := m, data := mergeMask m d (Config.undefinedLanes s.freeIndex) }

theorem State.freshEntry_lanes (s : State) (a : Addr) (m : Mask) (d : Word) :
    ∀ n < 4, m.getLsbD n = true → laneByte (s.freshEntry a m d).data n = laneByte d n := by
  intro n hn hm
  rw [State.freshEntry, laneByte_mergeMask m d _ hn, if_pos hm]

theorem State.newEntry_eq (s : State) (r : RowId) (a : Addr) (m : Mask) (d : Word) :
    s.newEntry r a m d = { s with
      rows := s.rows.set r { s.rows[r] with entries := s.rows[r].entries ++ [s.freshEntry a m d] }
      freeIndex := s.freeIndex + 1 } := rfl

section
variable {s : State} {r : RowId} {a : Addr} (m : Mask) (d : Word)

theorem State.stageEntry_new (hn : ∀ e ∈ s.rows[r].entries, e.addr ≠ a) :
    s.stageEntry r a m d = s.newEntry r a m d := by
  simp only [State.stageEntry, Row.find_isSome_eq_false hn]
  rfl

theorem State.stageEntry_held (hh : ∃ e ∈ s.rows[r].entries, e.addr = a) :
    s.stageEntry r a m d = s.setRow r { s.rows[r] with entries := coalesceIn s.rows[r].entries a m d } := by
  simp only [State.stageEntry, (Row.find_isSome_iff s.rows[r] a).mpr hh]
  rfl

end

/-- Coalescing replaces the one entry for the word, in place (R27). -/
theorem coalesceIn_eq_set {es : List Entry} {a : Addr} {i : Nat} {e : Entry} (m : Mask) (d : Word)
    (hi : es[i]? = some e) (ha : e.addr = a) (one : ∀ j f, es[j]? = some f → f.addr = a → j = i) :
    coalesceIn es a m d = es.set i (e.coalesce m d) := by
  apply List.ext_getElem?
  intro j
  rw [coalesceIn, List.getElem?_map]
  by_cases hj : i = j
  · subst hj
    rw [List.getElem?_set_self (List.getElem?_eq_some_iff.mp hi).1, hi]
    simp [ha]
  · rw [List.getElem?_set_ne hj]
    cases hf : es[j]? with
    | none => rfl
    | some f =>
      have : f.addr ≠ a := fun h => hj (one j f hf h).symm
      simp [this]

theorem State.stageEntry_setStream (u : State) (st : StreamId) (x : StreamRec) (r : RowId) (a : Addr) (m : Mask)
    (d : Word) : (u.setStream st x).stageEntry r a m d = (u.stageEntry r a m d).setStream st x := by
  unfold State.stageEntry
  rw [State.setStream_rows]
  split <;> rfl

/-! ## The write at the store, branch by branch (R10, R18, R26) -/

section
variable {u : State} {st : StreamId} {x : StreamRec} {r : RowId} {q : Request}

theorem State.stageWrite_nothing (hm : q.mask = 0) : u.stageWrite st r q = u.finishWrite st r q.attr := by
  rw [State.stageWrite, if_pos hm]

variable (hm : q.mask ≠ 0)
include hm

theorem State.stageWrite_staged (hl : u.stagingLine st r q.addr = .staged) :
    (u.setStream st x).stageWrite st r q =
      ((u.stageEntry r q.addr q.mask q.data).setStream st x).finishWrite st r q.attr := by
  have hl' : (u.setStream st x).stagingLine st r q.addr = .staged := hl
  rw [State.stageWrite, if_neg hm, hl', State.stageEntry_setStream]

theorem State.stageWrite_new (hl : u.stagingLine st r q.addr = .staged)
    (hn : ∀ e ∈ u.rows[r].entries, e.addr ≠ q.addr) :
    (u.setStream st x).stageWrite st r q =
      ((u.newEntry r q.addr q.mask q.data).setStream st x).finishWrite st r q.attr := by
  rw [State.stageWrite_staged hm hl, State.stageEntry_new _ _ hn]

theorem State.stageWrite_coalesces {i : Nat} {e : Entry} (hc : u.conflicts st q.addr = false)
    (hi : u.rows[r].entries[i]? = some e) (ha : e.addr = q.addr)
    (one : ∀ j f, u.rows[r].entries[j]? = some f → f.addr = q.addr → j = i) :
    (u.setStream st x).stageWrite st r q =
      ((u.setRow r { u.rows[r] with entries := u.rows[r].entries.set i (e.coalesce q.mask q.data) }).setStream st
        x).finishWrite st r q.attr := by
  have hh : ∃ e ∈ u.rows[r].entries, e.addr = q.addr := ⟨e, List.mem_of_getElem? hi, ha⟩
  rw [State.stageWrite_staged hm (State.stagingLine_held hc hh), State.stageEntry_held _ _ hh,
    coalesceIn_eq_set _ _ hi ha one]

theorem State.stageWrite_refused {c : Cause} (hl : u.stagingLine st r q.addr = .refused c) :
    (u.setStream st x).stageWrite st r q = ((u.refusalEvent st c q.addr).setStream st x).refuse st q.attr c := by
  have hl' : (u.setStream st x).stagingLine st r q.addr = .refused c := hl
  rw [State.stageWrite, if_neg hm, hl']
  cases c <;> rfl

theorem State.stageWrite_refused_row {c : Cause} (hx : x.openRow = some r) (ho : u.rows[r].state = .opened)
    (hl : u.stagingLine st r q.addr = .refused c) :
    (u.setStream st x).stageWrite st r q = { u.refusalEvent st c q.addr with
      streams := u.streams.set st (if q.attr = .close then StreamRec.reset else StreamRec.notified c)
      rows := u.rows.set r Row.free
      responses := u.responses ++ [{ stream := st, code := c.response, data := 0 }] } := by
  have ho' : (u.refusalEvent st c q.addr).rows[r].state = .opened := by cases c <;> exact ho
  rw [State.stageWrite_refused hm hl, State.refuse_row _ _ hx ho']
  cases c <;> rfl

/-- A write that must wait: at the tail of the entry wait list, the idle timer held and the stall timer running
(R15, R31, R99). -/
theorem State.stageWrite_waits (hl : u.stagingLine st r q.addr = .waits) :
    (u.setStream st x).stageWrite st r q = { u with
      streams := u.streams.set st { x with idleTimer := none, stallTimer := some (x.stallTimer.getD 0) }
      entryWait := u.entryWait ++ [st] } := by
  have hl' : (u.setStream st x).stagingLine st r q.addr = .waits := hl
  rw [State.stageWrite, if_neg hm, hl']
  simp [-Fin.getElem_fin, State.holdIdle, State.startStall, State.setStream, fin_set_self]

end

/-- The state with the write's data staged, where it brings any (R10, R18). -/
def State.staged (s : State) (r : RowId) (q : Request) : State :=
  if q.mask = 0 then s else s.stageEntry r q.addr q.mask q.data

theorem State.stageWrite_takes {u : State} {st : StreamId} {x : StreamRec} {r : RowId} {q : Request}
    (h : q.mask = 0 ∨ u.stagingLine st r q.addr = .staged) :
    (u.setStream st x).stageWrite st r q = ((u.staged r q).setStream st x).finishWrite st r q.attr := by
  unfold State.staged
  split
  · next h0 => rw [State.stageWrite_nothing h0]
  · next h0 => rw [State.stageWrite_staged h0 (h.resolve_left h0)]

/-- Staging changes its row, and only its entries, and the free-value counter. -/
theorem State.staged_eq (s : State) (r : RowId) (q : Request) :
    ∃ es n, s.rows[r].entries.length ≤ es.length
      ∧ s.staged r q = { s with rows := s.rows.set r { s.rows[r] with entries := es }, freeIndex := n } := by
  unfold State.staged State.stageEntry
  split
  · exact ⟨s.rows[r].entries, s.freeIndex, le_refl _, by rw [fin_set_same]⟩
  · split
    · exact ⟨_, _, by simp [coalesceIn], rfl⟩
    · exact ⟨_, _, by simp, rfl⟩

/-! ## The write carried through (R10, R15, R18 to R22) -/

section
variable {u : State} {st : StreamId} {x : StreamRec} {r : RowId}

/-- A GROUP write is answered DONE and the idle timer restarts (R10, R15). -/
theorem State.finishWrite_done {k : Attr} (hk : k ≠ .close) :
    (u.setStream st x).finishWrite st r k = { u with
      streams := u.streams.set st
        { x with
          outstanding := none, stallTimer := none
          idleTimer := if u.cfg.idleTimeouts[st] = 0 then none else some (u.cfg.idleTimeouts[st] * 1000) }
      responses := u.responses ++ [{ stream := st, code := .done, data := 0 }] } := by
  have hb : (k == Attr.close) = false := by simpa using hk
  simp [-Fin.getElem_fin, State.finishWrite, hb, State.respond, State.restartIdle, State.setStream, State.emit,
    fin_set_self, State.fullIdle, microsPerMilli]

/-- The row's close is admitted: always but in WARN, and in WARN within the budget (R20). -/
theorem State.admits_iff (s : State) (r : RowId) : s.admits r = true ↔
    s.mon.published.state ≠ .warn ∨ 2 * s.rows[r].entries.length + 3 + s.reservation ≤ s.mon.published.budget := by
  simp only [State.admits, Bool.or_eq_true, bne_iff_ne, decide_eq_true_eq]
  rfl

/-- A close whose row holds no entries is answered DURABLE (R19). -/
theorem State.finishWrite_empty (he : u.rows[r].entries = []) :
    (u.setStream st x).finishWrite st r .close = { u with
      streams := u.streams.set st StreamRec.reset
      rows := u.rows.set r Row.free
      responses := u.responses ++ [{ stream := st, code := .durable, data := 0 }] } := by
  simp [-Fin.getElem_fin, -BitVec.ofNat_eq_ofNat, State.finishWrite, State.finishClose, he, State.closeEmpty,
    State.freeRow, State.setRow, State.toIdle, State.respond, State.setStream, State.emit, fin_set_self,
    StreamRec.reset]

variable (he : u.rows[r].entries ≠ [])
include he

/-- An admitted close: its row is CLOSED at the tail of the commit queue, and the journal writer starts if it can
(R22, R52). -/
theorem State.finishWrite_admitted
    (ha : u.mon.published.state ≠ .warn
      ∨ 2 * u.rows[r].entries.length + 3 + u.reservation ≤ u.mon.published.budget) :
    (u.setStream st x).finishWrite st r .close = ({ u with
      streams := u.streams.set st { x with stallTimer := none }
      rows := u.rows.set r { u.rows[r] with state := .closed }
      eng := { u.eng with queue := u.eng.queue ++ [r] } } : State).startJournal := by
  have hb : u.rows[r].entries.isEmpty = false := by simpa using he
  have hadm : (u.setStream st x).admits r = true := (State.admits_iff u r).mpr ha
  simp only [State.finishWrite, State.finishClose, State.setStream_rows, hb, hadm]
  simp [-Fin.getElem_fin, State.enqueueClosed, State.setRow, State.stopStall, State.setStream, fin_set_self]

/-- A close that WARN admission refuses is answered HOLDUP and abandoned (R21). -/
theorem State.finishWrite_holdup (hw : u.mon.published.state = .warn)
    (hb : u.mon.published.budget < 2 * u.rows[r].entries.length + 3 + u.reservation) :
    (u.setStream st x).finishWrite st r .close = ({ u with
      streams := u.streams.set st StreamRec.reset
      rows := u.rows.set r Row.free
      responses := u.responses ++ [{ stream := st, code := .holdup, data := 0 }] } : State).raise .holdupRefused
        { stream := some st
          detail := some (BitVec.ofNat 32 u.mon.published.budget
            ||| BitVec.ofNat 32 ((2 * u.rows[r].entries.length + 3) * 65536)) } := by
  have hne : u.rows[r].entries.isEmpty = false := by simpa using he
  have hadm : ¬ (u.setStream st x).admits r = true := fun h =>
    ((State.admits_iff u r).mp h).elim (· hw) (Nat.not_le.mpr hb)
  simp only [State.finishWrite, State.finishClose, State.setStream_rows, hne, hadm]
  simp [-Fin.getElem_fin, -BitVec.ofNat_eq_ofNat, State.refuseHoldup, State.freeRow, State.setRow, State.toIdle,
    State.respond, State.setStream, State.emit, fin_set_self, StreamRec.reset, holdupDetail, field, Row.cost]

end


/-! ## Opening a group (R7 to R9) -/

section
variable {s : State} {st : StreamId} {q : Request}

theorem State.openingRefusal_halted (hh : s.eng.state = .halted) : s.openingRefusal st q = some .halted := by
  rw [State.openingRefusal, if_pos hh]

variable (hh : s.eng.state ≠ .halted)
include hh

theorem State.openingRefusal_hold (hw : s.mon.published.state = .warn) : s.openingRefusal st q = some .hold := by
  rw [State.openingRefusal, if_neg hh, if_pos hw]

variable (hw : s.mon.published.state ≠ .warn)
include hw

theorem State.openingRefusal_conflict (hc : q.mask ≠ 0 ∧ s.conflicts st q.addr = true) :
    s.openingRefusal st q = some .conflict := by
  rw [State.openingRefusal, if_neg hh, if_neg hw, if_pos hc]

theorem State.openingRefusal_none (hc : ¬ (q.mask ≠ 0 ∧ s.conflicts st q.addr = true)) :
    s.openingRefusal st q = none := by
  rw [State.openingRefusal, if_neg hh, if_neg hw, if_neg hc]

end

/-- The state with a row assigned to the stream: OPEN, owned by it, empty, and the monitor awake (R9, R121). -/
def State.rowOpened (u : State) (st : StreamId) (r : RowId) : State :=
  { u with
    rows := u.rows.set r { owner := some st, state := .opened, entries := [], seq := none, slot := none }
    mon := { u.mon with sampler := u.mon.sampler.wake } }

/-- The record of a stream as a row is assigned to its opening write (R9). -/
def StreamRec.holding (x : StreamRec) (r : RowId) (k : Attr) (idle : Option Nat) : StreamRec :=
  if k = .close then { x with group := .closing, openRow := some r, idleTimer := none }
  else { x with group := .opened, openRow := some r, idleTimer := idle }

theorem StreamRec.holding_openRow (x : StreamRec) (r : RowId) (k : Attr) (idle : Option Nat) :
    (x.holding r k idle).openRow = some r := by
  unfold StreamRec.holding; split <;> rfl

section
variable {u : State} {st : StreamId} {x : StreamRec} {r : RowId} {q : Request}

theorem State.assignRow_eq (k : Attr) :
    (u.setStream st x).assignRow st r k =
      (u.rowOpened st r).setStream st (x.holding r k (u.fullIdle st)) := by
  unfold State.assignRow StreamRec.holding
  dsimp only
  have he : (k == Attr.close) = true ↔ k = .close := beq_iff_eq
  split <;> rename_i hk
  · rw [if_pos (he.mp hk)]
    simp [-Fin.getElem_fin, State.setRow, State.noteRowInUse, State.setStream, fin_set_self, State.rowOpened, Row.free]
  · rw [if_neg (mt he.mpr hk)]
    simp only [State.setRow, State.noteRowInUse, State.setStream, fin_set_self, Vector.set_set, State.rowOpened,
      Row.free]
    rfl

theorem State.openWrite_refused {c : Cause} (hx : x.openRow = none) (h : u.openingRefusal st q = some c) :
    (u.setStream st x).openWrite st q = { u.refusalEvent st c q.addr with
      streams := u.streams.set st (if q.attr = .close then StreamRec.reset else StreamRec.notified c)
      responses := u.responses ++ [{ stream := st, code := c.response, data := 0 }] } := by
  have h' : (u.setStream st x).openingRefusal st q = some c := h
  have e : (u.setStream st x).refusalEvent st c q.addr = (u.refusalEvent st c q.addr).setStream st x := by
    cases c <;> rfl
  rw [State.openWrite, h']
  dsimp only
  rw [e, State.refuse_noRow _ _ hx]
  cases c <;> rfl

theorem State.openWrite_opens (h : u.openingRefusal st q = none) (hl : u.lowestFree = some r) :
    (u.setStream st x).openWrite st q =
      ((u.rowOpened st r).setStream st (x.holding r q.attr (u.fullIdle st))).stageWrite st r q := by
  have h' : (u.setStream st x).openingRefusal st q = none := h
  have hl' : (u.setStream st x).lowestFree = some r := hl
  rw [State.openWrite, h']
  dsimp only
  rw [hl', ← State.assignRow_eq]

/-- With no FREE row the opening write waits at the tail of the row wait, its stall timer running (R8, R99). -/
theorem State.openWrite_waits (h : u.openingRefusal st q = none) (hl : u.lowestFree = none) :
    (u.setStream st x).openWrite st q = { u with
      streams := u.streams.set st { x with stallTimer := some (x.stallTimer.getD 0) }
      rowWait := u.rowWait ++ [st] } := by
  have h' : (u.setStream st x).openingRefusal st q = none := h
  have hl' : (u.setStream st x).lowestFree = none := hl
  rw [State.openWrite, h']
  dsimp only
  rw [hl']
  simp [-Fin.getElem_fin, State.startStall, State.setStream, fin_set_self]

end

/-! ## What a row put in place does to the store's tests (R24, R34) -/

/-- A row that claims no word of the stream's write brings no conflict. -/
theorem State.conflicts_setRow {s : State} {st : StreamId} {a : Addr} (r : RowId) (row : Row)
    (h : s.conflicts st a = false) (hrow : row.state = .opened → row.owner ≠ some st → ∀ e ∈ row.entries, e.addr ≠ a) :
    (s.setRow r row).conflicts st a = false := by
  rw [State.conflicts_eq_false] at h ⊢
  intro q
  by_cases e : r = q
  · subst e; rw [State.setRow_self]; exact hrow
  · rw [State.setRow_ne _ _ e]; exact h q

theorem State.freeEntries_setRow (s : State) (r : RowId) {row : Row}
    (h : row.entries.length = s.rows[r].entries.length) : (s.setRow r row).freeEntries = s.freeEntries := by
  have := s.usedEntries_set r row
  simp only [State.freeEntries]
  omega

section
variable {u : State} {st : StreamId} {r : RowId} {a : Addr} (hr : u.rows[r] = Row.free)

theorem State.rowOpened_row : (u.rowOpened st r).rows[r] =
    { owner := some st, state := .opened, entries := [], seq := none, slot := none } := by
  rw [State.rowOpened, fin_set_self]

theorem State.rowOpened_conflicts (h : u.conflicts st a = false) : (u.rowOpened st r).conflicts st a = false :=
  u.conflicts_setRow r _ h fun _ h => absurd rfl h

include hr

theorem State.rowOpened_freeEntries : (u.rowOpened st r).freeEntries = u.freeEntries :=
  u.freeEntries_setRow r (by rw [hr]; rfl)

/-- Freed again, the row is as it was. -/
theorem State.rowOpened_set_free : (u.rowOpened st r).rows.set r Row.free = u.rows := by
  rw [State.rowOpened, Vector.set_set, ← hr, fin_set_same]

/-- In the row just opened the store decides alone (R26). -/
theorem State.rowOpened_stagingLine (h : u.conflicts st a = false) :
    (u.rowOpened st r).stagingLine st r a =
      if u.freeEntries = 0 then (if u.eng.queue = [] then .refused .overflow else .waits) else .staged := by
  rw [State.stagingLine_store (State.rowOpened_conflicts h), State.rowOpened_freeEntries hr]
  · rfl
  · rw [State.rowOpened_row]; simp
  · rw [State.rowOpened_row]; simp

/-- Opening a row and staging at most one entry in it gives nothing back: the waits stand. -/
theorem State.waitsStand.rowOpened {t : State} {row : Row} (h : u.waitsStand) (he : t.entryWait = u.entryWait)
    (hw : t.rowWait = u.rowWait) (ht : t.rows = u.rows.set r row) : t.waitsStand :=
  h.set_row he hw ht (by rw [hr]; exact Nat.zero_le _) fun _ => by rw [hr]; rfl

end

theorem State.lowestFree_of_free {s : State} (h : ∃ r : RowId, s.rows[r] = Row.free) : ∃ r, s.lowestFree = some r := by
  obtain ⟨r, hr⟩ := h
  cases hl : s.lowestFree with
  | some q => exact ⟨q, rfl⟩
  | none =>
    rw [State.lowestFree, List.find?_eq_none] at hl
    refine absurd ?_ (hl r (by fin_cases r <;> simp [allRows]))
    rw [hr]; rfl

/-! ## A grouped write taken in IDLE and in OPEN, whichever of the two it is (R7, R10, R18) -/

/-- What a grouped write taken in IDLE does before the services: test 1 of R7, and the opening (R7, R94). -/
def State.opening (s : State) (st : StreamId) (q : Request) : State :=
  if s.wordKind q.addr = .guarded then (s.accept st q).openWrite st q else (s.accept st q).refuseRegion st q

section
variable {s t : State} {st : StreamId} {a : Addr} {m : Mask} {d : Word} (tog : Bool)

theorem exec_groupWrite_idle (h : s.takesWrite st) (hg : s.streams[st].group = .idle)
    (e : s.opening st (writeRequest .group a m d) = t) :
    exec (.groupWrite st a m d tog) s = .next (t.serve.offer.settle tog) :=
  exec_groupWrite_taken h tog (by rw [State.groupWrite_idle _ _ (by rw [State.accept_group, hg])]; exact e)

theorem exec_closeWrite_idle (h : s.takesWrite st) (hg : s.streams[st].group = .idle)
    (e : s.opening st (writeRequest .close a m d) = t) :
    exec (.closeWrite st a m d tog) s = .next (t.serve.offer.settle tog) :=
  exec_closeWrite_taken h tog (by rw [State.closeWrite_idle _ _ (by rw [State.accept_group, hg])]; exact e)

variable {r : RowId} (h : s.takesWrite st) (hg : s.streams[st].group = .opened)
  (hr : s.streams[st].openRow = some r) (hk : s.wordKind a = .guarded)
include h hg hr hk

theorem exec_groupWrite_opened
    (e : (s.setStream st (s.streams[st].writing (writeRequest .group a m d))).stageWrite st r
      (writeRequest .group a m d) = t) :
    exec (.groupWrite st a m d tog) s = .next (t.serve.offer.settle tog) :=
  exec_groupWrite_taken h tog (by rw [hk, State.groupWrite_opened _ hg hr rfl]; exact e)

theorem exec_closeWrite_opened
    (e : (s.setStream st (s.streams[st].writing (writeRequest .close a m d))).stageWrite st r
      (writeRequest .close a m d) = t) :
    exec (.closeWrite st a m d tog) s = .next (t.serve.offer.settle tog) :=
  exec_closeWrite_taken h tog (by rw [hk, State.closeWrite_opened _ hg hr rfl]; exact e)

end

section
variable {s : State} {st : StreamId} {q : Request}

theorem State.opening_region (hr : s.streams[st].openRow = none) (hk : s.wordKind q.addr ≠ .guarded) :
    s.opening st q = { s.raise .region { stream := some st, addr := some q.addr } with
      streams := s.streams.set st (if q.attr = .close then StreamRec.reset else StreamRec.notified .region)
      responses := s.responses ++ [{ stream := st, code := .region, data := 0 }] } := by
  rw [State.opening, if_neg hk]
  exact State.refuse_noRow (u := s.raise .region { stream := some st, addr := some q.addr }) _ _ hr

theorem State.opening_refused {c : Cause} (hk : s.wordKind q.addr = .guarded) (hr : s.streams[st].openRow = none)
    (h : s.openingRefusal st q = some c) :
    s.opening st q = { s.refusalEvent st c q.addr with
      streams := s.streams.set st (if q.attr = .close then StreamRec.reset else StreamRec.notified c)
      responses := s.responses ++ [{ stream := st, code := c.response, data := 0 }] } := by
  rw [State.opening, if_pos hk]
  exact State.openWrite_refused hr h

variable (he : s.eng.state = .running) (hm : s.mon.published.state ≠ .warn)
  (hc : q.mask = 0 ∨ s.conflicts st q.addr = false)
include he hm hc

theorem State.openingRefusal_passed : s.openingRefusal st q = none := by
  refine State.openingRefusal_none (by rw [he]; decide) hm ?_
  rintro ⟨h0, h1⟩
  rcases hc with hc | hc
  · exact h0 hc
  · rw [hc] at h1; cases h1

variable (hk : s.wordKind q.addr = .guarded)
include hk

theorem State.opening_opens {r : RowId} (hl : s.lowestFree = some r) :
    s.opening st q = ((s.rowOpened st r).setStream st
      ({ s.streams[st] with outstanding := some q }.holding r q.attr (s.fullIdle st))).stageWrite st r q := by
  rw [State.opening, if_pos hk]
  exact State.openWrite_opens (State.openingRefusal_passed he hm hc) hl

theorem State.opening_waits (hl : s.lowestFree = none) : s.opening st q = { s with
    streams := s.streams.set st
      { s.streams[st] with outstanding := some q, stallTimer := some (s.streams[st].stallTimer.getD 0) }
    rowWait := s.rowWait ++ [st] } := by
  rw [State.opening, if_pos hk]
  exact State.openWrite_waits (State.openingRefusal_passed he hm hc) hl

end

end Sys2Proof.Machine
end

