-- ==== Sys2Proof/Proofs/StreamsAndResets.lean ====
section
/-! PROOFS. The resets, and the grouped writes from the ABORT to the coalescing GROUP write. -/

namespace Sys2Proof.Proofs

open Sys2Proof Sys2Proof.Machine

/-! ## Resets -/

/-- The state right after reset is inside a reset. -/
theorem reset_resetting : State.Resetting State.reset := by
  have h := State.takeReset_resetting (s := State.reset) (fun _ => rfl) .powerOn
  exact ⟨rfl, rfl, rfl, rfl, rfl, fun _ => rfl, h.port, h.start, h.mon, EventUnit.reset_lawful⟩

/-- Settles O4: the state right after reset is inside a reset, and its power-on condition holds. -/
theorem resetStateIsLawful : Obligations.ResetStateIsLawful :=
  reset_resetting.lawful (.inl rfl)

/-- The part once a reset command has put its condition in place: the close of the step only ends the moment (R116). -/
def resetBy (s : State) (c : ResetCause) (u : StartUp) : State :=
  { s.takeReset c with su := u, bus := { Bus.reset with moment := s.bus.moment + 1 } }

theorem exec_resetLineAssert (s : State) :
    exec .resetLineAssert s = .next (resetBy s .line { s.su.afterReset .line with line := true }) := by
  simp only [exec, execResetLineAssert]
  exact congrArg Host.Outcome.next (State.settle_notStarted (.inl rfl))

theorem exec_powerOn (s : State) (rising : Bool) :
    exec (.powerOn rising) s = .next (resetBy s .powerOn { s.su.afterReset .powerOn with
      powerOn := true, supplyUp := rising, powerOnDelay := if rising then some powerOnTime else none }) := by
  simp only [exec, execPowerOn]
  exact congrArg Host.Outcome.next (State.settle_notStarted (.inl rfl))

/-- Settles O5: every reset command leaves `resetBy`, whose fields are read off. -/
theorem resetsSetEveryBlock : Obligations.ResetsSetEveryBlock := by
  intro s c hc
  obtain ⟨cause, u, hcause, hexec, hu, hline, hpower⟩ : ∃ cause u, cause ≠ .cut ∧ exec c s = .next (resetBy s cause u)
      ∧ (u.opState = .reset ∧ u.image = [] ∧ u.validity = .notRead ∧ u.strapError = false ∧ u.straps = none)
      ∧ (c = .resetLineAssert → u.line = true ∧ u.powerOn = s.su.powerOn)
      ∧ (c ≠ .resetLineAssert → u.powerOn = true ∧ u.line = s.su.line) := by
    rcases hc with rfl | hc
    · exact ⟨.line, _, by decide, exec_resetLineAssert s, ⟨rfl, rfl, rfl, rfl, rfl⟩, fun _ => ⟨rfl, rfl⟩,
        fun h => absurd rfl h⟩
    · have hne : c ≠ .resetLineAssert := by rcases hc with rfl | rfl <;> simp
      obtain ⟨b, rfl⟩ : ∃ b, c = .powerOn b := hc.elim (⟨true, ·⟩) (⟨false, ·⟩)
      exact ⟨.powerOn, _, by decide, exec_powerOn s b, ⟨rfl, rfl, rfl, rfl, rfl⟩, fun h => absurd h hne,
        fun _ => ⟨rfl, rfl⟩⟩
  have hlevel : s.mon.levelAfter cause = none := by
    cases cause with
    | powerOn => rfl
    | line => rfl
    | cut => exact absurd rfl hcause
  obtain ⟨hop, himage, hvalid, hstrap, hstraps⟩ := hu
  have hsampler : (resetBy s cause u).mon.sampler = (s.mon.sampler.rebase s.cfg.divider 40 s.clk.phase).wake := rfl
  refine ⟨_, hexec, rfl, rfl, rfl, rfl, rfl, rfl, rfl, rfl, rfl, hlevel, rfl, rfl, fun k hk => ?_, fun k hk => ?_,
    fun k d p hk => ?_, rfl, rfl, hop, himage, hvalid, hstrap, hstraps, hline, hpower, rfl, rfl, rfl, rfl, rfl, ?_, rfl,
    ?_⟩
  · rw [hsampler, hk]; rfl
  · rw [hsampler, hk]
    simp only [Sampler.rebase]
    split <;> rfl
  · rw [hsampler, hk]; rfl
  · show u.opState.serving = false
    rw [hop]; rfl
  · have hflt : (resetBy s cause u).flt = (u.opState == .safe || u.opState == .fault || false || false) := rfl
    rw [hflt, hop]; rfl

/-! ## ABORT, and a stream in NOTIFY (R12, R14) -/

/-- What an ABORT taken in OPEN leaves before the services: the row freed, the stream IDLE, the answer DONE (R14). -/
def aborted (s : State) (st : StreamId) (r : RowId) : State :=
  { s with
    streams := s.streams.set st StreamRec.reset
    rows := s.rows.set r Row.free
    responses := s.responses ++ [{ stream := st, code := .done, data := 0 }] }

theorem abortWrite_opened {s : State} {st : StreamId} {r : RowId} (q : Request) (hg : s.streams[st].group = .opened)
    (hr : s.streams[st].openRow = some r) (ho : s.rows[r].state = .opened) :
    (s.accept st q).abortWrite st = aborted s st r := by
  have hr' : (s.accept st q).streams[st].openRow = some r := by rw [State.accept_openRow, hr]
  simp only [State.abortWrite, State.accept_group, hg, State.dropOpenRow_opened hr' ho]
  simp [-Fin.getElem_fin, -BitVec.ofNat_eq_ofNat, State.toIdle, State.accept_eq, State.respond, State.setStream,
    State.setRow, State.emit, fin_set_self, StreamRec.reset, aborted]

/-- The bracket of a stream in NOTIFY ended: IDLE, and ABORTED (R12, R14). -/
theorem respond_aborted_idle (s : State) (st : StreamId) (q : Request) :
    ((s.accept st q).toIdle st).respond st .aborted = { s with
      streams := s.streams.set st StreamRec.reset
      responses := s.responses ++ [{ stream := st, code := .aborted, data := 0 }] } := by
  simp [-Fin.getElem_fin, -BitVec.ofNat_eq_ofNat, State.toIdle, State.accept_eq, State.respond, State.setStream,
    State.emit, fin_set_self, StreamRec.reset]

/-- Settles O13, by the state of the stream. -/
theorem abortEndsTheBracket : Obligations.AbortEndsTheBracket := by
  intro s st a m d tog h
  refine ⟨fun hg hw => ?_, fun hg hw => ?_, fun r hg hr ho hn => ?_⟩
  · refine State.waitsStand.next (hw.congr rfl rfl rfl) (exec_abortWrite_taken h tog ?_)
    simp only [State.abortWrite, State.accept_group, hg, State.respond_accept]
  · refine State.waitsStand.next (hw.congr rfl rfl rfl) (exec_abortWrite_taken h tog ?_)
    simp only [State.abortWrite, State.accept_group, hg, respond_aborted_idle]
  · exact (State.settled_and_served (exec_abortWrite_taken h tog (abortWrite_opened _ hg hr ho)) rfl rfl).1 hn

/-- Settles O14. -/
theorem notifyAnswersAborted : Obligations.NotifyAnswersAborted := by
  intro s st a m d tog h hg hw
  constructor
  · refine State.waitsStand.next (hw.congr rfl rfl rfl) (exec_groupWrite_taken h tog ?_)
    rw [State.groupWrite_notify _ _ (by rw [State.accept_group, hg]), State.respond_accept]
  · refine State.waitsStand.next (hw.congr rfl rfl rfl) (exec_closeWrite_taken h tog ?_)
    rw [State.closeWrite_notify _ _ (by rw [State.accept_group, hg]), respond_aborted_idle]

/-! ## Opening writes (R7 to R9) -/

/-- Settles O15: both commands take the same opening, and its first refusing test decides. -/
theorem openingRefusals : Obligations.OpeningRefusals := by
  intro s st a m d tog h hg hr hw refused halted warn
  have both : ∀ {u : State} {c : Cause}, u.waitsStand →
      (∀ k, s.opening st (writeRequest k a m d) = { u with
        streams := s.streams.set st (if k = .close then StreamRec.reset else StreamRec.notified c)
        responses := s.responses ++ [{ stream := st, code := c.response, data := 0 }] }) → refused u c := by
    intro u c hu e
    exact ⟨State.waitsStand.next (hu.congr rfl rfl rfl) (exec_groupWrite_idle tog h hg (e .group)),
      State.waitsStand.next (hu.congr rfl rfl rfl) (exec_closeWrite_idle tog h hg (e .close))⟩
  refine ⟨s.conflicts_iff st a, fun hk => ?_, fun hk hh => ?_, fun hk hh hm => ?_, fun hk hh hm h0 hc => ?_⟩
  · exact both (hw.congr rfl rfl rfl) fun k => State.opening_region hr hk
  · exact both hw fun k => State.opening_refused hk hr (State.openingRefusal_halted hh)
  · exact both hw fun k => State.opening_refused hk hr (State.openingRefusal_hold hh hm)
  · exact both (hw.congr rfl rfl rfl) fun k =>
      State.opening_refused hk hr (State.openingRefusal_conflict hh hm ⟨h0, hc⟩)

/-- Settles O16: the row is opened, the store stages at most one entry in it, and the write is answered. -/
theorem openingGroupWrite : Obligations.OpeningGroupWrite := by
  intro s st r a m d tog h hg hw hk he hm hr below opened
  have hl : s.lowestFree = some r := State.lowestFree_eq_some (by rw [hr]; rfl) below
  have done : ∀ u : State, u.cfg = s.cfg → u.streams = s.streams → u.responses = s.responses → ∀ q : Request,
      (u.setStream st ({ s.streams[st] with outstanding := some q }.holding r .group (s.fullIdle st))).finishWrite
        st r .group = { u with streams := (opened []).streams, responses := (opened []).responses } := by
    intro u hcfg hstreams hresponses q
    rw [State.finishWrite_done (by decide), hcfg, hstreams, hresponses]
    rfl
  refine ⟨fun h0 => ?_, fun h0 hc hf =>
    ⟨(s.rowOpened st r).freshEntry a m d, rfl, rfl, State.freshEntry_lanes _ a m d, ?_⟩⟩
  · refine State.waitsStand.next (hw.rowOpened hr rfl rfl rfl) (exec_groupWrite_idle tog h hg ?_)
    rw [State.opening_opens he hm (.inl h0) hk hl, State.stageWrite_nothing h0]
    exact done (s.rowOpened st r) rfl rfl rfl _
  · refine State.waitsStand.next (hw.rowOpened hr rfl rfl rfl) (exec_groupWrite_idle tog h hg ?_)
    have hline : (s.rowOpened st r).stagingLine st r a = .staged := by
      rw [State.rowOpened_stagingLine hr hc, if_neg hf]
    rw [State.opening_opens he hm (.inr hc) hk hl, State.stageWrite_staged h0 hline, State.stageEntry_new]
    refine (done ((s.rowOpened st r).newEntry r a m d) rfl rfl rfl _).trans ?_
    rw [State.newEntry_eq, State.rowOpened_row]
    simp only [State.rowOpened, opened, Vector.set_set, List.nil_append]
    rw [State.rowOpened_row]; simp

/-- Settles O17: from IDLE the close frees the row it has just opened, from OPEN the one it holds. -/
theorem emptyClosesAreDurableAtOnce : Obligations.EmptyClosesAreDurableAtOnce := by
  refine ⟨fun s st a d tog h hg hk he hm hfree hrows => ?_, fun s st r a d tog h hg hr ho hes hk => ?_⟩
  · obtain ⟨r, hl⟩ := State.lowestFree_of_free hfree
    refine State.settled_and_served (exec_closeWrite_idle tog h hg ?_) rfl rfl
    rw [State.opening_opens he hm (.inl rfl) hk hl, State.stageWrite_nothing rfl]
    refine (State.finishWrite_empty (by rw [State.rowOpened_row])).trans ?_
    rw [State.rowOpened_set_free (hrows r (State.lowestFree_free hl))]
    rfl
  · refine State.settled_and_served (exec_closeWrite_opened tog h hg hr hk ?_) rfl rfl
    rw [State.stageWrite_nothing rfl]
    exact State.finishWrite_empty hes

/-- Settles O18: no FREE row; no entry for a row in OPEN; no entry for a row just opened. -/
theorem groupedWritesThatWait : Obligations.GroupedWritesThatWait := by
  refine ⟨?_, ?_, ?_⟩
  · intro s st a m d tog h hg hst hw hk he hm hc hfull held
    have hl := State.lowestFree_eq_none hfull
    have waits : ∀ k, (held k).waitsStand := fun k => ⟨hw.1, .inr hl⟩
    have e : ∀ k, s.opening st (writeRequest k a m d) = held k := fun k => by
      rw [State.opening_waits he hm hc hk hl, hst]; rfl
    exact ⟨(waits _).next (exec_groupWrite_idle tog h hg (e _)), (waits _).next (exec_closeWrite_idle tog h hg (e _))⟩
  · intro s st r a m d tog h hg hr hst hw hk h0 hc hn hlen hf hq held
    have hline : s.stagingLine st r a = .waits := by rw [State.stagingLine_store hc hn hlen, if_pos hf, if_neg hq]
    have waits : ∀ g k, (held g k).waitsStand := fun g k => ⟨.inr hf, hw.2⟩
    have e : ∀ k, (s.setStream st (s.streams[st].writing (writeRequest k a m d))).stageWrite st r
        (writeRequest k a m d) = held (if k = .close then .closing else .opened) k := fun k => by
      rw [State.stageWrite_waits h0 hline]
      simp [-Fin.getElem_fin, held, StreamRec.writing, hst, hg, writeRequest]
    exact ⟨(waits _ _).next (exec_groupWrite_opened tog h hg hr hk (e .group)),
      (waits _ _).next (exec_closeWrite_opened tog h hg hr hk (e .close))⟩
  · intro s st r a m d tog h hg hst hw hk he hm h0 hc hr below hf hq held
    have hl : s.lowestFree = some r := State.lowestFree_eq_some (by rw [hr]; rfl) below
    have hline : (s.rowOpened st r).stagingLine st r a = .waits := by
      rw [State.rowOpened_stagingLine hr hc, if_pos hf, if_neg hq]
    have waits : ∀ g k, (held g k).waitsStand := fun g k =>
      ⟨.inr ((State.rowOpened_freeEntries (st := st) hr).trans hf),
        .inl (hw.2.resolve_right (by rw [hl]; exact Option.some_ne_none r))⟩
    have e : ∀ k, s.opening st (writeRequest k a m d) = held (if k = .close then .closing else .opened) k := fun k => by
      rw [State.opening_opens he hm (.inr hc) hk hl, State.stageWrite_waits h0 hline]
      cases k <;> simp [-Fin.getElem_fin, held, StreamRec.holding, hst, writeRequest, State.rowOpened]
    exact ⟨(waits _ _).next (exec_groupWrite_idle tog h hg (e .group)),
      (waits _ _).next (exec_closeWrite_idle tog h hg (e .close))⟩

/-! ## A GROUP write in OPEN (R10, R15, R27, R28) -/

/-- Settles O19: mask 0 stages nothing; a word new to the row makes `freshEntry` at the tail. -/
theorem groupWriteMakesAnEntry : Obligations.GroupWriteMakesAnEntry := by
  intro s st r a m d tog h hg hr hw hk answered
  refine ⟨fun h0 => ?_, fun h0 hc hn hlen hf => ⟨s.freshEntry a m d, rfl, rfl, s.freshEntry_lanes a m d, ?_⟩⟩
  · refine State.waitsStand.next (hw.congr rfl rfl rfl) (exec_groupWrite_opened tog h hg hr hk ?_)
    rw [State.stageWrite_nothing h0]
    exact State.finishWrite_done (k := .group) (by decide)
  · refine State.waitsStand.next (hw.set_row rfl rfl rfl (by simp) id) (exec_groupWrite_opened tog h hg hr hk ?_)
    have hline : s.stagingLine st r a = .staged := by rw [State.stagingLine_store hc hn hlen, if_neg hf]
    rw [State.stageWrite_new h0 hline hn]
    exact State.finishWrite_done (k := .group) (by decide)

/-- Settles O20: coalescing changes the one entry for the word in place, lane by lane. -/
theorem groupWriteCoalesces : Obligations.GroupWriteCoalesces := by
  intro s st r a m d tog i e h hg hr hw hk h0 hc hi hea one
  refine ⟨e.coalesce m d, hea, rfl, fun n hn => laneByte_mergeMask m d e.data hn, ?_⟩
  refine State.waitsStand.next (hw.set_row rfl rfl rfl (by simp) id) (exec_groupWrite_opened tog h hg hr hk ?_)
  rw [State.stageWrite_coalesces h0 hc hi hea one]
  exact State.finishWrite_done (k := .group) (by decide)

end Sys2Proof.Proofs
end

