-- ==== Sys2Proof/Proofs/ClosesAndExpiries.lean ====
section
/-! PROOFS. What ends a group: refused writes, closes, and the expiries. -/

namespace Sys2Proof.Proofs

open Sys2Proof Sys2Proof.Machine

/-! ## Refused writes (R10, R11, R13, R29 to R31, R34) -/

/-- A row that is full for the write, or a full store with an empty commit queue, refuses it OVERFLOW (R29, R31). -/
theorem stagingLine_overflow {s : State} {st : StreamId} {r : RowId} {a : Addr} (hc : s.conflicts st a = false)
    (hn : ∀ e ∈ s.rows[r].entries, e.addr ≠ a)
    (hfull : s.rows[r].entries.length = 62 ∨ s.rows[r].entries.length < 62 ∧ s.freeEntries = 0 ∧ s.eng.queue = []) :
    s.stagingLine st r a = .refused .overflow := by
  rcases hfull with hl | ⟨hl, hf, hq⟩
  · exact State.stagingLine_rowFull hc hn hl.ge
  · rw [State.stagingLine_store hc hn hl, if_pos hf, if_pos hq]

/-- Settles O21: in OPEN by the kind or by the staging line, for GROUP and CLOSE alike; and in the row just opened. -/
theorem refusedWritesEndTheGroup : Obligations.RefusedWritesEndTheGroup := by
  refine ⟨?_, ?_, ?_⟩
  · intro s st r a m d tog h hg hr ho broken
    have refused : ∀ {c}, s.wordKind a = .guarded → m ≠ 0 → s.stagingLine st r a = .refused c →
        broken (s.refusalEvent st c a) c := fun {c} hk h0 hl =>
      State.settled_and_served (exec_groupWrite_opened tog h hg hr hk (State.stageWrite_refused_row h0 hr ho hl))
        (by cases c <;> rfl) (by cases c <;> rfl)
    refine ⟨s.conflicts_iff st a, fun hk => ?_, fun hk h0 hc => refused hk h0 (State.stagingLine_conflict hc),
      fun hk h0 hc hn hfull => refused hk h0 (stagingLine_overflow hc hn hfull)⟩
    refine State.settled_and_served (exec_groupWrite_taken h tog ?_) rfl rfl
    rw [State.groupWrite_opened_region _ (by rw [State.accept_group, hg]) (by rw [State.accept_openRow, hr]) hk]
    exact State.refuseRegion_row hr ho
  · intro s st r a m d tog h hg hr ho failed
    have refused : ∀ {c}, s.wordKind a = .guarded → m ≠ 0 → s.stagingLine st r a = .refused c →
        failed (s.refusalEvent st c a) c := fun {c} hk h0 hl =>
      State.settled_and_served (exec_closeWrite_opened tog h hg hr hk (State.stageWrite_refused_row h0 hr ho hl))
        (by cases c <;> rfl) (by cases c <;> rfl)
    refine ⟨fun hk => ?_, fun hk h0 hc => refused hk h0 (State.stagingLine_conflict hc),
      fun hk h0 hc hn hfull => refused hk h0 (stagingLine_overflow hc hn hfull)⟩
    refine State.settled_and_served (exec_closeWrite_taken h tog ?_) rfl rfl
    rw [State.closeWrite_opened_region _ (by rw [State.accept_group, hg]) (by rw [State.accept_openRow, hr]) hk,
      State.enterClosing, State.accept_eq, State.setStream_twice, State.setStream_self]
    exact State.refuseRegion_row hr ho
  · intro s st r a m d tog h hg hk he hm h0 hc hr below hf hq refused
    have hl : s.lowestFree = some r := State.lowestFree_eq_some (by rw [hr]; rfl) below
    have hline : (s.rowOpened st r).stagingLine st r a = .refused .overflow := by
      rw [State.rowOpened_stagingLine hr hc, if_pos hf, if_pos hq]
    have e : ∀ k, s.opening st (writeRequest k a m d) =
        refused (if k = .close then StreamRec.reset else StreamRec.notified .overflow) := fun k => by
      rw [State.opening_opens he hm (.inr hc) hk hl, State.stageWrite_refused_row h0 (StreamRec.holding_openRow ..)
        (by rw [State.rowOpened_row]) hline, State.rowOpened_set_free hr]
      rfl
    have group := State.settled_and_served (s := s) (exec_groupWrite_idle tog h hg (e .group)) rfl rfl
    have close := State.settled_and_served (s := s) (exec_closeWrite_idle tog h hg (e .close)) rfl rfl
    exact ⟨fun hn => ⟨group.1 hn, close.1 hn⟩, group.2, close.2⟩

/-! ## Closes with entries (R18 to R22) -/

/-- Settles O22: the staged data, then the admission; and the same through a row just opened. -/
theorem closeAdmitted : Obligations.CloseAdmitted := by
  refine ⟨?_, ?_⟩
  · intro s st r a m d tog h hg hr hw hk hstage u
    obtain ⟨es, n, hlen, hstaged⟩ := s.staged_eq r (writeRequest .close a m d)
    have hu : u = _ := hstaged
    clear_value u
    subst hu
    refine ⟨State.reservation_eq _, fun hne hadm => ?_⟩
    refine State.waitsStand.next (State.startJournal_waitsStand ?_) (exec_closeWrite_opened tog h hg hr hk ?_)
    · exact hw.set_row rfl rfl (Vector.set_set ..) (by simpa using hlen) (by simp)
    · rw [State.stageWrite_takes hstage, hstaged]
      exact State.finishWrite_admitted hne hadm
  · intro s st r a m d tog h hg hk he hm h0 hc hr below hf
    have hl : s.lowestFree = some r := State.lowestFree_eq_some (by rw [hr]; rfl) below
    have hline : (s.rowOpened st r).stagingLine st r a = .staged := by
      rw [State.rowOpened_stagingLine hr hc, if_neg hf]
    refine ⟨(s.rowOpened st r).freshEntry a m d, rfl, rfl, State.freshEntry_lanes _ a m d, ?_⟩
    intro t
    have e : s.opening st (writeRequest .close a m d) = t := by
      rw [State.opening_opens he hm (.inr hc) hk hl, State.stageWrite_new h0 hline (by rw [State.rowOpened_row]; simp)]
      refine (State.finishWrite_admitted (u := (s.rowOpened st r).newEntry r a m d) ?_ (.inl hm)).trans ?_
      · rw [State.newEntry_eq, fin_set_self]; simp
      · simp only [State.newEntry_eq, fin_set_self, Vector.set_set, State.rowOpened]
        rfl
    have served := exec_closeWrite_idle tog h hg e
    have kept : s.noWaiters → t.noWaiters := fun hn => State.WaitsKept.noWaiters (.startJournal _) ⟨hn.1, hn.2⟩
    exact ⟨fun hn => (kept hn).waitsStand.next served, served⟩

/-- Settles O23: the staged data, then the refusal. -/
theorem closeRefusedHoldup : Obligations.CloseRefusedHoldup := by
  intro s st r a m d tog h hg hr ho hk hstage u cost
  obtain ⟨es, n, -, hstaged⟩ := s.staged_eq r (writeRequest .close a m d)
  have hu : u = _ := hstaged
  clear_value u
  subst hu
  refine ⟨State.reservation_eq _, fun hne hwarn hbudget => ?_⟩
  refine State.settled_and_served (exec_closeWrite_opened tog h hg hr hk ?_) rfl rfl
  rw [State.stageWrite_takes hstage, hstaged]
  refine (State.finishWrite_holdup hne hwarn hbudget).trans ?_
  simp only [Vector.set_set]
  rfl

/-! ## Expiries (R16, R17, R33, R100) -/

/-- Settles O24: the expiry where the timer has counted, and none where it has just been restarted. -/
theorem idleExpiryBreaksTheGroup : Obligations.IdleExpiryBreaksTheGroup := by
  refine ⟨?_, ?_⟩
  · intro s st r c hg hr ho hi hc t
    have counted : s.idleCounted st = true := by
      have hne : some c ≠ s.fullIdle st := by
        unfold State.fullIdle
        split
        · simp
        · next h0 => exact fun he => hc.resolve_left h0 (Option.some.inj he)
      simp [-Fin.getElem_fin, State.idleCounted, hi, hne]
    have e : s.idleExpired st = t := by
      rw [State.idleExpired, State.dropOpenRow_opened hr ho]
      rfl
    refine State.settled_and_served ?_ rfl rfl
    rw [← e]
    simp only [exec, execIdleTimerExpiry, counted, State.afterFree]
    rfl
  · intro s st h0 hi
    have full : s.fullIdle st = some (s.cfg.idleTimeouts[st] * 1000) := if_neg h0
    simp [-Fin.getElem_fin, exec, execIdleTimerExpiry, State.idleCounted, hi, full]

/-- The stream's write leaves its wait list (R8, R33). -/
def leaveWaits (s : State) (st : StreamId) : State :=
  { s with rowWait := s.rowWait.erase st, entryWait := s.entryWait.erase st }

/-- Settles O25: the write leaves its list, and its refusal frees the row it holds, if any. -/
theorem stallExpiryRefusesBusy : Obligations.StallExpiryRefusesBusy := by
  intro s st q c hst hq _ after sole
  have taken : exec (.stallTimerExpiry st) s = .next ((s.stallExpired st q).serve.offer.settle) := by
    simp only [exec, execStallTimerExpiry, State.takeStall, hst, hq, State.afterFree]
  have alone : ∀ rows, sole → (after rows).noWaiters := by
    rintro rows (⟨h1, h2⟩ | ⟨h1, h2⟩) <;> constructor <;> simp [after, h1, h2]
  have both : ∀ {rows}, s.stallExpired st q = after rows →
      (sole → exec (.stallTimerExpiry st) s = .next (after rows).settle)
      ∧ exec (.stallTimerExpiry st) s = .next (after rows).serve.offer.settle := by
    intro rows e
    rw [e] at taken
    exact ⟨fun h => (alone rows h).waitsStand.next taken, taken⟩
  refine ⟨fun hr => both ?_, fun r hr ho => both ?_⟩
  · exact congrArg (State.raise · .stall _) (State.refuse_ownNoRow (u := leaveWaits s st) _ _ hr)
  · exact congrArg (State.raise · .stall _) (State.refuse_ownRow (u := leaveWaits s st) _ _ hr ho)

end Sys2Proof.Proofs
end

