-- ==== Sys2Proof/Proofs/ServicesAndHalt.lean ====
section
/-! PROOFS. The service of the wait lists turn by turn, the retirement, and the halt. -/

namespace Sys2Proof.Machine

/-! ## One turn of `serve` (R32) -/

/-- The head of the entry wait list off the list, its entry at the tail of its row (R28, R32). -/
def State.headStaged (s : State) (rest : List StreamId) (r : RowId) (q : Request) : State :=
  { s with
    rows := s.rows.set r { s.rows[r] with entries := s.rows[r].entries ++ [s.freshEntry q.addr q.mask q.data] }
    entryWait := rest, freeIndex := s.freeIndex + 1 }

theorem State.headStaged_row (s : State) (rest : List StreamId) (r : RowId) (q : Request) :
    (s.headStaged rest r q).rows[r] =
      { s.rows[r] with entries := s.rows[r].entries ++ [s.freshEntry q.addr q.mask q.data] } := by
  rw [State.headStaged, fin_set_self]

theorem State.headStaged_length (s : State) (rest : List StreamId) (r : RowId) (q : Request) :
    (s.headStaged rest r q).rows[r].entries.length = s.rows[r].entries.length + 1 := by
  rw [State.headStaged_row, List.length_append]; rfl

theorem State.headStaged_entries (s : State) (rest : List StreamId) (r : RowId) (q : Request) :
    (s.headStaged rest r q).rows[r].entries ≠ [] :=
  List.ne_nil_of_length_pos (by rw [State.headStaged_length]; exact Nat.succ_pos _)

section
variable {s : State} {st : StreamId} {rest : List StreamId} {q : Request} {r : RowId}
  (hw : s.entryWait = st :: rest) (hf : s.freeEntries ≠ 0) (hq : s.streams[st].outstanding = some q)
  (hr : s.streams[st].openRow = some r)
include hw hf hq hr

/-- The head meets a conflict: it is refused and its row freed. -/
theorem State.serve_refuses (hc : s.conflicts st q.addr = true) (ho : s.rows[r].state = .opened) :
    s.serve = ({ s.raise .conflict { stream := some st, addr := some q.addr } with
      streams := s.streams.set st (if q.attr = .close then StreamRec.reset else StreamRec.notified .conflict)
      rows := s.rows.set r Row.free, entryWait := rest
      responses := s.responses ++ [{ stream := st, code := .conflict, data := 0 }] } : State).serve := by
  rw [State.serve_cons hw hf]
  have hc' : ({ s with entryWait := rest } : State).conflicts st q.addr = true := hc
  simp only [State.restage, hq, hr, hc']
  exact congrArg State.serve (State.refuse_ownRow
    (u := ({ s with entryWait := rest } : State).raise .conflict { stream := some st, addr := some q.addr }) _ _ hr ho)

/-- The head takes a free entry, and its write is carried through. -/
theorem State.serve_stages (hc : s.conflicts st q.addr = false) :
    s.serve = (((s.headStaged rest r q).setStream st s.streams[st]).finishWrite st r q.attr).serve := by
  rw [State.serve_cons hw hf]
  have hc' : ({ s with entryWait := rest } : State).conflicts st q.addr = false := hc
  have same : (s.headStaged rest r q).setStream st s.streams[st] = s.headStaged rest r q :=
    (s.headStaged rest r q).setStream_same st
  simp only [State.restage, hq, hr, hc', same]
  rfl

/-- A GROUP write at the head takes a free entry and is answered DONE. -/
theorem State.serve_answers (hc : s.conflicts st q.addr = false) (hk : q.attr ≠ .close) :
    s.serve = ({ s.headStaged rest r q with
      streams := s.streams.set st
        { s.streams[st] with
          outstanding := none, stallTimer := none
          idleTimer := if s.cfg.idleTimeouts[st] = 0 then none else some (s.cfg.idleTimeouts[st] * 1000) }
      responses := s.responses ++ [{ stream := st, code := .done, data := 0 }] } : State).serve := by
  rw [State.serve_stages hw hf hq hr hc, State.finishWrite_done hk]
  rfl

/-- A CLOSE at the head takes a free entry and is admitted: its row is CLOSED, and the journal writer starts if it can
(assumption 33). -/
theorem State.serve_admits (hc : s.conflicts st q.addr = false) (hk : q.attr = .close)
    (ha : s.mon.published.state ≠ .warn
      ∨ 2 * (s.rows[r].entries.length + 1) + 3 + (s.headStaged rest r q).reservation ≤ s.mon.published.budget) :
    s.serve = ({ s.headStaged rest r q with
      streams := s.streams.set st { s.streams[st] with stallTimer := none }
      rows := s.rows.set r
        { s.rows[r] with entries := s.rows[r].entries ++ [s.freshEntry q.addr q.mask q.data], state := .closed }
      eng := { s.eng with queue := s.eng.queue ++ [r] } } : State).startJournal.serve := by
  rw [State.serve_stages hw hf hq hr hc, hk]
  have admitted := State.finishWrite_admitted (st := st) (x := s.streams[st]) (s.headStaged_entries rest r q)
    (by rw [State.headStaged_length]; exact ha)
  rw [admitted, State.headStaged_row]
  simp only [State.headStaged, Vector.set_set]

/-- A CLOSE at the head that WARN admission refuses is answered HOLDUP, and its row is freed (R21). -/
theorem State.serve_holdup (hc : s.conflicts st q.addr = false) (hk : q.attr = .close)
    (hwarn : s.mon.published.state = .warn)
    (hb : s.mon.published.budget
      < 2 * (s.rows[r].entries.length + 1) + 3 + (s.headStaged rest r q).reservation) :
    s.serve = (({ s.headStaged rest r q with
      streams := s.streams.set st StreamRec.reset
      rows := s.rows.set r Row.free
      responses := s.responses ++ [{ stream := st, code := .holdup, data := 0 }] } : State).raise .holdupRefused
        { stream := some st
          detail := some (BitVec.ofNat 32 s.mon.published.budget
            ||| BitVec.ofNat 32 ((2 * (s.rows[r].entries.length + 1) + 3) * 65536)) }).serve := by
  rw [State.serve_stages hw hf hq hr hc, hk]
  have refused := State.finishWrite_holdup (st := st) (x := s.streams[st]) (s.headStaged_entries rest r q) hwarn
    (by rw [State.headStaged_length]; exact hb)
  rw [refused, State.headStaged_length]
  simp only [State.headStaged, Vector.set_set]

end

/-! ## One turn of `offer` (R8) -/

section
variable {s : State} {st : StreamId} {rest : List StreamId} {q : Request} {r : RowId}
  (hw : s.rowWait = st :: rest) (hl : s.lowestFree = some r) (hq : s.streams[st].outstanding = some q)
include hw hl hq

theorem State.offer_refuses {c : Cause} (hr : s.streams[st].openRow = none) (h : s.openingRefusal st q = some c) :
    s.offer = ({ s.refusalEvent st c q.addr with
      streams := s.streams.set st (if q.attr = .close then StreamRec.reset else StreamRec.notified c)
      rowWait := rest
      responses := s.responses ++ [{ stream := st, code := c.response, data := 0 }] } : State).offer := by
  have e := State.openWrite_refused (u := { s with rowWait := rest }) (st := st) hr h
  rw [State.setStream_same] at e
  rw [State.offer_cons hw hl hq, e]
  cases c <;> rfl

theorem State.offer_opens (h : s.openingRefusal st q = none) :
    s.offer = ((({ s with rowWait := rest } : State).assignRow st r q.attr).stageWrite st r q).offer := by
  have h' : ({ s with rowWait := rest } : State).openingRefusal st q = none := h
  have hl' : ({ s with rowWait := rest } : State).lowestFree = some r := hl
  rw [State.offer_cons hw hl hq, State.openWrite, h']
  dsimp only
  rw [hl']

end

end Sys2Proof.Machine

namespace Sys2Proof.Proofs

open Sys2Proof Sys2Proof.Machine

/-- The ABORT's row gives back its entries: the store is no longer full (R24). -/
theorem freeEntries_freed {s : State} {r : RowId} (hne : s.rows[r].entries ≠ []) (hfull : s.usedEntries = 256) :
    (s.setRow r Row.free).freeEntries ≠ 0 := by
  have used := s.usedEntries_set r Row.free
  have pos : 0 < s.rows[r].entries.length := List.length_pos_iff.mpr hne
  have none : Row.free.entries.length = 0 := rfl
  simp only [State.freeEntries, storeSize]
  omega

/-! ## What an ABORT serves (R6, R8, R32, R44) -/

section
variable {s : State} {st w : StreamId} {r : RowId} {q : Request} (hsw : st ≠ w)
  (hq : s.streams[w].outstanding = some q) (hk : q.attr = .group)
include hsw hq hk

/-- A GROUP write that waits for an entry takes one that the ABORT has freed. -/
theorem aborted_serves_entry {k : RowId} (hrk : r ≠ k) (hne : s.rows[r].entries ≠ []) (hfull : s.usedEntries = 256)
    (hew : s.entryWait = [w]) (hrw : s.rowWait = []) (hwr : s.streams[w].openRow = some k)
    (hc : s.conflicts w q.addr = false) :
    (aborted s st r).serve.offer = { s with
      streams := (s.streams.set st StreamRec.reset).set w
        { s.streams[w] with
          outstanding := none, stallTimer := none
          idleTimer := if s.cfg.idleTimeouts[w] = 0 then none else some (s.cfg.idleTimeouts[w] * 1000) }
      rows := (s.rows.set r Row.free).set k
        { s.rows[k] with entries := s.rows[k].entries ++ [s.freshEntry q.addr q.mask q.data] }
      entryWait := []
      responses := s.responses
        ++ [{ stream := st, code := .done, data := 0 }, { stream := w, code := .done, data := 0 }]
      freeIndex := s.freeIndex + 1 } := by
  have hrec : (aborted s st r).streams[w] = s.streams[w] := fin_set_ne _ _ hsw
  have hrow : (aborted s st r).rows[k] = s.rows[k] := fin_set_ne _ _ hrk
  have hnoconf : (aborted s st r).conflicts w q.addr = false := s.conflicts_setRow r Row.free hc (by simp [Row.free])
  have turn := (State.serve_answers (s := aborted s st r) hew (freeEntries_freed hne hfull) (hrec ▸ hq) (hrec ▸ hwr)
    hnoconf (by rw [hk]; decide)).trans (State.serve_eq_self (.inl rfl))
  have nobody : (aborted s st r).serve.rowWait = [] := by rw [turn]; exact hrw
  rw [State.offer_eq_self (.inl nobody), turn, State.headStaged, hrec, hrow]
  simp only [aborted, List.append_assoc, List.cons_append, List.nil_append]
  rfl

/-- A GROUP write with mask 0 that waits for a row takes the one that the ABORT has freed. -/
theorem aborted_offers_row (hfull : ∀ p : RowId, s.rows[p].state ≠ .free) (hew : s.entryWait = [])
    (hrw : s.rowWait = [w]) (h0 : q.mask = 0) (he : s.eng.state = .running) (hm : s.mon.published.state ≠ .warn) :
    (aborted s st r).serve.offer = { s with
      streams := (s.streams.set st StreamRec.reset).set w
        { s.streams[w] with
          group := .opened, openRow := some r, outstanding := none, stallTimer := none
          idleTimer := if s.cfg.idleTimeouts[w] = 0 then none else some (s.cfg.idleTimeouts[w] * 1000) }
      rows := s.rows.set r { owner := some w, state := .opened, entries := [], seq := none, slot := none }
      mon := { s.mon with sampler := s.mon.sampler.wake }
      rowWait := []
      responses := s.responses
        ++ [{ stream := st, code := .done, data := 0 }, { stream := w, code := .done, data := 0 }] } := by
  have hrec : (aborted s st r).streams[w] = s.streams[w] := fin_set_ne _ _ hsw
  have hl : (aborted s st r).lowestFree = some r :=
    State.lowestFree_eq_some (by rw [aborted, fin_set_self]; rfl) fun p hp => by
      rw [aborted, fin_set_ne _ _ (ne_of_gt hp)]; exact hfull p
  have passes : (aborted s st r).openingRefusal w q = none := State.openingRefusal_passed he hm (.inl h0)
  have assigned := State.assignRow_eq (u := { aborted s st r with rowWait := [] }) (st := w)
    (x := (aborted s st r).streams[w]) (r := r) q.attr
  rw [State.setStream_same] at assigned
  rw [State.serve_eq_self (s := aborted s st r) (.inl hew),
    State.offer_opens (s := aborted s st r) hrw hl (hrec ▸ hq) passes, assigned, State.stageWrite_nothing h0, hk,
    State.finishWrite_done (by decide), State.offer_eq_self (.inl rfl), hrec]
  simp only [aborted, State.rowOpened, Vector.set_set, List.append_assoc, List.cons_append, List.nil_append]
  rfl

end

/-- Settles O26: two services after an ABORT, and every turn of `serve` and of `offer`. -/
theorem aFreedRowServesTheWaiting : Obligations.AFreedRowServesTheWaiting := by
  refine ⟨?_, ?_, ?_, fun s h => State.serve_eq_self h, ?_, fun s h => State.offer_eq_self h, ?_⟩
  · intro s st w r k a m d tog q h hsw hrk hg hr ho hne hfull hew hrw hq hk hwr hc
    refine ⟨s.freshEntry q.addr q.mask q.data, rfl, rfl, s.freshEntry_lanes _ _ _, ?_⟩
    rw [exec_abortWrite_taken h tog (abortWrite_opened _ hg hr ho),
      aborted_serves_entry hsw hq hk hrk hne hfull hew hrw hwr hc]
  · intro s st w r a m d tog q h hsw hg hr ho hfull hew hrw hq hk h0 _ he hm
    rw [exec_abortWrite_taken h tog (abortWrite_opened _ hg hr ho), aborted_offers_row hsw hq hk hfull hew hrw h0 he hm]
  · intro s st r a m d tog h hg hr ho
    exact exec_abortWrite_taken h tog (abortWrite_opened _ hg hr ho)
  · intro s st rest q r hw hf hq hr
    exact ⟨State.serve_refuses hw hf hq hr, fun hc =>
      ⟨s.freshEntry q.addr q.mask q.data, rfl, rfl, s.freshEntry_lanes _ _ _, State.serve_answers hw hf hq hr hc,
        State.serve_admits hw hf hq hr hc, State.serve_holdup hw hf hq hr hc⟩⟩
  · intro s st rest q r hw hl hq hr halted warn conflict refused
    exact ⟨fun hh => State.offer_refuses hw hl hq hr (State.openingRefusal_halted hh),
      fun hh hm => State.offer_refuses hw hl hq hr (State.openingRefusal_hold hh hm),
      fun hh hm hc => State.offer_refuses hw hl hq hr (State.openingRefusal_conflict hh hm hc),
      fun hh hm hc => State.offer_opens hw hl hq (State.openingRefusal_none hh hm hc)⟩

end Sys2Proof.Proofs
end

