-- ==== Sys2Proof/Proofs/RetirementAndHalt.lean ====
section
/-! PROOFS. The retirement of a row, and the halt against every row, stream and list. -/

namespace Sys2Proof.Machine

/-! ## The halt, part by part (R23, R45, R63 to R65) -/

/-- The halt as it meets the streams: the engine HALTED, a summary asked for, the engine's requests withdrawn, and the
wait lists emptied (R45, R63, R65). -/
def State.halting (s : State) : State :=
  let u := ({ s with eng := { s.eng with state := .halted, jw := none } } : State).askSummary
  { u with bus := u.bus.withdrawEngine, rowWait := [], entryWait := [] }

theorem State.halting_eq (s : State) : s.halting = { s with
    eng := { s.eng with state := .halted, jw := none }, ev := s.askSummary.ev
    bus := s.bus.withdrawEngine, rowWait := [], entryWait := [] } := by
  unfold State.halting State.askSummary
  dsimp only
  split <;> rfl

/-- The halt once every stream has met it, in stream order. -/
def State.haltedStreams (s : State) : State := allStreams.foldl State.haltStream s.halting

/-- The halt: the streams, then the rows of the queue, of which the queue keeps the others (R64). -/
theorem State.halt_eq_rows (s : State) :
    let t := s.haltedStreams.eng.queue.foldl State.haltRow s.haltedStreams
    s.halt = { t with eng := { t.eng with queue := s.haltedStreams.keptQueue } } := rfl

theorem State.haltedStreams_groupSide (s : State) : s.halting.GroupSide s.haltedStreams :=
  .foldl State.GroupSide.haltStream allStreams s.halting

theorem State.haltedStreams_queue (s : State) : s.haltedStreams.eng.queue = s.eng.queue := by
  obtain ⟨a, b, c, h⟩ := s.haltedStreams_groupSide
  rw [h, State.halting_eq]

/-- Beside the streams, the rows, the responses and the queue, the halt leaves what `halting` leaves. -/
theorem State.halt_frame (s : State) : ∃ streams rows rs queue, s.halt = { s.halting with
    streams := streams, rows := rows, responses := s.halting.responses ++ rs
    eng := { s.halting.eng with queue := queue } } := by
  obtain ⟨a, b, c, h⟩ := s.haltedStreams_groupSide.trans
    (.foldl State.GroupSide.haltRow s.haltedStreams.eng.queue s.haltedStreams)
  exact ⟨a, b, c, s.haltedStreams.keptQueue, by rw [State.halt_eq_rows, h]⟩

/-- The requests that wait of the journal writer and the applier are withdrawn, those of the forwarder stay (R65). -/
theorem Bus.withdrawEngine_eq (b : Bus) :
    b.withdrawEngine = { b with waiting := b.waiting.filter fun q => q.purpose.cls = some .f } := by
  have same : b.waiting.filter (fun q => q.purpose.cls == some GrantClass.f)
      = b.waiting.filter fun q => q.purpose.cls = some .f :=
    List.filter_congr fun q _ => by rw [Bool.eq_iff_iff]; simp
  rw [Bus.withdrawEngine, same]

/-! ### Streams and answers -/

theorem State.haltRow_streams (s : State) (r : RowId) :
    (s.haltRow r).streams = s.streams ∧ (s.haltRow r).responses = s.responses := by
  unfold State.haltRow; split <;> exact ⟨rfl, rfl⟩

theorem State.haltRows_streams (l : List RowId) (s : State) :
    (l.foldl State.haltRow s).streams = s.streams ∧ (l.foldl State.haltRow s).responses = s.responses := by
  induction l generalizing s with
  | nil => exact ⟨rfl, rfl⟩
  | cons r l ih =>
    obtain ⟨streams, responses⟩ := ih (s.haltRow r)
    exact ⟨streams.trans (s.haltRow_streams r).1, responses.trans (s.haltRow_streams r).2⟩

/-- The halt leaves every stream's record as R23 says. -/
theorem State.halt_streams (s : State) (st : StreamId) : s.halt.streams[st] = s.streams[st].halted := by
  rw [State.halt_eq_rows]
  dsimp only
  rw [(State.haltRows_streams _ _).1, State.haltedStreams, State.haltStreams_record, State.halting_eq]

/-- The halt answers HALTED in stream order (R23, assumption 32). -/
theorem State.halt_responses (s : State) : s.halt.responses = s.responses
    ++ ((([0, 1, 2, 3] : List StreamId).filter fun st => s.streams[st].answeredHalted).map fun st =>
      ({ stream := st, code := .halted, data := 0 } : Response)) := by
  rw [State.halt_eq_rows]
  dsimp only
  rw [(State.haltRows_streams _ _).2, State.haltedStreams, State.haltStreams_responses, State.halting_eq]

/-! ### Rows and the queue -/

theorem RowState.aborted_iff (x : RowState) : x.aborted = true ↔ x = .closed ∨ x = .journaling := by
  simp [RowState.aborted]

theorem RowState.not_aborted_opened {x : RowState} (h : x = .opened) : x.aborted = false := by rw [h]; rfl

/-- A row that a stream holds in OPEN is freed with the stream, and no other row is. -/
theorem State.haltedStreams_rows (s : State) (r : RowId) :
    ((∃ st, s.haltFrees st r) → s.haltedStreams.rows[r] = Row.free)
      ∧ ((¬ ∃ st, s.haltFrees st r) → s.haltedStreams.rows[r] = s.rows[r]) := by
  have same : (∃ st ∈ allStreams, s.halting.haltFrees st r) ↔ ∃ st, s.haltFrees st r := by
    rw [State.halting_eq]
    exact ⟨fun ⟨st, _, h⟩ => ⟨st, h⟩, fun ⟨st, h⟩ => ⟨st, by fin_cases st <;> simp [allStreams], h⟩⟩
  have rows : s.halting.rows = s.rows := by rw [State.halting_eq]
  obtain ⟨freed, kept⟩ := State.haltStreams_rows allStreams (by decide) s.halting r
  rw [same] at freed kept
  rw [rows] at kept
  exact ⟨freed, kept⟩

/-- The streams' part leaves which rows the halt aborts. -/
theorem State.haltedStreams_aborted (s : State) (r : RowId) :
    s.haltedStreams.rows[r].state.aborted = s.rows[r].state.aborted := by
  obtain ⟨freed, kept⟩ := s.haltedStreams_rows r
  by_cases h : ∃ st, s.haltFrees st r
  · rw [freed h]
    obtain ⟨st, _, _, ho⟩ := h
    rw [RowState.not_aborted_opened ho]
    rfl
  · rw [kept h]

theorem State.halt_rows (s : State) (r : RowId) : s.halt.rows[r] =
    if r ∈ s.eng.queue ∧ s.rows[r].state.aborted = true then Row.free else s.haltedStreams.rows[r] := by
  rw [State.halt_eq_rows]
  dsimp only
  rw [State.haltRows_rows, s.haltedStreams_queue, s.haltedStreams_aborted]

/-- The queue keeps the rows that are neither CLOSED nor JOURNALING (R64). -/
theorem State.halt_queue (s : State) : s.halt.eng.queue =
    s.eng.queue.filter (fun r => s.rows[r].state ≠ .closed ∧ s.rows[r].state ≠ .journaling) := by
  have kept : s.halt.eng.queue = s.haltedStreams.keptQueue := by rw [State.halt_eq_rows]
  rw [kept, State.keptQueue, s.haltedStreams_queue]
  refine List.filter_congr fun r _ => ?_
  rw [s.haltedStreams_aborted, Bool.eq_iff_iff]
  simp [RowState.aborted]

/-! ### One record, case by case (R23) -/

section
variable {x : StreamRec}

theorem StreamRec.halted_notify (h : x.group = .notify) : x.halted = x := by simp only [StreamRec.halted, h]

theorem StreamRec.halted_closing (h : x.group = .closing) : x.halted = .reset := by simp only [StreamRec.halted, h]

theorem StreamRec.halted_idle_plain (ha : x.asks = false) (h : x.group = .idle) : x.halted = x := by
  simp only [StreamRec.halted, h, x.groupedPending_none.mpr ha]

theorem StreamRec.halted_opened_plain (ha : x.asks = false) (h : x.group = .opened) :
    x.halted = { x with group := .notify, openRow := none, notify := some .halted, idleTimer := none } := by
  simp only [StreamRec.halted, h, x.groupedPending_none.mpr ha]

theorem StreamRec.halted_opened_asks (ha : x.asks = true) (h : x.group = .opened) : x.halted = .notified .halted := by
  have hp : x.groupedPending ≠ none := fun hn => by rw [x.groupedPending_none.mp hn] at ha; cases ha
  obtain ⟨k, hk⟩ := Option.ne_none_iff_exists'.mp hp
  simp only [StreamRec.halted, h, hk]

theorem StreamRec.halted_idle_write {q : Request} (hq : x.outstanding = some q) (hw : q.write = true)
    (h : x.group = .idle) (hk : q.attr = .group ∨ q.attr = .close) :
    x.halted = if q.attr = .close then .reset else .notified .halted := by
  have hp : x.groupedPending = some q.attr := by
    rcases hk with hk | hk <;> simp [StreamRec.groupedPending, hq, hw, hk]
  simp only [StreamRec.halted, h, hp]

end

end Sys2Proof.Machine

namespace Sys2Proof.Proofs

open Sys2Proof Sys2Proof.Machine

/-! ## Retirement (R43, R60) -/

/-- Settles O33: the steps of R60 in their order, and what they come to where nobody waits. -/
theorem retireWriteCompletes : Obligations.RetireWriteCompletes := by
  intro s n f w hcarry hp he hap emptied served
  have hfilter : ∀ l : List RowId, l.filter (· != w.row) = l.filter (fun r => decide (r ≠ w.row)) := fun l =>
    List.filter_congr fun r _ => by rw [Bool.eq_iff_iff]; simp
  have done : exec (.retireWriteComplete n) s = .next
      (({ served with
          rows := served.rows.set w.row Row.free
          eng := { served.eng with queue := served.eng.queue.filter (· ≠ w.row), ap := none } }
        : State).offer.startApply).settle := by
    simp only [exec, execRetireWriteComplete,
      State.answered_match hcarry (· == .retire) (by rw [hp]; rfl), State.ifRunning, State.freePort_eng, he,
      State.retireDone, hap, State.leaveQueue, hfilter]
    rfl
  refine ⟨fun hn => ?_, done⟩
  have hserved : served = emptied := State.serve_eq_self (.inl hn.2)
  rw [done, hserved, State.offer_eq_self]
  · simp only [emptied, Vector.set_set]
  · exact .inl hn.1

/-! ## The halt -/

/-- Settles O36, part by part. -/
theorem haltActsOnRowsAndStreams : Obligations.HaltActsOnRowsAndStreams := by
  intro s t asks answered
  obtain ⟨a, b, rs, queue, frame⟩ := s.halt_frame
  rw [State.halting_eq] at frame
  have kept : ∀ r : RowId, s.rows[r].state.aborted = false → s.rows[r].state ≠ .opened → t.rows[r] = s.rows[r] := by
    intro r ha ho
    show s.halt.rows[r] = _
    rw [State.halt_rows, if_neg (by rw [ha]; simp)]
    exact (s.haltedStreams_rows r).2 fun ⟨_, _, _, h⟩ => ho h
  have eng : t.eng = { s.eng with state := .halted, jw := none, queue := t.eng.queue } := by rw [show t = _ from frame]
  refine ⟨s.halt_responses, eng, s.halt_queue, (congrArg State.bus frame).trans s.bus.withdrawEngine_eq,
    (congrArg State.rowWait frame :), (congrArg State.entryWait frame :), (congrArg State.mon frame :),
    (congrArg State.cfg frame :), (congrArg State.su frame :), (congrArg State.clk frame :),
    (congrArg State.recovery frame :), (congrArg State.freeIndex frame :), (congrArg State.pending frame :),
    (congrArg State.ev frame :),
    fun r h => ?_, fun r hr h => ?_, fun st r hg hr ho => ?_, fun st => ?_⟩
  · rcases h with h | h | h | h <;> exact kept r (by rw [h]; rfl) (by rw [h]; decide)
  · exact (s.halt_rows r).trans (if_pos ⟨hr, (RowState.aborted_iff _).mpr h⟩)
  · refine (s.halt_rows r).trans ?_
    rw [if_neg (by rw [RowState.not_aborted_opened ho]; simp)]
    exact (s.haltedStreams_rows r).1 ⟨st, hg, hr, ho⟩
  · intro now after
    have hafter : after = now.halted := s.halt_streams st
    rw [hafter]
    exact ⟨StreamRec.halted_notify, StreamRec.halted_closing, StreamRec.halted_idle_plain,
      StreamRec.halted_opened_plain, StreamRec.halted_opened_asks, fun q hq hw hg =>
        ⟨fun hk => by rw [StreamRec.halted_idle_write hq hw hg (.inl hk), if_neg (by rw [hk]; decide)],
          fun hk => by rw [StreamRec.halted_idle_write hq hw hg (.inr hk), if_pos hk]⟩⟩

end Sys2Proof.Proofs
end

section
/-! PROOFS. Guarded reads answered from the staging store or from memory, and the outcomes of the forwarder's access. -/

namespace Sys2Proof.Machine

/-! ## A guarded read's layers (R37, R39, R40) -/

theorem allSatisfied_iff (ls : List Layer) :
    allSatisfied ls = true ↔ ∀ n < 4, ∃ l ∈ ls, l.mask.getLsbD n = true := by
  simp only [allSatisfied, List.all_eq_true, List.any_eq_true]
  have lanes : ∀ n, n ∈ [0, 1, 2, 3] ↔ n < 4 := fun n => List.mem_range (m := n) (n := 4)
  simp only [lanes]

/-- A lane that some layer supplies has the byte of the first layer that holds it, whatever memory holds (R39). -/
theorem laneByte_mergeLayers_supplied {ls : List Layer} (memory : Word) {n : Nat} (hn : n < 4)
    (h : ∃ l ∈ ls, l.mask.getLsbD n = true) :
    ∃ l, ls.find? (fun l => l.mask.getLsbD n) = some l ∧ laneByte (mergeLayers ls memory) n = laneByte l.data n := by
  obtain ⟨l, hl⟩ := Option.isSome_iff_exists.mp (List.find?_isSome.mpr h)
  exact ⟨l, hl, by rw [laneByte_mergeLayers ls memory hn, hl]⟩

theorem ofLanes_laneByte (w : Word) : ofLanes (laneByte w 3) (laneByte w 2) (laneByte w 1) (laneByte w 0) = w := by
  simp only [ofLanes, laneByte]
  rw [BitVec.extractLsb'_append_extractLsb'_eq_extractLsb' (by omega),
    BitVec.extractLsb'_append_extractLsb'_eq_extractLsb' (by omega),
    BitVec.extractLsb'_append_extractLsb'_eq_extractLsb' (by omega)]
  exact BitVec.extractLsb'_eq_self

/-- With no layer the answer is the word that memory holds (R39). -/
theorem mergeLayers_nil (memory : Word) : mergeLayers [] memory = memory := ofLanes_laneByte memory

/-- The request that becomes outstanding changes nothing that its layers are taken from. -/
theorem State.accept_layersFor (s : State) (st : StreamId) (q : Request) (a : Addr) :
    (s.accept st q).layersFor st a = s.layersFor st a := by
  simp only [State.layersFor_eq, State.accept_group, State.accept_openRow, State.accept_rows, State.accept_eng]

/-- The request as captured takes the place of the request as accepted (R37). -/
theorem State.accept_twice (s : State) (st : StreamId) (q p : Request) :
    (s.accept st q).accept st p = s.accept st p := by
  simp only [State.accept_eq, State.setStream_self, State.setStream_twice]

section
variable {s : State} {st : StreamId} {q : Request}

theorem State.guardedRead_supplied (h : ∀ n < 4, ∃ l ∈ s.layersFor st q.addr, l.mask.getLsbD n = true) :
    (s.accept st q).guardedRead st q = s.respond st .done (mergeLayers (s.layersFor st q.addr) 0) := by
  simp only [State.guardedRead, State.accept_layersFor, (allSatisfied_iff _).mpr h, if_true, State.respond_accept]

theorem State.guardedRead_forwarded (h : ∃ n < 4, ∀ l ∈ s.layersFor st q.addr, l.mask.getLsbD n = false) :
    (s.accept st q).guardedRead st q
      = (s.accept st { q with captured := s.layersFor st q.addr }).ask (.forwarded st) (readAccess q.addr) 1 := by
  have missing : ¬ allSatisfied (s.layersFor st q.addr) = true := by
    obtain ⟨n, hn, hl⟩ := h
    intro all
    obtain ⟨l, hmem, hlane⟩ := (allSatisfied_iff _).mp all n hn
    rw [hl l hmem] at hlane
    contradiction
  simp only [State.guardedRead, State.accept_layersFor, if_neg missing, State.forwardRead, State.accept_twice]

end

theorem exec_plainRead_guarded {s : State} {st : StreamId} {a : Addr} (h : s.takes st) (hk : s.wordKind a = .guarded)
    (m : Mask) (d : Word) (tog : Bool) : exec (.plainRead st .none a m d tog) s = .next
      (((s.accept st (readRequest .none a m d)).guardedRead st (readRequest .none a m d)).settle tog) := by
  have path : ∀ q : Request, q.addr = a → (s.accept st q).plainRead st q = (s.accept st q).guardedRead st q := by
    intro q hq
    simp only [State.plainRead, State.accept_wordKind, hq, hk]
  simp only [exec, execPlainRead, State.request_read h]
  rw [path _ rfl]

/-! ## The outcomes of the forwarder's access (R40, R95, R109) -/

section
variable {s : State} {n : AccessNumber} {f : InFlight} {st : StreamId}

theorem exec_forwardedAccessComplete_eq {q : Request} (h : s.carries n f) (hp : f.purpose = .forwarded st)
    (ho : s.streams[st].outstanding = some q) (d : Word) :
    exec (.forwardedAccessComplete n d) s = .next (s.freePort.respond st .done (q.readData d)).settle := by
  have mine : f.purpose.isForwarded = true := by rw [hp]; rfl
  simp only [exec, execForwardedAccessComplete, State.answered_match h _ mine, State.takeForwarded, hp,
    State.forwardedDone, State.freePort_streams, ho]

theorem exec_memoryErrorAnswer_eq (h : s.carries n f) :
    exec (.memoryErrorAnswer n) s = .next (s.freePort.accessFailed f).settle := by
  simp only [exec, execMemoryErrorAnswer, State.answered_match h (fun _ => true) rfl]

/-- The forwarder has one attempt, and no halt withdraws its interest (R65, R107, R109). -/
theorem State.accessFailed_forwarded (hp : f.purpose = .forwarded st) (ha : f.attempt = 1) :
    s.accessFailed f = s.forwardedFailed st f.access.addr := by
  have notWithdrawn : s.withdrawn (.forwarded st) = false := Bool.and_false _
  simp only [State.accessFailed, hp, notWithdrawn, ha, Purpose.attempts, State.handFailure]
  rfl

end

theorem Request.readData_write {q : Request} (h : q.write = true) (d : Word) : q.readData d = 0 := if_pos h

theorem Request.readData_read {q : Request} (h : q.write = false) (d : Word) :
    q.readData d = mergeLayers q.captured d := by
  simp only [Request.readData, h]
  rfl

end Sys2Proof.Machine

namespace Sys2Proof.Proofs

open Sys2Proof Sys2Proof.Machine

/-- Settles O11: the layers decide between an answer at once and a memory read. -/
theorem guardedReadFromLayers : Obligations.GuardedReadFromLayers := by
  intro s st a m d tog htakes hk layers own
  have taken := exec_plainRead_guarded htakes hk m d tog
  refine ⟨s.layersFor_eq st a, fun supplied => ⟨mergeLayers layers 0, ?_, fun n hn => ?_⟩, fun missing => ?_⟩
  · rw [taken, State.guardedRead_supplied supplied]
    rfl
  · exact laneByte_mergeLayers_supplied 0 hn (supplied n hn)
  · rw [taken, State.guardedRead_forwarded missing]
    rfl

/-- Settles O39: the word answered is `Request.readData`, and the one attempt that fails is handed to the forwarder. -/
theorem forwardedOutcomes : Obligations.ForwardedOutcomes := by
  intro s n f st q d hcarry hp ha ho u
  refine ⟨⟨q.readData d, exec_forwardedAccessComplete_eq hcarry hp ho d, fun hw => Request.readData_write hw d,
    fun hw hc => ?_, fun hw i hi => ?_⟩, ?_, exec_memoryTimeout_eq hcarry⟩
  · rw [Request.readData_read hw, hc, mergeLayers_nil]
  · rw [Request.readData_read hw]
    exact laneByte_mergeLayers q.captured d hi
  · rw [exec_memoryErrorAnswer_eq hcarry, State.accessFailed_forwarded hp ha]
    rfl

end Sys2Proof.Proofs
end

section
/-! PROOFS. The commit engine: the slot search, what the journal writer and the applier start, and the outcomes of
their accesses. -/

namespace Sys2Proof.Machine

/-! ## Which slots are taken (R50) -/

/-- A slot is taken when a row holds it or it is bad (R50). -/
def State.slotTaken (s : State) (k : Nat) : Prop := (∃ r : RowId, s.rows[r].slot = some k) ∨ k ∈ s.eng.badSlots

theorem State.mem_slotsInUse {s : State} {k : Nat} : k ∈ s.slotsInUse ↔ ∃ r : RowId, s.rows[r].slot = some k := by
  rw [State.slotsInUse, State.rows_toList, List.mem_filterMap]
  constructor
  · rintro ⟨row, hrow, hk⟩
    obtain ⟨r, -, rfl⟩ := List.mem_map.mp hrow
    exact ⟨r, hk⟩
  · rintro ⟨r, hk⟩
    exact ⟨s.rows[r], List.mem_map_of_mem (by fin_cases r <;> simp [allRows]), hk⟩

theorem State.length_slotsInUse_le (s : State) : s.slotsInUse.length ≤ 8 :=
  (List.length_filterMap_le _ _).trans_eq Vector.length_toList

theorem State.slotAvailable_iff {s : State} {k : Nat} : s.slotAvailable k = true ↔ ¬ s.slotTaken k := by
  simp [-Fin.getElem_fin, State.slotAvailable, State.slotTaken, State.mem_slotsInUse]

/-- The slot that the search looks at after `i` others: up from the ring head, wrapping after the last (R50). -/
def State.searchPlace (s : State) (i : Nat) : Nat := (s.eng.ringHead + i) % s.slotCount

theorem State.findSlot_eq (s : State) :
    s.findSlot = (((List.range s.slotCount).map s.searchPlace).find? s.slotAvailable).getD s.eng.ringHead := rfl

/-- The search comes to no slot twice before it has seen them all. -/
theorem State.searchPlace_injOn (s : State) : Set.InjOn s.searchPlace (Finset.range s.slotCount) := by
  intro i hi j hj hij
  rw [Finset.coe_range, Set.mem_Iio] at hi hj
  have hmod : i ≡ j [MOD s.slotCount] := Nat.ModEq.add_left_cancel' _ hij
  exact hmod.eq_of_lt_of_lt hi hj

/-- The search meets an available slot: eight rows and the bad slots cannot take every one (R50). -/
theorem State.exists_slotAvailable {s : State} (hN : s.eng.badSlots.length + 8 < s.slotCount) :
    ∃ i < s.slotCount, s.slotAvailable (s.searchPlace i) = true := by
  by_contra! unavailable
  have among : ∀ i ∈ Finset.range s.slotCount, s.searchPlace i ∈ (s.slotsInUse ++ s.eng.badSlots).toFinset := by
    intro i hi
    have taken : s.slotTaken (s.searchPlace i) := by
      have := unavailable i (Finset.mem_range.mp hi)
      rwa [ne_eq, State.slotAvailable_iff, not_not] at this
    rw [List.mem_toFinset, List.mem_append, State.mem_slotsInUse]
    exact taken
  have count := Finset.card_le_card_of_injOn s.searchPlace among s.searchPlace_injOn
  have few := (s.slotsInUse ++ s.eng.badSlots).toFinset_card_le
  have rows := s.length_slotsInUse_le
  rw [Finset.card_range] at count
  rw [List.length_append] at few
  omega

/-- A search that can end with a slot ends with the first that is available (R50). -/
theorem State.findSlot_first {s : State} (h : ∃ i < s.slotCount, s.slotAvailable (s.searchPlace i) = true) :
    ∃ i < s.slotCount, s.findSlot = s.searchPlace i ∧ ¬ s.slotTaken s.findSlot
      ∧ ∀ j < i, s.slotTaken (s.searchPlace j) := by
  obtain ⟨j, hj, havail⟩ := h
  have ends : (((List.range s.slotCount).map s.searchPlace).find? s.slotAvailable).isSome = true :=
    List.find?_isSome.mpr ⟨_, List.mem_map_of_mem (List.mem_range.mpr hj), havail⟩
  obtain ⟨k, hk⟩ := Option.isSome_iff_exists.mp ends
  have found : s.findSlot = k := by rw [State.findSlot_eq, hk, Option.getD_some]
  obtain ⟨free, i, hi, hik, before⟩ := List.find?_eq_some_iff_getElem.mp hk
  simp only [List.length_map, List.length_range, List.getElem_map, List.getElem_range] at hi hik before
  rw [found]
  refine ⟨i, hi, hik.symm, State.slotAvailable_iff.mp free, fun j hj => ?_⟩
  have := before j hj
  rwa [Bool.not_eq_true', ← Bool.not_eq_true, State.slotAvailable_iff, not_not] at this

/-! ## What the journal writer starts and asks for (R51 to R53) -/

section
variable {s : State}

theorem State.startJournal_idle
    (h : s.eng.jw.isSome = true ∨ s.eng.state = .halted ∨ ∀ r ∈ s.eng.queue, s.rows[r].state ≠ .closed) :
    s.startJournal = s := by
  unfold State.startJournal
  split
  · next r hw he hr =>
    have closed : s.rows[r].state = .closed := by simpa using List.find?_some hr
    rcases h with h | h | h
    · rw [hw] at h; contradiction
    · rw [he] at h; contradiction
    · exact absurd closed (h r (List.mem_of_find?_eq_some hr))
  · rfl

/-- The oldest CLOSED row is the first of the queue (R46, R52). -/
theorem State.oldestClosed_eq {before after : List RowId} {r : RowId} (hq : s.eng.queue = before ++ r :: after)
    (hb : ∀ q ∈ before, s.rows[q].state ≠ .closed) (hr : s.rows[r].state = .closed) : s.oldestClosed = some r := by
  have skipped : before.find? (fun q => s.rows[q].state == .closed) = none :=
    List.find?_eq_none.mpr fun q hq => by simpa using hb q hq
  have taken : (r :: after).find? (fun q => s.rows[q].state == .closed) = some r :=
    List.find?_cons_of_pos (by rw [hr]; rfl)
  rw [State.oldestClosed, hq, List.find?_append, skipped, taken, Option.none_or]

theorem State.startJournal_row {r : RowId} (hw : s.eng.jw = none) (he : s.eng.state = .running)
    (hr : s.oldestClosed = some r) : s.startJournal = s.journalRow r := by
  simp only [State.startJournal, hw, he, hr]

/-- The row with the next sequence number, which is the one after it from then on (R51). -/
def State.numberRow (s : State) (r : RowId) : State :=
  { s.setRow r { s.rows[r] with seq := some s.eng.nextSeq } with eng := { s.eng with nextSeq := s.eng.nextSeq + 1 } }

/-- The sequence number given to a row does not move the slot search (R50, R51). -/
theorem State.numberRow_findSlot (s : State) (r : RowId) : (s.numberRow r).findSlot = s.findSlot := by
  refine State.findSlot_congr (fun q => ?_) rfl rfl rfl
  by_cases e : r = q
  · subst e
    rw [State.numberRow, State.setRow_self]
  · rw [State.numberRow, State.setRow_ne _ _ e]

/-- A row started: its sequence number, its slot, JOURNALING, and the header word asked for (R50 to R53). -/
theorem State.journalRow_eq (h : s.eng.nextSeq ≠ 0) (r : RowId) : s.journalRow r =
    ({ s with
        rows := s.rows.set r
          { s.rows[r] with seq := some s.eng.nextSeq, slot := some s.findSlot, state := .journaling }
        eng :=
          { s.eng with
            nextSeq := s.eng.nextSeq + 1, ringHead := s.slotAfter s.findSlot
            jw := some { row := r, progress := 0 } } } : State).ask .journal
      { write := true, addr := s.slotAddr s.findSlot 0, mask := 15
        data := headerWord (s.rows[r].owner.getD 0) s.rows[r].entries.length } 1 := by
  have started : s.journalRow r = (s.numberRow r).allocate r := if_neg h
  rw [started, State.allocate_eq, State.numberRow_findSlot]
  simp only [State.numberRow, State.setRow, fin_set_self, Vector.set_set]
  rfl

/-- The write that the journal writer asks for: the record's word at its place in the slot, the last being the seal
(R53). -/
theorem State.askJournal_eq {w : Work} (h : s.eng.jw = some w) :
    let row := s.rows[w.row]
    s.askJournal = s.ask (if w.progress + 1 = 2 * row.entries.length + 3 then .sealWrite else .journal)
      { write := true, addr := s.slotAddr (row.slot.getD 0) w.progress, mask := 15
        data := (recordWords (row.owner.getD 0) (row.seq.getD 0) row.entries).getD w.progress 0 } 1 := by
  simp only [State.askJournal, h]
  rfl

end

/-! ## What the applier starts and asks for (R58 to R60) -/

theorem retireMark_eq_xor (q : Word) : retireMark q = q ^^^ 0xFFFFFFFF#32 := by
  rw [retireMark, ← BitVec.xor_allOnes]
  rfl

section
variable {s : State}

theorem State.askApply_entry {w : Work} {e : Entry} (h : s.eng.ap = some w)
    (he : s.rows[w.row].entries[w.progress]? = some e) :
    s.askApply = s.ask .apply { write := true, addr := e.addr, mask := e.mask, data := e.data } 1 := by
  simp only [State.askApply, h, he]

theorem State.askApply_retire {w : Work} (h : s.eng.ap = some w)
    (hl : s.rows[w.row].entries.length ≤ w.progress) : s.askApply = s.ask .retire
      { write := true, addr := s.slotAddr (s.rows[w.row].slot.getD 0) 127, mask := 15
        data := s.rows[w.row].seq.getD 0 ^^^ 0xFFFFFFFF#32 } 1 := by
  simp only [State.askApply, h, List.getElem?_eq_none hl, retireMark_eq_xor]
  rfl

theorem State.startApply_idle (h : s.eng.ap.isSome = true ∨ s.eng.state = .halted
    ∨ ∀ r, s.eng.queue.head? = some r → s.rows[r].state ≠ .sealed) : s.startApply = s := by
  unfold State.startApply
  split
  · next r ha he hr =>
    rcases h with h | h | h
    · rw [ha] at h; contradiction
    · rw [he] at h; contradiction
    · exact if_neg (by simpa using h r hr)
  · rfl

theorem State.startApply_head {r : RowId} (ha : s.eng.ap = none) (he : s.eng.state = .running)
    (hr : s.eng.queue.head? = some r) (hs : s.rows[r].state = .sealed) :
    s.startApply = ({ s with
      rows := s.rows.set r { s.rows[r] with state := .applying }
      eng := { s.eng with ap := some { row := r, progress := 0 } } } : State).askApply := by
  have sealed : (s.rows[r].state == RowState.sealed) = true := by rw [hs]; rfl
  simp only [State.startApply, ha, he, hr, if_pos sealed]
  rfl

end

/-! ## A record sealed, and a record that cannot be written (R54, R56, R57) -/

section
variable {s : State} {w : Work}

/-- The durability point of a row: SEALED, the journal writer without a row, the close answered DURABLE and its stream
IDLE; then the engine starts what it can (R54, R58). -/
theorem State.sealDone_eq {st : StreamId} (hw : s.eng.jw = some w)
    (ho : s.rows[w.row].owner = some st) : s.sealDone =
      ({ s with
        rows := s.rows.set w.row { s.rows[w.row] with state := .sealed }
        eng := { s.eng with jw := none }
        streams := s.streams.set st StreamRec.reset
        responses := s.responses ++ [{ stream := st, code := .durable, data := 0 }] }
      : State).startJournal.startApply := by
  simp only [State.sealDone, hw, State.answerDurable, State.setRow, fin_set_self, ho]
  simp [-Fin.getElem_fin, -BitVec.ofNat_eq_ofNat, State.toIdle, State.respond, State.setStream, State.emit,
    fin_set_self, StreamRec.reset]

/-- A journal write that fails for good, with room in the bad-slot list: the row in a new slot (R56). -/
theorem State.journalFailed_reslots {k : Nat} (hw : s.eng.jw = some w)
    (hk : s.rows[w.row].slot = some k) (hroom : s.eng.badSlots.length < 8) :
    let u := s.raise .slotBad { slot := some k }
    s.journalFailed = ({ u with eng := { s.eng with badSlots := s.eng.badSlots ++ [k] } } : State).allocate w.row := by
  simp only [State.journalFailed, hw, hk, maxBadSlots, if_pos hroom]
  rfl

theorem State.journalFailed_halts {k : Nat} (hw : s.eng.jw = some w)
    (hk : s.rows[w.row].slot = some k) (hfull : 8 ≤ s.eng.badSlots.length) :
    s.journalFailed = (s.raise .slotBad { slot := some k }).halt := by
  simp only [State.journalFailed, hw, hk, maxBadSlots, if_neg hfull.not_gt]
  rfl

end

/-! ## Outcomes handed to the engine (R65, R104, R107, R108, R110) -/

section
variable {s : State} {n : AccessNumber} {f : InFlight} {isMine : Purpose → Bool} {act : State → State}

/-- A running engine takes the done answer of its access. -/
theorem State.answered_running (h : s.carries n f) (hp : isMine f.purpose = true) (he : s.eng.state = .running) :
    s.answered n isMine (fun _ s => s.ifRunning act) = act s.freePort := by
  rw [State.answered_match h isMine hp, State.ifRunning, State.freePort_eng, he]

/-- A halted engine discards it (R65, R110). -/
theorem State.answered_halted (h : s.carries n f) (hp : isMine f.purpose = true) (he : s.eng.state = .halted) :
    s.answered n isMine (fun _ s => s.ifRunning act) = s.freePort := by
  rw [State.answered_match h isMine hp, State.ifRunning, State.freePort_eng, he]

theorem Purpose.attempts_le (p : Purpose) : p.attempts ≤ 4 := by cases p <;> simp [Purpose.attempts, maxAttempts]

/-- A failure on attempt 4 goes to its requester while the engine runs (R107, R108). -/
theorem State.accessFailed_last (he : s.eng.state = .running) (ha : f.attempt = 4) :
    s.accessFailed f = s.handFailure f := by
  have kept : ¬ s.withdrawn f.purpose = true := by rw [State.withdrawn, he]; exact Bool.false_ne_true
  rw [State.accessFailed, if_neg kept, if_neg (by rw [ha]; exact f.purpose.attempts_le.not_gt)]

/-- After a halt the failure of the engine's access is discarded (R65, R110). -/
theorem State.accessFailed_halted (he : s.eng.state = .halted)
    (hc : f.purpose.cls = some .jw ∨ f.purpose.cls = some .ap) : s.accessFailed f = s := by
  have withdrawn : s.withdrawn f.purpose = true := by
    rcases hc with hc | hc <;> rw [State.withdrawn, he, hc] <;> rfl
  rw [State.accessFailed, if_pos withdrawn]

theorem exec_memoryErrorAnswer_last (h : s.carries n f) (he : s.eng.state = .running) (ha : f.attempt = 4) :
    exec (.memoryErrorAnswer n) s = .next (s.freePort.handFailure f).settle := by
  rw [exec_memoryErrorAnswer_eq h, State.accessFailed_last (s := s.freePort) he ha]

theorem exec_memoryErrorAnswer_halted (h : s.carries n f) (he : s.eng.state = .halted)
    (hc : f.purpose.cls = some .jw ∨ f.purpose.cls = some .ap) :
    exec (.memoryErrorAnswer n) s = .next s.freePort.settle := by
  rw [exec_memoryErrorAnswer_eq h, State.accessFailed_halted (s := s.freePort) he hc]

end

end Sys2Proof.Machine

namespace Sys2Proof.Proofs

open Sys2Proof Sys2Proof.Machine

/-- Settles O27: the first CLOSED row of the queue is started, or the exhausted numbers halt the engine. -/
theorem journalWriterStartsARow : Obligations.JournalWriterStartsARow := by
  intro s
  refine ⟨State.startJournal_idle, fun before after r hw he hq hb hr => ?_⟩
  rw [State.startJournal_row hw he (State.oldestClosed_eq hq hb hr)]
  exact ⟨fun h => if_pos h, fun h => State.journalRow_eq h r⟩

/-- Settles O28: of at most 16 slots taken one of 28 is left, and the search ends with the first such. -/
theorem slotSearchFindsTheFirstAvailable : Obligations.SlotSearchFindsTheFirstAvailable := by
  intro s hN hbad taken
  exact State.findSlot_first (State.exists_slotAvailable (by omega))

/-- Settles O29: the word asked for is that of the raised progress. -/
theorem journalWriteCompletes : Obligations.JournalWriteCompletes := by
  intro s n f w hcarry hp he hw row
  have mine : (f.purpose == Purpose.journal) = true := by rw [hp]; rfl
  simp only [exec, execJournalWriteComplete, State.answered_running (isMine := (· == .journal)) hcarry mine he,
    State.journalDone, State.freePort_eng, hw]
  rw [State.askJournal_eq rfl]
  simp only [Nat.add_assoc]
  rfl

/-- Settles O30: the seal of the row whose owner waits for it. -/
theorem sealIsTheDurabilityPoint : Obligations.SealIsTheDurabilityPoint := by
  intro s n f w st hcarry hp he hw ho
  have mine : (f.purpose == Purpose.sealWrite) = true := by rw [hp]; rfl
  simp only [exec, execSealComplete, State.answered_running (isMine := (· == .sealWrite)) hcarry mine he,
    State.sealDone_eq (s := s.freePort) hw ho]
  rfl

/-- Settles O31: the applier's first write is that of the head's first entry. -/
theorem applierStartsTheHead : Obligations.ApplierStartsTheHead := by
  intro s
  refine ⟨State.startApply_idle, fun r e es ha he hr hs hes => ?_⟩
  rw [State.startApply_head ha he hr hs, State.askApply_entry (e := e) rfl]
  rw [fin_set_self, hes]
  rfl

/-- Settles O32, by whether an entry is left. -/
theorem applyWriteCompletes : Obligations.ApplyWriteCompletes := by
  intro s n f w hcarry hp he hap row u
  have mine : (f.purpose == Purpose.apply) = true := by rw [hp]; rfl
  have done : exec (.applyWriteComplete n) s = .next
      (if w.progress + 1 < row.entries.length then u
        else u.setRow w.row { row with state := .retiring }).askApply.settle := by
    simp only [exec, execApplyWriteComplete, State.answered_running (isMine := (· == .apply)) hcarry mine he,
      State.applyDone, State.freePort_eng, hap]
    rfl
  refine ⟨fun e hentry => ?_, fun hlast => ?_⟩
  · rw [done, if_pos (List.getElem?_eq_some_iff.mp hentry).1, State.askApply_entry (s := u) rfl hentry]
  · rw [done, if_neg hlast.not_gt, State.askApply_retire rfl (by rw [State.setRow_self]; exact hlast),
      State.setRow_self]
    rfl

/-- Settles O34, by the room in the bad-slot list; every word of the record fails alike. -/
theorem journalWriteFails : Obligations.JournalWriteFails := by
  intro s n f w k hcarry hp ha he hw hk u bad k'
  have failed : exec (.memoryErrorAnswer n) s = .next s.freePort.journalFailed.settle := by
    rw [exec_memoryErrorAnswer_last hcarry he ha]
    rcases hp with hp | hp <;> simp only [State.handFailure, hp]
  refine ⟨fun hroom => ?_, fun hfull => ?_, exec_memoryTimeout_eq hcarry⟩
  · rw [failed, State.journalFailed_reslots (s := s.freePort) hw hk hroom, State.allocate_eq]
    rfl
  · rw [failed, State.journalFailed_halts (s := s.freePort) hw hk hfull]
    rfl

/-- Settles O35, by the purpose of the access that failed. -/
theorem applyFailureHalts : Obligations.ApplyFailureHalts := by
  intro s n f w hcarry ha he hap u
  have seq : u.applySeq = s.rows[w.row].seq := by
    simp only [State.applySeq, u, hap]
  have failed := exec_memoryErrorAnswer_last hcarry he ha
  refine ⟨fun hp => ?_, fun hp => ?_, exec_memoryTimeout_eq hcarry⟩
  · rw [failed, ← seq]
    simp only [State.handFailure, hp, State.applyFailed]
    rfl
  · rw [failed, ← seq]
    simp only [State.handFailure, hp, State.retireFailed]
    rfl

/-- Settles O37: after a halt, without a match, and without a timeout that has counted. -/
theorem discardedAnswers : Obligations.DiscardedAnswers := by
  have closes : ∀ {u v : State}, u = v →
      (.next u.settle : Host.Outcome State Fault Refusal) = .next v.settle := fun h => by rw [h]
  refine ⟨?_, fun s n e d => ⟨rfl, ?_⟩, ?_⟩
  · intro s n f hcarry he t
    have done : ∀ (p : Purpose) (act : State → State), f.purpose = p →
        s.answered n (· == p) (fun _ s => s.ifRunning act) = s.freePort := fun p _ hp =>
      State.answered_halted (isMine := (· == p)) hcarry (by rw [hp]; exact beq_self_eq_true p) he
    have failed : f.purpose.cls = some .jw ∨ f.purpose.cls = some .ap → exec (.memoryErrorAnswer n) s = .next t :=
      exec_memoryErrorAnswer_halted hcarry he
    exact ⟨fun hp => ⟨closes (done .journal _ hp), failed (.inl (by rw [hp]; rfl))⟩,
      fun hp => ⟨closes (done .sealWrite _ hp), failed (.inl (by rw [hp]; rfl))⟩,
      fun hp => ⟨closes (done .apply _ hp), failed (.inr (by rw [hp]; rfl))⟩,
      fun hp => ⟨closes (done .retire _ hp), failed (.inr (by rw [hp]; rfl))⟩⟩
  · intro hno c hc
    simp only [List.mem_cons, List.not_mem_nil, or_false] at hc
    rcases hc with rfl | rfl | rfl | rfl | rfl | rfl | rfl | rfl | rfl | rfl | rfl | rfl <;>
      exact closes (State.answered_noMatch hno _ _)
  · intro s hfull
    cases hport : s.bus.port with
    | none => simp only [exec, execMemoryTimeout, State.timeOut, hport]
    | some f => exact exec_memoryTimeout_full hport (hfull f hport)

end Sys2Proof.Proofs
end

section
/-! PROOFS. A journal record read back: its header, its entries and its seal. -/

namespace Sys2Proof.Machine

/-! ## The header word and an entry's words (R170) -/

section
variable (st : StreamId) {n : Nat}

theorem entryCountOf_headerWord (h : n < 64) : entryCountOf (headerWord st n) = n := by
  rw [entryCountOf, headerWord, bits_or, bits_or, bits_field_above 0 6 16 journalMark (by decide) (by decide),
    bits_field_above 0 6 8 st.val (by decide) (by decide), bits_field_same 0 6 n h (by decide)]
  simp

theorem hasMark_headerWord (h : n < 64) : hasMark (headerWord st n) = true := by
  have owner : st.val < 2 ^ 8 := by omega
  rw [hasMark, headerWord, bits_or, bits_or, bits_field_same 16 16 journalMark (by decide) (by decide),
    bits_field_below 16 16 8 8 st.val owner (by decide), bits_field_below 16 16 0 6 n h (by decide)]
  rfl

theorem headerPasses_headerWord (h1 : 1 ≤ n) (h2 : n ≤ 62) : headerPasses (headerWord st n) = true := by
  have small : n < 64 := by omega
  simp [headerPasses, hasMark_headerWord st small, entryCountOf_headerWord st small, h1, h2, maxRowEntries]

end

theorem addrOf_addrMaskWord (e : Entry) : addrOf (addrMaskWord e) = e.addr := by
  apply BitVec.eq_of_toNat_eq
  show bits (addrMaskWord e) 0 25 = _
  rw [addrMaskWord, bits_or, bits_field_above 0 25 28 e.mask.toNat (by decide) (by decide),
    bits_field_same 0 25 e.addr.toNat e.addr.isLt (by decide), Nat.zero_or]

theorem maskOf_addrMaskWord (e : Entry) : maskOf (addrMaskWord e) = e.mask := by
  apply BitVec.eq_of_toNat_eq
  show bits (addrMaskWord e) 28 4 = _
  rw [addrMaskWord, bits_or, bits_field_same 28 4 e.mask.toNat e.mask.isLt (by decide),
    bits_field_below 28 4 0 25 e.addr.toNat e.addr.isLt (by decide), Nat.or_zero]

/-! ## The words of a record (R53, R68) -/

/-- The words of the entries: two for each, in their order. -/
def entryWords (entries : List Entry) : List Word := entries.flatMap fun e => [addrMaskWord e, e.data]

theorem entryWords_cons (e : Entry) (es : List Entry) :
    entryWords (e :: es) = addrMaskWord e :: e.data :: entryWords es := rfl

theorem length_entryWords (entries : List Entry) : (entryWords entries).length = 2 * entries.length := by
  induction entries with
  | nil => rfl
  | cons e es ih => rw [entryWords_cons, List.length_cons, List.length_cons, List.length_cons, ih]; ring

/-- The two words of an entry stand at twice its place. -/
theorem entryWords_get {entries : List Entry} {k : Nat} {e : Entry} (h : entries[k]? = some e) :
    (entryWords entries)[2 * k]? = some (addrMaskWord e) ∧ (entryWords entries)[2 * k + 1]? = some e.data := by
  induction entries generalizing k with
  | nil => rw [List.getElem?_nil] at h; contradiction
  | cons a es ih =>
    rw [entryWords_cons]
    cases k with
    | zero =>
      rw [List.getElem?_cons_zero, Option.some.injEq] at h
      subst h
      exact ⟨rfl, rfl⟩
    | succ k => exact ih h

section
variable (st : StreamId) (q : Word) (entries : List Entry)

theorem length_recordBody : (recordBody st q entries).length = 2 * entries.length + 2 :=
  congrArg (· + 2) (length_entryWords entries)

theorem length_recordWords : (recordWords st q entries).length = 2 * entries.length + 3 := by
  rw [recordWords, List.length_append, length_recordBody]; rfl

/-- The seal follows the body (R53). -/
theorem recordWords_seal :
    (recordWords st q entries).getD (2 * entries.length + 2) 0 = sealOf (recordBody st q entries)
      ∧ (recordWords st q entries).take (2 * entries.length + 2) = recordBody st q entries := by
  rw [← length_recordBody st q entries, recordWords, List.take_left', List.getD_eq_getElem?_getD,
    List.getElem?_concat_length]
  · exact ⟨rfl, rfl⟩
  · rfl

variable {entries}

theorem recordWords_entry {k : Nat} {e : Entry} (h : entries[k]? = some e) :
    (recordWords st q entries).getD (2 * k + 2) 0 = addrMaskWord e
      ∧ (recordWords st q entries).getD (2 * k + 3) 0 = e.data := by
  obtain ⟨first, second⟩ := entryWords_get h
  have inBody : ∀ {i w}, (entryWords entries)[i]? = some w → (recordWords st q entries).getD (i + 2) 0 = w := by
    intro i w hw
    have hlt : i < (entryWords entries).length := (List.getElem?_eq_some_iff.mp hw).1
    show ((entryWords entries) ++ [sealOf (recordBody st q entries)]).getD i 0 = w
    rw [List.getD_eq_getElem?_getD, List.getElem?_append_left hlt, hw, Option.getD_some]
  exact ⟨inBody first, inBody second⟩

/-- The record passes the three tests of R69. -/
theorem isSealed_recordWords (h1 : 1 ≤ entries.length) (h2 : entries.length ≤ 62) :
    isSealed (recordWords st q entries) = true := by
  obtain ⟨hseal, hbody⟩ := recordWords_seal st q entries
  let header := headerWord st entries.length
  show (headerPasses header && (recordWords st q entries).length == 2 * entryCountOf header + 3
    && (recordWords st q entries).getD (2 * entryCountOf header + 2) 0
      == sealOf ((recordWords st q entries).take (2 * entryCountOf header + 2))) = true
  rw [headerPasses_headerWord st h1 h2, entryCountOf_headerWord st (by omega), length_recordWords, hseal, hbody]
  simp

end

end Sys2Proof.Machine

namespace Sys2Proof.Proofs

open Sys2Proof Sys2Proof.Machine

/-- Settles O58: header, seal and entries, each read from its place in the record. -/
theorem recordReadsBack : Obligations.RecordReadsBack := by
  intro st q entries h1 h2 words
  refine ⟨isSealed_recordWords st q h1 h2, length_recordWords st q entries,
    entryCountOf_headerWord st (by omega), rfl, fun k e hk => ?_⟩
  obtain ⟨first, second⟩ := recordWords_entry st q hk
  rw [first]
  exact ⟨addrOf_addrMaskWord e, maskOf_addrMaskWord e, second⟩

end Sys2Proof.Proofs
end

section
/-! PROOFS. The strapped sizes, and the scan of the recovery pass: the words of a slot, and what they are judged. -/

namespace Sys2Proof.Machine

/-! ## Fields of a slot's words (R69, R77, R170) -/

theorem entryCountOf_eq (w : Word) : entryCountOf w = w.toNat % 64 := by
  simp [entryCountOf, bits_eq]

/-- Tests 1 and 2 of R69, read off the header word. -/
theorem headerPasses_iff (w : Word) :
    headerPasses w = true ↔ w.toNat / 2 ^ 16 = 0x7C3A ∧ 1 ≤ w.toNat % 64 ∧ w.toNat % 64 ≤ 62 := by
  have mark : bits w 16 16 = w.toNat / 2 ^ 16 := by
    rw [bits_eq, Nat.mod_eq_of_lt]
    have := w.isLt
    omega
  simp only [headerPasses, hasMark, mark, journalMark, entryCountOf_eq, maxRowEntries, Bool.and_eq_true, beq_iff_eq,
    decide_eq_true_eq, and_assoc]

/-- The faults of R77, read off an address-and-mask word. -/
theorem entryFault_eq (memWords bridgeBase : Nat) (w : Word) : entryFault memWords bridgeBase w =
    (decide (memWords ≤ w.toNat % 2 ^ 25) || decide (bridgeBase ≤ w.toNat % 2 ^ 25)
      || decide (w.toNat / 2 ^ 28 = 0)) := by
  have addr : (addrOf w).toNat = w.toNat % 2 ^ 25 := by
    rw [addrOf, ← bits, bits_eq, pow_zero, Nat.div_one]
  have mask : (maskOf w == 0) = decide (w.toNat / 2 ^ 28 = 0) := by
    have value : (maskOf w).toNat = w.toNat / 2 ^ 28 := by
      rw [maskOf, ← bits, bits_eq, Nat.mod_eq_of_lt]
      have := w.isLt
      omega
    rw [Bool.eq_iff_iff, beq_iff_eq, decide_eq_true_iff, ← value]
    exact BitVec.toNat_inj.symm
  rw [entryFault, addr, mask]

theorem entryFault_iff (memWords bridgeBase : Nat) (w : Word) : entryFault memWords bridgeBase w = true ↔
    memWords ≤ w.toNat % 2 ^ 25 ∨ bridgeBase ≤ w.toNat % 2 ^ 25 ∨ w.toNat / 2 ^ 28 = 0 := by
  simp only [entryFault_eq, Bool.or_eq_true, decide_eq_true_eq, or_assoc]

/-! ## Reading a slot (R73) -/

section
variable {words : List Word}

theorem nextScanWord_headerFails (hne : words ≠ []) (h : ¬ headerPasses (words.getD 0 0) = true) :
    nextScanWord words = none := by
  obtain ⟨w, ws, rfl⟩ := List.exists_cons_of_ne_nil hne
  have hw : headerPasses w = false := Bool.eq_false_iff.mpr h
  simp only [nextScanWord, hw, Bool.not_false, if_true]

theorem nextScanWord_headerPasses (hne : words ≠ []) (h : headerPasses (words.getD 0 0) = true) :
    nextScanWord words =
      if words.length < 2 * entryCountOf (words.getD 0 0) + 3 then some words.length
      else if words.length = 2 * entryCountOf (words.getD 0 0) + 3 then some 127
      else none := by
  obtain ⟨w, ws, rfl⟩ := List.exists_cons_of_ne_nil hne
  have hw : headerPasses w = true := h
  simp only [nextScanWord, hw, Bool.not_true, Bool.false_eq_true, if_false, retireWord]
  rfl

/-- The third test of R69, for a candidate read to its seal. -/
theorem isSealed_iff {n : Nat} (h : headerPasses (words.getD 0 0) = true) (hn : entryCountOf (words.getD 0 0) = n)
    (hl : words.length = 2 * n + 3) :
    isSealed words = true ↔ words.getD (2 * n + 2) 0 = ~~~ ((words.take (2 * n + 2)).foldl (· + ·) 0) := by
  obtain ⟨w, ws, rfl⟩ := List.exists_cons_of_ne_nil (List.ne_nil_of_length_eq_add_one hl)
  have hw : headerPasses w = true := h
  have hc : entryCountOf w = n := hn
  simp only [isSealed, hw, hc, hl, beq_self_eq_true, Bool.true_and, beq_iff_eq, sealOf, sumWords]

/-- The test read off all the words, the retire word being the last of them. -/
theorem isSealed_concat {n : Nat} (d : Word) (h : headerPasses ((words ++ [d]).getD 0 0) = true)
    (hn : entryCountOf ((words ++ [d]).getD 0 0) = n) (hl : words.length = 2 * n + 3) :
    isSealed words = true ↔
      (words ++ [d]).getD (2 * n + 2) 0 = ~~~ (((words ++ [d]).take (2 * n + 2)).foldl (· + ·) 0) := by
  rw [List.getD_append _ _ _ _ (by omega)] at h hn
  rw [isSealed_iff h hn hl, List.getD_append _ _ _ _ (by omega), List.take_append_of_le_length (by omega)]

end

section
variable {s : State} {r : Recovery} {d : Word}

theorem State.scanDone_reads {w : Nat} (hr : s.recovery = some r)
    (h : nextScanWord (r.scanWords ++ [d]) = some w) :
    s.scanDone d = ({ s with recovery := some { r with scanWords := r.scanWords ++ [d] } } : State).askSlotRead .scan
      r.scanSlot w := by
  simp only [State.scanDone, hr, h]

theorem State.scanDone_judges (hr : s.recovery = some r) (h : nextScanWord (r.scanWords ++ [d]) = none) :
    s.scanDone d = s.nextSlot
      (({ r with scanWords := r.scanWords ++ [d] } : Recovery).judgeSlot s.memWords s.bridgeBase) := by
  simp only [State.scanDone, hr, h]

end

section
variable (r : Recovery) (m b : Nat) (words : List Word) (d : Word)

/-- The last word read is the retire word; the words before it are tested (R69, R70). -/
theorem Recovery.judgeSlot_concat : ({ r with scanWords := words ++ [d] } : Recovery).judgeSlot m b =
    if isSealed words then ({ r with scanWords := words ++ [d] } : Recovery).sealedSlot m b words d
    else { r with scanWords := words ++ [d] } := by
  simp only [Recovery.judgeSlot, List.dropLast_concat, List.getLast?_concat, Option.getD_some]

/-- A sealed slot raises the highest sequence seen; it is retired, or it joins the list (R70, R73, R81). -/
theorem Recovery.sealedSlot_eq : r.sealedSlot m b words d =
    { r with
      highestSeen := raiseSeq r.highestSeen (words.getD 1 0)
      highestSlot := highestSlotAfter r (words.getD 1 0)
      highestRetired :=
        if d = retireMark (words.getD 1 0) then raiseSeq r.highestRetired (words.getD 1 0) else r.highestRetired
      unretired :=
        if d = retireMark (words.getD 1 0) then r.unretired
        else r.unretired ++ [{ slot := r.scanSlot, seq := words.getD 1 0, count := entryCountOf (words.getD 0 0)
                               bad := (entryAddrWords words (entryCountOf (words.getD 0 0))).any
                                 (entryFault m b) }] } := by
  by_cases h : d = retireMark (words.getD 1 0)
  · simp only [Recovery.sealedSlot, if_pos h]
  · simp only [Recovery.sealedSlot, if_neg h]

/-- An entry of the list is marked when one of its words has a fault of R77. -/
theorem any_entryFault (n : Nat) : (entryAddrWords words n).any (entryFault m b) =
    (List.range n).any fun k =>
      decide (m ≤ (words.getD (2 * k + 2) 0).toNat % 2 ^ 25) || decide (b ≤ (words.getD (2 * k + 2) 0).toNat % 2 ^ 25)
        || decide ((words.getD (2 * k + 2) 0).toNat / 2 ^ 28 = 0) := by
  simp only [entryAddrWords, List.any_map, Function.comp_def, entryFault_eq]

variable {words}

/-- The retire word, read last, is none of the entries' words. -/
theorem entryAddrWords_concat {n : Nat} (h : words.length = 2 * n + 3) :
    entryAddrWords (words ++ [d]) n = entryAddrWords words n := by
  refine List.map_congr_left fun k hk => List.getD_append _ _ _ _ ?_
  have := List.mem_range.mp hk
  omega

end

theorem exec_scanReadComplete_eq {s : State} {n : AccessNumber} {f : InFlight} (h : s.carries n f)
    (hp : f.purpose = .scan) (d : Word) :
    exec (.scanReadComplete n d) s = .next (s.freePort.scanDone d).settle := by
  have mine : (f.purpose == Purpose.scan) = true := by rw [hp]; rfl
  simp only [exec, execScanReadComplete, State.answered_match h (· == .scan) mine]

end Sys2Proof.Machine

namespace Sys2Proof.Proofs

open Sys2Proof Sys2Proof.Machine

/-- Settles O8, by the four bridge area sizes. -/
theorem strapGeometry : Obligations.StrapGeometry := by
  intro p
  have hmsz : 1 ≤ 2 ^ p.msz.toNat ∧ 2 ^ p.msz.toNat ≤ 2 ^ 7 :=
    ⟨Nat.one_le_two_pow, Nat.pow_le_pow_right (by decide) (Nat.le_of_lt_succ p.msz.isLt)⟩
  have hbas : p.bas.toNat = 0 ∨ p.bas.toNat = 1 ∨ p.bas.toNat = 2 ∨ p.bas.toNat = 3 := by
    have := p.bas.isLt
    omega
  simp only [slotCountOf, bridgeBaseOf, bridgeWordsOf, memWordsOf, slotWords]
  rcases hbas with h | h | h | h <;> simp only [h, List.getD_cons_zero, List.getD_cons_succ, true_and] <;> omega

/-- Settles O45, by how far the slot has been read and by the seal. -/
theorem scanReadsAndJudgesSlots : Obligations.ScanReadsAndJudgesSlots := by
  intro s n f d r hcarry hp hr words head count header u reading judged
  have done := exec_scanReadComplete_eq hcarry hp d
  have hne : words ≠ [] := List.concat_ne_nil d r.scanWords
  have hcount : entryCountOf head = count := entryCountOf_eq head
  have passes : headerPasses head = true ↔ header := headerPasses_iff head
  have next := fun h => nextScanWord_headerPasses hne (passes.mpr h)
  rw [hcount] at next
  have reads : ∀ {w}, nextScanWord words = some w →
      exec (.scanReadComplete n d) s = .next (reading { r with scanWords := words } r.scanSlot w).settle := by
    intro w hw
    rw [done, State.scanDone_reads (s := s.freePort) hr hw]
    rfl
  have judges : nextScanWord words = none → exec (.scanReadComplete n d) s = .next
      (u.nextSlot (({ r with scanWords := words } : Recovery).judgeSlot s.memWords s.bridgeBase)).settle := by
    intro hw
    rw [done, State.scanDone_judges (s := s.freePort) hr hw]
    rfl
  refine ⟨fun h hl => ?_, fun h hl => ?_, fun h hl => ?_, fun h hl => ?_⟩
  · have hnil : r.scanWords = [] := List.length_eq_zero_iff.mp (by simpa [words] using hl)
    rw [judges (nextScanWord_headerFails hne fun hc => h (passes.mp hc)), Recovery.judgeSlot_concat,
      if_neg (by rw [hnil]; exact Bool.false_ne_true)]
    rfl
  · exact reads (by rw [next h, if_pos hl])
  · exact reads (by rw [next h, if_neg hl.not_lt, if_pos hl])
  · have hlen : r.scanWords.length = 2 * count + 3 := by simpa [words] using hl
    have before : ∀ i, i < 2 * count + 3 → words.getD i 0 = r.scanWords.getD i 0 := fun i hi =>
      List.getD_append _ _ _ _ (by omega)
    intro q matched retired bad raised
    have sealed : isSealed r.scanWords = true ↔ matched := isSealed_concat d (passes.mpr h) hcount hlen
    have ended : nextScanWord words = none := by
      rw [next h, if_neg (by omega), if_neg (by omega)]
    rw [judges ended, Recovery.judgeSlot_concat]
    refine ⟨fun hm => ?_, fun hm => ?_⟩
    · rw [if_neg fun hs => hm (sealed.mp hs)]
      rfl
    · have raise : ∀ seen, raiseSeq seen q = raised seen := by
        intro seen
        cases seen <;> rfl
      rw [if_pos (sealed.mpr hm), Recovery.sealedSlot_eq, ← before 1 (by omega), ← before 0 (by omega), hcount,
        ← entryAddrWords_concat d hlen, any_entryFault]
      change _ = Host.Outcome.next (judged _).settle
      simp only [← raise]
      rfl

end Sys2Proof.Proofs
end

section
/-! PROOFS. The action list of the recovery pass, and the accesses of its actions. -/

namespace Sys2Proof.Machine

/-! ## Sorting the items (R76) -/

/-- The order of the items above F: by sequence number, and by slot within one number. -/
def Item.precedes (a b : Item) : Prop := a.seq < b.seq ∨ (a.seq = b.seq ∧ a.slot < b.slot)

theorem insertItem_eq_orderedInsert (i : Item) (l : List Item) :
    insertItem i l = l.orderedInsert (fun a b => a.seq < b.seq) i := by
  induction l with
  | nil => rfl
  | cons j rest ih => rw [insertItem, List.orderedInsert_cons, ih]

theorem insertItem_perm (i : Item) (l : List Item) : (insertItem i l).Perm (i :: l) := by
  rw [insertItem_eq_orderedInsert]
  exact List.perm_orderedInsert _ i l

/-- An item of a higher slot than those before it takes its place in their order. -/
theorem insertItem_precedes {i : Item} {l : List Item} (h : l.Pairwise Item.precedes)
    (hslot : ∀ j ∈ l, j.slot < i.slot) : (insertItem i l).Pairwise Item.precedes := by
  induction l with
  | nil => exact List.pairwise_singleton _ _
  | cons j rest ih =>
    obtain ⟨hj, hrest⟩ := List.pairwise_cons.mp h
    rw [insertItem]
    split
    · rename_i hlt
      refine List.pairwise_cons.mpr ⟨fun k hk => .inl ?_, h⟩
      rcases List.mem_cons.mp hk with rfl | hk
      · exact hlt
      · rcases hj k hk with hseq | ⟨hseq, -⟩
        · exact BitVec.lt_trans hlt hseq
        · exact hseq ▸ hlt
    · rename_i hge
      refine List.pairwise_cons.mpr ⟨fun k hk => ?_, ih hrest fun k hk => hslot k (List.mem_cons_of_mem j hk)⟩
      rcases List.mem_cons.mp ((insertItem_perm i rest).mem_iff.mp hk) with rfl | hk
      · rcases BitVec.lt_trichotomy j.seq k.seq with hlt | heq | hgt
        · exact .inl hlt
        · exact .inr ⟨heq, hslot j List.mem_cons_self⟩
        · exact absurd hgt hge
      · exact hj k hk

theorem sortItems_concat (l : List Item) (i : Item) : sortItems (l ++ [i]) = insertItem i (sortItems l) :=
  List.foldl_concat _ _ _ _

theorem sortItems_perm (l : List Item) : (sortItems l).Perm l := by
  induction l using List.reverseRecOn with
  | nil => exact .refl _
  | append_singleton l i ih =>
    rw [sortItems_concat]
    exact (insertItem_perm i _).trans ((ih.cons i).trans (List.perm_append_singleton i l).symm)

/-- Items in slot order come out in the order of the pass. -/
theorem sortItems_precedes {l : List Item} (h : l.Pairwise fun i j => i.slot < j.slot) :
    (sortItems l).Pairwise Item.precedes := by
  induction l using List.reverseRecOn with
  | nil => exact .nil
  | append_singleton l i ih =>
    obtain ⟨hl, -, hlast⟩ := List.pairwise_append.mp h
    rw [sortItems_concat]
    exact insertItem_precedes (ih hl) fun j hj =>
      hlast j ((sortItems_perm l).mem_iff.mp hj) i List.mem_cons_self

/-! ## The actions (R75 to R77) -/

section
variable (items : List Item) (f : Word)

theorem isPrincipal_iff (i : Item) :
    isPrincipal items i = true ↔ ¬ ∃ j ∈ items, j.slot < i.slot ∧ j.seq = i.seq := by
  simp only [isPrincipal, List.all_eq_true, Bool.not_eq_true', Bool.and_eq_false_imp, decide_eq_true_eq,
    beq_eq_false_iff_ne, not_exists, not_and, ne_eq]

/-- The items of the action list, stale ones first. -/
theorem buildActions_items : (buildActions items f).map (fun a => a.item) =
    (items.filter fun i => i.seq ≤ f) ++ sortItems (items.filter fun i => f < i.seq) := by
  simp only [buildActions, List.map_append, List.map_map, Function.comp_def, actionOf, List.map_id']

variable {items f}

/-- An action is that of a stale item or of one above F. -/
theorem mem_buildActions {a : Action} (h : a ∈ buildActions items f) :
    (a.item.seq ≤ f ∧ a.kind = .retireOnly) ∨ (f < a.item.seq ∧ a = actionOf items a.item) := by
  rcases List.mem_append.mp h with h | h
  · obtain ⟨i, hi, rfl⟩ := List.mem_map.mp h
    exact .inl ⟨of_decide_eq_true (List.mem_filter.mp hi).2, rfl⟩
  · obtain ⟨i, hi, rfl⟩ := List.mem_map.mp h
    have above := List.mem_filter.mp ((sortItems_perm _).mem_iff.mp hi)
    exact .inr ⟨of_decide_eq_true above.2, rfl⟩

theorem buildActions_kind {a : Action} (h : a ∈ buildActions items f) : a.kind =
    if a.item.seq ≤ f ∨ (∃ j ∈ items, j.slot < a.item.slot ∧ j.seq = a.item.seq) then .retireOnly
    else if a.item.bad then .discard else .replay := by
  rcases mem_buildActions h with ⟨stale, hk⟩ | ⟨above, ha⟩
  · rw [hk, if_pos (.inl stale)]
  · have hk : a.kind = if isPrincipal items a.item then (if a.item.bad then .discard else .replay) else .retireOnly :=
      congrArg Action.kind ha
    by_cases copy : ∃ j ∈ items, j.slot < a.item.slot ∧ j.seq = a.item.seq
    · rw [hk, if_neg (fun p => (isPrincipal_iff items _).mp p copy), if_pos (.inr copy)]
    · rw [hk, if_pos ((isPrincipal_iff items _).mpr copy), if_neg (not_or.mpr ⟨BitVec.not_le.mpr above, copy⟩)]

/-- The order of the actions is that of their items: the stale ones in slot order, then the others in the order of the
pass. -/
theorem buildActions_pairwise (h : items.Pairwise fun i j => i.slot < j.slot) :
    (buildActions items f).Pairwise fun a b =>
      (b.item.seq ≤ f → a.item.seq ≤ f ∧ a.item.slot < b.item.slot) ∧ (f < a.item.seq → a.item.precedes b.item) := by
  rw [← List.pairwise_map (f := fun a : Action => a.item)
    (R := fun a b => (b.seq ≤ f → a.seq ≤ f ∧ a.slot < b.slot) ∧ (f < a.seq → a.precedes b)), buildActions_items]
  have stale : ∀ i ∈ items.filter fun i => i.seq ≤ f, i.seq ≤ f := fun i hi =>
    of_decide_eq_true (List.mem_filter.mp hi).2
  have above : ∀ i ∈ sortItems (items.filter fun i => f < i.seq), f < i.seq := fun i hi =>
    of_decide_eq_true (List.mem_filter.mp ((sortItems_perm _).mem_iff.mp hi)).2
  refine List.pairwise_append.mpr ⟨?_, ?_, fun a ha b hb => ?_⟩
  · refine (h.filter _).imp_of_mem fun {a b} ha _ hlt => ⟨fun _ => ⟨stale a ha, hlt⟩, fun hf => ?_⟩
    exact absurd (stale a ha) (BitVec.not_le.mpr hf)
  · refine (sortItems_precedes (h.filter _)).imp_of_mem fun {a b} _ hb hab => ⟨fun hf => ?_, fun _ => hab⟩
    exact absurd hf (BitVec.not_le.mpr (above b hb))
  · exact ⟨fun hf => absurd hf (BitVec.not_le.mpr (above b hb)), fun hf => absurd (stale a ha) (BitVec.not_le.mpr hf)⟩

end

/-! ## The accesses of an action (R77 to R79) -/

section
variable {s : State} {r : Recovery} {a : Action} {rest : List Action}

theorem State.beginAction_cons (h : r.actions = a :: rest) : s.beginAction r =
    if a.kind = .replay then
      ({ s with recovery := some { r with replayEntry := 0, replayAddr := none } } : State).askSlotRead .replayRead
        a.item.slot 2
    else ({ s with recovery := some { r with replayEntry := 0, replayAddr := none } } : State).askRecoveryRetire
      a.item := by
  simp only [State.beginAction, h]
  cases a.kind <;> rfl

variable (hr : s.recovery = some r) (ha : r.actions = a :: rest)
include hr ha

theorem State.replayReadDone_addr (h : r.replayAddr = none) (d : Word) : s.replayReadDone d =
    ({ s with recovery := some { r with replayAddr := some d } } : State).askSlotRead .replayRead a.item.slot
      (2 * r.replayEntry + 3) := by
  simp only [State.replayReadDone, hr, ha, h]

theorem State.replayReadDone_data {w : Word} (h : r.replayAddr = some w) (d : Word) : s.replayReadDone d =
    if entryFault s.memWords s.bridgeBase w then s.turnToDiscard r a rest
    else s.askSolo .replayWrite { write := true, addr := addrOf w, mask := maskOf w, data := d } 1 := by
  simp only [State.replayReadDone, hr, ha, h]

theorem State.replayWriteDone_eq : s.replayWriteDone =
    if r.replayEntry + 1 < a.item.count then
      ({ s with recovery := some { r with replayEntry := r.replayEntry + 1, replayAddr := none } } : State).askSlotRead
        .replayRead a.item.slot (2 * r.replayEntry + 4)
    else s.askRecoveryRetire a.item := by
  simp only [State.replayWriteDone, hr, ha, Nat.mul_add, Nat.add_assoc]

theorem State.recoveryRetireDone_eq : s.recoveryRetireDone =
    if a.kind = .replay then s.beginAction { r with actions := rest, replayed := r.replayed + 1 }
    else (s.raise .replayDiscard { slot := some a.item.slot, seq := some a.item.seq }).beginAction
      { r with actions := rest, discarded := r.discarded + 1 } := by
  simp only [State.recoveryRetireDone, hr, ha]
  cases a.kind <;> rfl

end

section
variable {s : State} {n : AccessNumber} {f : InFlight}

theorem exec_replayReadComplete_eq (h : s.carries n f) (hp : f.purpose = .replayRead) (d : Word) :
    exec (.replayReadComplete n d) s = .next (s.freePort.replayReadDone d).settle := by
  have mine : (f.purpose == Purpose.replayRead) = true := by rw [hp]; rfl
  simp only [exec, execReplayReadComplete, State.answered_match h (· == .replayRead) mine]

theorem exec_replayWriteComplete_eq (h : s.carries n f) (hp : f.purpose = .replayWrite) :
    exec (.replayWriteComplete n) s = .next s.freePort.replayWriteDone.settle := by
  have mine : (f.purpose == Purpose.replayWrite) = true := by rw [hp]; rfl
  simp only [exec, execReplayWriteComplete, State.answered_match h (· == .replayWrite) mine]

theorem exec_recoveryRetireComplete_eq (h : s.carries n f) (hp : f.purpose = .recoveryRetire) :
    exec (.recoveryRetireComplete n) s = .next s.freePort.recoveryRetireDone.settle := by
  have mine : (f.purpose == Purpose.recoveryRetire) = true := by rw [hp]; rfl
  simp only [exec, execRecoveryRetireComplete, State.answered_match h (· == .recoveryRetire) mine]

end

end Sys2Proof.Machine

namespace Sys2Proof.Proofs

open Sys2Proof Sys2Proof.Machine

/-- Settles O46: the list is that of the stale items followed by the sorted others. -/
theorem actionListOrder : Obligations.ActionListOrder := by
  intro items f hslots actions
  refine ⟨?_, fun a ha => buildActions_kind ha, buildActions_pairwise hslots⟩
  have split : (fun i : Item => decide (f < i.seq)) = fun i => !decide (i.seq ≤ f) := by
    funext i
    rw [← decide_not, decide_eq_decide, BitVec.not_le]
  rw [buildActions_items, split]
  exact ((sortItems_perm _).append_left _).trans (List.filter_append_perm _ items)

/-- Settles O47, by the purpose of the access that was answered. -/
theorem replayAndRetireActions : Obligations.ReplayAndRetireActions := by
  intro s n f d r a rest hcarry hr ha u read
  have hr' : s.freePort.recovery = some r := hr
  refine ⟨fun hp haddr => ?_, fun hp w haddr => ⟨fun hw => ?_, fun hw => ?_⟩, fun hp hlt => ?_,
    fun hp hge => ?_, fun hp hk => ?_, fun hp hk => ?_, ?_⟩
  · rw [exec_replayReadComplete_eq hcarry hp, State.replayReadDone_addr hr' ha haddr]
    rfl
  · have passes : ¬ entryFault s.freePort.memWords s.freePort.bridgeBase w = true := fun h =>
      hw ((entryFault_iff _ _ w).mp h)
    rw [exec_replayReadComplete_eq hcarry hp, State.replayReadDone_data hr' ha haddr, if_neg passes]
    rfl
  · have fails : entryFault s.freePort.memWords s.freePort.bridgeBase w = true := (entryFault_iff _ _ w).mpr hw
    rw [exec_replayReadComplete_eq hcarry hp, State.replayReadDone_data hr' ha haddr, if_pos fails]
    rfl
  · rw [exec_replayWriteComplete_eq hcarry hp, State.replayWriteDone_eq hr' ha, if_pos hlt]
    rfl
  · rw [exec_replayWriteComplete_eq hcarry hp, State.replayWriteDone_eq hr' ha, if_neg hge.not_gt]
    rfl
  · rw [exec_recoveryRetireComplete_eq hcarry hp, State.recoveryRetireDone_eq hr' ha, if_pos hk]
    rfl
  · rw [exec_recoveryRetireComplete_eq hcarry hp, State.recoveryRetireDone_eq hr' ha, if_neg hk]
    rfl
  · exact State.beginAction_cons ha

end Sys2Proof.Proofs
end

section
/-! PROOFS. The end of the recovery pass and its failure, and what they leave of the events' counters. -/

namespace Sys2Proof.Machine

/-! ## The counters of the events (R154) -/

section
variable (e : EventUnit)

@[simp] theorem EventUnit.beginJob_counters : e.beginJob.counters = e.counters := by
  unfold EventUnit.beginJob
  cases e.job with
  | some j => rfl
  | none =>
    cases e.given with
    | some k =>
      cases k with
      | update => cases e.presented <;> rfl
      | clear => rfl
      | summary => rfl
    | none => cases e.summaryPending <;> rfl

@[simp] theorem EventUnit.askSummary_counters : e.askSummary.counters = e.counters := by
  unfold EventUnit.askSummary
  split
  · rfl
  · rw [EventUnit.beginJob_counters]

@[simp] theorem EventUnit.startPresentation_counters (may : Bool) :
    (e.startPresentation may).counters = e.counters := by
  unfold EventUnit.startPresentation
  split
  · unfold EventUnit.enterUpdating
    split
    · rfl
    · rw [EventUnit.beginJob_counters]
  · rfl

@[simp] theorem EventUnit.displaceOrDrop_counters (r : Record) : (e.displaceOrDrop r).counters = e.counters := by
  unfold EventUnit.displaceOrDrop
  split
  · split <;> rfl
  · rfl

/-- Whatever becomes of its record, an event is counted once. -/
theorem EventUnit.take_counters (may : Bool) (r : Record) : (e.take may r).counters = (e.count r.kind).counters := by
  unfold EventUnit.take
  dsimp only
  split
  · rfl
  · split
    · rfl
    · split
      · rw [EventUnit.startPresentation_counters]
      · rw [EventUnit.displaceOrDrop_counters]

end

section
variable (s : State) (i : Fin 18)

theorem State.raise_counters (k : EventKind) (f : EventFields) : (s.raise k f).ev.counters[i] =
    if i = k.index then min 65535 (s.ev.counters[i] + 1) else s.ev.counters[i] := by
  rw [State.raise_ev, EventUnit.take_counters]
  show (s.ev.counters.set k.index (min 65535 (s.ev.counters[k.index] + 1)))[i] = _
  by_cases h : i = k.index
  · rw [if_pos h, h, fin_set_self]
  · rw [if_neg h, fin_set_ne _ _ (Ne.symm h)]

@[simp] theorem State.askSummary_counters : s.askSummary.ev.counters = s.ev.counters := by
  unfold State.askSummary
  split
  · rfl
  · rw [EventUnit.askSummary_counters]

theorem State.enterServing_counters (o : OpState) : (s.enterServing o).ev.counters[i] =
    if i = EventKind.start.index then min 65535 (s.ev.counters[i] + 1) else s.ev.counters[i] := by
  rw [State.enterServing, EventUnit.startPresentation_counters, State.setOpState, State.askSummary_counters]
  exact State.raise_counters s i _ _

/-- Two events of different kinds raise a counter by 1 at most. -/
theorem counters_two {i j k : Fin 18} (h : j ≠ k) (c : Nat) :
    (if i = k then min 65535 ((if i = j then min 65535 (c + 1) else c) + 1)
      else if i = j then min 65535 (c + 1) else c) = if i = k ∨ i = j then min 65535 (c + 1) else c := by
  by_cases hk : i = k
  · rw [if_pos hk, if_neg (hk ▸ h.symm), if_pos (.inl hk)]
  · rw [if_neg hk]
    exact if_congr (or_iff_right hk).symm rfl rfl

/-- A grant takes no event. -/
theorem State.settle_counters (together : Bool) : (s.settle together).ev.counters = s.ev.counters := by
  have solo : ∀ x : State, x.presentSolo.ev.counters = x.ev.counters := by
    intro x
    unfold State.presentSolo
    split <;> rfl
  have status : ∀ x : State, x.grantStatus.ev.counters = x.ev.counters := by
    intro x
    unfold State.grantStatus
    split <;> rfl
  have serving : ∀ x : State, x.grantServing.ev.counters = x.ev.counters := by
    intro x
    unfold State.grantServing
    split
    · exact status x
    · split <;> rfl
  unfold State.settle State.arbitrate
  split
  · rfl
  · split
    · rfl
    · cases s.su.opState with
      | reset | wait => rfl
      | load | recover => exact solo _
      | run | safe | provision | fault => exact serving _

end

/-! ## Entry to a serving state (R150, R152) -/

/-- The operating state and the event unit alone change. -/
theorem State.enterServing_frame (s : State) (o : OpState) :
    s.enterServing o = { s with su := { s.su with opState := o }, ev := (s.enterServing o).ev } := by
  obtain ⟨e, he, -, -⟩ := State.enterServing_eq s o
  obtain ⟨e', he', -⟩ := State.askSummary_eq
    ({ s.raise .start { detail := some (startDetail s.su.resetCause) } with
      su := { s.su with opState := o } } : State)
  rw [he, he']
  rfl

/-! ## The end of the pass (R81, R150) -/

/-- The pass left with the journal writer seeded and RECOVERED raised (R81). -/
def State.recovered (s : State) (r : Recovery) : State :=
  ({ s with eng := s.eng.seed r (s.slotAfter r.highestSlot), recovery := none } : State).raise .recovered
    { detail := some (recoveredDetail r.replayed r.discarded) }

theorem State.beginAction_nil {s : State} {r : Recovery} (h : r.actions = []) :
    s.beginAction r = (s.recovered r).enterServing (if s.su.validity = .valid then .run else .safe) := by
  simp only [State.beginAction, h]
  rfl

/-- The seeds are the next sequence number and the ring head alone. -/
theorem Engine.seed_frame (e : Engine) (r : Recovery) (k : Nat) :
    (e.seed r k).badSlots = e.badSlots ∧ (e.seed r k).state = e.state ∧ (e.seed r k).queue = e.queue := by
  unfold Engine.seed
  cases r.highestSeen <;> exact ⟨rfl, rfl, rfl⟩

/-- A value that begins at bit 0 stands in its word as it is. -/
theorem field_zero (v : Nat) : field 0 v = BitVec.ofNat 32 v := by rw [field, pow_zero, Nat.mul_one]

/-! ## The failure of the pass (R74, R80, R150) -/

theorem budgetOf_default (b : Option (Fin 8)) : budgetOf Settings.default b = 0 := by
  cases b with
  | none => rfl
  | some b => exact Vector.getElem_replicate b.isLt

/-- The monitor once an installed configuration is withdrawn: its runs cleared, its budget the default one, a sample in
progress on the base it began on (R119, R129, R150). -/
def State.withdrawnMonitor (s : State) : Monitor :=
  { s.mon with
    releaseRun := 0, cutRun := 0, sampler := s.mon.sampler.rebase s.cfg.divider 40 s.clk.phase
    published := { state := s.mon.state, band := s.mon.level.map bandOf, budget := 0 } }

theorem State.install_default (s : State) :
    s.install Settings.default = { s with cfg := Settings.default, mon := s.withdrawnMonitor } := by
  simp only [State.install, State.publish, State.samplerOn, budgetOf_default]
  rfl

/-- The pass over, and an installed configuration withdrawn (R150). -/
theorem State.enterFault_eq (s : State) : s.enterFault =
    ({ s with
      recovery := none, bus := { s.bus with solo := none }
      cfg := if s.su.validity = .valid then Settings.default else s.cfg
      mon := if s.su.validity = .valid then s.withdrawnMonitor else s.mon } : State).enterServing .fault := by
  by_cases h : s.su.validity = .valid
  · simp only [State.enterFault, h, if_true, State.install_default]
    rfl
  · simp only [State.enterFault, h, if_false]

/-- The event of a failed access of the pass (R74, R80). -/
def Purpose.passFailure (p : Purpose) : EventKind :=
  if p = .replayWrite then .applyFail else if p = .recoveryRetire then .retireFail else .slotBad

theorem Purpose.passFailure_ne_start (p : Purpose) : p.passFailure.index ≠ EventKind.start.index := by
  unfold Purpose.passFailure
  split
  · decide
  · split <;> decide

theorem Recovery.currentSeq_eq (r : Recovery) : r.currentSeq = r.actions.head?.map fun a => a.item.seq := by
  unfold Recovery.currentSeq
  cases r.actions <;> rfl

/-- A halt withdraws no interest of the recovery pass (R65): its last failure is handed to it (R107, R108). -/
theorem State.accessFailed_pass {s : State} {f : InFlight} (ha : f.attempt = 4)
    (hp : f.purpose = .scan ∨ f.purpose = .replayRead ∨ f.purpose = .replayWrite ∨ f.purpose = .recoveryRetire) :
    s.accessFailed f = s.handFailure f := by
  have noClass : f.purpose.cls = none := by rcases hp with hp | hp | hp | hp <;> rw [hp] <;> rfl
  have kept : ¬ s.withdrawn f.purpose = true := by
    rw [State.withdrawn, noClass, Bool.and_eq_true]
    exact fun h => Bool.false_ne_true h.2
  rw [State.accessFailed, if_neg kept, if_neg (by rw [ha]; exact f.purpose.attempts_le.not_gt)]

end Sys2Proof.Machine

namespace Sys2Proof.Proofs

open Sys2Proof Sys2Proof.Machine

/-- Settles O48: the pass left as `State.recovered` enters RUN or SAFE. -/
theorem endOfThePass : Obligations.EndOfThePass := by
  intro s r hr t mode raised
  have ht : t = (s.recovered r).enterServing mode := State.beginAction_nil hr
  have frame : t = { s.recovered r with su := { s.su with opState := mode }, ev := t.ev } := by
    rw [ht]
    exact State.enterServing_frame _ mode
  have heng : t.eng = s.eng.seed r (s.slotAfter r.highestSlot) := by rw [frame]; rfl
  have hsu : t.su = { s.su with opState := mode } := by rw [frame]
  obtain ⟨hrecovery, hcfg, hmon, hbus, hstreams, hrows⟩ : t.recovery = none ∧ t.cfg = s.cfg ∧ t.mon = s.mon
      ∧ t.bus = s.bus ∧ t.streams = s.streams ∧ t.rows = s.rows := by
    rw [frame]
    exact ⟨rfl, rfl, rfl, rfl, rfl, rfl⟩
  obtain ⟨hbad, hstate, hqueue⟩ := s.eng.seed_frame r (s.slotAfter r.highestSlot)
  rw [← heng] at hbad hstate hqueue
  have hmode : mode = .run ∨ mode = .safe := by
    by_cases h : s.su.validity = .valid
    · exact .inl (if_pos h)
    · exact .inr (if_neg h)
  have hready : t.ready = true := by
    rw [State.ready, hsu]
    rcases hmode with h | h <;> rw [h] <;> rfl
  refine ⟨fun q hq => ?_, fun hnone => ?_, hsu, hbad, hstate, hqueue, hrecovery, hready, hcfg, hmon, hbus, hstreams,
    hrows, fun k => ?_, ?_⟩
  · rw [heng, Engine.seed, hq]
    exact ⟨rfl, rfl⟩
  · rw [heng, Engine.seed, hnone]
    exact ⟨rfl, rfl⟩
  · rw [ht, State.enterServing_counters, State.recovered, State.raise_counters, counters_two (by decide)]
    exact if_congr or_comm rfl rfl
  · obtain ⟨e, he, hpresents, -⟩ := State.enterServing_eq (s.recovered r) mode
    have hev : t.ev = e := by rw [ht, he]
    have hraised : raised = (s.recovered r).raise .start
        { detail := some (startDetail (s.recovered r).su.resetCause) } := by
      simp only [raised, heng, State.recovered, recoveredDetail, startDetail, field_zero]
      rfl
    rw [hraised, hsu, hev]
    exact hpresents (hmode.imp_right .inl)

/-- Settles O49: by the access's purpose its event is raised, and FAULT entered from the state so reached. -/
theorem recoveryFailureLeadsToFault : Obligations.RecoveryFailureLeadsToFault := by
  intro s n f hcarry ha hp slot seq free raised withdrawn ended started asked
  obtain ⟨fields, hevent⟩ : ∃ fields, raised = free.raise f.purpose.passFailure fields := by
    simp only [raised, Purpose.passFailure]
    split
    · exact ⟨_, rfl⟩
    · split <;> exact ⟨_, rfl⟩
  have handed : s.freePort.handFailure f = raised.enterFault := by
    have hseq : s.recovery.bind Recovery.currentSeq = seq :=
      congrArg s.recovery.bind (funext Recovery.currentSeq_eq)
    rcases hp with hp | hp | hp | hp <;> simp only [State.handFailure, hp, raised]
    · rfl
    · rfl
    · simp only [State.replayWriteFailed, ← hseq]
      rfl
    · simp only [State.recoveryRetireFailed, ← hseq]
      rfl
  have hended : raised.enterFault = ended.enterServing .fault := by
    rw [State.enterFault_eq]
    simp only [ended, hevent, withdrawn]
    rfl
  have failed : exec (.memoryErrorAnswer n) s = .next (ended.enterServing .fault).settle := by
    rw [exec_memoryErrorAnswer_eq hcarry, State.accessFailed_pass ha hp, handed, hended]
  have hsu : ended.su = s.su := by
    simp only [ended, hevent]
    rfl
  have hasked : asked = ({ ended.raise .start { detail := some (startDetail ended.su.resetCause) } with
      su := { ended.su with opState := .fault } } : State).askSummary := by
    simp only [asked, started, hsu, startDetail, field_zero]
  refine ⟨exec_memoryTimeout_eq hcarry, ?_, ?_⟩
  · obtain ⟨e, he, hpresents, hkept⟩ := State.enterServing_eq ended .fault
    rw [← hasked] at he hpresents hkept
    rw [hsu] at hpresents hkept
    exact ⟨e, by rw [failed, he], fun h => hpresents (.inr (.inr ⟨rfl, h⟩)), hkept rfl⟩
  · obtain ⟨b, e, hsettled⟩ := State.settle_eq (ended.enterServing .fault) false
    have frame := State.enterServing_frame ended .fault
    have ht : (ended.enterServing .fault).settle.su = { s.su with opState := .fault } := by
      rw [hsettled, frame, hsu]
    refine ⟨_, failed, ht, ?_, ?_, ?_, ?_, ?_, fun k => ?_⟩
    · rw [hsettled, frame]
    · rw [hsettled, frame]
      simp only [ended, hevent]
      rfl
    · rw [State.ready, ht]
      rfl
    · rw [State.flt, ht]
      rfl
    · rw [hsettled, frame]
    · have counted : ended.ev = (free.raise f.purpose.passFailure fields).ev := by
        show raised.ev = _
        rw [hevent]
      rw [State.settle_counters, State.enterServing_counters, counted, State.raise_counters,
        counters_two f.purpose.passFailure_ne_start]
      rfl

end Sys2Proof.Proofs
end

section
/-! PROOFS. The requests at the port: the checks at taking, the routes of a plain request, and the kind of a word. -/

namespace Sys2Proof.Machine

/-! ## The checks at taking (R86, R88, R89) -/

theorem State.ready_eq_false {s : State}
    (h : s.su.opState = .reset ∨ s.su.opState = .wait ∨ s.su.opState = .load ∨ s.su.opState = .recover) :
    s.ready = false := by
  rw [State.ready]
  rcases h with h | h | h | h <;> rw [h] <;> rfl

section
variable {s : State} {st : StreamId} (h : s.takes st)
include h

/-- A READ marked other than NONE is answered PROTOCOL (R89, line 2). -/
theorem State.request_markedRead {k : Attr} (hk : k ≠ .none) (a : Addr) (m : Mask) (d : Word)
    (path : State → State) : s.request st (readRequest k a m d) path
      = (s.emit st .protocol 0).raise .protocol { stream := some st } := by
  obtain ⟨ready, free⟩ := h
  have answer : s.portAnswer st (readRequest k a m d) = some .protocol := by
    simp [-Fin.getElem_fin, State.portAnswer, free, readRequest, hk]
  simp only [State.request, State.takeRequest, ready, answer]
  rfl

/-- In FAULT a WRITE is answered FAULT, and no event is raised (R89, line 3). -/
theorem State.request_writeInFault (hf : s.su.opState = .fault) (k : Attr) (a : Addr) (m : Mask) (d : Word)
    (path : State → State) : s.request st (writeRequest k a m d) path = s.emit st .fault 0 := by
  obtain ⟨ready, free⟩ := h
  have answer : s.portAnswer st (writeRequest k a m d) = some .fault := by
    simp [-Fin.getElem_fin, State.portAnswer, free, writeRequest, hf]
  simp only [State.request, State.takeRequest, ready, answer]
  rfl

end

section
variable {s t : State} {st : StreamId} {a : Addr} {m : Mask} {d : Word} (tog : Bool)

/-- A WRITE that the port answers alike whatever its group marking is answered so by all four commands. -/
theorem exec_writes_answered (h : ∀ k path, s.request st (writeRequest k a m d) path = t) :
    exec (.groupWrite st a m d tog) s = .next (t.settle tog) ∧ exec (.closeWrite st a m d tog) s = .next (t.settle tog)
    ∧ exec (.abortWrite st a m d tog) s = .next (t.settle tog)
    ∧ exec (.plainWrite st a m d tog) s = .next (t.settle tog) := by
  simp only [exec, execGroupWrite, execCloseWrite, execAbortWrite, execPlainWrite, h, and_self]

theorem exec_plainRead_answered {k : Attr} (h : ∀ path, s.request st (readRequest k a m d) path = t) :
    exec (.plainRead st k a m d tog) s = .next (t.settle tog) := by
  simp only [exec, execPlainRead, h]

/-- A request that the port answers alike whatever it asks for is answered so by all five commands. -/
theorem exec_requests_answered (h : ∀ q path, s.request st q path = t) (k : Attr) :
    exec (.groupWrite st a m d tog) s = .next (t.settle tog) ∧ exec (.closeWrite st a m d tog) s = .next (t.settle tog)
    ∧ exec (.abortWrite st a m d tog) s = .next (t.settle tog)
    ∧ exec (.plainWrite st a m d tog) s = .next (t.settle tog)
    ∧ exec (.plainRead st k a m d tog) s = .next (t.settle tog) := by
  obtain ⟨group, close, abort, plain⟩ := exec_writes_answered (a := a) (m := m) (d := d) tog fun k => h _
  exact ⟨group, close, abort, plain, exec_plainRead_answered tog (h _)⟩

end

/-! ## The routes of a plain request (R93 to R96) -/

section
variable {s : State} {st : StreamId} {q : Request}

/-- The word of a plain write is forwarded: PASS, or BRIDGE in PROVISION (R93). -/
def State.forwardsWrite (s : State) (a : Addr) : Prop :=
  s.wordKind a = .pass ∨ (s.wordKind a = .bridge ∧ s.su.opState = .provision)

theorem State.plainWrite_forwarded (h : s.forwardsWrite q.addr) : s.plainWrite st q = s.forwardWrite st q := by
  rcases h with hk | ⟨hk, ho⟩
  · simp only [State.plainWrite, hk]
  · simp only [State.plainWrite, hk, ho, if_true]

theorem State.plainWrite_refused (h : ¬ s.forwardsWrite q.addr) : s.plainWrite st q = s.refusePlain st q := by
  cases hk : s.wordKind q.addr with
  | pass => exact absurd (.inl hk) h
  | bridge =>
    have ho : s.su.opState ≠ .provision := fun ho => h (.inr ⟨hk, ho⟩)
    simp only [State.plainWrite, hk, if_neg ho]
  | guarded | absent | outOfRange => simp only [State.plainWrite, hk]

theorem State.plainRead_forwarded (h : s.wordKind q.addr = .pass ∨ s.wordKind q.addr = .bridge) :
    s.plainRead st q = s.forwardRead st q := by
  rcases h with h | h <;> simp only [State.plainRead, h]

theorem State.plainRead_refused (h : s.wordKind q.addr = .absent ∨ s.wordKind q.addr = .outOfRange) :
    s.plainRead st q = s.refusePlain st q := by
  rcases h with h | h <;> simp only [State.plainRead, h]

/-- A request that the port refuses leaves nothing of its acceptance (R94). -/
theorem State.refusePlain_accept (s : State) (st : StreamId) (q : Request) : (s.accept st q).refusePlain st q
    = (s.respond st .region).raise .region { stream := some st, addr := some q.addr } := by
  rw [State.refusePlain, State.respond_accept]

end

section
variable {s : State} {st : StreamId} {a : Addr} {m : Mask} {d : Word} (tog : Bool)

theorem exec_plainWrite_forwarded (h : s.takesWrite st) (hf : s.forwardsWrite a) :
    exec (.plainWrite st a m d tog) s = .next ((if m = 0 then s.respond st .done
      else (s.accept st (writeRequest .none a m d)).ask (.forwarded st)
        { write := true, addr := a, mask := m, data := d } 1).settle tog) := by
  have route := State.plainWrite_forwarded (s := s.accept st (writeRequest .none a m d)) (st := st)
    (q := writeRequest .none a m d) hf
  simp only [exec, execPlainWrite, State.request_write h, route, State.forwardWrite, State.respond_accept]
  rfl

theorem exec_plainWrite_refused (h : s.takesWrite st) (hf : ¬ s.forwardsWrite a) :
    exec (.plainWrite st a m d tog) s
      = .next (((s.respond st .region).raise .region { stream := some st, addr := some a }).settle tog) := by
  have route := State.plainWrite_refused (s := s.accept st (writeRequest .none a m d)) (st := st)
    (q := writeRequest .none a m d) hf
  simp only [exec, execPlainWrite, State.request_write h, route, State.refusePlain_accept]
  rfl

theorem exec_plainRead_forwarded (h : s.takes st) (hk : s.wordKind a = .pass ∨ s.wordKind a = .bridge) :
    exec (.plainRead st .none a m d tog) s = .next (((s.accept st (readRequest .none a m d)).ask (.forwarded st)
      (readAccess a) 1).settle tog) := by
  have route := State.plainRead_forwarded (s := s.accept st (readRequest .none a m d)) (st := st)
    (q := readRequest .none a m d) hk
  simp only [exec, execPlainRead, State.request_read h, route]
  rfl

theorem exec_plainRead_refused (h : s.takes st) (hk : s.wordKind a = .absent ∨ s.wordKind a = .outOfRange) :
    exec (.plainRead st .none a m d tog) s
      = .next (((s.respond st .region).raise .region { stream := some st, addr := some a }).settle tog) := by
  have route := State.plainRead_refused (s := s.accept st (readRequest .none a m d)) (st := st)
    (q := readRequest .none a m d) hk
  simp only [exec, execPlainRead, State.request_read h, route, State.refusePlain_accept]
  rfl

end

/-! ## The kind of a word (R91, R92) -/

section
variable {s : State} {a : Addr}

theorem State.wordKind_outOfRange (h : s.memWords ≤ a.toNat) : s.wordKind a = .outOfRange := if_pos h

variable (hm : a.toNat < s.memWords)
include hm

theorem State.wordKind_bridge (hb : s.bridgeBase ≤ a.toNat) (he : s.su.strapError = false) :
    s.wordKind a = .bridge := by
  have inArea : (s.bridgeBase ≤ a.toNat && !s.su.strapError) = true := by rw [decide_eq_true hb, he]; rfl
  rw [State.wordKind, if_neg (Nat.not_le.mpr hm), if_pos inArea]

/-- A word of memory outside the bridge area: the region table in RUN, PASS in the other serving states. -/
theorem State.wordKind_below (hb : a.toNat < s.bridgeBase ∨ s.su.strapError = true) :
    s.wordKind a = if s.su.opState = .run then s.cfg.regionKind a else .pass := by
  have outside : ¬ (s.bridgeBase ≤ a.toNat && !s.su.strapError) = true := by
    rcases hb with hb | hb
    · simp [Nat.not_le.mpr hb]
    · simp [hb]
  rw [State.wordKind, if_neg (Nat.not_le.mpr hm), if_neg outside]

end

/-- The region test of R91. -/
def Region.holds (r : Region) (a : Addr) : Bool := r.used && r.base ≤ a && a ≤ r.limit

theorem Region.holds_iff (r : Region) (a : Addr) : r.holds a = true ↔ r.used = true ∧ r.base ≤ a ∧ a ≤ r.limit := by
  simp [Region.holds, and_assoc]

/-- The region that holds the word gives its kind; a word of no region has the default kind (R91, tests 3 and 4). -/
theorem Settings.regionKind_eq (c : Settings) (a : Addr) : c.regionKind a =
    (((c.regions.toList.find? fun r => r.holds a).map Region.kind).getD c.defaultKind).wordKind := by
  unfold Settings.regionKind Region.holds
  split <;> rename_i h <;> rw [h] <;> rfl

section
variable {c : Settings} {a : Addr}

theorem Settings.regionKind_of_holds {r : Region} (hr : r ∈ c.regions.toList) (h : r.holds a = true)
    (one : ∀ q ∈ c.regions.toList, q.holds a = true → q = r) : c.regionKind a = r.kind.wordKind := by
  have found : c.regions.toList.find? (fun r => r.holds a) = some r := by
    obtain ⟨q, hq⟩ := Option.isSome_iff_exists.mp
      (List.find?_isSome (p := fun r : Region => r.holds a).mpr ⟨r, hr, h⟩)
    rw [hq, one q (List.mem_of_find?_eq_some hq) (List.find?_some (p := fun r : Region => r.holds a) hq)]
  rw [Settings.regionKind_eq, found]
  rfl

theorem Settings.regionKind_default (h : ∀ r ∈ c.regions.toList, ¬ r.holds a = true) :
    c.regionKind a = c.defaultKind.wordKind := by
  rw [Settings.regionKind_eq, List.find?_eq_none.mpr h]
  rfl

end

end Sys2Proof.Machine

namespace Sys2Proof.Proofs

open Sys2Proof Sys2Proof.Machine

/-- Settles O9, line by line of R89. -/
theorem checksAtTheRequestPort : Obligations.ChecksAtTheRequestPort := by
  refine ⟨fun s st k a m d tog ho => ?_, fun s st k a m d tog ready busy => ?_, fun s st k a m d tog takes =>
    ⟨fun hk => ?_, fun hf => ?_⟩⟩
  · exact exec_requests_answered tog (State.request_notReady (State.ready_eq_false ho) st) k
  · exact exec_requests_answered tog (State.request_second ready busy) k
  · exact exec_plainRead_answered tog (State.request_markedRead takes hk a m d)
  · exact exec_writes_answered tog fun k => State.request_writeInFault takes hf k a m d

/-- Settles O10: the kind of the word chooses between the forwarder and the refusal. -/
theorem plainRequestRouting : Obligations.PlainRequestRouting := by
  constructor
  · intro s st a m d tog takes forwarded
    refine ⟨fun hf hm => ?_, fun hf hm => ?_, exec_plainWrite_refused tog takes⟩
    · rw [exec_plainWrite_forwarded tog takes hf, if_pos hm]
    · rw [exec_plainWrite_forwarded tog takes hf, if_neg hm]
      rfl
  · intro s st a m d tog takes
    exact ⟨exec_plainRead_forwarded tog takes, exec_plainRead_refused tog takes⟩

/-- Settles O12: outside memory, in the bridge area, and below it by the operating state. -/
theorem wordKindTests : Obligations.WordKindTests := by
  intro s a
  refine ⟨State.wordKind_outOfRange, State.wordKind_bridge, fun hm he ho => ?_, fun hm hb ho => ?_,
    fun r hm hb ho hr used base limit one => ?_, fun hm hb ho none => ?_⟩
  · rw [State.wordKind_below hm (.inr he), if_neg ho]
  · rw [State.wordKind_below hm (.inl hb), if_neg ho]
  · rw [State.wordKind_below hm (.inl hb), if_pos ho]
    refine Settings.regionKind_of_holds hr ((r.holds_iff a).mpr ⟨used, base, limit⟩) fun q hq h => ?_
    obtain ⟨used, base, limit⟩ := (q.holds_iff a).mp h
    exact one q hq used base limit
  · rw [State.wordKind_below hm (.inl hb), if_pos ho]
    refine Settings.regionKind_default fun q hq h => ?_
    obtain ⟨used, base, limit⟩ := (q.holds_iff a).mp h
    exact none q hq used ⟨base, limit⟩

end Sys2Proof.Proofs
end

section
/-! PROOFS. What every command does to the queue and to the record of responses. -/

namespace Sys2Proof.Machine

/-- `t` has the queue of `s`, and the responses given so far, in their order (R85). -/
def State.KeepsRecord (s t : State) : Prop := t.pending = s.pending ∧ s.responses <+: t.responses

theorem State.Keeps.record {s t : State} (k : s.Keeps t) : s.KeepsRecord t := ⟨k.pending, k.responses⟩

namespace State.KeepsRecord

section
variable {s t : State} (h : s.KeepsRecord t)
include h

theorem trans {u : State} (k : t.KeepsRecord u) : s.KeepsRecord u :=
  ⟨k.1.trans h.1, h.2.trans k.2⟩

theorem keeps {u : State} (k : t.Keeps u) : s.KeepsRecord u := h.trans k.record

/-! ## Events, entry to a serving state, and the close of a step -/

theorem raise (k : EventKind) (f : EventFields) : s.KeepsRecord (t.raise k f) := h

theorem askSolo (p : Purpose) (a : Access) (n : Nat) : s.KeepsRecord (t.askSolo p a n) := h

theorem askSummary : s.KeepsRecord t.askSummary := by
  obtain ⟨e, he, -⟩ := t.askSummary_eq
  rw [he]
  exact h

theorem setOpState (o : OpState) : s.KeepsRecord (t.setOpState o) :=
  askSummary (t := { t with su := { t.su with opState := o } }) h

theorem enterServing (o : OpState) : s.KeepsRecord (t.enterServing o) := by
  rw [State.enterServing_frame]
  exact h

theorem settle (together : Bool) : s.KeepsRecord (t.settle together) := by
  obtain ⟨b, e, he⟩ := t.settle_eq together
  rw [he]
  exact h

/-! ## Resets and the start (R137 to R148) -/

theorem exitReset (pins : Straps) : s.KeepsRecord (t.exitReset pins) := by
  unfold State.exitReset
  split
  · exact askSummary h
  · exact h

theorem endPowerOn (pins : Straps) : s.KeepsRecord (t.endPowerOn pins) := by
  unfold State.endPowerOn
  split
  · refine exitReset ?_ pins
    exact h
  · exact h

theorem strapFault : s.KeepsRecord t.strapFault := by
  unfold State.strapFault
  refine enterServing ?_ .fault
  exact h

theorem endWait (pins : Straps) : s.KeepsRecord (t.endWait pins) := by
  unfold State.endWait
  split
  · split
    · split
      · exact h.strapFault
      · exact h.setOpState _
    · dsimp only
      split
      · exact (h.setOpState _).strapFault
      · exact h.setOpState _
  · exact h

theorem enterRecover : s.KeepsRecord t.enterRecover :=
  setOpState (t := { t with recovery := some Recovery.start }) h .recover

theorem judgeImage : s.KeepsRecord t.judgeImage := by
  unfold State.judgeImage
  split
  · exact enterRecover h
  · exact enterRecover h

theorem loaderDone (d : Word) : s.KeepsRecord (t.loaderDone d) := by
  unfold State.loaderDone
  dsimp only
  split
  · exact h
  · exact judgeImage h

/-! ## The recovery pass (R72 to R81, R150) -/

theorem enterFault : s.KeepsRecord t.enterFault := by
  rw [State.enterFault_eq]
  refine enterServing ?_ .fault
  exact h

theorem endRecovery (r : Recovery) : s.KeepsRecord (t.endRecovery r) := by
  unfold State.endRecovery
  refine enterServing ?_ _
  exact h

theorem beginAction (r : Recovery) : s.KeepsRecord (t.beginAction r) := by
  unfold State.beginAction
  split
  · exact h.endRecovery r
  · dsimp only
    split <;> exact h

theorem nextSlot (r : Recovery) : s.KeepsRecord (t.nextSlot r) := by
  unfold State.nextSlot
  split
  · exact h
  · exact h.beginAction _

theorem scanDone (d : Word) : s.KeepsRecord (t.scanDone d) := by
  unfold State.scanDone
  split
  · dsimp only
    split
    · exact h
    · exact h.nextSlot _
  · exact h

theorem replayReadDone (d : Word) : s.KeepsRecord (t.replayReadDone d) := by
  unfold State.replayReadDone
  split
  · split
    · exact h
    · split <;> exact h
    · exact h
  · exact h

theorem replayWriteDone : s.KeepsRecord t.replayWriteDone := by
  unfold State.replayWriteDone
  split
  · split
    · split <;> exact h
    · exact h
  · exact h

theorem recoveryRetireDone : s.KeepsRecord t.recoveryRetireDone := by
  unfold State.recoveryRetireDone
  split
  · split
    · split
      · exact h.beginAction _
      · exact (h.raise ..).beginAction _
      · exact (h.raise ..).beginAction _
    · exact h
  · exact h

/-! ## A completed sample (R123, R128, R143) -/

theorem followMonitor (pins : Straps) : s.KeepsRecord (t.followMonitor pins) := by
  have wait : s.KeepsRecord (if t.su.opState = .wait then t.endWait pins else t) := by
    split
    · exact h.endWait pins
    · exact h
  unfold State.followMonitor
  split
  · exact exitReset (t := t.takeReset .cut) h pins
  · exact wait
  · exact wait
  · exact h

theorem raiseSample (before : MonState) (l : Level) : s.KeepsRecord (t.raiseSample before l) := by
  unfold State.raiseSample
  split <;> exact h

theorem askIfChanged (before : MonState) : s.KeepsRecord (t.askIfChanged before) := by
  unfold State.askIfChanged
  split
  · exact h
  · exact h.askSummary

theorem takeLevel (l : Level) (pins : Straps) : s.KeepsRecord (t.takeLevel l pins) := by
  unfold State.takeLevel
  refine ((raiseSample ?_ _ l).askIfChanged _).followMonitor pins
  exact h

theorem takeSample (l : Level) (pins : Straps) : s.KeepsRecord (t.takeSample l pins) := by
  unfold State.takeSample State.sampleDone
  split
  · split
    · exact h
    · exact h.takeLevel l pins
  · exact h

/-! ## Answers of the memory (R104 to R110) -/

theorem freePort : s.KeepsRecord t.freePort := h

theorem ifRunning {act : State → State} (ha : ∀ u : State, u.Keeps (act u)) : s.KeepsRecord (t.ifRunning act) := by
  unfold State.ifRunning
  split
  · exact h.keeps (ha t)
  · exact h

theorem retry (f : InFlight) : s.KeepsRecord (t.retry f) := by
  unfold State.retry
  split <;> exact h

theorem handFailure (f : InFlight) : s.KeepsRecord (t.handFailure f) := by
  unfold State.handFailure
  cases f.purpose with
  | forwarded st => exact (h.keeps (State.GroupSide.respond t st ..).keeps).raise ..
  | journal | sealWrite => exact h.keeps (.journalFailed t)
  | apply => exact h.keeps (.applyFailed t _)
  | retire => exact h.keeps (.retireFailed t)
  | status => exact h
  | loader => exact enterRecover h
  | scan | replayRead | replayWrite | recoveryRetire => exact enterFault (h.raise ..)

theorem accessFailed (f : InFlight) : s.KeepsRecord (t.accessFailed f) := by
  unfold State.accessFailed
  split
  · exact h
  · split
    · exact h.retry f
    · exact h.handFailure f

theorem timeOut : s.KeepsRecord t.timeOut := by
  unfold State.timeOut
  split
  · split
    · exact h
    · exact h.freePort.accessFailed _
  · exact h

theorem takeForwarded (d : Word) (f : InFlight) : s.KeepsRecord (t.takeForwarded d f) := by
  unfold State.takeForwarded State.forwardedDone
  split
  · split
    · exact h.keeps (State.GroupSide.respond ..).keeps
    · exact h
  · exact h

/-- An answer that is matched leaves what its requester leaves; any other is discarded (R104). -/
theorem answered (n : AccessNumber) (isMine : Purpose → Bool) {taken : InFlight → State → State}
    (ht : ∀ f u, s.KeepsRecord u → s.KeepsRecord (taken f u)) : s.KeepsRecord (t.answered n isMine taken) := by
  unfold State.answered
  split
  · split
    · exact ht _ _ h
    · exact h
  · exact h

/-! ## Expiries (R16, R100) -/

theorem afterFree : s.KeepsRecord t.afterFree := h.keeps (.afterFree t)

theorem idleExpired (st : StreamId) : s.KeepsRecord (t.idleExpired st) :=
  (h.keeps ((State.GroupSide.dropOpenRow t st).trans (.toNotify ..)).keeps).raise ..

/-- The waiting write leaves its wait list, and is refused. -/
theorem stallExpired (st : StreamId) (q : Request) : s.KeepsRecord (t.stallExpired st q) := by
  unfold State.stallExpired
  dsimp only
  refine (keeps ?_ (State.GroupSide.refuse ..).keeps).raise ..
  exact h

theorem takeStall (st : StreamId) : s.KeepsRecord (t.takeStall st) := by
  unfold State.takeStall
  split
  · exact (h.stallExpired ..).afterFree
  · exact h

end

end State.KeepsRecord

/-- Every command answers a next state, and keeps the queue and the responses given. -/
theorem exec_keepsRecord (c : Instr) (s : State) : ∃ t, exec c s = .next t ∧ s.KeepsRecord t := by
  have h : s.KeepsRecord s := (State.Keeps.refl s).record
  have close : ∀ {t : State}, s.KeepsRecord t → ∀ tog, ∃ u, Host.Outcome.next (t.settle tog) =
      (Host.Outcome.next u : Host.Outcome State Fault Refusal) ∧ s.KeepsRecord u :=
    fun ht tog => ⟨_, rfl, ht.settle tog⟩
  have request : ∀ {st q path}, (∀ u : State, u.Keeps (path u)) → s.KeepsRecord (s.request st q path) :=
    fun hp => (State.Keeps.request s _ _ hp).record
  cases c with
  | groupWrite => exact close (request fun u => (State.Keeps.groupWrite u ..).trans (.afterFree _)) _
  | closeWrite => exact close (request fun u => (State.Keeps.closeWrite u ..).trans (.afterFree _)) _
  | abortWrite => exact close (request fun u => (State.Keeps.abortWrite u _).trans (.afterFree _)) _
  | plainWrite => exact close (request fun u => .plainWrite u ..) _
  | plainRead => exact close (request fun u => .plainRead u ..) _
  | idleTimerExpiry st =>
    refine close ?_ false
    split
    · exact (h.idleExpired st).afterFree
    · exact h
  | stallTimerExpiry st => exact close (h.takeStall st) _
  | memoryTimeout => exact close h.timeOut _
  | sampleComplete l pins => exact close (h.takeSample l pins) _
  | statusRetryWait =>
    refine close ?_ false
    split <;> exact h
  | powerOnDelayEnd pins => exact close (h.endPowerOn pins) _
  | resetLineRelease pins =>
    refine close (State.KeepsRecord.exitReset ?_ pins) false
    exact h
  | ack =>
    refine close ?_ false
    split <;> exact h
  | quietPeriodEnd | idleSampleInterval | powerOn | resetLineAssert | staleAnswer =>
    refine close ?_ false
    exact h
  | journalWriteComplete n => exact close (h.answered n _ fun f u hu => hu.ifRunning .journalDone) _
  | sealComplete n => exact close (h.answered n _ fun f u hu => hu.ifRunning .sealDone) _
  | applyWriteComplete n => exact close (h.answered n _ fun f u hu => hu.ifRunning .applyDone) _
  | retireWriteComplete n => exact close (h.answered n _ fun f u hu => hu.ifRunning .retireDone) _
  | statusWordComplete n =>
    refine close (h.answered n _ fun f u hu => ?_) false
    exact hu
  | loaderReadComplete n d => exact close (h.answered n _ fun f u hu => hu.loaderDone d) _
  | scanReadComplete n d => exact close (h.answered n _ fun f u hu => hu.scanDone d) _
  | replayReadComplete n d => exact close (h.answered n _ fun f u hu => hu.replayReadDone d) _
  | replayWriteComplete n => exact close (h.answered n _ fun f u hu => hu.replayWriteDone) _
  | recoveryRetireComplete n => exact close (h.answered n _ fun f u hu => hu.recoveryRetireDone) _
  | forwardedAccessComplete n d => exact close (h.answered n _ fun f u hu => hu.takeForwarded d f) _
  | memoryErrorAnswer n => exact close (h.answered n _ fun f u hu => hu.accessFailed f) _

end Sys2Proof.Machine

namespace Sys2Proof.Proofs

open Sys2Proof Sys2Proof.Machine

/-- Settles O3: each command keeps the queue and the record of responses, and so does the close of the step. -/
theorem everyCommandAnswersNext : Obligations.EveryCommandAnswersNext := exec_keepsRecord

end Sys2Proof.Proofs
end

section
/-! PROOFS. Every step keeps the law of the part's phases, whatever the event queue holds. The law asks of the event
unit only that it is at rest outside a serving state; for the rest, the part with another event unit does the same. -/

namespace Sys2Proof.Machine

/-! ## The part with another event unit -/

/-- `v` is `u` with another event unit, and outside a serving state the event unit of `u` is at rest. -/
structure State.Mirrors (u v : State) : Prop where
  parts : ∃ e, v = { u with ev := e }
  rest : u.su.opState.serving = false → u.ev.AtRest

/-- The part with the event unit that a reset leaves. -/
def State.calm (s : State) : State := { s with ev := EventUnit.reset }

theorem EventUnit.reset_atRest : EventUnit.reset.AtRest := ⟨rfl, rfl, rfl, rfl, nofun⟩

/-- The law of the phases asks nothing of the event unit but that it is at rest outside a serving state. -/
theorem State.phaseLaw.withEvents {s : State} {e : EventUnit} (h : s.phaseLaw)
    (hq : s.su.opState.serving = false → e.AtRest) : ({ s with ev := e } : State).phaseLaw := by
  obtain ⟨hr, hp, hst, hm⟩ := h
  exact ⟨hr.congr rfl, ⟨hp.port, hp.solo, hp.apart, hp.waiting, hp.recovery⟩,
    ⟨hst.streams, hst.rows, hst.waits, hst.engine, hst.requests, fun hn => ⟨(hq hn).1, (hq hn).2.1⟩,
      fun hn => (hq hn).2.2⟩,
    hm.congr rfl rfl ⟨rfl, rfl, rfl, rfl, rfl⟩⟩

theorem State.phaseLaw.calm {s : State} (h : s.phaseLaw) : s.calm.Lawful :=
  ⟨h.withEvents fun _ => EventUnit.reset_atRest, EventUnit.reset_lawful⟩

theorem State.phaseLaw.atRest {s : State} (h : s.phaseLaw) (hn : s.su.opState.serving = false) : s.ev.AtRest := by
  obtain ⟨pres, given⟩ := h.start.presentation hn
  exact ⟨pres, given, h.start.writer hn⟩

/-- What keeps both laws for the calm part, and does the same to the part with its own event unit, keeps the law of the
phases. -/
theorem State.phaseLaw.lift {s : State} (h : s.phaseLaw) (f : State → State)
    (hm : ∀ {v}, s.Mirrors v → (f s).Mirrors (f v)) (hl : s.calm.Lawful → (f s.calm).Lawful) : (f s).phaseLaw := by
  obtain ⟨⟨e, he⟩, rest⟩ := hm (v := s.calm) ⟨⟨_, rfl⟩, h.atRest⟩
  have law := (hl h.calm).1
  rw [he] at law
  exact law.withEvents (e := (f s).ev) rest

theorem State.askSummary_ev (s : State) :
    s.askSummary = { s with ev := if s.su.strapError = true then s.ev else s.ev.askSummary } := by
  unfold State.askSummary
  split <;> rfl

namespace State.Mirrors

theorem ite {a b a' b' : State} {c c' : Prop} [Decidable c] [Decidable c'] (hc : c ↔ c') (ha : a.Mirrors a')
    (hb : b.Mirrors b') : (if c then a else b).Mirrors (if c' then a' else b') := by
  by_cases h : c
  · rw [if_pos h, if_pos (hc.mp h)]
    exact ha
  · rw [if_neg h, if_neg fun h' => h (hc.mpr h')]
    exact hb

theorem of_rest {u : State} (e : EventUnit) (hq : u.su.opState.serving = false → u.ev.AtRest) :
    u.Mirrors { u with ev := e } := ⟨⟨e, rfl⟩, hq⟩

section
variable {u v : State} (h : u.Mirrors v)
include h

/-- A change that neither looks at the event unit nor touches it, in one operating state. -/
theorem update (g : State → State) (hg : ∀ e, g { u with ev := e } = { g u with ev := e })
    (ho : (g u).su.opState = u.su.opState) : (g u).Mirrors (g v) := by
  obtain ⟨⟨e, rfl⟩, hq⟩ := h
  have kept : (g u).ev = u.ev := by
    have same := congrArg State.ev (hg u.ev)
    exact same
  refine ⟨⟨e, hg e⟩, fun hn => ?_⟩
  rw [kept]
  exact hq (ho ▸ hn)

theorem su : v.su = u.su := by obtain ⟨⟨e, rfl⟩, -⟩ := h; rfl

theorem mon : v.mon = u.mon := by obtain ⟨⟨e, rfl⟩, -⟩ := h; rfl

theorem eng : v.eng = u.eng := by obtain ⟨⟨e, rfl⟩, -⟩ := h; rfl

theorem recovery : v.recovery = u.recovery := by obtain ⟨⟨e, rfl⟩, -⟩ := h; rfl

/-! ## Events, the operating state, and the accesses asked for -/

theorem raise (k : EventKind) (f : EventFields) : (u.raise k f).Mirrors (v.raise k f) := by
  obtain ⟨⟨e, rfl⟩, hq⟩ := h
  refine ⟨⟨_, rfl⟩, fun hn => ?_⟩
  rw [State.raise_ev, State.mayPresent_of_notServing (s := u) hn]
  exact (hq hn).take _

theorem askSummary : u.askSummary.Mirrors v.askSummary := by
  obtain ⟨⟨e, rfl⟩, hq⟩ := h
  rw [State.askSummary_ev, State.askSummary_ev]
  refine ⟨⟨_, rfl⟩, fun hn => ?_⟩
  dsimp only
  split
  · exact hq hn
  · exact (hq hn).askSummary

/-- A change of the operating state that does not leave the serving states. -/
theorem setOpState {o : OpState} (ho : o.serving = false → u.su.opState.serving = false) :
    (u.setOpState o).Mirrors (v.setOpState o) := by
  obtain ⟨⟨e, rfl⟩, hq⟩ := h
  exact askSummary (u := { u with su := { u.su with opState := o } }) ⟨⟨e, rfl⟩, fun hn => hq (ho hn)⟩

theorem enterServing {o : OpState} (ho : o.serving = true) : (u.enterServing o).Mirrors (v.enterServing o) := by
  obtain ⟨⟨e, rfl⟩, -⟩ := h
  rw [State.enterServing_frame u, State.enterServing_frame { u with ev := e }]
  exact ⟨⟨_, rfl⟩, fun hn => absurd (ho.symm.trans hn) (by decide)⟩

theorem askSolo (p : Purpose) (a : Access) (n : Nat) : (u.askSolo p a n).Mirrors (v.askSolo p a n) := by
  obtain ⟨⟨e, rfl⟩, hq⟩ := h
  exact of_rest e hq

theorem withRecovery (r : Option Recovery) :
    ({ u with recovery := r } : State).Mirrors { v with recovery := r } := by
  obtain ⟨⟨e, rfl⟩, hq⟩ := h
  exact of_rest e hq

theorem freePort : u.freePort.Mirrors v.freePort := by
  obtain ⟨⟨e, rfl⟩, hq⟩ := h
  exact of_rest e hq

/-! ## The exit from RESET, the end of WAIT, and LOAD (R137 to R148) -/

theorem exitReset (pins : Straps) : (u.exitReset pins).Mirrors (v.exitReset pins) := by
  obtain ⟨⟨e, rfl⟩, hq⟩ := h
  unfold State.exitReset
  dsimp only
  split
  · next hreset =>
    refine askSummary (of_rest e fun _ => hq ?_)
    rw [hreset.1]
    rfl
  · exact of_rest e hq

theorem strapFault : u.strapFault.Mirrors v.strapFault := by
  obtain ⟨⟨e, rfl⟩, -⟩ := h
  unfold State.strapFault
  rw [State.enterServing_frame, State.enterServing_frame]
  exact ⟨⟨_, rfl⟩, nofun⟩

theorem endWait (hn : u.su.opState.serving = false) (pins : Straps) : (u.endWait pins).Mirrors (v.endWait pins) := by
  have load := h.setOpState (o := .load) fun _ => hn
  have provision := h.setOpState (o := .provision) fun _ => hn
  have fault := h.strapFault
  have reads : (u.setOpState .load).askLoader.Mirrors (v.setOpState .load).askLoader := by
    obtain ⟨⟨e, he⟩, rest⟩ := load
    rw [he]
    exact of_rest e rest
  unfold State.endWait
  rw [h.su]
  split
  · split
    · split
      · exact fault
      · exact provision
    · dsimp only
      split
      · exact load.strapFault
      · exact reads
  · exact h

theorem enterRecover (hn : u.su.opState.serving = false) : u.enterRecover.Mirrors v.enterRecover := by
  have recovering := (h.withRecovery (some Recovery.start)).setOpState (o := .recover) fun _ => hn
  obtain ⟨⟨e, he⟩, rest⟩ := recovering
  unfold State.enterRecover
  rw [he]
  exact of_rest e rest

theorem configInvalid (hn : u.su.opState.serving = false) (r : Reason) :
    (u.configInvalid r).Mirrors (v.configInvalid r) := by
  obtain ⟨⟨e, he⟩, rest⟩ := h.raise .configBad { detail := some (configBadDetail r) }
  unfold State.configInvalid
  rw [he]
  exact enterRecover (of_rest e rest) hn

theorem judgeImage (hn : u.su.opState.serving = false) : u.judgeImage.Mirrors v.judgeImage := by
  have invalid := fun r => h.configInvalid hn r
  have valid := enterRecover (h.update (fun s =>
    { s.install (settingsOf s.su.image) with su := { s.su with validity := .valid } }) (fun _ => rfl) rfl) hn
  have area : v.bridgeBase = u.bridgeBase := by rw [State.bridgeBase, h.su, ← State.bridgeBase]
  unfold State.judgeImage
  rw [h.su, area]
  split
  · exact invalid _
  · exact valid

theorem loaderDone (hn : u.su.opState.serving = false) (d : Word) : (u.loaderDone d).Mirrors (v.loaderDone d) := by
  have read := h.update (fun s => { s with su := { s.su with image := s.su.image ++ [d] } }) (fun _ => rfl) rfl
  have judged := read.judgeImage hn
  obtain ⟨⟨e, rfl⟩, hq⟩ := h
  exact ite Iff.rfl (of_rest e hq) judged

/-! ## The recovery pass (R72 to R81, R150) -/

theorem enterFault : u.enterFault.Mirrors v.enterFault := by
  have ended := h.update (fun s =>
    { s with
      recovery := none, bus := { s.bus with solo := none }
      cfg := if s.su.validity = .valid then Settings.default else s.cfg
      mon := if s.su.validity = .valid then s.withdrawnMonitor else s.mon }) (fun _ => rfl) rfl
  rw [State.enterFault_eq, State.enterFault_eq]
  exact ended.enterServing rfl

theorem endRecovery (r : Recovery) : (u.endRecovery r).Mirrors (v.endRecovery r) := by
  have seeded := h.update (fun s =>
    { s with eng := s.eng.seed r (s.slotAfter r.highestSlot), recovery := none }) (fun _ => rfl) rfl
  have mode : (if u.su.validity = .valid then OpState.run else .safe).serving = true := by split <;> rfl
  have ended := (seeded.raise .recovered { detail := some (recoveredDetail r.replayed r.discarded) }).enterServing mode
  obtain ⟨⟨e, rfl⟩, -⟩ := h
  exact ended

theorem beginAction (r : Recovery) : (u.beginAction r).Mirrors (v.beginAction r) := by
  have ended := h.endRecovery r
  obtain ⟨⟨e, rfl⟩, hq⟩ := h
  unfold State.beginAction
  split
  · exact ended
  · dsimp only
    split <;> exact of_rest e hq

theorem scanDone (d : Word) : (u.scanDone d).Mirrors (v.scanDone d) := by
  have begun := fun r => h.beginAction r
  obtain ⟨⟨e, rfl⟩, hq⟩ := h
  unfold State.scanDone
  dsimp only
  split
  · split
    · exact of_rest e hq
    · unfold State.nextSlot
      exact ite Iff.rfl (of_rest e hq) (begun _)
  · exact of_rest e hq

theorem replayReadDone (d : Word) : (u.replayReadDone d).Mirrors (v.replayReadDone d) := by
  obtain ⟨⟨e, rfl⟩, hq⟩ := h
  unfold State.replayReadDone
  dsimp only
  split
  · split
    · exact of_rest e hq
    · exact ite Iff.rfl (of_rest e hq) (of_rest e hq)
    · exact of_rest e hq
  · exact of_rest e hq

theorem replayWriteDone : u.replayWriteDone.Mirrors v.replayWriteDone := by
  obtain ⟨⟨e, rfl⟩, hq⟩ := h
  unfold State.replayWriteDone
  dsimp only
  split
  · split
    · split <;> exact of_rest e hq
    · exact of_rest e hq
  · exact of_rest e hq

theorem recoveryRetireDone : u.recoveryRetireDone.Mirrors v.recoveryRetireDone := by
  have replayed := fun r => h.beginAction r
  have discarded := fun f r => (h.raise .replayDiscard f).beginAction r
  unfold State.recoveryRetireDone
  rw [h.recovery]
  split
  · split
    · split
      · exact replayed _
      · exact discarded _ _
      · exact discarded _ _
    · exact h
  · exact h

/-- A failed access of the loader or the recovery pass (R108). -/
theorem accessFailed (hn : u.su.opState.serving = false) {f : InFlight} (hc : f.purpose.cls = none)
    (hs : f.purpose ≠ .status) : (u.accessFailed f).Mirrors (v.accessFailed f) := by
  have failed : (u.handFailure f).Mirrors (v.handFailure f) := by
    unfold State.handFailure State.recoveryReadFailed State.replayWriteFailed State.recoveryRetireFailed
    rw [h.recovery]
    cases hp : f.purpose with
    | forwarded | journal | sealWrite | apply | retire => rw [hp] at hc; cases hc
    | status => exact absurd hp hs
    | loader => exact h.configInvalid hn _
    | scan | replayRead | replayWrite | recoveryRetire => exact (h.raise ..).enterFault
  have retried : (u.retry f).Mirrors (v.retry f) := by
    unfold State.retry
    cases hp : f.purpose with
    | forwarded | journal | sealWrite | apply | retire => rw [hp] at hc; cases hc
    | status => exact absurd hp hs
    | loader | scan | replayRead | replayWrite | recoveryRetire => exact h.askSolo ..
  unfold State.accessFailed State.withdrawn
  rw [h.eng]
  split
  · exact h
  · split
    · exact retried
    · exact failed

/-! ## Samples (R123 to R128) -/

theorem cutReset (pins : Straps) : (u.cutReset pins).Mirrors (v.cutReset pins) := by
  obtain ⟨⟨e, rfl⟩, -⟩ := h
  exact exitReset (of_rest EventUnit.reset fun _ => EventUnit.reset_atRest) pins

theorem followMonitor (pins : Straps) : (u.followMonitor pins).Mirrors (v.followMonitor pins) := by
  have ended : (if u.su.opState = .wait then u.endWait pins else u).Mirrors
      (if v.su.opState = .wait then v.endWait pins else v) := by
    rw [h.su]
    split
    · next hwait => exact h.endWait (by rw [hwait]; rfl) pins
    · exact h
  unfold State.followMonitor
  rw [h.mon]
  split
  · exact h.cutReset pins
  · exact ended
  · exact ended
  · exact h

theorem raiseSample (before : MonState) (l : Level) : (u.raiseSample before l).Mirrors (v.raiseSample before l) := by
  have raised := fun k => h.raise k { detail := some (levelDetail l) }
  unfold State.raiseSample
  rw [h.mon]
  split
  · exact raised _
  · exact h

theorem askIfChanged (before : MonState) : (u.askIfChanged before).Mirrors (v.askIfChanged before) := by
  unfold State.askIfChanged
  rw [h.mon]
  split
  · exact h
  · exact h.askSummary

theorem takeLevel (l : Level) (pins : Straps) : (u.takeLevel l pins).Mirrors (v.takeLevel l pins) := by
  have sampled := h.update (fun s =>
    ({ s with mon := s.mon.sample s.cfg.params (s.su.opState == .reset) l } : State).publish) (fun _ => rfl) rfl
  have followed := ((sampled.raiseSample u.mon.state l).askIfChanged u.mon.state).followMonitor pins
  obtain ⟨⟨e, rfl⟩, -⟩ := h
  exact followed

theorem takeSample (l : Level) (pins : Straps) : (u.takeSample l pins).Mirrors (v.takeSample l pins) := by
  have taken : (u.takeLevel l pins).scheduleSample.Mirrors (v.takeLevel l pins).scheduleSample := by
    obtain ⟨⟨e, he⟩, rest⟩ := h.takeLevel l pins
    rw [he]
    exact of_rest e rest
  obtain ⟨⟨e, rfl⟩, hq⟩ := h
  unfold State.takeSample State.sampleDone
  dsimp only
  split
  · split
    · exact of_rest e hq
    · exact taken
  · exact of_rest e hq

/-! ## Time and the grant outside a serving state (R105, R116, R117) -/

theorem tickClk : u.tickClk.Mirrors v.tickClk := by
  obtain ⟨⟨e, rfl⟩, hq⟩ := h
  unfold State.tickClk
  dsimp only
  split
  · exact of_rest e hq
  · refine ⟨⟨_, rfl⟩, fun hn => ?_⟩
    obtain ⟨pres, given, failure, wait, job⟩ := hq hn
    exact ⟨pres, given, failure, by simp only [State.tickMicro, wait]; rfl, job⟩

theorem settle (hn : u.su.opState.serving = false) : u.settle.Mirrors v.settle := by
  obtain ⟨⟨e, rfl⟩, hq⟩ := h
  unfold State.settle State.arbitrate State.presentSolo
  dsimp only
  cases ho : u.su.opState with
  | reset | wait => simp only [ite_self, Bool.false_eq_true, if_false]; exact of_rest e hq
  | load | recover =>
    simp only [Bool.false_eq_true, if_false]
    split
    · exact of_rest e hq
    · split <;> exact of_rest e hq
  | run | safe | provision | fault => rw [ho] at hn; cases hn

end

end State.Mirrors

end Sys2Proof.Machine
end

section
/-! PROOFS. The law of the part's phases, command by command. -/

namespace Sys2Proof.Machine

/-! ## Resets (R137 to R140) -/

/-- Inside a reset its conditions may come and go; the power-on delay runs only while the power-on condition holds. -/
theorem State.Resetting.withConditions {s : State} (h : s.Resetting) {on up line : Bool} {delay : Option Nat}
    (hd : delay.isSome = true → on = true) : ({ s with su := { s.su with
      powerOn := on, supplyUp := up, powerOnDelay := delay, line := line } } : State).Resetting := by
  obtain ⟨op, pend, cause, straps, err, -, hp, hst, hm, he⟩ := h
  exact ⟨op, pend, cause, straps, err, hd, ⟨hp.port, hp.solo, hp.apart, hp.waiting, hp.recovery⟩,
    ⟨hst.streams, hst.rows, hst.waits, hst.engine, hst.requests, hst.presentation, hst.writer⟩,
    hm.congr rfl rfl ⟨rfl, rfl, rfl, rfl, rfl⟩, he⟩

theorem State.Lawful.resetting {s : State} (h : s.Lawful) (ho : s.su.opState = .reset) : s.Resetting := by
  obtain ⟨⟨hr, hp, hst, hm⟩, he⟩ := h
  refine ⟨ho, hr.forming.mp ho, ?_, ?_, hr.noStrapError (by rw [ho]; decide), hr.delay, hp, hst, hm, he⟩
  · exact Option.not_isSome_iff_eq_none.mp fun hc => hr.fixed.mpr hc ho
  · exact Option.not_isSome_iff_eq_none.mp fun hc => hr.straps.mpr hc ho

/-- While an access is in flight or the quiet period runs, the close of a step only ends the moment (R104, R106). -/
theorem State.settle_waits {s : State} (h : s.bus.port.isSome = true ∨ s.bus.quiet.isSome = true) :
    s.settle = { s with bus := { s.bus with moment := s.bus.moment + 1 } } :=
  if_pos (Bool.or_eq_true_iff.mpr h)

namespace State.phaseLaw

section
variable {s : State} (h : s.phaseLaw)
include h

theorem withPending (rest : List Instr) : ({ s with pending := rest } : State).phaseLaw := by
  obtain ⟨hr, hp, hst, hm⟩ := h
  exact ⟨hr.congr rfl, ⟨hp.port, hp.solo, hp.apart, hp.waiting, hp.recovery⟩,
    ⟨hst.streams, hst.rows, hst.waits, hst.engine, hst.requests, hst.presentation, hst.writer⟩,
    hm.congr rfl rfl ⟨rfl, rfl, rfl, rfl, rfl⟩⟩

/-! ## Serving states -/

/-- In a serving state a change of the event unit is none of the law's. -/
theorem withEvents_serving (hs : s.su.opState.serving = true) (e : EventUnit) :
    ({ s with ev := e } : State).phaseLaw :=
  h.withEvents fun hn => absurd (hs.symm.trans hn) (by decide)

theorem keeps (hs : s.su.opState.serving = true) {t : State} (k : s.Keeps t) : t.phaseLaw := by
  have calm : s.calm.Keeps t.calm := ⟨k.pending, k.su, k.cfg, k.clk, k.recovery, k.mon, k.port, k.solo, k.quiet,
    k.waiting, k.responses, fun _ => EventUnit.reset_lawful⟩
  have law := (State.Lawful.keeps h.calm hs calm).1
  have ht : t.su.opState.serving = true := by rw [k.su]; exact hs
  exact law.withEvents_serving ht t.ev

theorem noSolo (hs : s.su.opState.serving = true) : s.bus.solo = none := by
  cases hq : s.bus.solo with
  | none => rfl
  | some q => exact absurd (hs.symm.trans (h.port.solo q hq).2) (by decide)

/-! ## The grant (R111 to R117) -/

/-- In a serving state the port may carry an access of F, JW, AP or S (R135). -/
theorem grants (hs : s.su.opState.serving = true) {b : Bus} {e : EventUnit}
    (port : ∀ f, b.port = some f → f.purpose.cls.isSome = true ∨ f.purpose = .status)
    (solo : b.solo = s.bus.solo) (waiting : ∀ w ∈ b.waiting, w ∈ s.bus.waiting) :
    ({ s with bus := b, ev := e } : State).phaseLaw := by
  have none := solo.trans (h.noSolo hs)
  refine ⟨h.reset.congr rfl, ⟨fun f hf => ?_, fun q hq => ?_, fun _ => none, fun w hw => ?_, h.port.recovery⟩,
    State.startLaw_of_serving hs, h.monitor.congr rfl rfl ⟨rfl, rfl, rfl, rfl, rfl⟩⟩
  · have allowed : (f.purpose.cls.isSome || f.purpose == .status) = true := by
      rcases port f hf with hp | hp <;> simp [hp]
    show f.purpose.allowedIn s.su.opState = true
    cases ho : s.su.opState with
    | run | safe | provision | fault => exact allowed
    | reset | wait | load | recover => rw [ho] at hs; cases hs
  · rw [none] at hq
    cases hq
  · exact h.port.waiting w (waiting w hw)

theorem grantServing (hs : s.su.opState.serving = true) : s.grantServing.phaseLaw := by
  unfold State.grantServing
  split
  · unfold State.grantStatus
    split
    · refine h.grants hs (fun f hf => ?_) rfl fun w hw => hw
      obtain rfl := Option.some.inj hf
      exact .inr rfl
    · exact h
  · split
    · next w hw =>
      refine h.grants hs (fun f hf => ?_) rfl fun v hv => List.mem_of_mem_erase hv
      obtain rfl := Option.some.inj hf
      exact .inl (h.port.waiting w (Bus.choose_mem hw))
    · exact h

/-- A change that neither looks at the event unit nor touches it, in one operating state. -/
theorem update (g : State → State) (hg : ∀ e, g { s with ev := e } = { g s with ev := e })
    (ho : (g s).su.opState = s.su.opState) (hl : s.calm.Lawful → (g s.calm).Lawful) : (g s).phaseLaw :=
  h.lift g (fun hm => hm.update g hg ho) hl

theorem withMoment (n : Nat) : ({ s with bus := { s.bus with moment := n } } : State).phaseLaw :=
  h.update (fun s => { s with bus := { s.bus with moment := n } }) (fun _ => rfl) rfl
    fun hl => hl.withBus _ rfl rfl rfl

theorem settle (together : Bool) : (s.settle together).phaseLaw := by
  cases together with
  | true => exact h
  | false =>
    have later := h.withMoment (s.bus.moment + 1)
    by_cases hs : s.su.opState.serving = true
    · by_cases hb : s.bus.port.isSome = true ∨ s.bus.quiet.isSome = true
      · rw [State.settle_waits hb]
        exact later
      · push Not at hb
        have port : s.bus.port = none := Option.not_isSome_iff_eq_none.mp hb.1
        rw [State.settle_serving port (Option.not_isSome_iff_eq_none.mp hb.2) hs]
        exact later.grantServing hs
    · have hn : s.su.opState.serving = false := Bool.eq_false_iff.mpr hs
      exact h.lift State.settle (fun hm => hm.settle hn) fun hl => hl.settle false

/-! ## Requests and expiries -/

theorem request (st : StreamId) (q : Request) {path : State → State} (hp : ∀ u : State, u.Keeps (path u)) :
    (s.request st q path).phaseLaw := by
  by_cases hs : s.ready = true
  · exact h.keeps hs (.request s st q hp)
  · rw [State.request_notReady (Bool.eq_false_iff.mpr hs)]
    exact h

/-- Outside a serving state no timer of a stream runs. -/
theorem stream_reset (hs : ¬ s.su.opState.serving = true) (st : StreamId) : s.streams[st] = StreamRec.reset := by
  rw [h.start.streams (Bool.eq_false_iff.mpr hs)]
  exact Vector.getElem_replicate st.isLt

theorem idleExpiry (st : StreamId) : (if s.idleCounted st then (s.idleExpired st).afterFree else s).phaseLaw := by
  by_cases hs : s.su.opState.serving = true
  · split
    · exact h.keeps hs ((((State.GroupSide.dropOpenRow s st).trans (.toNotify ..)).keeps.trans (.raise ..)).trans
        (.afterFree _))
    · exact h
  · have stopped : s.idleCounted st = false := by rw [State.idleCounted, h.stream_reset hs]; rfl
    rw [stopped]
    exact h

theorem takeStall (st : StreamId) : (s.takeStall st).phaseLaw := by
  by_cases hs : s.su.opState.serving = true
  · unfold State.takeStall State.stallExpired
    split
    · refine h.keeps hs ((State.Keeps.trans ?_ (State.GroupSide.refuse ..).keeps).trans
        ((State.Keeps.raise ..).trans (.afterFree _)))
      exact .of_fields rfl rfl rfl rfl rfl rfl rfl rfl (List.prefix_refl _)
    · exact h
  · have stopped : s.takeStall st = s := by simp only [State.takeStall, h.stream_reset hs, StreamRec.reset]
    rw [stopped]
    exact h

/-! ## Answers of the memory (R104 to R110) -/

theorem freePort : s.freePort.phaseLaw := h.lift _ (fun hm => hm.freePort) fun hl => hl.freePort

theorem answered (n : AccessNumber) (isMine : Purpose → Bool) {taken : InFlight → State → State}
    (ht : ∀ f, s.bus.port = some f → isMine f.purpose = true → (taken f s.freePort).phaseLaw) :
    (s.answered n isMine taken).phaseLaw := by
  by_cases hc : ∃ f, s.carries n f
  · obtain ⟨f, hf⟩ := hc
    by_cases mine : isMine f.purpose = true
    · rw [State.answered_match hf isMine mine]
      exact ht f hf.1 mine
    · have other : s.answered n isMine taken = s := by simp [State.answered, State.matched, hf.1, hf.2, mine]
      rw [other]
      exact h
  · rw [State.answered_noMatch fun f hf hn => hc ⟨f, hf, hn⟩]
    exact h

variable {f : InFlight} (hf : s.bus.port = some f)
include hf

theorem noSolo_of_port : s.bus.solo = none := h.port.apart (by rw [hf]; rfl)

theorem engineDone (hc : f.purpose.cls.isSome = true) {act : State → State} (ha : ∀ u : State, u.Keeps (act u)) :
    (s.freePort.ifRunning act).phaseLaw := by
  have hs := h.calm.serving_of_port hf (.inl hc)
  unfold State.ifRunning
  split
  · exact h.freePort.keeps hs (ha _)
  · exact h.freePort

theorem takeForwarded (hc : f.purpose.cls.isSome = true) (d : Word) : (s.freePort.takeForwarded d f).phaseLaw := by
  have hs := h.calm.serving_of_port hf (.inl hc)
  unfold State.takeForwarded State.forwardedDone
  split
  · split
    · exact h.freePort.keeps hs (State.GroupSide.respond ..).keeps
    · exact h.freePort
  · exact h.freePort

theorem statusDone (hp : f.purpose = .status) (e : EventUnit) : ({ s.freePort with ev := e } : State).phaseLaw :=
  h.freePort.withEvents_serving (h.calm.serving_of_port hf (.inr hp)) e

theorem loaderDone (hp : f.purpose = .loader) (d : Word) : (s.freePort.loaderDone d).phaseLaw := by
  have ho := h.calm.load_of_port hf hp
  have hn : s.freePort.su.opState.serving = false := by rw [State.freePort_su]; exact congrArg OpState.serving ho
  exact h.freePort.lift (fun u => u.loaderDone d) (fun hm => hm.loaderDone hn d)
    fun hl => hl.loaderDone ho rfl (h.noSolo_of_port hf) d

section
variable (hp : f.purpose = .scan ∨ f.purpose = .replayRead ∨ f.purpose = .replayWrite ∨ f.purpose = .recoveryRetire)
include hp

/-- An outcome of the recovery pass, which its access brings in RECOVER only. -/
theorem passDone {act : State → State} (hm : ∀ {u v : State}, u.Mirrors v → (act u).Mirrors (act v))
    (hl : ∀ {u : State}, u.Lawful → u.su.opState = .recover → u.bus.port = none → u.bus.solo = none →
      (act u).Lawful) : (act s.freePort).phaseLaw :=
  h.freePort.lift act hm fun law => hl law (h.calm.recover_of_port hf hp) rfl (h.noSolo_of_port hf)

end

/-- A failed access whose requester serves the host. -/
theorem servingFailed (hp : f.purpose.cls.isSome = true ∨ f.purpose = .status) :
    (s.freePort.accessFailed f).phaseLaw := by
  have hs := h.calm.serving_of_port hf hp
  have free := h.freePort
  have kept := fun {t : State} (k : s.freePort.Keeps t) => free.keeps hs k
  unfold State.accessFailed State.retry State.handFailure
  split
  · exact free
  · cases hpp : f.purpose with
    | forwarded st =>
      split
      · exact free
      · exact kept ((State.GroupSide.respond ..).keeps.trans (.raise ..))
    | journal | sealWrite =>
      split
      · exact kept (.ask _ rfl _ _)
      · exact kept (.journalFailed _)
    | apply =>
      split
      · exact kept (.ask _ rfl _ _)
      · exact kept (.applyFailed _ _)
    | retire =>
      split
      · exact kept (.ask _ rfl _ _)
      · exact kept (.retireFailed _)
    | status => split <;> exact free.withEvents_serving hs _
    | loader | scan | replayRead | replayWrite | recoveryRetire => rw [hpp] at hp; rcases hp with hp | hp <;> cases hp

theorem accessFailed : (s.freePort.accessFailed f).phaseLaw := by
  by_cases hp : f.purpose.cls.isSome = true ∨ f.purpose = .status
  · exact h.servingFailed hf hp
  · push Not at hp
    have hc : f.purpose.cls = none := Option.not_isSome_iff_eq_none.mp hp.1
    have allowed := h.port.port f hf
    have hn : s.su.opState.serving = false := by
      cases ho : s.su.opState with
      | reset | wait | load | recover => rfl
      | run | safe | provision | fault => rw [ho] at allowed; simp [Purpose.allowedIn, hc, hp.2] at allowed
    exact h.freePort.lift (fun u => u.accessFailed f) (fun hm => hm.accessFailed hn hc hp.2)
      fun hl => hl.accessFailed f allowed rfl (h.noSolo_of_port hf)

omit hf in
theorem timeOut : s.timeOut.phaseLaw := by
  unfold State.timeOut
  split
  · next hf =>
    split
    · exact h
    · exact h.accessFailed hf
  · exact h

end

section
variable {s : State} (h : s.phaseLaw)
include h

/-! ## Reset commands, ACK, the other timers, and time -/

theorem endPowerOn (pins : Straps) : (s.endPowerOn pins).phaseLaw := by
  unfold State.endPowerOn
  split
  · next hd =>
    have ho : s.su.opState = .reset := h.reset.conditions.mpr (.inl (h.reset.delay hd))
    exact h.lift
      (fun s => ({ s with su := { s.su with powerOn := false, powerOnDelay := none } } : State).exitReset pins)
      (fun hm => (hm.update (fun s => { s with su := { s.su with powerOn := false, powerOnDelay := none } })
        (fun _ => rfl) rfl).exitReset pins)
      fun hl => ((hl.resetting ho).withConditions Bool.noConfusion).exitReset pins
  · exact h

theorem releaseLine (pins : Straps) :
    (({ s with su := { s.su with line := false } } : State).exitReset pins).phaseLaw := by
  by_cases ho : s.su.opState = .reset
  · exact h.lift (fun s => ({ s with su := { s.su with line := false } } : State).exitReset pins)
      (fun hm => (hm.update (fun s => { s with su := { s.su with line := false } }) (fun _ => rfl) rfl).exitReset pins)
      fun hl => ((hl.resetting ho).withConditions h.reset.delay).exitReset pins
  · have line : s.su.line = false := Bool.eq_false_iff.mpr fun hc => ho (h.reset.conditions.mpr (.inr hc))
    have same : ({ s with su := { s.su with line := false } } : State) = s := by rw [← line]
    have stays : s.exitReset pins = s := if_neg fun hc => ho hc.1
    rw [same, stays]
    exact h

theorem acknowledge : ({ s with ev := s.ev.acknowledge } : State).phaseLaw := by
  refine h.withEvents fun hn => ?_
  obtain ⟨pres, given, failure, wait, job⟩ := h.atRest hn
  have stray : s.ev.acknowledge = { s.ev with stray := s.ev.stray + 1 } := by simp only [EventUnit.acknowledge, pres]
  rw [stray]
  exact ⟨pres, given, failure, wait, job⟩

theorem retryWord (hw : s.ev.retryWait.isSome = true) : ({ s with ev := s.ev.retryWord } : State).phaseLaw := by
  refine h.withEvents fun hn => ?_
  obtain ⟨-, -, -, wait, -⟩ := h.atRest hn
  rw [wait] at hw
  cases hw

theorem takeSample (l : Level) (pins : Straps) : (s.takeSample l pins).phaseLaw := by
  refine h.lift (fun u => u.takeSample l pins) (fun hm => hm.takeSample l pins) fun hl => ?_
  unfold State.takeSample
  split
  · exact hl.sampleDone l pins
  · exact hl

theorem idle : s.idle.phaseLaw := by
  refine settle ?_ false
  split
  · exact h
  · exact h.lift _ (fun hm => hm.tickClk) fun hl => hl.tickClk

end

end State.phaseLaw

/-- Every command keeps the law of the phases. -/
theorem exec_keepsPhaseLaw (c : Instr) {s : State} (h : s.phaseLaw) : ∃ t, exec c s = .next t ∧ t.phaseLaw := by
  have close : ∀ {u : State}, u.phaseLaw → ∀ tog, ∃ t, Host.Outcome.next (u.settle tog) =
      (Host.Outcome.next t : Host.Outcome State Fault Refusal) ∧ t.phaseLaw := fun hu tog => ⟨_, rfl, hu.settle tog⟩
  have purpose : ∀ {f : InFlight} {p : Purpose}, (f.purpose == p) = true → f.purpose = p := fun h => eq_of_beq h
  have engine : ∀ {p : Purpose} {act : State → State}, p.cls.isSome = true → (∀ u : State, u.Keeps (act u)) →
      ∀ n, (s.answered n (· == p) fun _ u => u.ifRunning act).phaseLaw := fun hc ha n =>
    h.answered n _ fun f hf hp => h.engineDone hf (by rw [purpose hp]; exact hc) ha
  cases c with
  | groupWrite => exact close (h.request _ _ fun u => (State.Keeps.groupWrite u ..).trans (.afterFree _)) _
  | closeWrite => exact close (h.request _ _ fun u => (State.Keeps.closeWrite u ..).trans (.afterFree _)) _
  | abortWrite => exact close (h.request _ _ fun u => (State.Keeps.abortWrite u _).trans (.afterFree _)) _
  | plainWrite => exact close (h.request _ _ fun u => .plainWrite u ..) _
  | plainRead => exact close (h.request _ _ fun u => .plainRead u ..) _
  | idleTimerExpiry st => exact close (h.idleExpiry st) _
  | stallTimerExpiry st => exact close (h.takeStall st) _
  | memoryTimeout => exact close h.timeOut _
  | quietPeriodEnd =>
    exact close (h.update (fun s => { s with bus := { s.bus with quiet := none } }) (fun _ => rfl) rfl
      fun hl => hl.withBus _ rfl rfl rfl) _
  | idleSampleInterval =>
    exact close (h.update (fun s => { s with mon := { s.mon with sampler := s.mon.sampler.wake } }) (fun _ => rfl)
      rfl fun hl => hl.withSampler _) _
  | sampleComplete l pins => exact close (h.takeSample l pins) _
  | statusRetryWait =>
    refine close ?_ false
    split
    · next hw => exact h.retryWord hw
    · exact h
  | powerOn rising =>
    have reset := State.takeReset_resetting h.reset.delay .powerOn
    exact close ((reset.withConditions fun _ => rfl).lawful (.inl rfl)).1 _
  | powerOnDelayEnd pins => exact close (h.endPowerOn pins) _
  | resetLineAssert =>
    have reset := State.takeReset_resetting h.reset.delay .line
    exact close ((reset.withConditions reset.delay).lawful (.inr rfl)).1 _
  | resetLineRelease pins => exact close (h.releaseLine pins) _
  | ack =>
    refine close ?_ false
    split
    · exact h
    · exact h.acknowledge
  | journalWriteComplete n => exact close (engine rfl .journalDone n) _
  | sealComplete n => exact close (engine rfl .sealDone n) _
  | applyWriteComplete n => exact close (engine rfl .applyDone n) _
  | retireWriteComplete n => exact close (engine rfl .retireDone n) _
  | statusWordComplete n => exact close (h.answered n _ fun f hf hp => h.statusDone hf (purpose hp) _) _
  | loaderReadComplete n d => exact close (h.answered n _ fun f hf hp => h.loaderDone hf (purpose hp) d) _
  | scanReadComplete n d =>
    exact close (h.answered n _ fun f hf hp => h.passDone hf (.inl (purpose hp)) (fun hm => hm.scanDone d)
      fun hl ho port solo => hl.scanDone ho port solo d) _
  | replayReadComplete n d =>
    exact close (h.answered n _ fun f hf hp => h.passDone hf (.inr (.inl (purpose hp)))
      (fun hm => hm.replayReadDone d) fun hl ho port _ => hl.replayReadDone ho port d) _
  | replayWriteComplete n =>
    exact close (h.answered n _ fun f hf hp => h.passDone hf (.inr (.inr (.inl (purpose hp))))
      (fun hm => hm.replayWriteDone) fun hl ho port _ => hl.replayWriteDone ho port) _
  | recoveryRetireComplete n =>
    exact close (h.answered n _ fun f hf hp => h.passDone hf (.inr (.inr (.inr (purpose hp))))
      (fun hm => hm.recoveryRetireDone) fun hl ho port solo => hl.recoveryRetireDone ho port solo) _
  | forwardedAccessComplete n d =>
    refine close (h.answered n _ fun f hf hp => h.takeForwarded hf ?_ d) false
    cases hpp : f.purpose with
    | forwarded st => rfl
    | _ => rw [hpp] at hp; cases hp
  | memoryErrorAnswer n => exact close (h.answered n _ fun f hf _ => h.accessFailed hf) _
  | staleAnswer => exact close h _

end Sys2Proof.Machine

namespace Sys2Proof.Proofs

open Sys2Proof Sys2Proof.Machine

/-- Settles O59: the command at the front of the queue keeps the law, and so does a step on an empty queue. -/
theorem everyStepKeepsThePhaseLaw : Obligations.EveryStepKeepsThePhaseLaw := by
  intro s t h hstep
  unfold step at hstep
  split at hstep
  · next c rest _ =>
    obtain ⟨u, hu, law⟩ := exec_keepsPhaseLaw c (h.withPending rest)
    obtain rfl := Host.Outcome.next.inj (hu.symm.trans hstep)
    exact law
  · obtain rfl := Host.Outcome.next.inj hstep
    exact h.idle

end Sys2Proof.Proofs
end

section
/-! PROOFS. The memory port and the arbiter: failed attempts, the choice among F, JW, AP and S, and the ends of the
timers. -/

namespace Sys2Proof.Machine

/-! ## Failed attempts (R105, R107, R108) -/

section
variable {s : State} {n : AccessNumber} {f : InFlight}

/-- No interest is withdrawn while the engine runs, and never one outside the engine (R65, R110). -/
theorem State.withdrawn_eq_false {p : Purpose} (h : s.eng.state = .running ∨ p.cls = none) :
    s.withdrawn p = false := by
  rcases h with h | h <;> simp [State.withdrawn, h]

theorem exec_memoryErrorAnswer_retry (h : s.carries n f) (hw : s.eng.state = .running ∨ f.purpose.cls = none)
    (ha : f.attempt < f.purpose.attempts) :
    exec (.memoryErrorAnswer n) s = .next (s.freePort.retry f).settle := by
  have kept : ¬ s.freePort.withdrawn f.purpose = true := by
    rw [State.withdrawn_eq_false (s := s.freePort) hw]
    exact Bool.false_ne_true
  rw [exec_memoryErrorAnswer_eq h, State.accessFailed, if_neg kept, if_pos ha]

/-- The fourth failure of an access outside the engine is handed to its requester. -/
theorem exec_memoryErrorAnswer_handed (h : s.carries n f) (hc : f.purpose.cls = none) (ha : f.attempt = 4) :
    exec (.memoryErrorAnswer n) s = .next (s.freePort.handFailure f).settle := by
  have kept : ¬ s.freePort.withdrawn f.purpose = true := by
    rw [State.withdrawn_eq_false (.inr hc)]
    exact Bool.false_ne_true
  rw [exec_memoryErrorAnswer_eq h, State.accessFailed, if_neg kept,
    if_neg (by rw [ha]; exact f.purpose.attempts_le.not_gt)]

end

/-! ## What the close of a step presents (R104, R111, R117) -/

section
variable {s : State} (hp : s.bus.port = none) (hq : s.bus.quiet = none)
include hp hq

/-- In LOAD and RECOVER the access asked for is presented. -/
theorem State.settle_solo {q : Solo} (ho : s.su.opState = .load ∨ s.su.opState = .recover)
    (hsolo : s.bus.solo = some q) : s.settle = { s with bus := { s.bus with
      solo := none, moment := s.bus.moment + 1, nextNumber := s.bus.nextNumber + 1
      port := some { purpose := q.purpose, access := q.access, attempt := q.attempt, number := s.bus.nextNumber
                     timeout := 250 } } } := by
  rcases ho with ho | ho <;> simp only [State.settle, State.arbitrate, hp, hq, ho, State.presentSolo, hsolo] <;> rfl

variable (hs : s.su.opState.serving = true)
include hs

/-- In a serving state the request chosen is presented, the alternation kept up, and the count of a status request that
waits raised (R113, R115). -/
theorem State.settle_grants (others : s.ev.sReq = none ∨ s.ev.sCount < 8) {w : Waiting}
    (hc : s.bus.choose (s.mon.published.state == .warn) = some w) : s.settle = { s with
      bus := { s.bus with
        port := some { purpose := w.purpose, access := w.access, attempt := w.attempt, number := s.bus.nextNumber
                       timeout := 250 }
        nextNumber := s.bus.nextNumber + 1
        waiting := s.bus.waiting.erase w
        lastClass := w.purpose.cls.getD s.bus.lastClass
        lastStream := match w.purpose with | .forwarded st => st | _ => s.bus.lastStream
        moment := s.bus.moment + 1 }
      ev := { s.ev with sCount := if s.ev.sReq = none then s.ev.sCount else s.ev.sCount + 1 } } := by
  have waits : s.bus.waiting ≠ [] := List.ne_nil_of_mem (Bus.choose_mem hc)
  have notStatus : ({ s with bus := { s.bus with moment := s.bus.moment + 1 } } : State).grantsStatus = false :=
    State.grantsStatus_others waits others
  have chosen : Bus.choose { s.bus with moment := s.bus.moment + 1 } (s.mon.published.state == .warn) = some w := hc
  have count : (if s.ev.sReq.isSome then min maxStatusCount (s.ev.sCount + 1) else s.ev.sCount)
      = if s.ev.sReq = none then s.ev.sCount else s.ev.sCount + 1 := by
    rcases others with h | h
    · rw [h]; rfl
    · cases s.ev.sReq with
      | none => rfl
      | some k => exact Nat.min_eq_right h
  rw [State.settle_serving hp hq hs, State.grantServing, notStatus]
  simp only [Bool.false_eq_true, if_false, chosen, State.grantWaiting, count]
  rfl

/-- The status writer goes when nothing else waits or its count is 8: its job's word is presented, a summary taking its
snapshot with its first word (R115, R165). -/
theorem State.settle_status {j : Job} {k : Nat} (hr : s.ev.sReq = some k) (hj : s.ev.job = some j)
    (turn : s.bus.waiting = [] ∨ s.ev.sCount = 8) :
    s.settle = ({ s with
      bus := { s.bus with moment := s.bus.moment + 1 }
      ev := { s.ev with job := some (s.grantedJob j), sReq := none, sCount := 0 } } : State).present .status
        (s.statusAccess (s.grantedJob j)) k := by
  have goes : ({ s with bus := { s.bus with moment := s.bus.moment + 1 } } : State).grantsStatus = true := by
    rcases turn with h | h <;> simp [State.grantsStatus, hr, h, maxStatusCount]
  rw [State.settle_serving hp hq hs, State.grantServing, goes]
  simp only [if_true, State.grantStatus, hj, hr]
  rfl

end

/-! ## The choice (R112 to R114) -/

/-- Of a list in rising order, the search finds the least element that passes. -/
theorem find?_le_of_pairwise {α : Type} {f : α → Nat} {l : List α} {p : α → Bool} {a b : α}
    (hl : l.Pairwise fun x y => f x ≤ f y) (ha : l.find? p = some a) (hb : b ∈ l) (hpb : p b = true) : f a ≤ f b := by
  obtain ⟨-, before, after, rfl, failed⟩ := List.find?_eq_some_iff_append.mp ha
  obtain ⟨-, later, -⟩ := List.pairwise_append.mp hl
  rcases List.mem_append.mp hb with h | h
  · have := failed b h
    rw [hpb] at this
    cases this
  · rcases List.mem_cons.mp h with rfl | h
    · exact Nat.le_refl _
    · exact (List.pairwise_cons.mp later).1 b h

/-- The place of a class in the order F, JW, AP. -/
def GrantClass.place : GrantClass → Nat
  | .f => 0
  | .jw => 1
  | .ap => 2

/-- How many classes come before this one, from the one after the last granted (R113). -/
def GrantClass.turn (last c : GrantClass) : Nat := (c.place + 2 - last.place) % 3

/-- How many streams come before this one, from the one after the last granted (R113). -/
def streamTurn (last st : StreamId) : Nat := (st.val + 3 - last.val) % 4

theorem GrantClass.turn_injective {last c d : GrantClass} (h : last.turn c = last.turn d) : c = d := by
  revert h
  cases last <;> cases c <;> cases d <;> decide

theorem streamTurn_injective {last a b : StreamId} (h : streamTurn last a = streamTurn last b) : a = b := by
  revert last a b
  decide

theorem classOrder_pairwise (last : GrantClass) :
    (classOrder last).Pairwise fun c d => last.turn c ≤ last.turn d := by
  cases last <;> decide

theorem streamOrder_pairwise (last : StreamId) :
    (streamOrder last).Pairwise fun a b => streamTurn last a ≤ streamTurn last b := by
  revert last
  decide

theorem mem_classOrder (last c : GrantClass) : c ∈ classOrder last := by
  cases last <;> cases c <;> decide

theorem mem_streamOrder (last st : StreamId) : st ∈ streamOrder last := by
  revert last st
  decide

theorem hasClass_of_mem {ws : List Waiting} {w : Waiting} {c : GrantClass} (hw : w ∈ ws)
    (hc : w.purpose.cls = some c) : hasClass ws c = true :=
  List.any_eq_true.mpr ⟨w, hw, by rw [hc]; exact beq_self_eq_true _⟩

theorem hasStream_of_mem {ws : List Waiting} {w : Waiting} {st : StreamId} (hw : w ∈ ws)
    (hp : w.purpose = .forwarded st) : hasStream ws st = true :=
  List.any_eq_true.mpr ⟨w, hw, by rw [hp]; exact beq_self_eq_true _⟩

/-- A choice that falls on the forwarder falls on the first stream in turn that waits (R113). -/
theorem Bus.chooseTied_stream {b : Bus} {tied : List Waiting} {v : Waiting}
    (hf : (classOrder b.lastClass).find? (hasClass tied) = some .f) (hv : b.chooseTied tied = some v) :
    ∃ st, v.purpose = .forwarded st ∧ (streamOrder b.lastStream).find? (hasStream tied) = some st := by
  unfold Bus.chooseTied at hv
  rw [hf] at hv
  dsimp only at hv
  split at hv
  · next st hst => exact ⟨st, by simpa using List.find?_some hv, hst⟩
  · cases hv

section
variable {b : Bus} {w : Waiting} (hw : w ∈ b.waiting) (oldest : ∀ v ∈ b.waiting, w.place ≤ v.place)
include hw oldest

theorem Bus.chooseOldest_tied :
    b.chooseOldest = b.chooseTied (b.waiting.filter fun v => v.place == w.place) := by
  have place : oldestPlace b.waiting = some w.place := by
    refine List.min?_eq_some_iff.mpr ⟨List.mem_map_of_mem hw, fun p hp => ?_⟩
    obtain ⟨v, hv, rfl⟩ := List.mem_map.mp hp
    exact oldest v hv
  simp only [Bus.chooseOldest, place]

variable (hall : ∀ v ∈ b.waiting, v.purpose.cls.isSome = true)
include hall

/-- Of the requests that share the oldest place, one of the first class in turn is chosen. -/
theorem Bus.chooseOldest_class : ∃ v ∈ b.waiting, v.place = w.place ∧ b.chooseOldest = some v
    ∧ (classOrder b.lastClass).find? (hasClass (b.waiting.filter fun v => v.place == w.place)) = v.purpose.cls := by
  have tied : w ∈ b.waiting.filter fun v => v.place == w.place := List.mem_filter.mpr ⟨hw, beq_self_eq_true _⟩
  obtain ⟨v, hv, chosen, first⟩ := b.chooseTied_mem (List.ne_nil_of_mem tied) fun v hv =>
    hall v (List.mem_of_mem_filter hv)
  obtain ⟨waits, place⟩ := List.mem_filter.mp hv
  exact ⟨v, waits, by simpa using place, by rw [b.chooseOldest_tied hw oldest, chosen], first⟩

end

/-- Among the requests of the oldest place the one first in turn gives the class that is chosen (R113). -/
theorem Bus.chooseOldest_turn {b : Bus} {w : Waiting} {c : GrantClass} (hw : w ∈ b.waiting)
    (hall : ∀ v ∈ b.waiting, v.purpose.cls.isSome = true) (hc : w.purpose.cls = some c)
    (first : ∀ v ∈ b.waiting, ∀ d, v.purpose.cls = some d →
      w.place < v.place ∨ (w.place = v.place ∧ b.lastClass.turn c ≤ b.lastClass.turn d)) :
    ∃ v ∈ b.waiting, v.place = w.place ∧ v.purpose.cls = some c ∧ b.chooseOldest = some v
      ∧ (classOrder b.lastClass).find? (hasClass (b.waiting.filter fun v => v.place == w.place)) = some c := by
  have oldest : ∀ v ∈ b.waiting, w.place ≤ v.place := by
    intro v hv
    obtain ⟨d, hd⟩ := Option.isSome_iff_exists.mp (hall v hv)
    rcases first v hv d hd with h | ⟨h, -⟩ <;> omega
  obtain ⟨v, hv, place, chosen, hfind⟩ := Bus.chooseOldest_class hw oldest hall
  obtain ⟨d, hd⟩ := Option.isSome_iff_exists.mp (hall v hv)
  rw [hd] at hfind
  have notLater : b.lastClass.turn d ≤ b.lastClass.turn c :=
    find?_le_of_pairwise (classOrder_pairwise _) hfind (mem_classOrder _ _)
      (hasClass_of_mem (List.mem_filter.mpr ⟨hw, beq_self_eq_true _⟩) hc)
  have same : d = c := by
    rcases first v hv d hd with h | ⟨-, h⟩
    · omega
    · exact GrantClass.turn_injective (Nat.le_antisymm notLater h)
  subst same
  exact ⟨v, hv, place, hd, chosen, hfind⟩

/-- Some request is chosen while one waits. -/
theorem Bus.exists_choose {b : Bus} (hne : b.waiting ≠ []) (hall : ∀ v ∈ b.waiting, v.purpose.cls.isSome = true)
    (warn : Bool) : ∃ w, b.choose warn = some w := by
  obtain ⟨w, hw, oldest⟩ := b.waiting.toFinset.exists_min_image Waiting.place (List.toFinset_nonempty_iff _ |>.mpr hne)
  obtain ⟨v, -, -, chosen, -⟩ := Bus.chooseOldest_class (List.mem_toFinset.mp hw)
    (fun v hv => oldest v (List.mem_toFinset.mpr hv)) hall
  unfold Bus.choose
  split
  · exact ⟨_, rfl⟩
  · exact ⟨v, chosen⟩

/-- Without the precedence of JW in WARN the oldest goes. -/
theorem Bus.choose_oldest {b : Bus} {warn : Bool} (h : warn = true → ∀ v ∈ b.waiting, v.purpose.cls ≠ some .jw) :
    b.choose warn = b.chooseOldest := by
  cases warn with
  | false => rfl
  | true =>
    have none : b.waitingJw = none := List.find?_eq_none.mpr fun v hv => by simpa using h rfl v hv
    simp only [Bus.choose, if_true, none]

/-- In WARN a waiting JW request goes first (R114). -/
theorem Bus.choose_jw {b : Bus} {w : Waiting} (hw : w ∈ b.waiting) (hc : w.purpose.cls = some .jw) :
    ∃ v, b.choose true = some v ∧ v.purpose.cls = some .jw := by
  obtain ⟨v, hv⟩ := Option.isSome_iff_exists.mp
    (List.find?_isSome (p := fun w : Waiting => w.purpose.cls == some .jw).mpr ⟨w, hw, by rw [hc]; rfl⟩)
  have found : b.waitingJw = some v := hv
  exact ⟨v, by simp only [Bus.choose, if_true, found], by simpa using List.find?_some hv⟩

end Sys2Proof.Machine

namespace Sys2Proof.Proofs

open Sys2Proof Sys2Proof.Machine

/-- Settles O38, by the requester of the access. -/
theorem failedAttemptsAreRetried : Obligations.FailedAttemptsAreRetried := by
  intro s n f hcarry ha u
  refine ⟨fun he hp => ?_, fun hp => ?_, fun hp => ?_, exec_memoryTimeout_eq hcarry⟩
  · have limit : f.purpose.attempts = 4 := by rcases hp with h | h | h | h <;> rw [h] <;> rfl
    rw [exec_memoryErrorAnswer_retry hcarry (.inl he) (by rw [limit]; exact ha)]
    rcases hp with h | h | h | h <;> simp only [State.retry, h] <;> rfl
  · have outside : f.purpose.cls = none ∧ f.purpose.attempts = 4 := by
      rcases hp with h | h | h | h | h <;> rw [h] <;> exact ⟨rfl, rfl⟩
    rw [exec_memoryErrorAnswer_retry hcarry (.inr outside.1) (by rw [outside.2]; exact ha)]
    rcases hp with h | h | h | h | h <;> simp only [State.retry, h] <;> rfl
  · rw [exec_memoryErrorAnswer_retry hcarry (.inr (by rw [hp]; rfl)) (by rw [hp]; exact ha)]
    simp only [State.retry, hp]
    rfl

/-- Settles O40: the oldest request is the one chosen. -/
theorem arbiterGrantsTheOldest : Obligations.ArbiterGrantsTheOldest := by
  intro s w hp hq hs others notJw hw hc oldest
  have chosen : s.bus.choose (s.mon.published.state == .warn) = some w := by
    rw [Bus.choose_oldest fun warn v hv => ?_, Bus.chooseOldest_eq hw oldest hc]
    exact (notJw.resolve_left fun h => h (by simpa using warn)) v hv
  exact State.settle_grants hp hq hs others chosen

/-- Settles O41: the JW request in WARN, the class and the stream first in turn, and the status writer's turn. -/
theorem arbiterPrecedences : Obligations.ArbiterPrecedences := by
  intro s hp hq hs hall jwWaits warn place turn streams others
  have turns : ∀ {v : Waiting} {c : GrantClass}, v.purpose.cls = some c → turn v = s.bus.lastClass.turn c := by
    intro v c hc
    have places : ∀ c : GrantClass, place (some c) = c.place := by intro c; cases c <;> rfl
    simp only [turn, hc, places]
    rfl
  have oldestChosen : (warn → ¬ jwWaits) →
      s.bus.choose (s.mon.published.state == .warn) = s.bus.chooseOldest := fun notJw =>
    Bus.choose_oldest fun h v hv hc => notJw (by simpa using h) ⟨v, hv, hc⟩
  refine ⟨fun ho hwarn ⟨w, hw, hc⟩ => ?_, fun w hw ho notJw first => ?_, fun a w hw ho notJw hpa first => ?_,
    fun j k hr hj alone => ?_, fun k hr hne hcount => ?_⟩
  · obtain ⟨v, chosen, jw⟩ := Bus.choose_jw hw hc
    rw [← show (s.mon.published.state == .warn) = true from beq_iff_eq.mpr hwarn] at chosen
    rw [State.settle_grants hp hq hs ho chosen]
    exact ⟨_, rfl, jw, by simp only [jw, Option.getD_some]⟩
  · obtain ⟨c, hc⟩ := Option.isSome_iff_exists.mp (hall w hw)
    obtain ⟨v, hv, same, hvc, chosen, -⟩ := Bus.chooseOldest_turn hw hall hc fun v hv d hd => by
      rw [← turns hc, ← turns hd]
      exact first v hv
    rw [State.settle_grants hp hq hs ho ((oldestChosen notJw).trans chosen)]
    exact ⟨v, hv, same, by rw [hvc, hc], rfl, by rw [hc]; simp only [hvc, Option.getD_some], rfl⟩
  · have hc : w.purpose.cls = some .f := by rw [hpa]; rfl
    obtain ⟨v, hv, same, hvc, chosen, hfind⟩ := Bus.chooseOldest_turn hw hall hc fun v hv d hd => by
      rw [← turns hc, ← turns hd]
      exact (first v hv).imp_right fun h => ⟨h.1, h.2.1⟩
    have oldest : ∀ v ∈ s.bus.waiting, w.place ≤ v.place := fun v hv => (first v hv).elim Nat.le_of_lt fun h => h.1.le
    obtain ⟨st, hst, hstream⟩ := Bus.chooseTied_stream hfind ((Bus.chooseOldest_tied hw oldest).symm.trans chosen)
    have notLater : streamTurn s.bus.lastStream st ≤ streamTurn s.bus.lastStream a :=
      find?_le_of_pairwise (streamOrder_pairwise _) hstream (mem_streamOrder _ _)
        (hasStream_of_mem (List.mem_filter.mpr ⟨hw, beq_self_eq_true _⟩) hpa)
    have is : st = a := by
      rcases first v hv with h | ⟨-, -, h⟩
      · omega
      · exact streamTurn_injective (Nat.le_antisymm notLater (h st hst))
    subst is
    rw [State.settle_grants hp hq hs ho ((oldestChosen notJw).trans chosen)]
    exact ⟨_, rfl, hst, by simp only [hst]⟩
  · intro words start
    have granted : s.grantedJob j = { j with words := words } := by
      simp only [State.grantedJob, words, Bool.and_eq_true, beq_iff_eq, List.isEmpty_iff]
      split <;> rfl
    have offset : j.kind.offset = start := by
      simp only [start]
      cases j.kind <;> rfl
    rw [State.settle_status hp hq hs hr hj alone, granted]
    refine ⟨?_, rfl, rfl, rfl⟩
    rw [← offset]
    rfl
  · obtain ⟨w, chosen⟩ := Bus.exists_choose hne hall (s.mon.published.state == .warn)
    rw [State.settle_grants hp hq hs (.inr hcount) chosen]
    refine ⟨_, rfl, hall w (Bus.choose_mem chosen), ?_, hr⟩
    simp only [hr, reduceCtorEq, if_false]

/-- Settles O42, timer by timer. -/
theorem timerMoments : Obligations.TimerMoments := by
  intro s
  refine ⟨fun q ho hp hsolo => ?_, fun w hw ho hp others forwarded oldest => ?_, fun _ => rfl, fun ho => ?_,
    fun k hk => ?_, fun hk => ?_, fun hw => ?_, fun n f hcarry hp ha => ⟨?_, exec_memoryTimeout_eq hcarry⟩⟩
  · have presented := State.settle_solo (s := { s with bus := { s.bus with quiet := none } }) hp rfl (.inl ho) hsolo
    exact congrArg Host.Outcome.next presented
  · obtain ⟨a, ha⟩ := forwarded w hw
    have chosen : s.bus.choose (s.mon.published.state == .warn) = some w := by
      rw [Bus.choose_oldest fun _ v hv => ?_, Bus.chooseOldest_eq hw oldest (by rw [ha]; rfl)]
      obtain ⟨b, hb⟩ := forwarded v hv
      rw [hb]
      nofun
    have granted := State.settle_grants (s := { s with bus := { s.bus with quiet := none } }) hp rfl
      (by show s.su.opState.serving = true; rw [ho]; rfl) others chosen
    rw [ha] at granted ⊢
    exact congrArg Host.Outcome.next granted
  · have stands := State.settle_notStarted (s := { s with bus := { s.bus with quiet := none } }) ho
    exact congrArg Host.Outcome.next stands
  · simp only [exec, execIdleSampleInterval, hk]
    rfl
  · have awake : s.mon.sampler.wake = s.mon.sampler := by
      cases hx : s.mon.sampler with
      | resting k => exact absurd hx (hk k)
      | converting | timedOn => rfl
    simp only [exec, execIdleSampleInterval, awake]
  · simp only [exec, execStatusRetryWait, if_pos hw]
    rfl
  · rw [exec_memoryErrorAnswer_handed hcarry (by rw [hp]; rfl) ha]
    simp only [State.handFailure, hp]
    rfl

end Sys2Proof.Proofs
end

section
/-! PROOFS. The exit from RESET and the loader. -/

namespace Sys2Proof.Machine

/-! ## The exit from RESET (R106, R137, R140) -/

section
variable {s : State} (ho : s.su.opState = .reset)
include ho

/-- With no condition left the part is in WAIT at the close of the step (R116). -/
theorem State.exitReset_settle (hp : s.su.powerOn = false) (hl : s.su.line = false) (he : s.su.strapError = false)
    (pins : Straps) : (s.exitReset pins).settle =
      { s with
        su := { s.su with
          straps := some pins, opState := .wait, resetCause := s.su.pendingCause, pendingCause := none }
        clk := { s.clk with micros := 0, millis := 0 }
        bus := { s.bus with quiet := some 250, moment := s.bus.moment + 1 }
        ev := s.ev.askSummary } := by
  rw [State.exitReset, if_pos ⟨ho, hp, hl⟩, State.askSummary_ev]
  simp only [he, Bool.false_eq_true, if_false]
  rw [State.settle_notStarted (.inr rfl)]
  rfl

omit ho in
theorem State.exitReset_holds (h : s.su.powerOn = true ∨ s.su.line = true) (pins : Straps) :
    s.exitReset pins = s := by
  refine if_neg ?_
  rintro ⟨-, hp, hl⟩
  rcases h with h | h
  · exact Bool.false_ne_true (hp.symm.trans h)
  · exact Bool.false_ne_true (hl.symm.trans h)

end

/-! ## The loader (R145 to R148) -/

theorem State.slotAddr_congr {s t : State} (h : t.su.straps = s.su.straps) (k w : Nat) :
    t.slotAddr k w = s.slotAddr k w := by
  simp only [State.slotAddr, State.bridgeBase, h]

theorem State.askSummary_su (s : State) : s.askSummary.su = s.su := by rw [State.askSummary_ev]

/-- RECOVER begins with the read of the first slot's first word (R72, R73). -/
theorem State.enterRecover_eq (s : State) : s.enterRecover =
    ({ s with recovery := some Recovery.start, su := { s.su with opState := .recover } } : State).askSummary.askSolo
      .scan { write := false, addr := s.slotAddr 0 0, mask := 15, data := 0 } 1 := by
  unfold State.enterRecover State.askSlotRead
  rw [State.slotAddr_congr (s := s) (by rw [State.setOpState, State.askSummary_su])]
  rfl

section
variable {s : State} {n : AccessNumber} {f : InFlight}

theorem exec_loaderReadComplete_eq (h : s.carries n f) (hp : f.purpose = .loader) (d : Word) :
    exec (.loaderReadComplete n d) s = .next (s.freePort.loaderDone d).settle := by
  have mine : (f.purpose == Purpose.loader) = true := by rw [hp]; rfl
  simp only [exec, execLoaderReadComplete, State.answered_match h (· == .loader) mine]

/-- A word of the configuration block joins the image (R145). -/
def State.withImage (s : State) (d : Word) : State := { s with su := { s.su with image := s.su.image ++ [d] } }

theorem State.loaderDone_next {d : Word} (h : (s.su.image ++ [d]).length < 256) :
    s.loaderDone d = (s.withImage d).askLoader := if_pos h

theorem State.loaderDone_judges {d : Word} (h : 256 ≤ (s.su.image ++ [d]).length) :
    s.loaderDone d = (s.withImage d).judgeImage := if_neg h.not_gt

theorem State.judgeImage_invalid {r : Reason} (h : judge s.su.image s.bridgeBase = some r) :
    s.judgeImage = s.configInvalid r := by
  simp only [State.judgeImage, h]

theorem State.judgeImage_valid (h : judge s.su.image s.bridgeBase = none) : s.judgeImage = s.configValid := by
  simp only [State.judgeImage, h]

theorem configBadDetail_eq (r : Reason) : configBadDetail r = BitVec.ofNat 32 r.code := field_zero _

end

end Sys2Proof.Machine

namespace Sys2Proof.Proofs

open Sys2Proof Sys2Proof.Machine

/-- Settles O7, by the condition that ends and by whether another holds. -/
theorem lastConditionEndsReset : Obligations.LastConditionEndsReset := by
  constructor
  · intro s pins ho he out
    refine ⟨fun hd hl => ?_, fun hp => ?_⟩
    · have ended := State.exitReset_settle
        (s := { s with su := { s.su with powerOn := false, powerOnDelay := none } }) ho rfl hl he pins
      simp only [exec, execPowerOnDelayEnd, State.endPowerOn, if_pos hd]
      exact congrArg Host.Outcome.next ended
    · have ended := State.exitReset_settle (s := { s with su := { s.su with line := false } }) ho hp rfl he pins
      exact congrArg Host.Outcome.next ended
  · intro s pins _
    refine ⟨fun hd hl => ?_, fun hp => ?_⟩
    · have stays := State.exitReset_holds
        (s := { s with su := { s.su with powerOn := false, powerOnDelay := none } }) (.inr hl) pins
      simp only [exec, execPowerOnDelayEnd, State.endPowerOn, if_pos hd, stays]
    · have stays := State.exitReset_holds (s := { s with su := { s.su with line := false } }) (.inl hp) pins
      simp only [exec, execResetLineRelease, stays]

/-- Settles O43: the next word, the image judged either way, and a word that cannot be read. -/
theorem loaderReadsTheConfiguration : Obligations.LoaderReadsTheConfiguration := by
  intro s n f d hcarry hp image free entry bad
  have done := exec_loaderReadComplete_eq hcarry hp d
  refine ⟨fun hl => ?_, fun hl r hj => ?_, fun hl hj => ?_, fun ha => ⟨?_, exec_memoryTimeout_eq hcarry⟩⟩
  · rw [done, State.loaderDone_next (s := s.freePort) hl]
    rfl
  · rw [done, State.loaderDone_judges (s := s.freePort) hl,
      State.judgeImage_invalid (s := s.freePort.withImage d) hj, State.configInvalid, configBadDetail_eq,
      State.enterRecover_eq]
    rfl
  · rw [done, State.loaderDone_judges (s := s.freePort) hl, State.judgeImage_valid (s := s.freePort.withImage d) hj,
      State.configValid, State.enterRecover_eq]
    refine congrArg Host.Outcome.next (congrArg State.settle ?_)
    refine congrArg (fun u : State => u.askSolo _ _ _) (congrArg State.askSummary ?_)
    rfl
  · rw [exec_memoryErrorAnswer_handed hcarry (by rw [hp]; rfl) ha]
    simp only [State.handFailure, hp, State.configInvalid, configBadDetail_eq, State.enterRecover_eq]
    rfl

end Sys2Proof.Proofs
end

section
/-! PROOFS. Samples taken in BELOW: the release run, the end of WAIT, and the strap error. -/

namespace Sys2Proof.Machine

/-! ## The event unit while no presentation may run -/

theorem EventUnit.beginJob_pres (e : EventUnit) : e.beginJob.pres = e.pres := by
  unfold EventUnit.beginJob
  cases e.job with
  | some j => rfl
  | none =>
    cases e.given with
    | some k =>
      cases k with
      | update => cases e.presented <;> rfl
      | clear => rfl
      | summary => rfl
    | none => cases e.summaryPending <;> rfl

theorem State.askSummary_pres (s : State) : s.askSummary.ev.pres = s.ev.pres := by
  rw [State.askSummary_ev]
  dsimp only
  split
  · rfl
  · unfold EventUnit.askSummary
    split
    · rfl
    · exact EventUnit.beginJob_pres _

theorem State.raise_pres {s : State} (h : s.su.opState.serving = false) (k : EventKind) (f : EventFields) :
    (s.raise k f).ev.pres = s.ev.pres := by
  rw [State.raise_ev, State.mayPresent_of_notServing h]
  exact (EventUnit.take_quiet ..).1

/-- With no status request waiting, the close of a step leaves the event unit alone. -/
theorem State.settle_ev {s : State} (h : s.ev.sReq = none) : s.settle.ev = s.ev := by
  have serving : ∀ {u : State}, u.ev.sReq = none → u.grantServing.ev = u.ev := by
    intro u hu
    have notStatus : u.grantsStatus = false := by rw [State.grantsStatus, hu]; rfl
    rw [State.grantServing, notStatus]
    simp only [Bool.false_eq_true, if_false]
    split
    · have count : ∀ n, (if u.ev.sReq.isSome then n else u.ev.sCount) = u.ev.sCount := by rw [hu]; exact fun _ => rfl
      simp only [State.grantWaiting, State.present_ev, count]
    · rfl
  unfold State.settle State.arbitrate State.presentSolo
  simp only [Bool.false_eq_true, if_false]
  split
  · rfl
  · cases s.su.opState with
    | reset | wait => rfl
    | load | recover => dsimp only; split <;> rfl
    | run | safe | provision | fault => exact serving h

/-! ## A strap error, and what the end of WAIT leaves (R141 to R143) -/

theorem State.strapFault_eq {s : State} (h : s.su.opState.serving = false) :
    let bad := s.raise .configBad { detail := some 1 }
    s.strapFault = ({ bad with
      su := { s.su with opState := .fault, strapError := true }
      ev := { bad.ev with
        job := none, given := none, summaryPending := false, sReq := none, sCount := 0, retryWait := none } }
      : State).raise .start { detail := some (BitVec.ofNat 32 ((s.su.resetCause.map ResetCause.code).getD 0)) } := by
  intro bad
  have detail : startDetail s.su.resetCause = BitVec.ofNat 32 ((s.su.resetCause.map ResetCause.code).getD 0) :=
    field_zero _
  obtain ⟨e, he, -, kept⟩ := State.enterServing_eq
    { bad with su := { s.su with strapError := true }, ev := bad.ev.withdrawWriter } .fault
  have quiet : ({ bad with su := { s.su with strapError := true }, ev := bad.ev.withdrawWriter } : State).mayPresent
      = false := State.mayPresent_of_notServing h
  have fault : s.strapFault = ({ bad with su := { s.su with strapError := true }, ev := bad.ev.withdrawWriter }
      : State).enterServing .fault := rfl
  rw [fault, he, kept rfl rfl, State.askSummary_ev]
  simp only [State.raise, quiet, detail, if_true]
  rfl

theorem State.settle_su (s : State) : s.settle.su = s.su := by
  obtain ⟨b, e, h⟩ := s.settle_eq false
  rw [h]

/-- After a strap error the status writer has no job, and the presentation stands as it stood (R142, R165). -/
theorem State.strapFault_settle {s : State} (h : s.su.opState.serving = false) :
    s.strapFault.settle.su = { s.su with opState := .fault, strapError := true }
    ∧ s.strapFault.settle.ev.job = none ∧ s.strapFault.settle.ev.pres = s.ev.pres := by
  have raised := s.raise_pres h .configBad { detail := some 1 }
  have fault := State.strapFault_eq h
  dsimp only at fault
  rw [State.settle_su, fault]
  have kept := fun r => EventUnit.take_quiet { (s.raise .configBad { detail := some 1 }).ev with
    job := none, given := none, summaryPending := false, sReq := none, sCount := 0, retryWait := none } r
  obtain ⟨pres, job, request⟩ := kept _
  refine ⟨rfl, ?_, ?_⟩ <;> rw [State.settle_ev]
  · exact job
  · exact request
  · exact pres.trans raised
  · exact request

/-- The end of WAIT changes the operating state, the port's side and the event unit. -/
theorem State.endWait_frame (s : State) (pins : Straps) : ∃ o err b e,
    s.endWait pins = { s with bus := b, su := { s.su with opState := o, strapError := err }, ev := e } := by
  have fault : ∀ u : State, u.strapFault = { u with
      su := { u.su with opState := .fault, strapError := true }, ev := u.strapFault.ev } := by
    intro u
    exact State.enterServing_frame _ .fault
  unfold State.endWait State.setOpState
  simp only [State.askSummary_ev]
  split
  · split
    · split
      · rw [fault]
        exact ⟨_, _, _, _, rfl⟩
      · exact ⟨_, _, _, _, rfl⟩
    · split
      · rw [fault]
        exact ⟨_, _, _, _, rfl⟩
      · exact ⟨_, _, _, _, rfl⟩
  · exact ⟨_, _, _, _, rfl⟩

/-- The part with another converter. -/
def State.withSampler (s : State) (x : Sampler) : State := { s with mon := { s.mon with sampler := x } }

theorem State.withSampler_askSummary (s : State) (x : Sampler) :
    (s.withSampler x).askSummary = s.askSummary.withSampler x := by
  rw [State.askSummary_ev, State.askSummary_ev]
  rfl

theorem State.withSampler_strapFault (s : State) (x : Sampler) :
    (s.withSampler x).strapFault = s.strapFault.withSampler x := by
  simp only [State.strapFault, State.enterServing, State.setOpState, State.askSummary_ev]
  rfl

theorem State.withSampler_setOpState (s : State) (x : Sampler) (o : OpState) :
    (s.withSampler x).setOpState o = (s.setOpState o).withSampler x := 
  State.withSampler_askSummary { s with su := { s.su with opState := o } } x

/-- The converter plays no part in the end of WAIT. -/
theorem State.withSampler_endWait (s : State) (x : Sampler) (pins : Straps) :
    (s.withSampler x).endWait pins = (s.endWait pins).withSampler x := by
  have straps : (s.withSampler x).su = s.su := rfl
  unfold State.endWait
  rw [straps]
  simp only [State.withSampler_strapFault, State.withSampler_setOpState]
  split
  · split
    · split <;> rfl
    · split <;> rfl
  · rfl

/-! ## The level taken (R123, R124, R130 to R133) -/

section
variable {m : Monitor} {p : MonParams} {inReset : Bool} {l : Level} (hb : m.state = .below)
include hb

theorem Monitor.sample_stays (h : inReset = true ∨ nextReleaseRun p inReset m.releaseRun l.toNat < p.cutCount) :
    m.sample p inReset l =
      { m with level := some l, releaseRun := nextReleaseRun p inReset m.releaseRun l.toNat } := by
  have stays : ¬ (!inReset && decide (p.cutCount ≤ nextReleaseRun p inReset m.releaseRun l.toNat)) = true := by
    rcases h with h | h
    · simp [h]
    · simp [Nat.not_le.mpr h]
  simp only [Monitor.sample, hb, Monitor.sampleBelow, if_neg stays]

theorem Monitor.sample_leaves (h : p.cutCount ≤ nextReleaseRun p false m.releaseRun l.toNat) :
    m.sample p false l =
      { m with
        level := some l, state := if l.toNat ≤ p.warnLevel then .warn else .normal, releaseRun := 0, cutRun := 0 } := by
  have leaves : (!false && decide (p.cutCount ≤ nextReleaseRun p false m.releaseRun l.toNat)) = true := by simp [h]
  simp only [Monitor.sample, hb, Monitor.sampleBelow, if_pos leaves]

end

/-- The part with the monitor out of BELOW, in WARN at or below the warn level, and the given converter. -/
def State.risen (s : State) (l : Level) (x : Sampler) : State :=
  { s with mon :=
      { state := if l.toNat ≤ s.cfg.params.warnLevel then .warn else .normal
        level := some l, releaseRun := 0, cutRun := 0, sampler := x
        published :=
          { state := if l.toNat ≤ s.cfg.params.warnLevel then .warn else .normal
            band := some (bandOf l), budget := s.cfg.budgets[bandOf l] } } }

/-- WARN_ENTER where the monitor has entered WARN (R132). -/
def State.warnIfLow (s : State) (l : Level) : State :=
  if s.mon.state = .warn then s.raise .warnEnter { detail := some (BitVec.ofNat 32 l.toNat) } else s

theorem State.risen_state (s : State) (l : Level) (x : Sampler) :
    (s.risen l x).mon.state = .normal ∨ (s.risen l x).mon.state = .warn := by
  unfold State.risen
  dsimp only
  split
  · exact .inr rfl
  · exact .inl rfl

/-- The event of the exit from BELOW is that of the state entered (R132). -/
theorem State.risen_raiseSample (s : State) (l : Level) (x : Sampler) :
    (s.risen l x).raiseSample .below l = (s.risen l x).warnIfLow l := by
  unfold State.raiseSample State.warnIfLow
  rcases s.risen_state l x with h | h <;> rw [h]
  · rfl
  · simp only [sampleEvent, levelDetail, field_zero, if_true]

theorem State.warnIfLow_frame (s : State) (l : Level) : ∃ e, s.warnIfLow l = { s with ev := e } := by
  unfold State.warnIfLow
  split <;> exact ⟨_, rfl⟩

theorem State.warnIfLow_pres {s : State} (h : s.su.opState.serving = false) (l : Level) :
    (s.warnIfLow l).ev.pres = s.ev.pres := by
  unfold State.warnIfLow
  split
  · exact s.raise_pres h _ _
  · rfl

/-- Out of BELOW the monitor ends WAIT (R143). -/
theorem State.followMonitor_endsWait {s : State} (hm : s.mon.state = .normal ∨ s.mon.state = .warn)
    (ho : s.su.opState = .wait) (pins : Straps) : s.followMonitor pins = s.endWait pins := by
  unfold State.followMonitor
  rcases hm with h | h <;> rw [h] <;> exact if_pos ho

section
variable {s : State} {l : Level} (hb : s.mon.state = .below)
include hb

theorem State.sampleDone_stays (pins : Straps) {run : Nat}
    (hr : nextReleaseRun s.cfg.params (s.su.opState == .reset) s.mon.releaseRun l.toNat = run)
    (h : s.su.opState = .reset ∨ run < s.cfg.params.cutCount) :
    s.sampleDone l pins = { s with mon :=
      { state := .below, level := some l, releaseRun := run, cutRun := s.mon.cutRun, sampler := .converting 16
        published := { state := .below, band := some (bandOf l), budget := s.cfg.budgets[bandOf l] } } } := by
  have sampled := Monitor.sample_stays (p := s.cfg.params) (inReset := s.su.opState == .reset) (l := l) hb
    (h.imp beq_iff_eq.mpr fun h => by rw [hr]; exact h)
  have taken : s.takeLevel l pins = { s with mon :=
      { state := .below, level := some l, releaseRun := run, cutRun := s.mon.cutRun, sampler := s.mon.sampler
        published := { state := .below, band := some (bandOf l), budget := s.cfg.budgets[bandOf l] } } } := by
    simp only [State.takeLevel, sampled, hr, State.publish, State.raiseSample, State.askIfChanged, State.followMonitor,
      hb, sampleEvent, if_true]
    rfl
  rw [State.sampleDone_of_ne_cut (by rw [hb]; decide), taken, State.scheduleSample, State.nextSampler_eq]
  simp only [reduceCtorEq, false_and, if_false]

/-- The part after a sample that leaves BELOW, before WAIT ends: the state's event raised and a summary asked for
(R132, R133). -/
def State.leftBelow (s : State) (l : Level) (x : Sampler) : State := ((s.risen l x).warnIfLow l).askSummary

omit hb in
theorem State.leftBelow_frame (x : Sampler) : ∃ e, s.leftBelow l x = { s.risen l x with ev := e } := by
  obtain ⟨e, he⟩ := (s.risen l x).warnIfLow_frame l
  exact ⟨_, by rw [State.leftBelow, State.askSummary_ev, he]⟩

omit hb in
theorem State.leftBelow_pres (h : s.su.opState.serving = false) (x : Sampler) :
    (s.leftBelow l x).ev.pres = s.ev.pres := by
  rw [State.leftBelow, State.askSummary_pres]
  exact State.warnIfLow_pres (s := s.risen l x) h l

omit hb in
theorem State.leftBelow_withSampler (x y : Sampler) : (s.leftBelow l x).withSampler y = s.leftBelow l y := by
  have warned : ((s.risen l x).warnIfLow l).withSampler y = (s.risen l y).warnIfLow l := by
    have state : (s.risen l y).mon.state = (s.risen l x).mon.state := rfl
    unfold State.warnIfLow
    rw [state]
    split <;> rfl
  rw [State.leftBelow, State.leftBelow, ← warned, State.withSampler_askSummary]

theorem State.takeLevel_leaves (ho : s.su.opState = .wait) (pins : Straps)
    (h : s.cfg.params.cutCount ≤ nextReleaseRun s.cfg.params false s.mon.releaseRun l.toNat) :
    s.takeLevel l pins = (s.leftBelow l s.mon.sampler).endWait pins := by
  have started : (s.su.opState == .reset) = false := by rw [ho]; rfl
  have sampled : ({ s with mon := s.mon.sample s.cfg.params (s.su.opState == .reset) l } : State).publish
      = s.risen l s.mon.sampler := by
    rw [started, Monitor.sample_leaves hb h]
    rfl
  have up := s.risen_state l s.mon.sampler
  have changed : ((s.risen l s.mon.sampler).warnIfLow l).askIfChanged .below = s.leftBelow l s.mon.sampler := by
    refine if_neg fun hc => ?_
    obtain ⟨e, he⟩ := (s.risen l s.mon.sampler).warnIfLow_frame l
    rw [he] at hc
    rcases up with h | h <;> exact absurd (h.symm.trans hc) (by decide)
  obtain ⟨e, he⟩ := s.leftBelow_frame (l := l) s.mon.sampler
  unfold State.takeLevel
  dsimp only
  rw [sampled, hb, State.risen_raiseSample, changed]
  refine State.followMonitor_endsWait ?_ ?_ pins <;> rw [he]
  · exact up
  · exact ho

/-- The converter after a sample that leaves BELOW: in NORMAL with every row FREE it waits (R121). -/
def State.samplerAbove (s : State) (l : Level) : Sampler :=
  if (s.risen l s.mon.sampler).mon.state = .normal ∧ (∀ r : RowId, s.rows[r].state = .free) then
    .resting (s.cfg.params.interval * 1000)
  else .converting 16

theorem State.sampleDone_leaves (ho : s.su.opState = .wait) (pins : Straps)
    (h : s.cfg.params.cutCount ≤ nextReleaseRun s.cfg.params false s.mon.releaseRun l.toNat) :
    s.sampleDone l pins = (s.leftBelow l (s.samplerAbove l)).endWait pins := by
  have next : ((s.leftBelow l s.mon.sampler).endWait pins).nextSampler = s.samplerAbove l := by
    obtain ⟨e, he⟩ := s.leftBelow_frame (l := l) s.mon.sampler
    obtain ⟨o, err, b, e', hend⟩ := (s.leftBelow l s.mon.sampler).endWait_frame pins
    rw [State.nextSampler_eq, hend, he]
    rfl
  rw [State.sampleDone_of_ne_cut (by rw [hb]; decide), s.takeLevel_leaves hb ho pins h, State.scheduleSample, next,
    ← s.leftBelow_withSampler s.mon.sampler (s.samplerAbove l), State.withSampler_endWait]
  rfl

end

/-! ## The straps at the second sample (R141, R143) -/

section
variable {s : State} {first pins : Straps} (hs : s.su.straps = some first)
include hs

theorem State.endWait_provision (h : pins = first) (hp : first.prov = true) :
    s.endWait pins = s.setOpState .provision := by
  subst h
  simp only [State.endWait, hs, strapsBad_iff, ne_eq, not_true_eq_false, decide_false, Bool.false_eq_true, if_false, hp,
    if_true]

/-- In LOAD the read of the configuration block's next word is asked for (R145). -/
theorem State.endWait_load (h : pins = first) (hp : first.prov = false) :
    s.endWait pins = (s.setOpState .load).askSolo .loader
      { write := false, addr := s.configAddr s.su.image.length, mask := 15, data := 0 } 1 := by
  subst h
  have su : (s.setOpState .load).su = { s.su with opState := .load } := State.askSummary_su _
  simp only [State.endWait, hs, strapsBad_iff, ne_eq, not_true_eq_false, decide_false, Bool.false_eq_true, if_false, hp,
    State.askLoader, State.configAddr, State.bridgeBase, su]
  rfl

/-- The part as a strap error is found: in WAIT with PROV set, in LOAD otherwise (R141, R143). -/
def State.atStrapCheck (s : State) (first : Straps) : State := if first.prov then s else s.setOpState .load

theorem State.endWait_strapFault (h : pins ≠ first) : s.endWait pins = (s.atStrapCheck first).strapFault := by
  simp only [State.endWait, State.atStrapCheck, hs, strapsBad_iff, decide_eq_true h, if_true]
  split <;> rfl

end

theorem State.atStrapCheck_parts {s : State} (ho : s.su.opState = .wait) (first : Straps) :
    (∃ o : OpState, o.serving = false ∧ (s.atStrapCheck first).su = { s.su with opState := o })
    ∧ (s.atStrapCheck first).ev.pres = s.ev.pres := by
  unfold State.atStrapCheck
  split
  · exact ⟨⟨.wait, rfl, by rw [← ho]⟩, rfl⟩
  · exact ⟨⟨.load, rfl, State.askSummary_su _⟩, State.askSummary_pres _⟩

end Sys2Proof.Machine

namespace Sys2Proof.Proofs

open Sys2Proof Sys2Proof.Machine

/-- Settles O50: the run goes on, or the monitor leaves BELOW and WAIT ends by the straps. -/
theorem samplesInBelow : Obligations.SamplesInBelow := by
  intro s l pins hb progress p band stays
  have done := exec_sampleComplete_eq progress l pins
  refine ⟨fun ho => ?_, fun ho low pos => ?_, fun ho high short => ?_, fun ho high full first hfirst => ?_⟩
  · rw [done, s.sampleDone_stays hb pins (run := 0) (by rw [ho]; rfl) (.inl ho)]
  · have run : nextReleaseRun p false s.mon.releaseRun l.toNat = 0 := if_neg low.not_ge
    rw [done, s.sampleDone_stays hb pins (run := 0) (by rw [ho]; exact run) (.inr pos)]
  · have run : nextReleaseRun p false s.mon.releaseRun l.toNat = s.mon.releaseRun + 1 := if_pos high
    rw [done, s.sampleDone_stays hb pins (by rw [ho]; exact run) (.inr short)]
  intro read out up left bad
  have run : nextReleaseRun p false s.mon.releaseRun l.toNat = s.mon.releaseRun + 1 := if_pos high
  have ended : exec (.sampleComplete l pins) s = .next (left.endWait pins).settle := by
    rw [done, s.sampleDone_leaves hb ho pins (by rw [run]; exact full)]
    rfl
  obtain ⟨e, he⟩ : ∃ e, left = { up with ev := e } := s.leftBelow_frame (s.samplerAbove l)
  have su : left.su = s.su := by rw [he]
  have straps : left.su.straps = some first := by rw [su]; exact hfirst
  have moves : ∀ o, left.setOpState o = ({ left with su := { s.su with opState := o } } : State).askSummary := by
    intro o
    rw [State.setOpState, su]
  obtain ⟨o, err, b, e', ht⟩ : ∃ o err b e', (left.endWait pins).settle
      = { up with bus := b, su := { s.su with opState := o, strapError := err }, ev := e' } := by
    obtain ⟨o, err, _, _, hend⟩ := left.endWait_frame pins
    obtain ⟨b, e', hset⟩ := (left.endWait pins).settle_eq false
    exact ⟨o, err, b, e', by rw [hset, hend, he]⟩
  refine ⟨_, ended, by rw [ht], by rw [ht], by rw [ht], by rw [ht], by rw [ht], by rw [ht]; exact hfirst, by rw [ht],
    by rw [ht], by rw [ht], by rw [ht], fun differ => ?_, fun same prov => ?_, fun same load => ?_⟩
  · obtain ⟨⟨o, notServing, checkSu⟩, checkPres⟩ := State.atStrapCheck_parts (s := left) (by rw [su]; exact ho) first
    have hbad : bad = (left.atStrapCheck first).raise .configBad { detail := some 1 } := by
      rw [State.atStrapCheck, moves]
    have waiting : (left.atStrapCheck first).su.opState.serving = false := by rw [checkSu]; exact notServing
    have fault := State.strapFault_eq waiting
    obtain ⟨settled, job, pres⟩ := State.strapFault_settle waiting
    have shown : left.ev.pres = s.ev.pres := s.leftBelow_pres (by rw [ho]; rfl) (s.samplerAbove l)
    rw [checkSu, su] at settled
    rw [State.endWait_strapFault straps differ]
    refine ⟨by rw [settled], by rw [settled], job, by rw [State.attn, State.attn, pres, checkPres, shown], ?_, ?_⟩
    · rw [State.flt, settled]
      rfl
    · dsimp only at fault
      rw [fault, hbad, checkSu, su]
  · rw [State.endWait_provision straps same prov, State.settle_su, moves, State.askSummary_su]
    exact ⟨rfl, rfl⟩
  · have asked : left.endWait pins = ({ left with su := { s.su with opState := .load } } : State).askSummary.askSolo
        .loader read 1 := by
      rw [State.endWait_load straps same load, moves, State.configAddr, State.bridgeBase, su]
      rfl
    have bus : ({ left with su := { s.su with opState := .load } } : State).askSummary.bus = s.bus := by
      rw [State.askSummary_ev, he]
    rw [asked]
    refine ⟨?_, rfl, fun quiet => ?_, fun quiet idle => ?_⟩
    · rw [State.settle_su, State.askSolo_su, State.askSummary_su]
    · rw [State.settle_waits (.inr (by rw [State.askSolo_bus_quiet, bus]; exact quiet))]
      rfl
    · rw [State.settle_solo (by rw [State.askSolo_bus_port, bus]; exact idle)
        (by rw [State.askSolo_bus_quiet, bus]; exact quiet)
        (.inl (by rw [State.askSolo_su, State.askSummary_su])) (State.askSolo_bus_solo ..),
        State.askSolo_bus_nextNumber, bus]
      exact ⟨rfl, rfl⟩

end Sys2Proof.Proofs
end

section
/-! PROOFS. Samples taken in NORMAL, WARN and CUT: the cut run, the change between NORMAL and WARN, and the reset by
CUT. -/

namespace Sys2Proof.Machine

/-! ## The monitor's own part (R125 to R127) -/

/-- A sample moves NORMAL and WARN by the warn level and the margin (R125, R126). -/
theorem MonState.afterSample_eq {m : MonState} (hu : m = .normal ∨ m = .warn) (p : MonParams) (level : Nat) :
    m.afterSample p level =
      if m = .normal then (if level ≤ p.warnLevel then .warn else .normal)
      else (if p.warnLevel + p.margin ≤ level then .normal else .warn) := by
  rcases hu with rfl | rfl <;> rfl

theorem MonState.afterSample_up {m : MonState} (hu : m = .normal ∨ m = .warn) (p : MonParams) (level : Nat) :
    m.afterSample p level = .normal ∨ m.afterSample p level = .warn := by
  rcases hu with rfl | rfl
  · exact (ite_eq_or_eq (level ≤ p.warnLevel) MonState.warn .normal).symm
  · exact ite_eq_or_eq (p.warnLevel + p.margin ≤ level) MonState.normal .warn

section
variable {m : Monitor} (hu : m.state = .normal ∨ m.state = .warn) {p : MonParams} {l : Level}
include hu

theorem Monitor.sample_up (inReset : Bool) :
    m.sample p inReset l = ({ m with level := some l } : Monitor).sampleUp p l.toNat := by
  unfold Monitor.sample
  rcases hu with h | h <;> simp only [h]

theorem Monitor.sample_short (inReset : Bool) (h : nextCutRun p m.cutRun l.toNat < p.cutCount) :
    m.sample p inReset l = { m with
      level := some l, state := m.state.afterSample p l.toNat, cutRun := nextCutRun p m.cutRun l.toNat } := by
  rw [Monitor.sample_up hu]
  exact if_neg h.not_ge

theorem Monitor.sample_cuts (inReset : Bool) (h : p.cutCount ≤ nextCutRun p m.cutRun l.toNat) :
    m.sample p inReset l =
      { m with level := some l, state := .cut, cutRun := nextCutRun p m.cutRun l.toNat } := by
  rw [Monitor.sample_up hu]
  exact if_pos h

end

/-- The part with a sample's level taken and published: the monitor in the given state, with the given cut run and
converter (R123, R131). -/
def State.leveled (s : State) (l : Level) (m : MonState) (run : Nat) (x : Sampler) : State :=
  { s with mon :=
      { state := m, level := some l, releaseRun := s.mon.releaseRun, cutRun := run, sampler := x
        published := { state := m, band := some (bandOf l), budget := s.cfg.budgets[bandOf l] } } }

/-! ## The change between NORMAL and WARN (R125, R126, R132, R133) -/

/-- Where the monitor has left `before` for NORMAL or WARN, the event of the state entered is raised and a summary asked
for (R132, R133). -/
def State.noteChange (u : State) (before : MonState) (l : Level) : State :=
  if u.mon.state = before then u
  else (u.raise (if u.mon.state = .warn then .warnEnter else .warnLeave)
    { detail := some (BitVec.ofNat 32 l.toNat) }).askSummary

theorem State.noteChange_eq {u : State} {before : MonState} (hb : before = .normal ∨ before = .warn)
    (hu : u.mon.state = .normal ∨ u.mon.state = .warn) (l : Level) :
    (u.raiseSample before l).askIfChanged before = u.noteChange before l := by
  have detail : levelDetail l = BitVec.ofNat 32 l.toNat := field_zero _
  unfold State.noteChange State.askIfChanged State.raiseSample
  rcases hb with rfl | rfl <;> rcases hu with h | h <;>
    simp only [h, sampleEvent, detail, State.raise_mon, reduceCtorEq, if_true, if_false]

theorem State.noteChange_frame (u : State) (before : MonState) (l : Level) :
    ∃ e, u.noteChange before l = { u with ev := e } := by
  unfold State.noteChange
  split
  · exact ⟨_, rfl⟩
  · exact ⟨_, by rw [State.askSummary_ev]; rfl⟩

/-- The next sample's start does not depend on the change noted, nor the change on the sample. -/
theorem State.noteChange_scheduleSample (u : State) (before : MonState) (l : Level) :
    (u.noteChange before l).scheduleSample = u.scheduleSample.noteChange before l := by
  have state : u.scheduleSample.mon.state = u.mon.state := rfl
  unfold State.noteChange
  rw [state]
  split
  · rfl
  · rw [State.askSummary_scheduleSample]
    rfl

/-- Outside WAIT the start-up controller takes nothing from NORMAL and WARN (R143). -/
theorem State.followMonitor_stays {s : State} (hm : s.mon.state = .normal ∨ s.mon.state = .warn)
    (ho : s.su.opState ≠ .wait) (pins : Straps) : s.followMonitor pins = s := by
  unfold State.followMonitor
  rcases hm with h | h <;> rw [h] <;> exact if_neg ho

section
variable {s : State} {l : Level} (hu : s.mon.state = .normal ∨ s.mon.state = .warn)
include hu

theorem State.takeLevel_short (ho : s.su.opState ≠ .wait) (pins : Straps)
    (h : nextCutRun s.cfg.params s.mon.cutRun l.toNat < s.cfg.params.cutCount) :
    s.takeLevel l pins = (s.leveled l (s.mon.state.afterSample s.cfg.params l.toNat)
      (nextCutRun s.cfg.params s.mon.cutRun l.toNat) s.mon.sampler).noteChange s.mon.state l := by
  have up := MonState.afterSample_up hu s.cfg.params l.toNat
  have sampled : ({ s with mon := s.mon.sample s.cfg.params (s.su.opState == .reset) l } : State).publish
      = s.leveled l (s.mon.state.afterSample s.cfg.params l.toNat)
        (nextCutRun s.cfg.params s.mon.cutRun l.toNat) s.mon.sampler := by
    rw [Monitor.sample_short hu _ h]
    rfl
  unfold State.takeLevel
  dsimp only
  rw [sampled, State.noteChange_eq hu up]
  obtain ⟨e, he⟩ := State.noteChange_frame (s.leveled l (s.mon.state.afterSample s.cfg.params l.toNat)
    (nextCutRun s.cfg.params s.mon.cutRun l.toNat) s.mon.sampler) s.mon.state l
  exact State.followMonitor_stays (by rw [he]; exact up) (by rw [he]; exact ho) pins

theorem State.ne_cut_of_up : s.mon.state ≠ .cut := by
  rcases hu with h | h <;> rw [h] <;> decide

theorem State.sampleDone_short (ho : s.su.opState ≠ .wait) (pins : Straps)
    (h : nextCutRun s.cfg.params s.mon.cutRun l.toNat < s.cfg.params.cutCount) :
    s.sampleDone l pins = (s.leveled l (s.mon.state.afterSample s.cfg.params l.toNat)
      (nextCutRun s.cfg.params s.mon.cutRun l.toNat)
      (if s.mon.state.afterSample s.cfg.params l.toNat = .normal ∧ (∀ r : RowId, s.rows[r].state = .free) then
        .resting (s.cfg.params.interval * 1000)
      else .converting 16)).noteChange s.mon.state l := by
  rw [State.sampleDone_of_ne_cut (State.ne_cut_of_up hu), State.takeLevel_short hu ho pins h,
    State.noteChange_scheduleSample, State.scheduleSample, State.nextSampler_eq]
  rfl

/-! ## The reset by CUT (R127, R128, R137) -/

/-- The sample that completes the cut run leads to the reset alone: CUT has no event, and a summary asked for is lost in
the reset (R128, R132, assumption 19). -/
theorem State.takeLevel_cuts (pins : Straps)
    (h : s.cfg.params.cutCount ≤ nextCutRun s.cfg.params s.mon.cutRun l.toNat) :
    s.takeLevel l pins =
      (s.leveled l .cut (nextCutRun s.cfg.params s.mon.cutRun l.toNat) s.mon.sampler).cutReset pins := by
  have sampled : ({ s with mon := s.mon.sample s.cfg.params (s.su.opState == .reset) l } : State).publish
      = s.leveled l .cut (nextCutRun s.cfg.params s.mon.cutRun l.toNat) s.mon.sampler := by
    rw [Monitor.sample_cuts hu _ h]
    rfl
  have noEvent : ∀ u : State, u.mon.state = .cut → u.raiseSample s.mon.state l = u := by
    intro u hc
    unfold State.raiseSample
    rcases hu with hs | hs <;> simp only [hc, hs, sampleEvent]
  have changed : ∀ u : State, u.mon.state = .cut → u.askIfChanged s.mon.state = u.askSummary := fun u hc =>
    if_neg (by rw [hc]; exact (State.ne_cut_of_up hu).symm)
  unfold State.takeLevel
  dsimp only
  rw [sampled, noEvent _ rfl, changed _ rfl, State.askSummary_ev]
  rfl

end

/-- The next sample's start does not depend on the exit from RESET, nor the exit on the sample. -/
theorem State.exitReset_scheduleSample (s : State) (pins : Straps) :
    (s.exitReset pins).scheduleSample = s.scheduleSample.exitReset pins := by
  have su : s.scheduleSample.su = s.su := rfl
  unfold State.exitReset
  rw [su]
  split
  · rw [State.askSummary_scheduleSample]
    rfl
  · rfl

/-- With no condition left, the reset by CUT and the exit from RESET are one step, and the sample that starts is on the
new base (assumptions 11 and 36). -/
theorem State.cutReset_settle {s : State} (hp : s.su.powerOn = false) (hl : s.su.line = false) (pins : Straps) :
    (s.cutReset pins).scheduleSample.settle =
      { (s.takeReset .cut).scheduleSample with
        su := { s.su.afterReset .cut with
          straps := some pins, opState := .wait, resetCause := some (joinCause s.su.pendingCause .cut)
          pendingCause := none }
        clk := { s.clk with micros := 0, millis := 0 }
        bus := { Bus.reset with quiet := some 250, moment := s.bus.moment + 1 }
        ev := EventUnit.reset.askSummary } := by
  rw [State.cutReset, State.exitReset_scheduleSample]
  exact State.exitReset_settle (s := (s.takeReset .cut).scheduleSample) rfl hp hl rfl pins

/-- In CUT the level alone is recorded, and the converter goes on (R121, R128). -/
theorem State.sampleDone_inCut {s : State} (h : s.mon.state = .cut) (l : Level) (pins : Straps) :
    s.sampleDone l pins = { s with mon := { s.mon with level := some l, sampler := .converting 16 } } := by
  rw [State.sampleDone, if_pos h, State.scheduleSample, State.nextSampler_eq,
    if_neg fun hn => absurd (h.symm.trans hn.1) (by decide)]
  rfl

end Sys2Proof.Machine

namespace Sys2Proof.Proofs

open Sys2Proof Sys2Proof.Machine

/-- Settles O51: the level is taken and the change noted; the next sample is scheduled by the state entered. -/
theorem samplesInNormalAndWarn : Obligations.SamplesInNormalAndWarn := by
  intro s l pins hu progress ho p run after u short
  have moved : s.mon.state.afterSample p l.toNat = after := MonState.afterSample_eq hu p l.toNat
  rw [exec_sampleComplete_eq progress, State.sampleDone_short hu ho pins short, moved]
  rfl

/-- Settles O52: the sample that completes the cut run, then a sample in CUT. -/
theorem cutRunResetsThePart : Obligations.CutRunResetsThePart := by
  constructor
  · intro s l pins hu progress low full hp hl pending
    have run : nextCutRun s.cfg.params s.mon.cutRun l.toNat = s.mon.cutRun + 1 := if_pos low
    have cause : joinCause s.su.pendingCause .cut = .cut := by rw [pending]; rfl
    have reset := State.cutReset_settle (s := s.leveled l .cut (s.mon.cutRun + 1) s.mon.sampler) hp hl pins
    refine ⟨_, exec_sampleComplete_eq progress l pins, ?_⟩
    rw [State.sampleDone_of_ne_cut (State.ne_cut_of_up hu), State.takeLevel_cuts hu pins (by rw [run]; exact full), run,
      reset]
    exact ⟨rfl, rfl, rfl, rfl, rfl, rfl, rfl, rfl, rfl, rfl, rfl, rfl, rfl, rfl, rfl, congrArg some cause, rfl, rfl,
      rfl, rfl, rfl, rfl, rfl, rfl⟩
  · intro s l pins hc progress
    rw [exec_sampleComplete_eq progress, State.sampleDone_inCut hc]

end Sys2Proof.Proofs
end

section
/-! PROOFS. The checks of the configuration, and the fields of the image. -/

namespace Sys2Proof.Machine

/-! ## The fields of the image (R171) -/

/-- A field at the bottom of a word is cut off above (10.1). -/
theorem bits_low (w : Word) (n : Nat) : bits w 0 n = w.toNat % 2 ^ n := by rw [bits_eq, pow_zero, Nat.div_one]

/-- A field at the top of a word is shifted down (10.1). -/
theorem bits_high (w : Word) : bits w 16 16 = w.toNat / 2 ^ 16 := by
  have := w.isLt
  rw [bits_eq, Nat.mod_eq_of_lt (by omega)]

section
variable (image : List Word)

theorem imageBase_toNat (r : Nat) : (imageBase image r).toNat = (imageWord image (8 + 3 * r)).toNat % 2 ^ 25 :=
  bits_low _ 25

theorem imageLimit_toNat (r : Nat) : (imageLimit image r).toNat = (imageWord image (9 + 3 * r)).toNat % 2 ^ 25 :=
  bits_low _ 25

theorem imageKind_eq (r : Nat) : imageKind image r = (imageWord image (10 + 3 * r)).toNat % 4 := bits_low _ 2

theorem imageDefaultKind_eq : imageDefaultKind image = (imageWord image 32).toNat % 4 := bits_low _ 2

theorem imageDivider_eq : imageDivider image = (imageWord image 1).toNat % 256 := bits_low _ 8

theorem imageStall_eq : imageStall image = (imageWord image 2).toNat % 2 ^ 16 := bits_low _ 16

/-- The parameters of the monitor stand in words 33 and 34 (R129). -/
theorem imageParams_eq : imageParams image =
    { warnLevel := (imageWord image 33).toNat % 32
      cutLevel := (imageWord image 33).toNat / 2 ^ 8 % 32
      releaseLevel := (imageWord image 33).toNat / 2 ^ 16 % 32
      cutCount := (imageWord image 33).toNat / 2 ^ 24 % 16
      margin := (imageWord image 33).toNat / 2 ^ 28 % 8
      interval := (imageWord image 34).toNat % 256 } := by
  simp only [imageParams, bits_eq, pow_zero, Nat.div_one, Nat.reducePow]

/-- The class of a kind is counted from code 1. -/
theorem imageClass_succ (k : Nat) :
    imageClass image (k + 1) = (imageWord image (40 + k / 8)).toNat / 2 ^ (4 * (k % 8)) % 16 := bits_eq ..

theorem imageBudget_eq (b : Nat) :
    imageBudget image b = (imageWord image (36 + b / 2)).toNat / 2 ^ (16 * (b % 2)) % 2 ^ 16 := bits_eq ..

theorem imageTimeout_eq (st : Nat) : imageTimeout image st = (imageWord image (3 + st)).toNat % 2 ^ 16 := bits_low _ 16

end

/-- The kind of a code of two bits (R171). -/
theorem RegionKind.ofCode_eq (c : Nat) :
    RegionKind.ofCode c = if c = 1 then .guarded else if c = 2 then .pass else .absent := by
  unfold RegionKind.ofCode
  split
  · rfl
  · rfl
  · next h1 h2 => rw [if_neg h1, if_neg h2]

/-! ## The items that a valid image installs (R144) -/

section
variable (image : List Word)

theorem settingsOf_idleTimeouts (st : StreamId) : (settingsOf image).idleTimeouts[st] = imageTimeout image st := by
  have all : (settingsOf image).idleTimeouts = Vector.ofFn fun i : Fin 4 => imageTimeout image i := rfl
  rw [all]
  exact Vector.getElem_ofFn st.isLt

theorem settingsOf_regions (r : Fin 8) : (settingsOf image).regions[r] = imageRegion image r := by
  have all : (settingsOf image).regions = Vector.ofFn fun i : Fin 8 => imageRegion image i := rfl
  rw [all]
  exact Vector.getElem_ofFn r.isLt

theorem settingsOf_budgets (b : Fin 8) : (settingsOf image).budgets[b] = imageBudget image b := by
  have all : (settingsOf image).budgets = Vector.ofFn fun i : Fin 8 => imageBudget image i := rfl
  rw [all]
  exact Vector.getElem_ofFn b.isLt

theorem settingsOf_classes (k : Fin 18) : (settingsOf image).classes[k] = imageClassOf image (k + 1) := by
  fin_cases k <;> rfl

theorem imageRegion_used {r : Nat} (h : imageUsed image r = true) : imageRegion image r =
    { used := true, base := imageBase image r, limit := imageLimit image r
      kind := RegionKind.ofCode (imageKind image r) } := if_pos h

theorem imageRegion_unused {r : Nat} (h : ¬ imageUsed image r = true) : imageRegion image r = Region.unused := if_neg h

end

/-! ## The seven checks (R146) -/

section
variable (image : List Word)

/-- Region entry r of the image is used (R90). -/
def usesRegion (r : Nat) : Prop := r < 8 ∧ imageUsed image r = true

theorem mem_usedRegions {r : Nat} : r ∈ usedRegions image ↔ usesRegion image r := by
  simp only [usedRegions, List.mem_filter, List.mem_range, usesRegion]

theorem markPasses_iff : markPasses image = true ↔
    (imageWord image 0).toNat / 2 ^ 16 = 0x3B6E ∧ (imageWord image 0).toNat % 2 ^ 8 = 1 := by
  simp only [markPasses, bits_high, bits_low, configMark, Bool.and_eq_true, beq_iff_eq]

theorem sumPasses_iff : sumPasses image = true ↔ image.foldl (· + ·) 0 = (0 : Word) := beq_iff_eq

theorem inRange_iff (lo hi v : Nat) : inRange lo hi v = true ↔ lo ≤ v ∧ v ≤ hi := by
  simp only [inRange, Bool.and_eq_true, decide_eq_true_eq]

/-- Of each range the bounds that the width of the field does not give already (R129, R144). -/
theorem rangePasses_iff : rangePasses image = true ↔
    let p := imageParams image
    (10 ≤ imageDivider image ∧ imageDivider image ≤ 80) ∧ 1 ≤ imageStall image
      ∧ (1 ≤ p.warnLevel ∧ p.warnLevel ≤ 30) ∧ p.cutLevel ≤ 29 ∧ 1 ≤ p.releaseLevel
      ∧ (1 ≤ p.cutCount ∧ p.cutCount ≤ 8) ∧ 1 ≤ p.margin ∧ 1 ≤ p.interval
      ∧ (∀ k < 18, imageClass image (k + 1) ≤ 3) ∧ 2 ≤ imageDefaultKind image
      ∧ ∀ r, usesRegion image r → 1 ≤ imageKind image r := by
  have release : (imageParams image).releaseLevel ≤ 31 := by rw [imageParams_eq]; dsimp only; omega
  have margin : (imageParams image).margin ≤ 7 := by rw [imageParams_eq]; dsimp only; omega
  have interval : (imageParams image).interval ≤ 255 := by rw [imageParams_eq]; dsimp only; omega
  have defaultKind : imageDefaultKind image ≤ 3 := by rw [imageDefaultKind_eq]; omega
  have kind : ∀ r, imageKind image r ≤ 3 := fun r => by rw [imageKind_eq]; omega
  simp only [rangePasses, Bool.and_eq_true, inRange_iff, decide_eq_true_eq, List.all_eq_true, mem_usedRegions,
    List.mem_range, release, margin, interval, defaultKind, kind, Nat.zero_le, true_and, and_true, and_assoc]

theorem orderPasses_iff : orderPasses image = true ↔
    ∀ r, usesRegion image r → (imageBase image r).toNat ≤ (imageLimit image r).toNat := by
  simp only [orderPasses, List.all_eq_true, mem_usedRegions, decide_eq_true_eq, BitVec.le_def]

/-- Two intervals share no word when one ends before the other begins. -/
theorem overlapPasses_iff : overlapPasses image = true ↔
    ∀ r q, usesRegion image r → usesRegion image q → r ≠ q →
      (imageLimit image q).toNat < (imageBase image r).toNat
        ∨ (imageLimit image r).toNat < (imageBase image q).toNat := by
  have apart : ∀ r q, (r == q || !(imageBase image r ≤ imageLimit image q && imageBase image q ≤ imageLimit image r))
      = true ↔ (r ≠ q → (imageLimit image q).toNat < (imageBase image r).toNat
        ∨ (imageLimit image r).toNat < (imageBase image q).toNat) := by
    intro r q
    simp only [Bool.or_eq_true, beq_iff_eq, Bool.not_eq_true', Bool.and_eq_false_iff, decide_eq_false_iff_not,
      BitVec.le_def, Nat.not_le]
    exact or_iff_not_imp_left
  simp only [overlapPasses, List.all_eq_true, mem_usedRegions, apart]
  exact ⟨fun h r q hr hq => h r hr q hq, fun h r hr q hq => h r q hr hq⟩

theorem bridgePasses_iff (base : Nat) : bridgePasses image base = true ↔
    ∀ r, usesRegion image r → (imageLimit image r).toNat < base := by
  simp only [bridgePasses, List.all_eq_true, mem_usedRegions, decide_eq_true_eq]

theorem monitorPasses_iff : monitorPasses image = true ↔
    (imageParams image).cutLevel < (imageParams image).warnLevel
      ∧ (imageParams image).cutLevel < (imageParams image).releaseLevel := by
  simp only [monitorPasses, Bool.and_eq_true, decide_eq_true_eq]

/-- A check that passes leaves the verdict to the checks after it. -/
theorem verdict_of_passes {b : Bool} {P : Prop} (h : b = true ↔ P) (hp : P) {x y : Option Reason} :
    (if !b then x else y) = y := if_neg (by rw [h.mpr hp]; decide)

/-- A check that fails gives the verdict. -/
theorem verdict_of_fails {b : Bool} {P : Prop} (h : b = true ↔ P) (hp : ¬ P) {x y : Option Reason} :
    (if !b then x else y) = x := if_pos (by rw [Bool.eq_false_iff.mpr (mt h.mp hp)]; rfl)

end

end Sys2Proof.Machine

namespace Sys2Proof.Proofs

open Sys2Proof Sys2Proof.Machine

/-- Settles O44: each check is read off its fields, the verdict check by check, and the items one by one. -/
theorem firstFailedCheckGivesTheReason : Obligations.FirstFailedCheckGivesTheReason := by
  intro image base w used lo hi kind mark sum order overlap bridge warnLevel cutLevel releaseLevel cutCount margin
    interval cls range monitor c
  have hmark : markPasses image = true ↔ mark := markPasses_iff image
  have hsum : sumPasses image = true ↔ sum := sumPasses_iff image
  have hrange : rangePasses image = true ↔ range := by
    rw [rangePasses_iff]
    simp only [imageParams_eq, imageDivider_eq, imageStall_eq, imageClass_succ, imageDefaultKind_eq, imageKind_eq]
    rfl
  have horder : orderPasses image = true ↔ order := by
    rw [orderPasses_iff]
    simp only [imageBase_toNat, imageLimit_toNat]
    rfl
  have hoverlap : overlapPasses image = true ↔ overlap := by
    rw [overlapPasses_iff]
    simp only [imageBase_toNat, imageLimit_toNat]
    rfl
  have hbridge : bridgePasses image base = true ↔ bridge := by
    rw [bridgePasses_iff]
    simp only [imageLimit_toNat]
    rfl
  have hmonitor : monitorPasses image = true ↔ monitor := by
    rw [monitorPasses_iff, imageParams_eq]
    rfl
  have region : ∀ r : Fin 8, used r ↔ imageUsed image r = true := fun r => and_iff_right r.isLt
  have kinds : ∀ code, RegionKind.ofCode code = kind code := RegionKind.ofCode_eq
  refine ⟨fun h => verdict_of_fails hmark h, fun m h => (verdict_of_passes hmark m).trans (verdict_of_fails hsum h),
    fun m s h => (verdict_of_passes hmark m).trans <| (verdict_of_passes hsum s).trans <| verdict_of_fails hrange h,
    fun m s g => ?_, imageDivider_eq image, imageStall_eq image,
    fun st => (settingsOf_idleTimeouts image st).trans (imageTimeout_eq image st), fun r => ⟨fun h => ?_, fun h => ?_⟩,
    ?_, imageParams_eq image, fun b => (settingsOf_budgets image b).trans (imageBudget_eq image b), fun k h => ?_⟩
  · rw [judge, verdict_of_passes hmark m, verdict_of_passes hsum s, verdict_of_passes hrange g]
    refine ⟨fun h => verdict_of_fails horder h, fun o h => ?_, fun o v h => ?_, fun o v b h => ?_, fun o v b h => ?_⟩
    · rw [verdict_of_passes horder o, verdict_of_fails hoverlap h]
    · rw [verdict_of_passes horder o, verdict_of_passes hoverlap v, verdict_of_fails hbridge h]
    · rw [verdict_of_passes horder o, verdict_of_passes hoverlap v, verdict_of_passes hbridge b,
        verdict_of_fails hmonitor h]
    · rw [verdict_of_passes horder o, verdict_of_passes hoverlap v, verdict_of_passes hbridge b,
        verdict_of_passes hmonitor h]
  · have baseField : imageBase image r = BitVec.ofNat 25 (lo r) := BitVec.eq_of_toNat_eq (by
      rw [imageBase_toNat, BitVec.toNat_ofNat, Nat.mod_mod]
      rfl)
    have limitField : imageLimit image r = BitVec.ofNat 25 (hi r) := BitVec.eq_of_toNat_eq (by
      rw [imageLimit_toNat, BitVec.toNat_ofNat, Nat.mod_mod]
      rfl)
    rw [settingsOf_regions, imageRegion_used image ((region r).mp h), baseField, limitField, kinds, imageKind_eq]
    rfl
  · rw [settingsOf_regions, imageRegion_unused image (mt (region r).mpr h)]
    rfl
  · exact (kinds _).trans (congrArg kind (imageDefaultKind_eq image))
  · rw [settingsOf_classes, imageClassOf, imageClass_succ]
    exact Nat.mod_eq_of_lt (Nat.lt_succ_of_le h)

end Sys2Proof.Proofs
end

section
/-! PROOFS. The block's own clock, and the cause of a reset. -/

namespace Sys2Proof.Machine

/-! ## A CLK period (R149, assumption 1) -/

theorem step_empty {s : State} (h : s.pending = []) : step s = .next s.idle := by simp only [step, h]

theorem State.idle_due {s : State} (h : s.due = true) : s.idle = s.settle := by rw [State.idle, if_pos h]

theorem State.idle_running {s : State} (h : s.due = false) : s.idle = s.tickClk.settle := by
  rw [State.idle, h, if_neg Bool.false_ne_true]

/-- Within a unit of the time base only the phase moves, and a sample on an older base (R119). -/
theorem State.tickClk_within {s : State} (h : s.clk.phase + 1 < s.cfg.divider) :
    s.tickClk = { s with
      clk := { s.clk with phase := s.clk.phase + 1 }, mon := { s.mon with sampler := s.mon.sampler.period } } := if_pos h

theorem State.tickClk_endsUnit {s : State} (h : s.cfg.divider ≤ s.clk.phase + 1) :
    s.tickClk = ({ s with mon := { s.mon with sampler := s.mon.sampler.period } } : State).tickMicro :=
  if_neg h.not_gt

theorem State.tickMicro_streams (s : State) (st : StreamId) : s.tickMicro.streams[st] = s.streams[st].tick := by
  fin_cases st <;> rfl

theorem State.tickMicro_clk (s : State) : s.tickMicro.clk = s.clk.tickMicro := rfl

theorem TimeBase.tickMicro_phase (t : TimeBase) : t.tickMicro.phase = 0 := by
  unfold TimeBase.tickMicro
  split <;> rfl

theorem TimeBase.tickMicro_within {t : TimeBase} (h : t.micros + 1 < 1000) :
    t.tickMicro = { t with phase := 0, micros := t.micros + 1 } := if_pos h

theorem TimeBase.tickMicro_endsMilli {t : TimeBase} (h : 1000 ≤ t.micros + 1) :
    t.tickMicro = { phase := 0, micros := 0, millis := t.millis + 1 } := if_neg h.not_gt

/-- A sample on an older base counts the periods of that base, and not the units of the new one (R119). -/
theorem Sampler.period_timedOn_advance (n d p : Nat) :
    (Sampler.timedOn n d p).period.advance = (Sampler.timedOn n d p).period := by
  simp only [Sampler.period]
  split <;> rfl

/-! ## The cause of a reset (R139) -/

theorem joinCause_powerOn (sofar : Option ResetCause) : joinCause sofar .powerOn = .powerOn := by
  cases sofar with
  | none => rfl
  | some p => cases p <;> rfl

/-- LINE gives way to POWER_ON alone. -/
theorem joinCause_line (sofar : Option ResetCause) :
    joinCause sofar .line = if sofar = some .powerOn then .powerOn else .line := by
  cases sofar with
  | none => rfl
  | some p => cases p <;> rfl

/-- CUT gives way to every cause. -/
theorem joinCause_cut (sofar : Option ResetCause) : joinCause sofar .cut = sofar.getD .cut := by
  cases sofar with
  | none => rfl
  | some p => cases p <;> rfl

/-- The cause formed so far is fixed at the exit. -/
theorem State.exitReset_resetCause {s : State} (h : s.su.opState = .reset ∧ s.su.powerOn = false ∧ s.su.line = false)
    (pins : Straps) : (s.exitReset pins).su.resetCause = s.su.pendingCause := by
  rw [State.exitReset, if_pos h, State.askSummary_su]

end Sys2Proof.Machine

namespace Sys2Proof.Proofs

open Sys2Proof Sys2Proof.Machine

/-- Settles O2: a timer at its end, a period within a unit, and the period that ends one, whose state is a microsecond
after the converter's period. -/
theorem emptyQueueIsOneClkPeriod : Obligations.EmptyQueueIsOneClkPeriod := by
  intro s hp older
  rw [step_empty hp]
  refine ⟨fun hd => ?_, fun hd hw => ?_, fun hd he => ⟨s.tickClk, ?_⟩⟩
  · rw [State.idle_due hd]
  · rw [State.idle_running hd, State.tickClk_within hw]
    rfl
  · rw [State.idle_running hd, State.tickClk_endsUnit he]
    have moved : s.mon.sampler.period.advance =
        match s.mon.sampler with
        | .converting n => .converting (n - 1)
        | .resting n => .resting (n - 1)
        | .timedOn _ _ _ => s.mon.sampler.period := by
      cases s.mon.sampler with
      | converting n => rfl
      | resting n => rfl
      | timedOn n d p => exact Sampler.period_timedOn_advance n d p
    refine ⟨rfl, State.tickMicro_streams _, rfl, ?_, rfl, rfl, s.clk.tickMicro_phase, fun hm => ?_, fun hm => ?_,
      rfl, rfl, rfl, rfl, rfl, rfl, rfl, rfl⟩
    · exact congrArg (fun x : Sampler => { s.mon with sampler := x }) moved
    · rw [State.tickMicro_clk, TimeBase.tickMicro_within hm]
      exact ⟨rfl, rfl⟩
    · rw [State.tickMicro_clk, TimeBase.tickMicro_endsMilli hm]
      exact ⟨rfl, rfl⟩

/-- Settles O6, by the kind of the reset; the cause of each is the join of R139. -/
theorem resetCauseIsTheStrongest : Obligations.ResetCauseIsTheStrongest := by
  intro s
  refine ⟨fun b => ⟨_, exec_powerOn s b, ?_, rfl, rfl, rfl, rfl, rfl⟩,
    ⟨_, exec_resetLineAssert s, rfl, rfl, rfl, rfl, ?_⟩, fun pins => ⟨?_, fun h => State.exitReset_resetCause h pins⟩⟩
  · exact congrArg some (joinCause_powerOn s.su.pendingCause)
  · exact (congrArg some (joinCause_line s.su.pendingCause)).trans (apply_ite some ..)
  · refine (congrArg some (joinCause_cut s.su.pendingCause)).trans ?_
    cases s.su.pendingCause with
    | none => rfl
    | some p => rfl

end Sys2Proof.Proofs
end

section
/-! PROOFS. Every step keeps the law of the event queue. Each command keeps it together with the law of the phases,
since outside a serving state the one leans on the other. -/

namespace Sys2Proof.Machine

namespace State.Lawful

section
variable {s : State} (h : s.Lawful)
include h

theorem withPending (rest : List Instr) : ({ s with pending := rest } : State).Lawful := ⟨h.1.withPending rest, h.2⟩

/-! ## Expiries (R16, R100, R105, R167) -/

theorem idleExpiry (st : StreamId) : (if s.idleCounted st then (s.idleExpired st).afterFree else s).Lawful := by
  refine ⟨h.1.idleExpiry st, ?_⟩
  split
  · exact ((((State.GroupSide.dropOpenRow s st).trans (.toNotify ..)).keeps.trans (.raise ..)).trans
      (.afterFree _)).events h.2
  · exact h.2

theorem takeStall (st : StreamId) : (s.takeStall st).Lawful := by
  refine ⟨h.1.takeStall st, ?_⟩
  unfold State.takeStall State.stallExpired
  split
  · refine (State.Keeps.trans (State.Keeps.trans ?_ (State.GroupSide.refuse ..).keeps)
      ((State.Keeps.raise ..).trans (.afterFree _))).events h.2
    exact .of_fields rfl rfl rfl rfl rfl rfl rfl rfl (List.prefix_refl _)
  · exact h.2

theorem timeOut : s.timeOut.Lawful := by
  unfold State.timeOut
  split
  · next f hf =>
    split
    · exact h
    · exact h.freePort.accessFailed f (h.1.port.port f hf) rfl (h.1.noSolo_of_port hf)
  · exact h

theorem retryWait : (if s.ev.retryWait.isSome then { s with ev := s.ev.retryWord } else s).Lawful := by
  split
  · next hw => exact ⟨h.1.retryWord hw, h.2.congr rfl rfl rfl rfl rfl rfl⟩
  · exact h

/-! ## Samples, resets and the ACK (R123, R137, R162) -/

theorem takeSample (l : Level) (pins : Straps) : (s.takeSample l pins).Lawful := by
  unfold State.takeSample
  split
  · exact h.sampleDone l pins
  · exact h

theorem endPowerOn (pins : Straps) : (s.endPowerOn pins).Lawful := by
  unfold State.endPowerOn
  split
  · next hd =>
    have inReset := h.resetting (h.1.reset.conditions.mpr (.inl (h.1.reset.delay hd)))
    exact (inReset.withConditions Bool.noConfusion).exitReset pins
  · exact h

/-- Outside RESET the line is not asserted, and its release leads nowhere. -/
theorem releaseLine (pins : Straps) :
    (({ s with su := { s.su with line := false } } : State).exitReset pins).Lawful := by
  by_cases ho : s.su.opState = .reset
  · exact ((h.resetting ho).withConditions h.1.reset.delay).exitReset pins
  · have stays : ({ s with su := { s.su with line := false } } : State).exitReset pins
        = { s with su := { s.su with line := false } } := if_neg fun hc => ho hc.1
    refine ⟨h.1.releaseLine pins, ?_⟩
    rw [stays]
    exact h.2

theorem acknowledge : (if s.su.opState = .reset then s else { s with ev := s.ev.acknowledge }).Lawful := by
  split
  · exact h
  · exact ⟨h.1.acknowledge, h.2.acknowledge⟩

/-! ## Done answers (R104) -/

section
variable {f : InFlight} (hf : s.bus.port = some f)
include hf

/-- An outcome that F, JW or AP takes. -/
theorem engineDone (hc : f.purpose.cls.isSome = true) {act : State → State} (ha : ∀ u : State, u.Keeps (act u)) :
    (s.freePort.ifRunning act).Lawful :=
  h.freePort.ifRunning (h.serving_of_port hf (.inl hc)) ha

theorem takeForwarded (hc : f.purpose.cls.isSome = true) (d : Word) : (s.freePort.takeForwarded d f).Lawful := by
  refine ⟨h.1.takeForwarded hf hc d, ?_⟩
  unfold State.takeForwarded State.forwardedDone
  split
  · split
    · exact (State.GroupSide.respond ..).keeps.events h.2
    · exact h.2
  · exact h.2

/-- A status word is written in a serving state only. -/
theorem statusDone (hp : f.purpose = .status) : ({ s.freePort with ev := s.ev.wordDone } : State).Lawful :=
  ⟨h.1.statusDone hf hp _, h.2.wordDone⟩

end

end

end State.Lawful

/-- Every command keeps the law of the phases and that of the event queue. -/
theorem exec_keepsLawful (c : Instr) {s : State} (h : s.Lawful) : ∃ t, exec c s = .next t ∧ t.Lawful := by
  have close : ∀ {u : State}, u.Lawful → ∀ tog, ∃ t, Host.Outcome.next (u.settle tog) =
      (Host.Outcome.next t : Host.Outcome State Fault Refusal) ∧ t.Lawful := fun hu tog => ⟨_, rfl, hu.settle tog⟩
  have engine : ∀ {p : Purpose} {act : State → State}, p.cls.isSome = true → (∀ u : State, u.Keeps (act u)) →
      ∀ n, (s.answered n (· == p) fun _ u => u.ifRunning act).Lawful := fun hc ha n =>
    h.answered n _ _ fun f hf hp => h.engineDone hf (by rw [eq_of_beq hp]; exact hc) ha
  have pass : ∀ {p : Purpose} {act : State → State}, (p = .scan ∨ p = .replayRead ∨ p = .replayWrite
      ∨ p = .recoveryRetire) → (∀ {u : State}, u.Lawful → u.su.opState = .recover → u.bus.port = none →
        u.bus.solo = none → (act u).Lawful) → ∀ n, (s.answered n (· == p) fun _ u => act u).Lawful := fun hc ha n =>
    h.answered n _ _ fun f hf hp =>
      ha h.freePort (h.recover_of_port hf (by rw [eq_of_beq hp]; exact hc)) rfl (h.1.noSolo_of_port hf)
  cases c with
  | groupWrite => exact close (h.request _ _ fun u => (State.Keeps.groupWrite u ..).trans (.afterFree _)) _
  | closeWrite => exact close (h.request _ _ fun u => (State.Keeps.closeWrite u ..).trans (.afterFree _)) _
  | abortWrite => exact close (h.request _ _ fun u => (State.Keeps.abortWrite u _).trans (.afterFree _)) _
  | plainWrite => exact close (h.request _ _ fun u => .plainWrite u ..) _
  | plainRead => exact close (h.request _ _ fun u => .plainRead u ..) _
  | idleTimerExpiry st => exact close (h.idleExpiry st) _
  | stallTimerExpiry st => exact close (h.takeStall st) _
  | memoryTimeout => exact close h.timeOut _
  | quietPeriodEnd => exact close (h.withBus { s.bus with quiet := none } rfl rfl rfl) _
  | idleSampleInterval => exact close (h.withSampler _) _
  | sampleComplete l pins => exact close (h.takeSample l pins) _
  | statusRetryWait => exact close h.retryWait _
  | powerOn rising =>
    have reset := State.takeReset_resetting h.1.reset.delay .powerOn
    exact close ((reset.withConditions fun _ => rfl).lawful (.inl rfl)) _
  | powerOnDelayEnd pins => exact close (h.endPowerOn pins) _
  | resetLineAssert =>
    have reset := State.takeReset_resetting h.1.reset.delay .line
    exact close ((reset.withConditions reset.delay).lawful (.inr rfl)) _
  | resetLineRelease pins => exact close (h.releaseLine pins) _
  | ack => exact close h.acknowledge _
  | journalWriteComplete n => exact close (engine rfl .journalDone n) _
  | sealComplete n => exact close (engine rfl .sealDone n) _
  | applyWriteComplete n => exact close (engine rfl .applyDone n) _
  | retireWriteComplete n => exact close (engine rfl .retireDone n) _
  | statusWordComplete n => exact close (h.answered n _ _ fun f hf hp => h.statusDone hf (eq_of_beq hp)) _
  | loaderReadComplete n d =>
    exact close (h.answered n _ _ fun f hf hp =>
      h.freePort.loaderDone (h.load_of_port hf (eq_of_beq hp)) rfl (h.1.noSolo_of_port hf) d) _
  | scanReadComplete n d => exact close (pass (.inl rfl) (fun hl ho port solo => hl.scanDone ho port solo d) n) _
  | replayReadComplete n d =>
    exact close (pass (.inr (.inl rfl)) (fun hl ho port _ => hl.replayReadDone ho port d) n) _
  | replayWriteComplete n =>
    exact close (pass (.inr (.inr (.inl rfl))) (fun hl ho port _ => hl.replayWriteDone ho port) n) _
  | recoveryRetireComplete n => exact close (pass (.inr (.inr (.inr rfl))) (fun hl => hl.recoveryRetireDone) n) _
  | forwardedAccessComplete n d =>
    refine close (h.answered n _ _ fun f hf hp => h.takeForwarded hf ?_ d) false
    cases hpp : f.purpose with
    | forwarded st => rfl
    | _ => rw [hpp] at hp; cases hp
  | memoryErrorAnswer n =>
    exact close (h.answered n _ _ fun f hf _ =>
      h.freePort.accessFailed f (h.1.port.port f hf) rfl (h.1.noSolo_of_port hf)) _
  | staleAnswer => exact close h _

end Sys2Proof.Machine

namespace Sys2Proof.Proofs

open Sys2Proof Sys2Proof.Machine

/-- Settles O60: the command at the front of the queue keeps the law, and so does a step on an empty queue. -/
theorem everyStepKeepsTheEventQueueLaw : Obligations.EveryStepKeepsTheEventQueueLaw := by
  intro s t hphase hqueue hstep
  have law : s.Lawful := ⟨hphase, hqueue⟩
  unfold step at hstep
  split at hstep
  · next c rest _ =>
    obtain ⟨u, hu, kept⟩ := exec_keepsLawful c (law.withPending rest)
    obtain rfl := Host.Outcome.next.inj (hu.symm.trans hstep)
    exact kept.2
  · obtain rfl := Host.Outcome.next.inj hstep
    exact law.idle.2

end Sys2Proof.Proofs
end

section
/-! PROOFS. The events: the record formed against the queue, the presentation of its head, the ACK, and the words of
the status writer. -/

namespace Sys2Proof.Machine

/-! ## The waiting records (R155, R156) -/

theorem Record.mergesWith_iff {r w : Record} :
    r.mergesWith w = true ↔ w.kind = r.kind ∧ w.fields.stream = r.fields.stream := by
  rw [Record.mergesWith, Bool.and_eq_true, beq_iff_eq, beq_iff_eq, eq_comm (a := r.kind),
    eq_comm (a := r.fields.stream)]

section
variable {r : Record}

/-- The first record that takes the new one in is raised, and no other (R156). -/
theorem mergeInto_append {a b : List Record} {w : Record} (hw : r.mergesWith w = true)
    (ha : ∀ x ∈ a, ¬ r.mergesWith x = true) :
    mergeInto r (a ++ w :: b) = some (a ++ { w with repeats := min 255 (w.repeats + 1) } :: b) := by
  induction a with
  | nil => exact if_pos hw
  | cons x a ih =>
    have rest := ih fun y hy => ha y (List.mem_cons_of_mem _ hy)
    rw [List.cons_append, mergeInto, if_neg (ha x (List.mem_cons_self ..)), rest]
    rfl

theorem mergeInto_none {l : List Record} (h : ∀ x ∈ l, ¬ r.mergesWith x = true) : mergeInto r l = none := by
  induction l with
  | nil => rfl
  | cons x l ih =>
    rw [mergeInto, if_neg (h x (List.mem_cons_self ..)), ih fun y hy => h y (List.mem_cons_of_mem _ hy)]
    rfl

/-- A record enters behind those of its class and of higher ones (R155). -/
theorem insertRecord_append {a b : List Record} (ha : ∀ x ∈ a, r.cls ≤ x.cls) (hb : ∀ x ∈ b, x.cls < r.cls) :
    insertRecord r (a ++ b) = a ++ r :: b := by
  induction a with
  | nil =>
    cases b with
    | nil => rfl
    | cons w b => exact if_pos (hb w (List.mem_cons_self ..))
  | cons x a ih =>
    have rest := ih fun y hy => ha y (List.mem_cons_of_mem _ hy)
    rw [List.cons_append, insertRecord, if_neg (not_lt.mpr (ha x (List.mem_cons_self ..))), rest]
    rfl

end

/-! ## A record taken, case by case (R153 to R157, R159) -/

theorem EventUnit.startPresentation_stays {e : EventUnit} {may : Bool} (h : may = false ∨ e.pres ≠ .none) :
    e.startPresentation may = e := by
  rcases h with h | h <;> simp [EventUnit.startPresentation, h]

section
variable {e : EventUnit} {may : Bool} {r : Record}

theorem EventUnit.take_silent (h : r.cls = 0) : e.take may r = e.count r.kind := if_pos h

variable (hc : r.cls ≠ 0)
include hc

theorem EventUnit.take_merges {ws : List Record} (hm : mergeInto r e.waiting = some ws) :
    e.take may r = { e.count r.kind with waiting := ws } := by
  have counted : mergeInto r (e.count r.kind).waiting = some ws := hm
  simp only [EventUnit.take, if_neg hc, counted]

variable (hm : mergeInto r e.waiting = none)
include hm

theorem EventUnit.take_enters (hq : e.queued < 16) :
    e.take may r = ({ e.count r.kind with waiting := insertRecord r e.waiting } : EventUnit).startPresentation may := by
  have counted : mergeInto r (e.count r.kind).waiting = none := hm
  have room : (e.count r.kind).queued < maxRecords := hq
  simp only [EventUnit.take, if_neg hc, counted, if_pos room]
  rfl

variable (hq : 16 ≤ e.queued) {a : List Record} {l : Record} (hl : e.waiting = a ++ [l])
include hq hl

/-- Against a full queue the record meets the last of the waiting ones (R157, assumption 26). -/
theorem EventUnit.take_full : e.take may r = { e.count r.kind with
    waiting := if l.cls < r.cls then insertRecord r a else e.waiting, lost := e.lost + 1 } := by
  have counted : mergeInto r (e.count r.kind).waiting = none := hm
  have full : ¬ (e.count r.kind).queued < maxRecords := not_lt.mpr hq
  have last : (e.count r.kind).waiting.getLast? = some l := by
    show e.waiting.getLast? = some l
    rw [hl, List.getLast?_concat]
  have others : (e.count r.kind).waiting.dropLast = a := by
    show e.waiting.dropLast = a
    rw [hl, List.dropLast_concat]
  simp only [EventUnit.take, if_neg hc, counted, if_neg full, EventUnit.displaceOrDrop, last, others]
  split <;> rfl

end

/-! ## The job that begins (R165) -/

section
variable {e : EventUnit}

theorem EventUnit.beginJob_busy (h : e.job.isSome = true) : e.beginJob = e := by
  obtain ⟨j, hj⟩ := Option.isSome_iff_exists.mp h
  simp only [EventUnit.beginJob, hj]

variable (hj : e.job = none)
include hj

theorem EventUnit.beginJob_update {r : Record} (hg : e.given = some .update) (hp : e.presented = some r) :
    e.beginJob = { e with
      given := none, job := some { kind := .update, words := presentationWords r e.presNumber, index := 0 }
      sReq := some 1, sCount := 0 } := by
  simp only [EventUnit.beginJob, hj, hg, hp, EventUnit.startJob]

theorem EventUnit.beginJob_clear (hg : e.given = some .clear) : e.beginJob = { e with
    given := none, job := some { kind := .clear, words := clearWords e.presNumber, index := 0 }
    sReq := some 1, sCount := 0 } := by
  simp only [EventUnit.beginJob, hj, hg, EventUnit.startJob]

theorem EventUnit.beginJob_summary (hg : e.given = none) (hs : e.summaryPending = true) : e.beginJob = { e with
    summaryPending := false, job := some { kind := .summary, words := [], index := 0 }
    sReq := some 1, sCount := 0 } := by
  simp only [EventUnit.beginJob, hj, hg, hs, EventUnit.startJob, if_true]

theorem EventUnit.beginJob_idle (hg : e.given = none) (hs : e.summaryPending = false) : e.beginJob = e := by
  simp only [EventUnit.beginJob, hj, hg, hs, Bool.false_eq_true, if_false]

end

/-! ## The ACK (R162 to R164) -/

theorem exec_ack (s : State) : exec .ack s = .next
    (if s.su.opState = .reset then s else { s with ev := s.ev.acknowledge }).settle := rfl

section
variable {e : EventUnit}

theorem EventUnit.acknowledge_stray (h : e.pres ≠ .shown) : e.acknowledge = { e with stray := e.stray + 1 } := by
  unfold EventUnit.acknowledge
  split
  · next hs => exact absurd hs h
  all_goals rfl

variable (hs : e.pres = .shown)
include hs

theorem EventUnit.acknowledge_clears (hw : e.waiting = []) : e.acknowledge =
    ({ e with presented := none, pres := .clearing, given := some .clear } : EventUnit).beginJob := by
  simp only [EventUnit.acknowledge, hs, EventUnit.endPresentation, hw, List.isEmpty_nil, if_true,
    EventUnit.enterClearing]

/-- With a record waiting, the presentation that follows is the one from NONE (R164). -/
theorem EventUnit.acknowledge_presentsHead {r : Record} {rest : List Record} (hw : e.waiting = r :: rest) :
    ({ e with pres := .none } : EventUnit).presentsHead e.acknowledge := by
  have next : e.acknowledge = ({ e with pres := .none } : EventUnit).startPresentation true := by
    simp [EventUnit.acknowledge, hs, EventUnit.endPresentation, hw, EventUnit.enterUpdating,
      EventUnit.startPresentation]
  rw [next]
  exact EventUnit.startPresentation_presentsHead _

end

/-- The presentation that begins: UPDATING for the head, under the next number (R160). -/
theorem EventUnit.presentsHead.parts {e f : EventUnit} (h : e.presentsHead f) (hp : e.pres = .none) {r : Record}
    {rest : List Record} (hw : e.waiting = r :: rest) : f.pres = .updating ∧ f.presented = some r ∧ f.waiting = rest
      ∧ f.presNumber = if e.presNumber + 1 = 0 then 1 else e.presNumber + 1 := by
  obtain ⟨busy, free⟩ := h.2 r rest hp hw
  cases hj : e.job with
  | some j => rw [busy (by rw [hj]; rfl)]; exact ⟨rfl, rfl, rfl, rfl⟩
  | none => rw [free hj]; exact ⟨rfl, rfl, rfl, rfl⟩

/-! ## A status word completed (R160, R164, R165, R167) -/

theorem exec_statusWordComplete {s : State} {n : AccessNumber} {f : InFlight} (h : s.carries n f)
    (hp : f.purpose = .status) :
    exec (.statusWordComplete n) s = .next ({ s.freePort with ev := s.ev.wordDone } : State).settle := by
  have matched := State.answered_match h (· == .status) (by rw [hp]; rfl)
    fun _ s => ({ s with ev := s.ev.wordDone } : State)
  show Host.Outcome.next (s.answered n (· == .status) fun _ s => { s with ev := s.ev.wordDone }).settle = _
  rw [matched]
  rfl

section
variable {e : EventUnit} {j : Job} (hj : e.job = some j)
include hj

theorem EventUnit.wordDone_next (h : j.index + 1 < j.words.length) : e.wordDone = { e with
    statusFailure := false, job := some { j with index := j.index + 1 }, sReq := some 1, sCount := 0 } := by
  simp only [EventUnit.wordDone, hj, if_pos h]

variable (h : j.words.length ≤ j.index + 1)
include h

theorem EventUnit.wordDone_last :
    e.wordDone = ({ e with statusFailure := false } : EventUnit).endJob j.kind := by
  simp only [EventUnit.wordDone, hj, if_neg (not_lt.mpr h)]

theorem EventUnit.wordDone_update (hk : j.kind = .update) : e.wordDone = ({ e with
    statusFailure := false, job := none, pres := .shown, summaryPending := true } : EventUnit).beginJob := by
  rw [EventUnit.wordDone_last hj h, hk]
  rfl

theorem EventUnit.wordDone_summary (hk : j.kind = .summary) :
    e.wordDone = ({ e with statusFailure := false, job := none } : EventUnit).beginJob := by
  rw [EventUnit.wordDone_last hj h, hk]
  rfl

variable (hk : j.kind = .clear)
include hk

theorem EventUnit.wordDone_clear (hw : e.waiting = []) : e.wordDone = ({ e with
    statusFailure := false, job := none, pres := .none, summaryPending := true } : EventUnit).beginJob := by
  rw [EventUnit.wordDone_last hj h, hk]
  simp only [EventUnit.endJob, EventUnit.clearDone, hw, List.isEmpty_nil, if_true]

theorem EventUnit.wordDone_clear_waiting {r : Record} {rest : List Record} (hw : e.waiting = r :: rest) :
    e.wordDone = ({ e with
      statusFailure := false, job := none, pres := .updating, summaryPending := true, waiting := rest
      presented := some r, presNumber := nextPresNumber e.presNumber, given := some .update } : EventUnit).beginJob := by
  rw [EventUnit.wordDone_last hj h, hk]
  simp only [EventUnit.endJob, EventUnit.clearDone, hw, List.isEmpty_cons, Bool.false_eq_true, if_false,
    EventUnit.enterUpdating]

end

end Sys2Proof.Machine

namespace Sys2Proof.Proofs

open Sys2Proof Sys2Proof.Machine

/-- Settles O53: the record formed merges, or meets a full queue, or enters. -/
theorem eventsAreCountedAndQueued : Obligations.EventsAreCountedAndQueued := by
  refine ⟨fun s k f => ⟨fun i => State.raise_counters s i k f, fun hc => ?_⟩, fun s k f hc => ?_⟩
  · rw [State.raise_ev, EventUnit.take_silent hc]
    rfl
  intro e new after
  have taken : after = e.take s.mayPresent new := rfl
  refine ⟨fun a b w hw hk hst first => ?_, fun apart => ?_⟩
  · have merged : mergeInto new e.waiting = some (a ++ { w with repeats := min 255 (w.repeats + 1) } :: b) := by
      rw [hw]
      exact mergeInto_append (Record.mergesWith_iff.mpr ⟨hk, hst⟩) fun x hx hm =>
        first x hx (Record.mergesWith_iff.mp hm)
    rw [taken, EventUnit.take_merges hc merged]
    rfl
  · have unmerged : mergeInto new e.waiting = none :=
      mergeInto_none fun x hx hm => apart x hx (Record.mergesWith_iff.mp hm)
    refine ⟨fun a l full hw lower => ?_, fun a b l full hw higher ha hb => ?_, fun a b room hw ha hb stays => ?_⟩
    · rw [taken, EventUnit.take_full hc unmerged full hw, if_neg (not_lt.mpr lower)]
      rfl
    · rw [taken, EventUnit.take_full hc unmerged full hw, if_pos higher, insertRecord_append ha hb]
      rfl
    · have entered : after = { e.count k with waiting := insertRecord new e.waiting } :=
        (taken.trans (EventUnit.take_enters hc unmerged room)).trans (EventUnit.startPresentation_stays stays)
      rw [entered, hw, insertRecord_append ha hb]
      rfl

/-- Settles O54: the record alone in the queue is the head that is presented. -/
theorem firstRecordIsPresented : Obligations.FirstRecordIsPresented := by
  intro s k f hc hw hp hn hmay new number after
  have room : s.ev.queued < 16 := by rw [EventUnit.queued, hw, hp]; decide
  have unmerged : mergeInto new s.ev.waiting = none := by rw [hw]; rfl
  let queued : EventUnit := { s.ev.count k with waiting := [new] }
  have entered : after = queued.startPresentation true := by
    show s.ev.take s.mayPresent new = _
    rw [EventUnit.take_enters hc unmerged room, hmay, hw]
    rfl
  have presents : queued.presentsHead after := entered ▸ queued.startPresentation_presentsHead
  obtain ⟨pres, presented, waiting, presNumber⟩ := presents.parts hn rfl
  obtain ⟨busy, free⟩ := presents.2 new [] hn rfl
  refine ⟨pres, presented, waiting, presNumber, fun hj => ?_, fun hj => ?_⟩
  · rw [busy hj]
    exact ⟨rfl, rfl⟩
  · rw [free hj]
    exact ⟨rfl, rfl, rfl, rfl⟩

/-- Settles O55, by the operating state, the presentation state and what waits. -/
theorem ackEndsThePresentation : Obligations.AckEndsThePresentation := by
  intro s
  have taken : s.su.opState ≠ .reset → exec .ack s = .next ({ s with ev := s.ev.acknowledge } : State).settle :=
    fun ho => by rw [exec_ack, if_neg ho]
  refine ⟨fun ho => by rw [exec_ack, if_pos ho], fun ho hs => ?_, fun ho hs hw => ⟨_, taken ho, ?_⟩,
    fun r rest ho hs hw => ⟨_, taken ho, ?_⟩⟩
  · rw [taken ho, EventUnit.acknowledge_stray hs]
  · have cleared := EventUnit.acknowledge_clears hs hw
    cases hj : s.ev.job with
    | some j =>
      have busy := cleared.trans (EventUnit.beginJob_busy (by rw [hj]; rfl))
      dsimp only
      rw [State.attn, busy]
      exact ⟨rfl, rfl, hw, rfl, rfl, rfl, fun _ => rfl, nofun⟩
    | none =>
      have begun := cleared.trans (EventUnit.beginJob_clear hj rfl)
      dsimp only
      rw [State.attn, begun]
      exact ⟨rfl, rfl, hw, rfl, rfl, rfl, nofun, fun _ => rfl⟩
  · have presents := EventUnit.acknowledge_presentsHead hs hw
    obtain ⟨pres, presented, waiting, presNumber⟩ := presents.parts rfl hw
    refine ⟨pres, presented, waiting, ?_, presNumber, rfl, presents⟩
    rw [State.attn, pres]
    rfl

/-- Settles O56, by the word and the kind of its job. -/
theorem statusWordCompletes : Obligations.StatusWordCompletes := by
  intro s n f j hcarries hp hj done begun number last
  have completes : ∀ e, s.ev.wordDone = e → exec (.statusWordComplete n) s = .next (done e).settle := by
    rintro e rfl
    exact exec_statusWordComplete hcarries hp
  refine ⟨fun h => completes _ (EventUnit.wordDone_next hj h), fun h hk hg => completes _ ?_,
    fun h hk hg hw => completes _ ?_, fun x rest h hk hw => completes _ ?_, fun x h hk hg hx => completes _ ?_,
    fun h hk hg => completes _ ?_, fun h hk hg hs => completes _ ?_, fun h hk hg hs => completes _ ?_⟩
  · rw [EventUnit.wordDone_update hj h hk]
    exact EventUnit.beginJob_summary rfl hg rfl
  · rw [EventUnit.wordDone_clear hj h hk hw]
    exact EventUnit.beginJob_summary rfl hg rfl
  · rw [EventUnit.wordDone_clear_waiting hj h hk hw]
    exact EventUnit.beginJob_update rfl rfl rfl
  · rw [EventUnit.wordDone_summary hj h hk]
    exact EventUnit.beginJob_update rfl hg hx
  · rw [EventUnit.wordDone_summary hj h hk]
    exact EventUnit.beginJob_clear rfl hg
  · rw [EventUnit.wordDone_summary hj h hk]
    exact EventUnit.beginJob_summary rfl hg hs
  · rw [EventUnit.wordDone_summary hj h hk]
    exact EventUnit.beginJob_idle rfl hg hs

end Sys2Proof.Proofs
end

section
/-! PROOFS. The words of the status block, field by field, and the lines ATTN and FLT. -/

namespace Sys2Proof.Machine

/-! ## Words made of fields side by side (10.1) -/

/-- A field of a word: `width` bits from bit `lo` up, and the value placed there. -/
structure Placed where
  lo : Nat
  width : Nat
  value : Nat

/-- The value fits into its bits, and these lie in the word. -/
def Placed.fits (p : Placed) : Prop := p.value < 2 ^ p.width ∧ p.lo + p.width ≤ 32

/-- The field has no part in bits lo+n−1 to lo. -/
def Placed.clearOf (p : Placed) (lo n : Nat) : Prop := p.lo + p.width ≤ lo ∨ lo + n ≤ p.lo

/-- The word that the fields make. -/
def overlay (ps : List Placed) : Word := ps.foldr (fun p w => field p.lo p.value ||| w) 0

theorem overlay_cons (p : Placed) (ps : List Placed) : overlay (p :: ps) = field p.lo p.value ||| overlay ps := rfl

theorem Placed.bits_clear {p : Placed} (h : p.fits) {lo n : Nat} (hc : p.clearOf lo n) :
    bits (field p.lo p.value) lo n = 0 := by
  obtain ⟨small, inside⟩ := h
  rcases hc with below | above
  · exact bits_field_below lo n p.lo p.width p.value small below
  · exact bits_field_above lo n p.lo p.value above (by omega)

/-- Bits that no field has a part in are 0. -/
theorem bits_overlay_gap {ps : List Placed} {lo n : Nat} (fits : ∀ p ∈ ps, p.fits) (h : ∀ p ∈ ps, p.clearOf lo n) :
    bits (overlay ps) lo n = 0 := by
  induction ps with
  | nil => simp [overlay, bits_eq]
  | cons p ps ih =>
    rw [overlay_cons, bits_or, p.bits_clear (fits p (List.mem_cons_self ..)) (h p (List.mem_cons_self ..)),
      ih (fun q hq => fits q (List.mem_cons_of_mem _ hq)) fun q hq => h q (List.mem_cons_of_mem _ hq), Nat.zero_or]

/-- Fields that lie apart each read as their value. -/
theorem bits_overlay_mem {ps : List Placed} (fits : ∀ p ∈ ps, p.fits)
    (apart : ps.Pairwise fun p q => p.clearOf q.lo q.width) {p : Placed} (hp : p ∈ ps) :
    bits (overlay ps) p.lo p.width = p.value := by
  induction ps with
  | nil => cases hp
  | cons q ps ih =>
    obtain ⟨first, others⟩ := List.pairwise_cons.mp apart
    have fitsRest : ∀ p ∈ ps, p.fits := fun p hp => fits p (List.mem_cons_of_mem _ hp)
    have fitsFirst : q.fits := fits q (List.mem_cons_self ..)
    rw [overlay_cons, bits_or]
    rcases List.mem_cons.mp hp with rfl | hp
    · rw [bits_field_same _ _ _ fitsFirst.1 fitsFirst.2,
        bits_overlay_gap fitsRest fun r hr => (first r hr).symm, Nat.or_zero]
    · rw [q.bits_clear fitsFirst (first p hp), ih fitsRest others hp, Nat.zero_or]

/-- The bits of a part of a field. -/
theorem bits_part (w : Word) (lo k m n : Nat) (h : k + n ≤ m) : bits w (lo + k) n = bits w lo m / 2 ^ k % 2 ^ n := by
  obtain ⟨d, rfl⟩ := Nat.exists_eq_add_of_le h
  have split : 2 ^ (k + n + d) = 2 ^ k * (2 ^ n * 2 ^ d) := by ring
  rw [bits_eq, bits_eq, split, Nat.mod_mul_right_div_self, Nat.mod_mul_right_mod, Nat.div_div_eq_div_mul, pow_add]

/-! ## The codes fit into their fields -/

theorem OpState.code_lt (o : OpState) : o.code < 16 := by cases o <;> decide

theorem ResetCause.codeOf_lt (c : Option ResetCause) : (c.map ResetCause.code).getD 0 < 4 := by
  cases c with
  | none => decide
  | some c => cases c <;> decide

theorem Validity.code_lt (v : Validity) : v.code < 4 := by cases v <;> decide

theorem MonState.code_lt (m : MonState) : m.code < 4 := by cases m <;> decide

theorem EngineState.code_le (e : EngineState) : e.code ≤ 1 := by cases e <;> decide

theorem GroupState.code_lt (g : GroupState) : g.code < 4 := by cases g <;> decide

theorem Cause.codeOf_lt (c : Option Cause) : (c.map Cause.code).getD 0 < 8 := by
  cases c with
  | none => decide
  | some c => cases c <;> decide

theorem levelOf_lt (l : Option Level) : (l.map BitVec.toNat).getD 255 < 256 := by
  cases l with
  | none => decide
  | some l => exact l.isLt.trans (by decide)

theorem EventKind.code_lt (k : EventKind) : k.code < 32 := by
  have := k.index.isLt
  unfold EventKind.code
  omega

theorem streamOf_lt (st : Option StreamId) : (st.map Fin.val).getD 0 < 4 := by
  cases st with
  | none => decide
  | some st => exact st.isLt

theorem flagBit_le (b : Bool) : flagBit b ≤ 1 := by cases b <;> decide

theorem flagBit_eq_one {b : Bool} : flagBit b = 1 ↔ b = true := by cases b <;> decide

/-! ## Summary words (R173) -/

section
variable (s : State)

/-- The fields of summary word 0: states, codes and the last level. -/
def State.statusFields : List Placed :=
  [⟨0, 4, s.su.opState.code⟩, ⟨4, 2, (s.su.resetCause.map ResetCause.code).getD 0⟩, ⟨8, 2, s.su.validity.code⟩,
    ⟨12, 2, s.mon.state.code⟩, ⟨16, 1, s.eng.state.code⟩, ⟨24, 8, (s.mon.level.map BitVec.toNat).getD 255⟩]

theorem State.summaryWord0_eq : s.summaryWord0 = overlay s.statusFields := by
  simp [State.summaryWord0, overlay, State.statusFields, BitVec.or_assoc]

theorem State.statusFields_fits : ∀ p ∈ s.statusFields, p.fits := by
  simp [State.statusFields, Placed.fits, OpState.code_lt, ResetCause.codeOf_lt, Validity.code_lt, MonState.code_lt,
    EngineState.code_le, levelOf_lt]

theorem State.statusFields_apart : s.statusFields.Pairwise fun p q => p.clearOf q.lo q.width := by
  simp [State.statusFields, Placed.clearOf]

theorem State.bits_summaryWord0 {p : Placed} (h : p ∈ s.statusFields) : bits s.summaryWord0 p.lo p.width = p.value := by
  rw [State.summaryWord0_eq]
  exact bits_overlay_mem s.statusFields_fits s.statusFields_apart h

theorem State.bits_summaryWord0_gap {lo n : Nat} (h : ∀ p ∈ s.statusFields, p.clearOf lo n) :
    bits s.summaryWord0 lo n = 0 := by
  rw [State.summaryWord0_eq]
  exact bits_overlay_gap s.statusFields_fits h

/-- The fields of summary word 2: a byte for each stream. -/
def State.groupFields : List Placed := allStreams.map fun st : StreamId => ⟨8 * st, 8, s.streams[st].summaryByte⟩

theorem State.summaryWord2_eq : s.summaryWord2 = overlay s.groupFields := by
  simp [State.summaryWord2, overlay, State.groupFields, allStreams, BitVec.or_assoc]

theorem StreamRec.summaryByte_lt (r : StreamRec) : r.summaryByte < 2 ^ 8 := by
  have group := r.group.code_lt
  have cause := Cause.codeOf_lt r.notify
  unfold StreamRec.summaryByte
  omega

theorem State.bits_summaryWord2 (st : StreamId) : bits s.summaryWord2 (8 * st) 8 = s.streams[st].summaryByte := by
  have fits : ∀ p ∈ s.groupFields, p.fits := by
    intro p hp
    obtain ⟨st, -, rfl⟩ := List.mem_map.mp hp
    exact ⟨StreamRec.summaryByte_lt _, by dsimp only; omega⟩
  have apart : s.groupFields.Pairwise fun p q => p.clearOf q.lo q.width := by
    simp [State.groupFields, allStreams, Placed.clearOf]
  have every : st ∈ allStreams := by revert st; decide
  rw [State.summaryWord2_eq]
  exact bits_overlay_mem fits apart (List.mem_map.mpr ⟨st, every, rfl⟩)

/-- The group state, the notify cause and the unused bits of a stream's byte. -/
theorem State.bits_summaryWord2_parts (st : StreamId) :
    bits s.summaryWord2 (8 * st) 2 = s.streams[st].group.code ∧ bits s.summaryWord2 (8 * st + 2) 2 = 0
      ∧ bits s.summaryWord2 (8 * st + 4) 3 = (s.streams[st].notify.map Cause.code).getD 0
      ∧ bits s.summaryWord2 (8 * st + 7) 1 = 0 := by
  have group := s.streams[st].group.code_lt
  have cause := Cause.codeOf_lt s.streams[st].notify
  have part : ∀ k n, k + n ≤ 8 → bits s.summaryWord2 (8 * st + k) n =
      (s.streams[st].group.code + 16 * (s.streams[st].notify.map Cause.code).getD 0) / 2 ^ k % 2 ^ n := fun k n h => by
    rw [bits_part _ _ k 8 n h, State.bits_summaryWord2]
    rfl
  refine ⟨(part 0 2 (by decide)).trans ?_, (part 2 2 (by decide)).trans ?_, (part 4 3 (by decide)).trans ?_,
    (part 7 1 (by decide)).trans ?_⟩ <;> omega

end

/-! ## The counters of the summary (R173) -/

section
variable {counters : Vector Nat 18} (h : ∀ j : Fin 18, counters[j] ≤ 65535)

theorem counters_getD (k : Fin 18) : counters.toList.getD k 0 = counters[k] := by
  rw [List.getD_eq_getElem _ _ (by simp)]
  simp

include h

theorem counters_getD_lt (i : Nat) : counters.toList.getD i 0 < 2 ^ 16 := by
  by_cases hi : i < 18
  · have bound := h ⟨i, hi⟩
    rw [counters_getD ⟨i, hi⟩]
    omega
  · rw [List.getD_eq_default _ _ (by simpa using hi)]
    decide

/-- Two counters stand in a word, the one of the lower code below. -/
theorem bits_counterWord (k : Fin 18) : bits (counterWord counters (k / 2)) (16 * (k % 2)) 16 = counters[k] := by
  let halves : List Placed := (List.range 2).map fun j => ⟨16 * j, 16, counters.toList.getD (2 * (k / 2) + j) 0⟩
  have word : counterWord counters (k / 2) = overlay halves := by
    simp [counterWord, overlay, halves, List.range_succ]
  have fits : ∀ p ∈ halves, p.fits := by
    intro p hp
    obtain ⟨j, hj, rfl⟩ := List.mem_map.mp hp
    have : j < 2 := List.mem_range.mp hj
    exact ⟨counters_getD_lt h _, by dsimp only; omega⟩
  have apart : halves.Pairwise fun p q => p.clearOf q.lo q.width := by
    simp [halves, List.range_succ, Placed.clearOf]
  have mine : (⟨16 * (k % 2), 16, counters[k]⟩ : Placed) ∈ halves := by
    refine List.mem_map.mpr ⟨k % 2, List.mem_range.mpr (Nat.mod_lt _ (by decide)), ?_⟩
    rw [Nat.div_add_mod, counters_getD]
  rw [word]
  exact bits_overlay_mem fits apart mine

end

section
variable (s : State)

theorem State.summaryWords_counter {i : Nat} (h : i < 9) :
    s.summaryWords[5 + i]? = some (counterWord s.ev.counters i) := by
  have front : 5 + i < ([s.summaryWord0, s.eng.nextSeq, s.summaryWord2, s.ev.lost, s.ev.stray]
      ++ (List.range 9).map (counterWord s.ev.counters)).length := by simp; omega
  rw [State.summaryWords, List.getElem?_append_left front, List.getElem?_append_right (by simp)]
  simp [h]

theorem State.summaryWords_unused {i : Nat} (h1 : 14 ≤ i) (h2 : i < 24) : s.summaryWords[i]? = some 0 := by
  rw [State.summaryWords, List.getElem?_append_right (by simpa using h1), List.getElem?_replicate_of_lt]
  simp
  omega

end

/-! ## The presentation area (R172) -/

section
variable (r : Record)

/-- The fields of presentation word 0: kind, class, stream, present flags and repeat count. -/
def Record.headFields : List Placed :=
  [⟨0, 5, r.kind.code⟩, ⟨8, 2, r.cls.val⟩, ⟨10, 2, (r.fields.stream.map Fin.val).getD 0⟩,
    ⟨16, 1, flagBit r.fields.stream.isSome⟩, ⟨17, 1, flagBit r.fields.addr.isSome⟩,
    ⟨18, 1, flagBit r.fields.seq.isSome⟩, ⟨19, 1, flagBit r.fields.slot.isSome⟩,
    ⟨20, 1, flagBit r.fields.detail.isSome⟩, ⟨24, 8, r.repeats⟩]

theorem presentationWords_eq (number : Word) : presentationWords r number =
    [overlay r.headFields, BitVec.ofNat 32 ((r.fields.addr.map BitVec.toNat).getD 0), r.fields.seq.getD 0,
      BitVec.ofNat 32 (r.fields.slot.getD 0), r.fields.detail.getD 0, r.stamp, 0, number] := by
  simp [presentationWords, overlay, Record.headFields, BitVec.or_assoc, field]

theorem Record.headFields_apart : r.headFields.Pairwise fun p q => p.clearOf q.lo q.width := by
  simp [Record.headFields, Placed.clearOf]

variable {r}

theorem Record.headFields_fits (h : r.repeats ≤ 255) : ∀ p ∈ r.headFields, p.fits := by
  simp [Record.headFields, Placed.fits, EventKind.code_lt, streamOf_lt, flagBit_le, r.cls.isLt, Nat.lt_succ_of_le h]

end

/-! ## The lines (R168, R169) -/

theorem State.attn_iff (s : State) : s.attn = true ↔ s.ev.pres = .shown := beq_iff_eq

theorem State.flt_iff (s : State) : s.flt = true ↔
    s.su.opState = .safe ∨ s.su.opState = .fault ∨ s.eng.state = .halted ∨ s.ev.statusFailure = true := by
  simp only [State.flt, Bool.or_eq_true, beq_iff_eq, or_assoc]

end Sys2Proof.Machine

namespace Sys2Proof.Proofs

open Sys2Proof Sys2Proof.Machine

/-- Settles O57, each word by its fields. -/
theorem statusWordsAndLines : Obligations.StatusWordsAndLines := by
  intro s
  have item : ∀ p ∈ s.statusFields, bits s.summaryWord0 p.lo p.width = p.value := fun p hp => s.bits_summaryWord0 hp
  simp only [State.statusFields, List.forall_mem_cons] at item
  obtain ⟨opState, cause, validity, monitor, engine, level, -⟩ := item
  have gap : ∀ lo n, (∀ p ∈ s.statusFields, p.clearOf lo n) → bits s.summaryWord0 lo n = 0 := fun _ _ h =>
    s.bits_summaryWord0_gap h
  refine ⟨by simp [State.summaryWords], rfl, opState, cause, validity, monitor, engine, level,
    gap 6 2 ?_, gap 10 2 ?_, gap 14 2 ?_, gap 17 7 ?_, rfl, ⟨_, rfl, s.bits_summaryWord2_parts⟩, rfl, rfl,
    fun k => ⟨_, s.summaryWords_counter (by omega), fun h => bits_counterWord h k⟩,
    fun i h1 h2 => s.summaryWords_unused h1 h2, fun r number hr => ?_, s.attn_iff, s.flt_iff⟩
  iterate 4 simp [State.statusFields, Placed.clearOf]
  have fits := r.headFields_fits hr
  have item : ∀ p ∈ r.headFields, bits (overlay r.headFields) p.lo p.width = p.value := fun _ hp =>
    bits_overlay_mem fits r.headFields_apart hp
  simp only [Record.headFields, List.forall_mem_cons] at item
  obtain ⟨kind, cls, stream, hasStream, hasAddr, hasSeq, hasSlot, hasDetail, repeats, -⟩ := item
  have flag : ∀ {w lo b}, bits w lo 1 = flagBit b → (bits w lo 1 = 1 ↔ b = true) := fun h => by
    rw [h, flagBit_eq_one]
  rw [presentationWords_eq]
  refine ⟨_, rfl, kind, cls, repeats, flag hasStream, flag hasAddr, flag hasSeq, flag hasSlot, flag hasDetail, stream,
    bits_overlay_gap fits ?_, bits_overlay_gap fits ?_, bits_overlay_gap fits ?_, rfl, rfl⟩
  iterate 3 simp [Record.headFields, Placed.clearOf]

end Sys2Proof.Proofs
end

section
/-! PROOFS. A step with a command waiting, beside `step_empty` for a step with none. -/

namespace Sys2Proof.Machine

/-- The front command acts on the state it has been taken out of: it does not see itself in the queue. -/
theorem step_cons {s : State} {c : Instr} {rest : List Instr} (h : s.pending = c :: rest) :
    step s = exec c { s with pending := rest } := by simp only [step, h]

end Sys2Proof.Machine

namespace Sys2Proof.Proofs

open Sys2Proof Sys2Proof.Machine

/-- Settles O1: a queue with a front command takes the first branch of `step`. -/
theorem stepRunsTheFrontCommand : Obligations.StepRunsTheFrontCommand := fun _ _ _ h => step_cons h

end Sys2Proof.Proofs
end
